-- ==== Sys2Proof/Word.lean ====
section
/-! DEFINITION. The words of the block (spec/00_scope.md R11): bytes and 32-bit unsigned numbers. -/

namespace Sys2Proof

/-- A byte on the link or in a buffer (R11 `u8`). -/
abbrev Byte := BitVec 8

/-- An argument, a sector number, a count, a duration (R11 `u32`); arithmetic is modulo 2^32. -/
abbrev U32 := BitVec 32

/-- A buffer offset as an operand of a primitive; offsets are natural numbers that fit in it
(20_memory.md R64: the largest is below 2^41). -/
abbrev U64 := BitVec 64

end Sys2Proof
end

