-- ==== Sys2Proof/Config.lean ====
section
/-! DEFINITION. The parameters of spec/00_scope.md R8 (values the source fixes) and R9 (values it does not fix: fields with
the spec's defaults), and the free values of 93_implementation_defined.md U6, U8, U13. -/

namespace Sys2Proof

/-! R8: fixed by the source. -/

/-- R8 `SECTOR_SIZE`. -/
def sectorSize : Nat := 512
/-- R8 `CMD_RESPONSE_POLLS`. -/
def cmdResponsePolls : Nat := 10
/-- R8 `T_SELECT_MS`. -/
def tSelectMs : U32 := 100#32
/-- R8 `T_SENDBLOCK_MS`. -/
def tSendBlockMs : U32 := 100#32
/-- R8 `T_TOKEN_MS`. -/
def tTokenMs : U32 := 200#32
/-- R8 `T_INIT_MS`. -/
def tInitMs : U32 := 1000#32
/-- R8 `T_ERASE_MS`. -/
def tEraseMs : U32 := 30000#32
/-- R8 `READY_BYTE`. -/
def readyByte : Byte := 0xFF#8
/-- R8 `DATA_START_TOKEN`. -/
def dataStartToken : Byte := 0xFE#8
/-- R8 `DATA_ACCEPT_MASK`. -/
def dataAcceptMask : Byte := 0x1F#8
/-- R8 `DATA_ACCEPT_VALUE`. -/
def dataAcceptValue : Byte := 0x05#8
/-- R8 `FRAME_START_BITS`. -/
def frameStartBits : Byte := 0x40#8
/-- R8 `SELECT_FAIL_R1`. -/
def selectFailR1 : Byte := 0xFF#8
/-- R8 `CMD8_ARG`. -/
def cmd8Arg : U32 := 0x000001AA#32
/-- R8 `CSD_LEN`, and `SD_STATUS_READ`: both are 16. -/
def csdLen : Nat := 16
/-- R8 `SD_STATUS_LEN` less `SD_STATUS_READ`: the bytes of the SD status that are discarded (R268). -/
def sdStatusRest : Nat := 48

/-- The bit order inside a byte on the link (R9 `SPI_BIT_ORDER`, R61). -/
inductive BitOrder where
  | msbFirst
  | lsbFirst
  deriving DecidableEq, Repr

/-- Which reading of the MMC erase-group multiplier the platform takes (44_ioctl.md R270,
93_implementation_defined.md U7): its two high bits from `csd[10]`, the default, or from `csd[11]`. -/
inductive MmcGroupMult where
  | fromByte10
  | fromByte11
  deriving DecidableEq, Repr

/-- Whether the three decoding functions of 44_ioctl.md are the defaults the spec gives or the
platform's own (93_implementation_defined.md U8). -/
inductive CsdDecode where
  | standard
  | platform
  deriving DecidableEq, Repr

/-- The parameters of R9, constant for the life of an instance. -/
structure Config where
  dummy : Byte
  trailerCmd0 : Byte
  trailerCmd8 : Byte
  trailerOther : Byte
  stopCmdIndex : Byte
  tokenSingle : Byte
  tokenMulti : Byte
  tokenStop : Byte
  crcPlaceholder : Byte
  acmd41HcsArg : U32
  cmd16Arg : U32
  initIdleBytes : Nat
  nCmd0Pre : Nat
  cmd0PreDelayMs : Nat
  pollDelayMs : Nat
  tickBits : Nat
  cdEnabled : Bool
  wpEnabled : Bool
  cdActiveLevel : Bool
  wpActiveLevel : Bool
  speedLow : Nat
  speedHigh : Nat
  spiMode : Nat
  spiBitOrder : BitOrder
  /-- `PERIPHERAL_ID`: false is peripheral 0, true is peripheral 1 (R8 `MAX_PERIPHERALS` = 2). -/
  peripheralId : Bool
  csdDecode : CsdDecode
  mmcGroupMult : MmcGroupMult
  deriving DecidableEq, Repr

/-- The defaults of R9. The OPEN ones (`pollDelayMs`, `cmd0PreDelayMs`, `cdEnabled`, `wpEnabled`, the two levels, the two
speeds, `spiMode`, `spiBitOrder`, `peripheralId`) are DESIGN CHOICE (log 6); every statement holds for every value. -/
def Config.default : Config where
  dummy := 0xFF#8
  trailerCmd0 := 0x95#8
  trailerCmd8 := 0x87#8
  trailerOther := 0x01#8
  stopCmdIndex := 12#8
  tokenSingle := 0xFE#8
  tokenMulti := 0xFC#8
  tokenStop := 0xFD#8
  crcPlaceholder := 0xFF#8
  acmd41HcsArg := 0x40000000#32
  cmd16Arg := 0x00000200#32
  initIdleBytes := 10
  nCmd0Pre := 0
  cmd0PreDelayMs := 1
  pollDelayMs := 1
  tickBits := 32
  cdEnabled := true
  wpEnabled := true
  cdActiveLevel := true
  wpActiveLevel := true
  speedLow := 400000
  speedHigh := 20000000
  spiMode := 0
  spiBitOrder := .msbFirst
  peripheralId := false
  csdDecode := .standard
  mmcGroupMult := .fromByte10

/-- FREE VALUE (93_implementation_defined.md U6, log 8): the `u32` an ioctl writes when a shift count is negative. -/
opaque Config.freeU32 : Nat → U32

/-- FREE VALUE (93_implementation_defined.md U13, log 9): which waiting thread gets a released lock. -/
opaque Config.freeChoice : Nat → Nat

/-- The platform's own `SectorCount` (U8, log 7): a function of the CSD bytes that nothing constrains. -/
opaque Config.platformSectorCount : List Byte → U32

/-- The platform's own `BlockSize` (U8, log 7), by card kind (true: MMC, false: SD1). -/
opaque Config.platformBlockSize : Bool → List Byte → U32

/-- The platform's own size of GET_BLOCK_SIZE on SD2 (U8, log 7), from the first 16 SD-status bytes. -/
opaque Config.platformAuSize : List Byte → U32

/-- The platform's own `EraseSupported` (U8, log 7). -/
opaque Config.platformEraseSupported : List Byte → Bool

end Sys2Proof
end

