-- ==== Sys2Proof/Syntax.lean ====
section
/-! DEFINITION. The instructions: one constructor per row of spec/opcode_table.json (30_encoding.md R90: host operations,
primitives, elements on the link), and the slots in which their words are read. -/

namespace Sys2Proof

/-- Direction of a buffer transfer, seen from the block (45_guard_status.md R292 `dir`). -/
inductive Dir where
  | out
  | inp
  deriving DecidableEq, Repr

/-- Where a transfer's bytes come from or go to (R292 `loc`, 40_transport.md R145 `dest`): an offset into the current host
buffer, or the scratch array `csd`. -/
inductive Loc where
  | buffer (off : U64)
  | csd
  deriving DecidableEq, Repr

/-- One constructor per row of spec/opcode_table.json. -/
inductive Instr where
  -- command frames (41_commands.md R162 to R178), each with the 32-bit argument of its frame
  | cmd0 (arg : U32)
  | cmd1 (arg : U32)
  | cmd8 (arg : U32)
  | cmd9 (arg : U32)
  | cmd12 (arg : U32)
  | acmd13 (arg : U32)
  | cmd16 (arg : U32)
  | cmd17 (arg : U32)
  | acmd23 (arg : U32)
  | cmd24 (arg : U32)
  | cmd25 (arg : U32)
  | cmd32 (arg : U32)
  | cmd33 (arg : U32)
  | cmd38 (arg : U32)
  | acmd41 (arg : U32)
  | cmd55 (arg : U32)
  | cmd58 (arg : U32)
  -- single bytes from block to card (R179 to R181, R183, R184)
  | tokenSingle
  | tokenMulti
  | tokenStop
  -- single byte from card to block (R182)
  | dataStart
  | dummy
  | crcPlaceholder
  -- single bytes from card to block (30_encoding.md R98, R104, R105; 40_transport.md R134, R138)
  | r1 (r : BitVec 7)
  | noResponse (x : BitVec 7)
  | dataResponseAccepted (x : BitVec 3)
  | ready
  -- host operations (R112); `buf` is where the operation's buffer starts in the host's memory
  | initCard
  | status
  | read (buf sector count : U32)
  | write (buf sector count : U32)
  | ioctl (code : Byte) (start stop : U32)
  | ioctlSync
  | ioctlGetSectorCount
  | ioctlGetBlockSize
  | ioctlEraseSector (start stop : U32)
  | ioctlUnknown (code : Byte)
  -- primitives (40_transport.md, 45_guard_status.md; table numbers of R116)
  | xchg (tx : Byte)
  | select
  | deselect
  | waitReady (ms : U32)
  | sendCommand (index : Byte) (arg : U32)
  | sendDataBlock (off : U64) (token : Byte)
  | receiveDataBlock (dest : Loc) (len : BitVec 16)
  | lock
  | unlock
  | startTransfer (dir : Dir) (loc : Loc) (len : BitVec 16)
  | waitForTransfer
  | refreshInputs
  deriving DecidableEq, Repr

/-- In which place a word is read. A byte on the link means different things in different places ("nothing on the link is
self-describing; a decoder must follow the same sequence rules as the block", R114), host operations and primitives have
their own numbers (R112, R116): so a word is decoded together with its slot (log 11). -/
inductive Slot where
  /-- a command frame (R92, R96) -/
  | frame
  /-- the token of a write data packet or stop packet (R100, R103) -/
  | token
  /-- a byte sent only to clock the card (R105) -/
  | filler
  /-- one of the two bytes after a written payload (R100) -/
  | crcField
  /-- a byte received in the response poll (R98, R138) -/
  | responsePoll
  /-- the byte received after a write data packet (R104) -/
  | dataResponse
  /-- a byte received in `waitReady` (R134) -/
  | readyPoll
  /-- a byte received in the data-token poll (R146) -/
  | tokenPoll
  /-- a call on the host port (R112) -/
  | host
  /-- an `ioctl` call before its code is looked at (R260) -/
  | ioctlEntry
  /-- a primitive by its table number (R116) -/
  | primitive
  deriving DecidableEq, Repr

end Sys2Proof
end

