-- ==== Sys2Proof/WellFormed.lean ====
section
/-! DEFINITION. Which instructions are well formed: the preconditions on operands alone that spec/ states. -/

namespace Sys2Proof

/-- The four ioctl codes with a body of their own (30_encoding.md R112): 0, 1, 3, 4. -/
def knownIoctlCode (code : Byte) : Bool :=
  code == 0#8 || code == 1#8 || code == 3#8 || code == 4#8

/-- A location that holds `len` bytes: the scratch array has 16 elements (10_state.md R29), a buffer offset has no bound of
its own (20_memory.md R64). -/
def Loc.holds (l : Loc) (len : Nat) : Bool :=
  match l with
  | .buffer _ => true
  | .csd => decide (len ≤ 16)

/-- Well-formedness of an instruction: `sendCommand` needs bit 6 of its index byte clear (30_encoding.md R108, U1); a
transfer to or from the scratch array stays inside it (10_state.md R29); the unknown-code row has none of the four known
codes (R113). -/
def Instr.wellFormed (i : Instr) : Bool :=
  match i with
  | .sendCommand index _ => !index.getLsbD 6
  | .receiveDataBlock dest len => dest.holds len.toNat
  | .startTransfer _ loc len => loc.holds len.toNat
  | .ioctlUnknown code => !knownIoctlCode code
  | _ => true

end Sys2Proof
end

