-- ==== Sys2Proof/Decode.lean ====
section
/-! DEFINITION. Decoding words to instructions and encoding instructions to words: the frames, tokens and responses of
30_encoding.md, the host selectors of R112, the table numbers of R116. Where the spec gives an operand no bits (host calls,
primitives) the layout of the operand bytes is the model's (DESIGN CHOICE, log 11). The table's words have the parameters of
00_scope.md R9 at their defaults, and these words are what is decoded and encoded, whatever parameters a state has (DESIGN CHOICE,
log 33). -/

namespace Sys2Proof

/-- Why a word is no instruction. -/
inductive DecodeError where
  /-- fewer bytes than the word needs -/
  | short
  /-- a host selector other than 0 to 4 (R112, R113) -/
  | badHostSelector
  /-- a primitive number other than 0 to 11 (R116) -/
  | badPrimitiveNumber
  /-- the first byte of a frame is not of the form 01xxxxxx (R92) -/
  | badFrameStart
  /-- a frame index that is no row of the command map (R106) -/
  | unknownIndex
  /-- a trailer other than the one the index calls for (R95) -/
  | badTrailer
  /-- a token other than the three of R102 -/
  | badToken
  /-- a clocking byte other than DUMMY (R183) -/
  | badFiller
  /-- a byte after the payload other than CRC_PLACEHOLDER (R184) -/
  | badCrc
  /-- a data response whose low five bits are not 0b00101 (R104): a rejection, which is no row -/
  | notAccepted
  /-- a byte other than 0xFF in `waitReady` (R134): busy, which is no row -/
  | busy
  /-- a byte other than 0xFE in the token poll (R146) -/
  | notDataStart
  /-- a location tag other than 0 (buffer) or 1 (scratch array) -/
  | badLocation
  /-- a direction other than 0 (out) or 1 (in) -/
  | badDirection
  /-- the operands break the instruction's precondition (WellFormed.lean) -/
  | illFormed
  deriving DecidableEq, Repr

/-! ### Bytes of wider numbers, most significant first (20_memory.md R60) -/

/-- The four bytes of an argument in the order they are sent (R94). -/
def u32Bytes (v : U32) : List Byte :=
  [v.extractLsb' 24 8, v.extractLsb' 16 8, v.extractLsb' 8 8, v.extractLsb' 0 8]

/-- The argument whose bytes are `a b c d`, most significant first. -/
def u32Of (a b c d : Byte) : U32 := a ++ b ++ c ++ d

/-- The two bytes of a 16-bit number, most significant first. -/
def u16Bytes (v : BitVec 16) : List Byte :=
  [v.extractLsb' 8 8, v.extractLsb' 0 8]

/-- The 16-bit number with bytes `a b`. -/
def u16Of (a b : Byte) : BitVec 16 := a ++ b

/-- The eight bytes of an offset, most significant first. -/
def u64Bytes (v : U64) : List Byte :=
  u32Bytes (v.extractLsb' 32 32) ++ u32Bytes (v.extractLsb' 0 32)

/-- The offset with halves `hi`, `lo`. -/
def u64Of (hi lo : U32) : U64 := hi ++ lo

/-! ### Command frames (R92 to R97, R106) -/

/-- The trailer byte a frame with this first byte carries (R95), the trailer parameters at their defaults (DESIGN CHOICE,
log 33). -/
def frameTrailer (b0 : Byte) : Byte :=
  if b0 = 0x40#8 then 0x95#8 else if b0 = 0x48#8 then 0x87#8 else 0x01#8

/-- The command whose frame begins with this byte (R106, column "byte 0"). Another index is well formed too (R108, U18) but no
row of the table, and is refused (DESIGN CHOICE, log 34). -/
def frameInstr (b0 : Byte) (arg : U32) : Except DecodeError Instr :=
  match b0.toNat with
  | 0x40 => .ok (.cmd0 arg)
  | 0x41 => .ok (.cmd1 arg)
  | 0x48 => .ok (.cmd8 arg)
  | 0x49 => .ok (.cmd9 arg)
  | 0x4C => .ok (.cmd12 arg)
  | 0x4D => .ok (.acmd13 arg)
  | 0x50 => .ok (.cmd16 arg)
  | 0x51 => .ok (.cmd17 arg)
  | 0x57 => .ok (.acmd23 arg)
  | 0x58 => .ok (.cmd24 arg)
  | 0x59 => .ok (.cmd25 arg)
  | 0x60 => .ok (.cmd32 arg)
  | 0x61 => .ok (.cmd33 arg)
  | 0x66 => .ok (.cmd38 arg)
  | 0x69 => .ok (.acmd41 arg)
  | 0x77 => .ok (.cmd55 arg)
  | 0x7A => .ok (.cmd58 arg)
  | _ => .error .unknownIndex

/-- What follows the six bytes of a frame: nothing, but for the stop-transmission frame its discard byte (R96), whose value
the table leaves open; the stop index is the default 12 (DESIGN CHOICE, log 33). -/
def afterFrame (b0 : Byte) (rest : List Byte) : Except DecodeError (List Byte) :=
  if b0 = 0x4C#8 then
    match rest with
    | _ :: r => .ok r
    | [] => .error .short
  else .ok rest

/-- Read one command frame. -/
def decodeFrame (bytes : List Byte) : Except DecodeError (Instr × List Byte) :=
  match bytes with
  | b0 :: a :: b :: c :: d :: t :: rest =>
    if b0.extractLsb' 6 2 ≠ 0b01#2 then .error .badFrameStart
    else
      match frameInstr b0 (u32Of a b c d) with
      | .error e => .error e
      | .ok i =>
        if t ≠ frameTrailer b0 then .error .badTrailer
        else
          match afterFrame b0 rest with
          | .error e => .error e
          | .ok r => .ok (i, r)
  | _ => .error .short

/-! ### Single bytes on the link -/

/-- The token of a packet (R102), the token parameters at their defaults (DESIGN CHOICE, log 33). -/
def decodeToken (b : Byte) : Except DecodeError Instr :=
  match b.toNat with
  | 0xFE => .ok .tokenSingle
  | 0xFC => .ok .tokenMulti
  | 0xFD => .ok .tokenStop
  | _ => .error .badToken

/-- A byte of the response poll: a response when bit 7 is clear, no response yet when it is set (R98, R138). -/
def decodeResponse (b : Byte) : Instr :=
  if b.getLsbD 7 then .noResponse (b.extractLsb' 0 7) else .r1 (b.extractLsb' 0 7)

/-- The byte after a write packet (R104). -/
def decodeDataResponse (b : Byte) : Except DecodeError Instr :=
  if b &&& 0x1F#8 = 0x05#8 then .ok (.dataResponseAccepted (b.extractLsb' 5 3)) else .error .notAccepted

/-! ### Host calls (R112) and primitives (R116) -/

/-- Read a location: a tag byte, then for a buffer the offset's eight bytes. -/
def decodeLoc (bytes : List Byte) : Except DecodeError (Loc × List Byte) :=
  match bytes with
  | t :: rest =>
    match t.toNat with
    | 0 =>
      match rest with
      | a :: b :: c :: d :: e :: f :: g :: h :: r => .ok (.buffer (u64Of (u32Of a b c d) (u32Of e f g h)), r)
      | _ => .error .short
    | 1 => .ok (.csd, rest)
    | _ => .error .badLocation
  | [] => .error .short

/-- Read a direction byte. -/
def decodeDir (b : Byte) : Except DecodeError Dir :=
  match b.toNat with
  | 0 => .ok .out
  | 1 => .ok .inp
  | _ => .error .badDirection

/-- Read the two numbers of an erase range. -/
def decodeRange (f : U32 → U32 → Instr) (bytes : List Byte) : Except DecodeError (Instr × List Byte) :=
  match bytes with
  | a :: b :: c :: d :: e :: g :: h :: i :: r => .ok (f (u32Of a b c d) (u32Of e g h i), r)
  | _ => .error .short

/-- Read buffer, sector, count. -/
def decodeBlockCall (f : U32 → U32 → U32 → Instr) (bytes : List Byte) : Except DecodeError (Instr × List Byte) :=
  match bytes with
  | a :: b :: c :: d :: e :: g :: h :: i :: j :: k :: l :: m :: r =>
    .ok (f (u32Of a b c d) (u32Of e g h i) (u32Of j k l m), r)
  | _ => .error .short

/-- An ioctl call by its code (R112): the four named codes, every other code unknown (R113). -/
def decodeIoctl (code : Byte) (rest : List Byte) : Except DecodeError (Instr × List Byte) :=
  match code.toNat with
  | 0 => .ok (.ioctlSync, rest)
  | 1 => .ok (.ioctlGetSectorCount, rest)
  | 3 => .ok (.ioctlGetBlockSize, rest)
  | 4 => decodeRange .ioctlEraseSector rest
  | _ => .ok (.ioctlUnknown code, rest)

/-- Read one call on the host port (R112). -/
def decodeHost (bytes : List Byte) : Except DecodeError (Instr × List Byte) :=
  match bytes with
  | op :: rest =>
    match op.toNat with
    | 0 => .ok (.initCard, rest)
    | 1 => .ok (.status, rest)
    | 2 => decodeBlockCall .read rest
    | 3 => decodeBlockCall .write rest
    | 4 =>
      match rest with
      | code :: r => decodeIoctl code r
      | [] => .error .short
    | _ => .error .badHostSelector
  | [] => .error .short

/-- Read one ioctl call with its code still an operand (R260). -/
def decodeIoctlEntry (bytes : List Byte) : Except DecodeError (Instr × List Byte) :=
  match bytes with
  | op :: code :: rest => if op = 4#8 then decodeRange (.ioctl code) rest else .error .badHostSelector
  | _ => .error .short

/-- `f` of a location and a 16-bit length. -/
def decodeLocLen (f : Loc → BitVec 16 → Instr) (bytes : List Byte) : Except DecodeError (Instr × List Byte) :=
  match decodeLoc bytes with
  | .error e => .error e
  | .ok (l, a :: b :: r) => .ok (f l (u16Of a b), r)
  | .ok (_, _) => .error .short

/-- Read one primitive by its table number (R116). -/
def decodePrimitive (bytes : List Byte) : Except DecodeError (Instr × List Byte) :=
  match bytes with
  | p :: rest =>
    match p.toNat with
    | 0 => match rest with
      | tx :: r => .ok (.xchg tx, r)
      | [] => .error .short
    | 1 => .ok (.select, rest)
    | 2 => .ok (.deselect, rest)
    | 3 => match rest with
      | a :: b :: c :: d :: r => .ok (.waitReady (u32Of a b c d), r)
      | _ => .error .short
    | 4 => match rest with
      | i :: a :: b :: c :: d :: r => .ok (.sendCommand i (u32Of a b c d), r)
      | _ => .error .short
    | 5 => match rest with
      | a :: b :: c :: d :: e :: f :: g :: h :: t :: r =>
        .ok (.sendDataBlock (u64Of (u32Of a b c d) (u32Of e f g h)) t, r)
      | _ => .error .short
    | 6 => decodeLocLen .receiveDataBlock rest
    | 7 => .ok (.lock, rest)
    | 8 => .ok (.unlock, rest)
    | 9 => match rest with
      | d :: r =>
        match decodeDir d with
        | .error e => .error e
        | .ok dir => decodeLocLen (.startTransfer dir) r
      | [] => .error .short
    | 10 => .ok (.waitForTransfer, rest)
    | 11 => .ok (.refreshInputs, rest)
    | _ => .error .badPrimitiveNumber
  | [] => .error .short

/-! ### The decoder -/

/-- A single byte and what it stands for in its slot. -/
def decodeByte (f : Byte → Except DecodeError Instr) (bytes : List Byte) : Except DecodeError (Instr × List Byte) :=
  match bytes with
  | b :: rest =>
    match f b with
    | .error e => .error e
    | .ok i => .ok (i, rest)
  | [] => .error .short

/-- Read one word of the given slot, whatever its operands; DUMMY and CRC_PLACEHOLDER at their defaults (DESIGN CHOICE,
log 33). -/
def decodeRaw (slot : Slot) (bytes : List Byte) : Except DecodeError (Instr × List Byte) :=
  match slot with
  | .frame => decodeFrame bytes
  | .token => decodeByte decodeToken bytes
  | .filler => decodeByte (fun b => if b = 0xFF#8 then .ok .dummy else .error .badFiller) bytes
  | .crcField => decodeByte (fun b => if b = 0xFF#8 then .ok .crcPlaceholder else .error .badCrc) bytes
  | .responsePoll => decodeByte (fun b => .ok (decodeResponse b)) bytes
  | .dataResponse => decodeByte decodeDataResponse bytes
  | .readyPoll => decodeByte (fun b => if b = 0xFF#8 then .ok .ready else .error .busy) bytes
  | .tokenPoll => decodeByte (fun b => if b = 0xFE#8 then .ok .dataStart else .error .notDataStart) bytes
  | .host => decodeHost bytes
  | .ioctlEntry => decodeIoctlEntry bytes
  | .primitive => decodePrimitive bytes

/-- Read one well-formed instruction of the given slot; total on any bytes. -/
def decode (slot : Slot) (bytes : List Byte) : Except DecodeError (Instr × List Byte) :=
  match decodeRaw slot bytes with
  | .error e => .error e
  | .ok (i, rest) => if i.wellFormed then .ok (i, rest) else .error .illFormed

/-! ### The encoder -/

/-- The slot an instruction's word is read in. -/
def slotOf (i : Instr) : Slot :=
  match i with
  | .cmd0 _ | .cmd1 _ | .cmd8 _ | .cmd9 _ | .cmd12 _ | .acmd13 _ | .cmd16 _ | .cmd17 _ | .acmd23 _ | .cmd24 _ | .cmd25 _
  | .cmd32 _ | .cmd33 _ | .cmd38 _ | .acmd41 _ | .cmd55 _ | .cmd58 _ => .frame
  | .tokenSingle | .tokenMulti | .tokenStop => .token
  | .dataStart => .tokenPoll
  | .dummy => .filler
  | .crcPlaceholder => .crcField
  | .r1 _ | .noResponse _ => .responsePoll
  | .dataResponseAccepted _ => .dataResponse
  | .ready => .readyPoll
  | .initCard | .status | .read _ _ _ | .write _ _ _ | .ioctlSync | .ioctlGetSectorCount | .ioctlGetBlockSize
  | .ioctlEraseSector _ _ | .ioctlUnknown _ => .host
  | .ioctl _ _ _ => .ioctlEntry
  | .xchg _ | .select | .deselect | .waitReady _ | .sendCommand _ _ | .sendDataBlock _ _ | .receiveDataBlock _ _ | .lock
  | .unlock | .startTransfer _ _ _ | .waitForTransfer | .refreshInputs => .primitive

/-- The six bytes of a frame (R92): first byte, argument, trailer. -/
def encodeFrame (b0 : Byte) (arg : U32) : List Byte := b0 :: (u32Bytes arg ++ [frameTrailer b0])

/-- The bytes of a location. -/
def encodeLoc (l : Loc) : List Byte :=
  match l with
  | .buffer off => 0#8 :: u64Bytes off
  | .csd => [1#8]

/-- The byte of a direction. -/
def encodeDir (d : Dir) : Byte :=
  match d with
  | .out => 0#8
  | .inp => 1#8

/-- The bytes of an instruction in its slot, the parameters at their defaults (DESIGN CHOICE, log 33). -/
def encode (i : Instr) : List Byte :=
  match i with
  | .cmd0 arg => encodeFrame 0x40#8 arg
  | .cmd1 arg => encodeFrame 0x41#8 arg
  | .cmd8 arg => encodeFrame 0x48#8 arg
  | .cmd9 arg => encodeFrame 0x49#8 arg
  | .cmd12 arg => encodeFrame 0x4C#8 arg ++ [0xFF#8]
  | .acmd13 arg => encodeFrame 0x4D#8 arg
  | .cmd16 arg => encodeFrame 0x50#8 arg
  | .cmd17 arg => encodeFrame 0x51#8 arg
  | .acmd23 arg => encodeFrame 0x57#8 arg
  | .cmd24 arg => encodeFrame 0x58#8 arg
  | .cmd25 arg => encodeFrame 0x59#8 arg
  | .cmd32 arg => encodeFrame 0x60#8 arg
  | .cmd33 arg => encodeFrame 0x61#8 arg
  | .cmd38 arg => encodeFrame 0x66#8 arg
  | .acmd41 arg => encodeFrame 0x69#8 arg
  | .cmd55 arg => encodeFrame 0x77#8 arg
  | .cmd58 arg => encodeFrame 0x7A#8 arg
  | .tokenSingle => [0xFE#8]
  | .tokenMulti => [0xFC#8]
  | .tokenStop => [0xFD#8]
  | .dataStart => [0xFE#8]
  | .dummy => [0xFF#8]
  | .crcPlaceholder => [0xFF#8]
  | .r1 r => [0#1 ++ r]
  | .noResponse x => [1#1 ++ x]
  | .dataResponseAccepted x => [x ++ 0b00101#5]
  | .ready => [0xFF#8]
  | .initCard => [0#8]
  | .status => [1#8]
  | .read buf sector count => 2#8 :: (u32Bytes buf ++ u32Bytes sector ++ u32Bytes count)
  | .write buf sector count => 3#8 :: (u32Bytes buf ++ u32Bytes sector ++ u32Bytes count)
  | .ioctl code start stop => 4#8 :: code :: (u32Bytes start ++ u32Bytes stop)
  | .ioctlSync => [4#8, 0#8]
  | .ioctlGetSectorCount => [4#8, 1#8]
  | .ioctlGetBlockSize => [4#8, 3#8]
  | .ioctlEraseSector start stop => 4#8 :: 4#8 :: (u32Bytes start ++ u32Bytes stop)
  | .ioctlUnknown code => [4#8, code]
  | .xchg tx => [0#8, tx]
  | .select => [1#8]
  | .deselect => [2#8]
  | .waitReady ms => 3#8 :: u32Bytes ms
  | .sendCommand index arg => 4#8 :: index :: u32Bytes arg
  | .sendDataBlock off token => 5#8 :: (u64Bytes off ++ [token])
  | .receiveDataBlock dest len => 6#8 :: (encodeLoc dest ++ u16Bytes len)
  | .lock => [7#8]
  | .unlock => [8#8]
  | .startTransfer dir loc len => 9#8 :: encodeDir dir :: (encodeLoc loc ++ u16Bytes len)
  | .waitForTransfer => [10#8]
  | .refreshInputs => [11#8]

/-! ### Words as spec/opcode_table.json numbers them

The table writes a word as one number whose most significant byte goes first on the link ("first byte sent first, bit 47
first of all", R92), so a word of `n` bytes is laid out most significant byte first. -/

/-- The low `k` bytes of `w`, most significant first. -/
def bytesOf (k w : Nat) : List Byte :=
  match k with
  | 0 => []
  | j + 1 => BitVec.ofNat 8 (w / 2 ^ (8 * j)) :: bytesOf j w

/-- The slot in which a table word of `nbits` bits is read. The table gives no level with a word, several rows have the same
eight bits, and a call number of 3 or 4 bits is one byte too, so for eight bits the model takes one of the rows that fit (DESIGN
CHOICE, log 11): the row of eight bits that has the word as its own value; else the host call, else the primitive of that
number; else the row of eight bits whose pattern fits. -/
def tableSlot (nbits w : Nat) : Slot :=
  match nbits with
  | 3 => .host
  | 4 => .primitive
  | 11 => .host
  | 16 => .host
  | 8 =>
    if w % 32 = 5 then .dataResponse
    else if w % 256 = 0xFF then .filler
    else if 0xFC ≤ w % 256 then .token
    else if w % 256 = 0 then .responsePoll
    else if w % 256 ≤ 3 then .host
    else if w % 256 ≤ 11 then .primitive
    else .responsePoll
  | _ => .frame

/-- The bytes of a table word, with zero operand bytes after it (13 bytes is the longest instruction). -/
def tableBytes (nbits w : Nat) : List Byte :=
  bytesOf ((nbits + 7) / 8) w ++ List.replicate 13 0#8

/-- The instruction the decoder reads from a word of spec/opcode_table.json. -/
def decodeTableWord (nbits w : Nat) : Option Instr :=
  match decode (tableSlot nbits w) (tableBytes nbits w) with
  | .ok (i, _) => some i
  | .error _ => none

end Sys2Proof
end

