-- ==== Sys2Proof/Machine/State.lean ====
section
/-! DEFINITION. The state of one instance of the block (10_state.md R20 to R43), the environment's inputs held beside it as
plain data (log 2), and the state at reset (R43, 70_reset_and_hazards.md R350). -/

namespace Sys2Proof.Machine

open Sys2Proof

/-! ### Records of the block -/

/-- `card.type` (R21). -/
inductive CardType where
  | unknown
  | mmc
  | sd1
  | sd2
  deriving DecidableEq, Repr

/-- The Card record (R21). -/
structure Card where
  type : CardType
  blockAddressed : Bool
  deriving DecidableEq, Repr

/-- The Card record of a probe that failed, and of reset (R43, 42_probe.md R214). -/
def Card.none : Card := ⟨.unknown, false⟩

/-- DriveStatus (R22). -/
structure DriveStatus where
  notInitialized : Bool
  noDisk : Bool
  writeProtected : Bool
  deriving DecidableEq, Repr

/-- `speedSel` (R23). -/
inductive Speed where
  | low
  | high
  deriving DecidableEq, Repr

/-- The chip-select output (R35). -/
inductive ChipSelect where
  | asserted
  | deasserted
  deriving DecidableEq, Repr

/-- `lock.owner`, `lock.depth` (R33); threads are named by natural numbers. -/
structure LockState where
  owner : Option Nat
  depth : Nat
  deriving DecidableEq, Repr

/-- `xfer.pending[p]` for the at most two peripherals (R34). -/
structure Pending where
  p0 : Bool
  p1 : Bool
  deriving DecidableEq, Repr

/-- The named values of `seq` (R24; 42_probe.md R200; 43_blockio.md R238). The states of `status` and `ioctl` have no names
in the spec: `sCheck`, `iCheck`, `iBody`, `iNested`, `iExit` are the model's (log 23). -/
inductive Seq where
  | idle
  | pCheck | pClocks | pPre | pCmd0 | pCmd8 | pR7 | pPollSd2 | pCmd58 | pOcr | pTypeTest | pPollV1 | pCmd16 | pRecord | pDone
  | wCheck | wLock | wCmd24 | wSingle | wHint | wCmd25 | wBlock | wStop | wExit
  | rCheck | rLock | rCmd17 | rData | rExit
  | sCheck
  | iCheck | iBody | iNested | iExit
  deriving DecidableEq, Repr

/-- The CommandFrame (R25). -/
structure CommandFrame where
  index : Byte
  argument : U32
  trailer : Byte
  deriving DecidableEq, Repr

/-- Where a `Timeout` was raised (60_exceptions.md R310). -/
inductive TimeoutTag where
  | waitReady
  | dataToken
  | initPoll
  deriving DecidableEq, Repr

/-- Where a `DiskError` was raised (R310). -/
inductive DiskTag where
  | wrongToken | dataResponse | cmd0 | cmd8Echo | cmd58 | cmd16 | cmd17 | cmd24 | cmd25 | cmd9 | acmd13
  | cmd32 | cmd33 | cmd38 | eraseNotValid
  deriving DecidableEq, Repr

/-- The failure cause latch (R31, R310). -/
inductive Cause where
  | none
  | timeout (t : TimeoutTag)
  | diskError (t : DiskTag)
  deriving DecidableEq, Repr

/-- A TimeoutWindow (R32); `start` is a tick reading, below 2^TICK_BITS. -/
structure Window where
  start : Nat
  durationMs : U32
  deriving DecidableEq, Repr

/-- The configuration of the SPI peripheral (R39, R40 `spi.cfg`). -/
structure SpiConfig where
  speed : Nat
  mode : Nat
  bitOrder : BitOrder
  deriving DecidableEq, Repr

/-- Result codes (30_encoding.md R112). -/
inductive Result where
  | ok
  | error
  | writeProtected
  | notReady
  | paramError
  deriving DecidableEq, Repr

/-- What a host call returns (R112): a DriveStatus or a Result; `none` before anything has returned. -/
inductive HostReturn where
  | none
  | drive (d : DriveStatus)
  | result (r : Result)
  deriving DecidableEq, Repr

/-- What a primitive or an element on the link returns (40_transport.md R131: a byte or a boolean). -/
inductive RetVal where
  | none
  | byte (b : Byte)
  | bool (b : Bool)
  deriving DecidableEq, Repr

/-- Where a transfer's bytes are: a natural-number offset of the current buffer (20_memory.md R64) or `csd` (R292). -/
inductive Place where
  | buffer (off : Nat)
  | csd
  deriving DecidableEq, Repr

/-- What the transfer engine has been given (45_guard_status.md R292). `moved` says that its bytes are exchanged and only
the completion signal is outstanding. -/
structure Transfer where
  dir : Dir
  place : Place
  len : Nat
  moved : Bool
  deriving DecidableEq, Repr

/-- A call that needs the lock (45_guard_status.md R294), with its operands; `bareLock` is the primitive `Lock()` itself. -/
inductive Call where
  | initCard
  | read (buf sector count : U32)
  | write (buf sector count : U32)
  | ioctl (code : Byte) (start stop : U32)
  | bareLock
  deriving DecidableEq, Repr

/-- A thread that waits in `Lock()` with the call it makes (R290). -/
structure Waiter where
  thread : Nat
  call : Call
  deriving DecidableEq, Repr

/-- A call of another thread in its early part (10_state.md R41 (2), 45_guard_status.md R294, R302; log 1): `none` is
`status()`, which needs no lock (R301); the two inputs as far as the call has sampled them (R303: "the values it sampled
itself"). -/
structure Early where
  thread : Nat
  call : Option Call
  noDisk : Option Bool
  writeProtected : Option Bool
  deriving DecidableEq, Repr

/-- What another thread does between two statements of the running instruction (R41; log 1): it makes a call, or executes the
next statement of the early part of its call. -/
inductive OtherMove where
  | call (thread : Nat) (c : Option Call)
  | go (thread : Nat)
  deriving DecidableEq, Repr

/-- The wait that never ends (70_reset_and_hazards.md R363, R364). -/
inductive Hang where
  | waitReady
  | dataToken
  | initPoll
  | completion
  deriving DecidableEq, Repr

/-- Which wait never ends, whose it is (log 4), and in which host call it stands; `none` is a statement executed by itself. -/
structure Hung where
  wait : Hang
  thread : Nat
  call : Option Call
  deriving DecidableEq, Repr

/-- A call or statement presented to the block: by which thread, in which slot, its bytes. -/
structure Request where
  thread : Nat
  slot : Slot
  bytes : List Byte
  deriving DecidableEq, Repr

/-- An input of the environment (log 2): the values of its next readings, then one value for every reading after them. -/
structure Feed (α : Type) where
  next : List α
  rest : α
  deriving DecidableEq, Repr

/-- Which agent moves at a step (R41): the sequencer, which takes up the next call; a thread waiting for the lock; the
transfer engine; the threads with a call in its early part, while no instruction runs; the host, which stores into its memory
between instructions (20_memory.md R64); another user of the bus, which sets the peripheral's configuration; another instance on
peripheral `p`, which registers or finishes a transfer there. -/
inductive Agent where
  | sequencer
  | grant
  | engine
  | threads
  | host (a : Nat) (bytes : List Byte)
  | busUser (c : SpiConfig)
  | peer (p : Bool) (registers : Bool)
  deriving DecidableEq, Repr

/-- An event on a port (00_scope.md R12, R13; 10_state.md R40). -/
inductive Event where
  | xchg (tx rx : Byte)
  | cs (level : ChipSelect)
  | speed (s : Speed)
  | lock (thread : Nat)
  | unlock (thread : Nat)
  | configure (c : SpiConfig)
  | now (t : Nat)
  | delay (ms : Nat)
  | cardDetect (present : Bool)
  | writeProtect (active : Bool)
  | startTransfer (dir : Dir) (place : Place) (len : Nat)
  | complete (p : Bool)
  | ret (thread : Nat) (v : HostReturn)
  deriving DecidableEq, Repr

/-- Host memory, which holds the buffers (20_memory.md R64): a list of cells in canonical form (Memory.wf, Ops.lean). -/
abbrev Memory := List Host.Cell

/-! ### The state -/

structure State where
  /-- the parameters (00_scope.md R9) -/
  cfg : Config
  /-- R21 -/
  card : Card
  /-- R22 -/
  status : DriveStatus
  /-- R23 -/
  speedSel : Speed
  /-- R35 -/
  cs : ChipSelect
  /-- R33 -/
  lock : LockState
  /-- R34 `xfer.pending` -/
  pending : Pending
  /-- R24 -/
  seq : Seq
  /-- R25 -/
  fr : CommandFrame
  /-- R26 -/
  r1 : Byte
  /-- R27 -/
  addr : U32
  /-- R27 -/
  remaining : U32
  /-- R27 -/
  off : Nat
  /-- R28 -/
  n : BitVec 4
  /-- R29 -/
  ocr : Vector Byte 4
  /-- R29 -/
  csd : Vector Byte 16
  /-- R30 -/
  tok : Byte
  /-- R31 -/
  cause : Cause
  /-- R32: the live windows, innermost first -/
  wins : List Window
  /-- 44_ioctl.md R260 `out` -/
  out : U32
  /-- the value last returned on the host port (R40) -/
  hostOut : HostReturn
  /-- R39 -/
  spiCfg : SpiConfig
  /-- 20_memory.md R64 -/
  mem : Memory
  /-- where the current operation's buffer starts in `mem` (log 10) -/
  bufBase : Nat
  /-- 45_guard_status.md R292: what the transfer engine holds -/
  engine : Option Transfer
  /-- R290 `me` -/
  me : Nat
  /-- threads waiting in `Lock()` (R290) -/
  waiters : List Waiter
  /-- calls of other threads in their early part (R294) -/
  early : List Early
  /-- the wait that never ends, once one is entered (log 4) -/
  hung : Option Hung
  /-- what the last primitive or element returned -/
  ret : RetVal
  /-- calls and statements still to be taken up (log 18) -/
  requests : List Request
  /-- environment: the bytes the card returns (20_memory.md R75) -/
  rx : Feed Byte
  /-- environment: the tick counter (60_exceptions.md R331) -/
  tick : Nat
  /-- environment: by how much the counter advances before each reading -/
  tickAdv : Feed Nat
  /-- environment: levels of the card-detect input at each reading (45_guard_status.md R300) -/
  cd : Feed Bool
  /-- environment: levels of the write-protect input at each reading (R300) -/
  wp : Feed Bool
  /-- environment: whether each transfer's completion signal fires (R293) -/
  fires : Feed Bool
  /-- environment: whether another thread wins the race for the free lock (R290) -/
  contend : Feed Bool
  /-- environment: what other threads do before each of the next statements (R41, R294; log 1) -/
  others : List (List OtherMove)
  /-- environment: which agent moves at each step (R41) -/
  turns : Feed Agent
  /-- the counter free values are drawn with (log 8) -/
  free : Nat
  /-- the port events so far, newest first (R41; log 23) -/
  events : List Event
  /-- the named values `seq` has taken, newest first (log 23) -/
  path : List Seq
  deriving DecidableEq, Repr

/-! ### Why a step can stop -/

/-- Faults. -/
inductive Fault where
  /-- raised by `StartTransfer` (and by `receiveDataBlock`, which calls it) for the scratch array with more than 16 bytes:
  10_state.md R29 gives it elements 0 to 15 only. Safe: the machine stops. -/
  | scratchOutOfRange
  deriving DecidableEq, Repr

/-- Refusals. -/
inductive Refusal where
  /-- raised by `exec` for an instruction that has no meaning yet. Safe. -/
  | notModelled (mnemonic : String)
  /-- raised by `step` when the bytes of the next request are no instruction of their slot. Safe. -/
  | undecodable (e : DecodeError)
  /-- raised by `sendCommand` for an index byte with bit 6 set (30_encoding.md R108, U1). Safe. -/
  | reservedIndex
  /-- raised by `sendCommand` for the stop-transmission command with chip-select deasserted (40_transport.md R140, U2). Safe. -/
  | stopOutsideSelection
  /-- raised by `StartTransfer` and by a `peer` turn while a transfer is pending on the peripheral (R365, U3). Safe. -/
  | transferPending
  /-- raised by an `engine` or `peer` turn for a completion with nothing pending (R365, U3). Safe. -/
  | completionWithoutTransfer
  /-- raised by `WaitForTransfer` when what is pending on the peripheral is another instance's transfer (R366, U12). Safe. -/
  | foreignTransfer
  /-- raised by `Unlock` when the calling thread does not hold the lock (45_guard_status.md R291). Safe. -/
  | unlockByNonOwner
  /-- raised while this instance's lock is held, by a `busUser` turn and by a `peer` turn that registers a transfer on this
  instance's peripheral (70_reset_and_hazards.md R366, U12). Safe. -/
  | busInUse
  deriving DecidableEq, Repr

/-! ### Reset -/

/-- The state after reset (R43, R350): the values of R43's table; the working registers it leaves unspecified at 0, `speedSel`
at Low (DESIGN CHOICE, log 5); the parameters at R9's defaults (log 6); the environment's inputs as log 3 says. -/
def State.reset : State where
  cfg := Config.default
  card := Card.none
  status := ⟨true, false, false⟩
  speedSel := .low
  cs := .deasserted
  lock := ⟨none, 0⟩
  pending := ⟨false, false⟩
  seq := .idle
  fr := ⟨0#8, 0#32, 0#8⟩
  r1 := 0#8
  addr := 0#32
  remaining := 0#32
  off := 0
  n := 0#4
  ocr := Vector.replicate 4 0#8
  csd := Vector.replicate 16 0#8
  tok := 0#8
  cause := .none
  wins := []
  out := 0#32
  hostOut := .none
  spiCfg := ⟨0, 0, .msbFirst⟩
  mem := []
  bufBase := 0
  engine := none
  me := 0
  waiters := []
  early := []
  hung := none
  ret := .none
  requests := []
  rx := ⟨[], 0xFF#8⟩
  tick := 0
  tickAdv := ⟨[], 1⟩
  cd := ⟨[], true⟩
  wp := ⟨[], false⟩
  fires := ⟨[], true⟩
  contend := ⟨[], false⟩
  others := []
  turns := ⟨[], .sequencer⟩
  free := 0
  events := []
  path := []

end Sys2Proof.Machine
end

