-- ==== Sys2Proof/Machine/Ops.lean ====
section
/-! DEFINITION. The named operations everything else is built from: the environment's inputs, port events, the host memory,
the tick counter and windows, chip-select, the lock, raising a failure and the exit sequence (the analogue of taking an
exception, 60_exceptions.md R322) with the return to the host (R324) beside it. -/

namespace Sys2Proof.Machine

open Sys2Proof

/-! ### How a primitive ends -/

/-- A primitive ends with a value, or never (R363, R364), or the model stops by name. -/
inductive Res (α : Type) where
  | ok (a : α) (s : State)
  | hang (h : Hang) (s : State)
  | fault (f : Fault)
  | refuse (r : Refusal)
  deriving DecidableEq, Repr

/-- One statement after another (00_scope.md R12: "one statement finishes before the next starts"). -/
def Res.bind {α β : Type} (x : Res α) (f : α → State → Res β) : Res β :=
  match x with
  | .ok a s => f a s
  | .hang h s => .hang h s
  | .fault e => .fault e
  | .refuse r => .refuse r

/-- What a primitive executed by itself leaves: its value in `ret`; a wait that never ends leaves the block waiting. -/
def Res.outcome {α : Type} (f : α → RetVal) (x : Res α) : Host.Outcome State Fault Refusal :=
  match x with
  | .ok a s => .next { s with ret := f a }
  | .hang h s => .next { s with hung := some ⟨h, s.me, none⟩ }
  | .fault e => .fault e
  | .refuse r => .refused r

/-! ### Inputs and events -/

/-- The next reading of an input. -/
def Feed.pop {α : Type} (f : Feed α) : α × Feed α :=
  match f.next with
  | a :: t => (a, { f with next := t })
  | [] => (f.rest, f)

/-- An event is put on record. -/
def record (e : Event) (s : State) : State :=
  { s with events := e :: s.events }

/-- What `CardPresent()` gives at the next reading (45_guard_status.md R300): true without a reading when the input does not
exist. -/
def inputPresent (s : State) : Bool := !s.cfg.cdEnabled || s.cd.pop.1 == s.cfg.cdActiveLevel

/-- What `WpActive()` gives at the next reading (R300). -/
def inputProtected (s : State) : Bool := s.cfg.wpEnabled && s.wp.pop.1 == s.cfg.wpActiveLevel

/-- The reading of `CardPresent()`: an event only when the input exists. -/
def readCd (s : State) : State :=
  if s.cfg.cdEnabled then record (.cardDetect (inputPresent s)) { s with cd := s.cd.pop.2 } else s

/-- The reading of `WpActive()`. -/
def readWp (s : State) : State :=
  if s.cfg.wpEnabled then record (.writeProtect (inputProtected s)) { s with wp := s.wp.pop.2 } else s

/-! ### The early part of a call (60_exceptions.md R313; 45_guard_status.md R294, R303) -/

/-- The DriveStatus with both inputs sampled (R302). -/
def sampledStatus (s : State) : DriveStatus := ⟨s.status.notInitialized, !inputPresent s, inputProtected s⟩

/-- The readings of the inputs, newest first: only inputs that exist are read, card-detect first (R300, R302). -/
def inputEvents (s : State) : List Event :=
  (if s.cfg.wpEnabled then [.writeProtect (inputProtected s)] else [])
    ++ (if s.cfg.cdEnabled then [.cardDetect (inputPresent s)] else [])

/-- The state after `RefreshInputs()` (R302) with nothing in between. -/
def sampled (s : State) : State :=
  { s with
    status := sampledStatus s
    cd := if s.cfg.cdEnabled then s.cd.pop.2 else s.cd
    wp := if s.cfg.wpEnabled then s.wp.pop.2 else s.wp
    events := inputEvents s ++ s.events }

/-- Not usable for data operations (R313): card absent or not initialized. -/
def notReady (d : DriveStatus) : Bool := d.noDisk || d.notInitialized

/-- The early checks in their order (R321; 43_blockio.md R231, R235; 44_ioctl.md R260; 42_probe.md R201), on the values the call
sampled itself (R303). That the status which `initialize` returns here carries both bits as it sampled them, NoDisk and
WriteProtected, and not as another thread may have stored them since, is the model's choice (DESIGN CHOICE, log 36). -/
def earlyReturn (c : Call) (d : DriveStatus) : Option HostReturn :=
  match c with
  | .initCard => if d.noDisk then some (.drive d) else none
  | .read _ _ count =>
    if notReady d then some (.result .notReady)
    else if count = 0#32 then some (.result .paramError)
    else none
  | .write _ _ count =>
    if d.writeProtected then some (.result .writeProtected)
    else if notReady d then some (.result .notReady)
    else if count = 0#32 then some (.result .paramError)
    else none
  | .ioctl _ _ _ => if notReady d then some (.result .notReady) else none
  | .bareLock => none

/-! ### Calls of other threads while an instruction runs (10_state.md R41, 45_guard_status.md R294; log 1) -/

/-- The thread is inside a call that has not returned: in its early part, waiting for the lock, or for ever (R290, R363, R364). -/
def threadBusy (s : State) (t : Nat) : Bool :=
  s.waiters.any (fun w => w.thread == t) || s.early.any (fun e => e.thread == t)
    || (match s.hung with | some h => h.thread == t | none => false)

/-- The thread can make a call while the running instruction is another's: it is in no call and does not hold the lock. -/
def canCall (s : State) (t : Nat) : Bool :=
  t != s.me && s.lock.owner != some t && !threadBusy s t

/-- A value on the host port for another thread. -/
def otherReturns (t : Nat) (v : HostReturn) (s : State) : State :=
  record (.ret t v) { s with hostOut := v }

/-- A thread comes to `Lock()` while another has it (R290). -/
def addWaiter (w : Waiter) (s : State) : State :=
  { s with waiters := s.waiters ++ [w] }

/-- The thread's call is no longer in its early part. -/
def endEarly (t : Nat) (s : State) : State :=
  { s with early := s.early.filter (fun e => e.thread != t) }

/-- Where the thread's call stands in its early part. -/
def putEarly (e : Early) (s : State) : State :=
  { s with early := e :: s.early.filter (fun x => x.thread != e.thread) }

/-- The first statement of `RefreshInputs()` (R302) by another thread: the reading and the store of NoDisk. -/
def sampleDisk (e : Early) (s : State) : State :=
  putEarly { e with noDisk := some (!inputPresent s) }
    { readCd s with status := { s.status with noDisk := !inputPresent s } }

/-- The second statement of `RefreshInputs()`. -/
def sampleProtect (e : Early) (s : State) : State :=
  putEarly { e with writeProtected := some (inputProtected s) }
    { readWp s with status := { s.status with writeProtected := inputProtected s } }

/-- What follows `RefreshInputs()`: `status()` returns the three bits as they stand (R301); another call decides on the values
it sampled itself (R303) and on NotInitialized as it stands, and returns (what `initialize` then returns is log 36) or comes to
`Lock()`. -/
def endOfEarly (e : Early) (noDisk writeProtected : Bool) (s : State) : State :=
  match e.call with
  | none => otherReturns e.thread (.drive s.status) (endEarly e.thread s)
  | some c =>
    match earlyReturn c ⟨s.status.notInitialized, noDisk, writeProtected⟩ with
    | some v => otherReturns e.thread v (endEarly e.thread s)
    | none => addWaiter ⟨e.thread, c⟩ (endEarly e.thread s)

/-- The next statement of another thread's early part (R294, R302): nothing on the link, and `seq` stays the place of the
operation that runs. -/
def earlyStatement (e : Early) (s : State) : State :=
  match e.noDisk, e.writeProtected with
  | none, _ => sampleDisk e s
  | some _, none => sampleProtect e s
  | some d, some w => endOfEarly e d w s

/-- One move of another thread than the one whose instruction runs. The primitive `Lock()` has no early part. -/
def otherMove (v : OtherMove) (s : State) : State :=
  match v with
  | .call t c =>
    if canCall s t then
      if c = some .bareLock then addWaiter ⟨t, .bareLock⟩ s else putEarly ⟨t, c, none, none⟩ s
    else s
  | .go t =>
    match s.early.find? (fun e => e.thread == t && t != s.me) with
    | some e => earlyStatement e s
    | none => s

/-- The moves that fall between the same two statements, one after another. -/
def otherMoves (vs : List OtherMove) (s : State) : State :=
  match vs with
  | [] => s
  | v :: t => otherMoves t (otherMove v s)

/-- The next entry of the free input `others`. -/
def takeOthers (s : State) : State :=
  match s.others with
  | [] => s
  | vs :: rest => otherMoves vs { s with others := rest }

/-- What happens between two statements of the running instruction: the moves of other threads that fall there. They can change
no more than the fields named here (R294). -/
def meanwhile (s : State) : State :=
  { s with
    status := { s.status with
      noDisk := (takeOthers s).status.noDisk, writeProtected := (takeOthers s).status.writeProtected }
    cd := (takeOthers s).cd
    wp := (takeOthers s).wp
    hostOut := (takeOthers s).hostOut
    waiters := (takeOthers s).waiters
    early := (takeOthers s).early
    others := (takeOthers s).others
    events := (takeOthers s).events }

/-- An event on a port (R12), after the moves of other threads that come before it. -/
def emit (e : Event) (s : State) : State :=
  record e (meanwhile s)

/-- An exchange in which the card returns `rx` (40_transport.md R130). -/
def xchgGiven (tx rx : Byte) (s : State) : State :=
  emit (.xchg tx rx) s

/-- `Xchg(tx) -> rx` (R130): the card's answer is the next byte of the free input `rx` (20_memory.md R75). -/
def xchg (tx : Byte) (s : State) : Byte × State :=
  (s.rx.pop.1, xchgGiven tx s.rx.pop.1 { s with rx := s.rx.pop.2 })

/-- "Send": an exchange whose received byte is discarded (R130). -/
def send (tx : Byte) (s : State) : State :=
  (xchg tx s).2

/-- `k` dummy bytes sent and their answers discarded. -/
def sendDummies (k : Nat) (s : State) : State :=
  match k with
  | 0 => s
  | j + 1 => sendDummies j (send s.cfg.dummy s)

/-- The bytes of a list sent in order, answers discarded. -/
def sendAll (bytes : List Byte) (s : State) : State :=
  match bytes with
  | [] => s
  | b :: t => sendAll t (send b s)

/-- `CS <- level` (R12). -/
def driveCs (level : ChipSelect) (s : State) : State :=
  emit (.cs level) { s with cs := level }

/-- The peripheral speed a selector stands for (00_scope.md R9 `SPEED_LOW`, `SPEED_HIGH`). -/
def speedOf (c : Config) (sp : Speed) : Nat :=
  match sp with
  | .low => c.speedLow
  | .high => c.speedHigh

/-- `Speed <- sp` (R12): sets `speedSel` and drives the speed-select output (log 26). -/
def setSpeed (sp : Speed) (s : State) : State :=
  emit (.speed sp) { s with speedSel := sp, spiCfg := { s.spiCfg with speed := speedOf s.cfg sp } }

/-- The number the tick counter wraps at (10_state.md R32). -/
def tickModulus (c : Config) : Nat := 2 ^ c.tickBits

/-- `Now()` (R12, R331): the counter has advanced by the next amount of the free input `tickAdv`. -/
def now (s : State) : Nat × State :=
  let t := (s.tick + s.tickAdv.pop.1) % tickModulus s.cfg
  (t, emit (.now t) { s with tick := t, tickAdv := s.tickAdv.pop.2 })

/-- `Delay(ms)` (R12, R135): no state of the block changes; how far the tick counter advances meanwhile is the next reading's
free input (log 20). -/
def delay (ms : Nat) (s : State) : State :=
  emit (.delay ms) s

/-- `StartWindow(d)` (R32); the window is live until it is closed. -/
def startWindow (d : U32) (s : State) : Window × State :=
  let w : Window := ⟨(now s).1, d⟩
  (w, { (now s).2 with wins := w :: (now s).2.wins })

/-- The activation that owns the innermost window ends. -/
def closeWindow (s : State) : State :=
  { s with wins := s.wins.tail }

/-- Elapsed time by wraparound-safe subtraction (R32). -/
def elapsed (c : Config) (start t : Nat) : Nat :=
  (t + tickModulus c - start) % tickModulus c

/-- `Expired(w)` (R32): one `Now()` event, elapsed at least the duration. -/
def expired (w : Window) (s : State) : Bool × State :=
  (decide (w.durationMs.toNat ≤ elapsed s.cfg w.start (now s).1), (now s).2)

/-- `CardPresent()` (45_guard_status.md R300). -/
def cardPresent (s : State) : Bool × State :=
  (inputPresent (meanwhile s), readCd (meanwhile s))

/-- `WpActive()` (R300). -/
def wpActive (s : State) : Bool × State :=
  (inputProtected (meanwhile s), readWp (meanwhile s))

/-- `seq <- q` (R24). -/
def enter (q : Seq) (s : State) : State :=
  { s with seq := q, path := q :: s.path }

/-- A free value of 32 bits (93_implementation_defined.md U6, log 8). -/
def drawU32 (s : State) : U32 × State :=
  (Config.freeU32 s.free, { s with free := s.free + 1 })

/-! ### When polling can never end (log 4) -/

/-- The tick counter has stopped: no scripted advance is left and the repeated one is a multiple of its modulus. -/
def ticksFrozen (s : State) : Bool :=
  s.tickAdv.next.isEmpty && s.tickAdv.rest % tickModulus s.cfg == 0

/-- The card repeats one byte and the tick counter has stopped. -/
def frozen (s : State) : Bool :=
  s.rx.next.isEmpty && ticksFrozen s

/-- More iterations than any poll that ends can take: once both inputs repeat, the poll's state is the tick value alone, so
after 2^TICK_BITS further iterations it repeats itself for ever. -/
def pollFuel (s : State) : Nat :=
  s.rx.next.length + s.tickAdv.next.length + tickModulus s.cfg + 1

/-! ### Host memory (20_memory.md R64) -/

/-- What a byte of memory that nothing has written reads as (DESIGN CHOICE, log 10). -/
def Memory.absent : Byte := 0#8

/-- The byte at an address. -/
def Memory.read (m : Memory) (a : Nat) : Byte :=
  match m with
  | [] => Memory.absent
  | c :: t => if c.1 = a then c.2 else Memory.read t a

/-- A cell in front of a list, left out when it holds what an unlisted address reads as. -/
def Memory.cons (a : Nat) (b : Byte) (t : Memory) : Memory :=
  if b = Memory.absent then t else (a, b) :: t

/-- Store one byte, keeping the canonical form. -/
def Memory.write (m : Memory) (a : Nat) (b : Byte) : Memory :=
  match m with
  | [] => Memory.cons a b []
  | c :: t =>
    if a < c.1 then Memory.cons a b (c :: t)
    else if a = c.1 then Memory.cons a b t
    else c :: Memory.write t a b

/-- Bytes stored one after another from address `a` on. -/
def Memory.writeAll (m : Memory) (a : Nat) (bs : List Byte) : Memory :=
  match bs with
  | [] => m
  | b :: t => Memory.writeAll (m.write a b) (a + 1) t

/-- Addresses strictly rising from `lo` on, and no cell that holds what an unlisted address reads as. -/
def Memory.wfFrom (lo : Nat) (m : Memory) : Bool :=
  match m with
  | [] => true
  | c :: t => decide (lo ≤ c.1) && c.2 != Memory.absent && Memory.wfFrom (c.1 + 1) t

/-- The canonical form: equal memories are equal lists. -/
def Memory.wf (m : Memory) : Bool := Memory.wfFrom 0 m

/-- `MemRead(off, 1)` (R64): byte `off` of the current buffer. That the buffers lie in one flat host memory is the model's
choice (log 10). -/
def memRead (off : Nat) (s : State) : Byte :=
  s.mem.read (s.bufBase + off)

/-- `MemWrite(off, 1, v)` (R64). The host's own stores, which R64 leaves open but for when they may not fall, are `host` turns
(Machine.hostTurn, log 10). -/
def memWrite (off : Nat) (v : Byte) (s : State) : State :=
  { s with mem := s.mem.write (s.bufBase + off) v }

/-- Byte `i` of a place (45_guard_status.md R292). -/
def placeRead (p : Place) (i : Nat) (s : State) : Byte :=
  match p with
  | .buffer off => memRead (off + i) s
  | .csd => s.csd[i]?.getD 0#8

/-- Store at byte `i` of a place (R292, 40_transport.md R147). -/
def placeWrite (p : Place) (i : Nat) (v : Byte) (s : State) : State :=
  match p with
  | .buffer off => memWrite (off + i) v s
  | .csd => { s with csd := s.csd.setIfInBounds i v }

/-- The place an operand names. -/
def placeOf (l : Loc) : Place :=
  match l with
  | .buffer off => .buffer off.toNat
  | .csd => .csd

/-- A place that has `len` bytes: `csd` has elements 0 to 15 (10_state.md R29). R64 ends a buffer at offset count * 512 - 1; a
primitive or a command executed by itself belongs to no operation and has no count, so its offsets have no bound here and go on
in the flat host memory: the model's choice (DESIGN CHOICE, log 35). Inside `read` and `write` no offset comes past the end. -/
def placeHolds (p : Place) (len : Nat) : Bool :=
  match p with
  | .buffer _ => true
  | .csd => decide (len ≤ 16)

/-! ### The pending table (10_state.md R34) -/

/-- `xfer.pending[p]`. -/
def Pending.get (t : Pending) (p : Bool) : Bool := if p then t.p1 else t.p0

/-- `xfer.pending[p] <- v`. -/
def Pending.set (t : Pending) (p v : Bool) : Pending := if p then { t with p1 := v } else { t with p0 := v }

/-- `xfer.pending[p]` of this instance's peripheral. -/
def pendingHere (s : State) : Bool := s.pending.get s.cfg.peripheralId

/-! ### The exclusive lock (45_guard_status.md R290, R291) -/

/-- Whether `Lock()` by the calling thread is granted at once: the lock is free or its own. -/
def lockOpen (s : State) : Bool :=
  s.lock.owner == none || s.lock.owner == some s.me

/-- The configuration `Lock()` applies (R290 `Configure`). -/
def lockConfig (s : State) : SpiConfig :=
  ⟨speedOf s.cfg s.speedSel, s.cfg.spiMode, s.cfg.spiBitOrder⟩

/-- The lock after `Lock()` by its owner (depth one more) or by a thread that finds it free. -/
def lockTaken (s : State) : LockState :=
  if s.lock.owner = some s.me then ⟨s.lock.owner, s.lock.depth + 1⟩ else ⟨some s.me, 1⟩

/-- `Lock()` granted (R290): owner and depth, then `Configure`. -/
def grantLock (s : State) : State :=
  emit (.configure (lockConfig s))
    { record (.lock s.me) { meanwhile s with lock := lockTaken s } with spiCfg := lockConfig s }

/-- The lock after `Unlock()` by its owner. -/
def lockReleased (s : State) : LockState :=
  if s.lock.depth = 1 then ⟨none, 0⟩ else ⟨s.lock.owner, s.lock.depth - 1⟩

/-- `Unlock()` (R291); its precondition is checked (log 14). -/
def unlock (s : State) : Res Unit :=
  if s.lock.owner = some s.me ∧ 1 ≤ s.lock.depth then
    .ok () (record (.unlock s.me) { meanwhile s with lock := lockReleased s })
  else .refuse .unlockByNonOwner

/-! ### Failing and leaving (60_exceptions.md R310, R322, R324) -/

/-- `raise c` (R12, R31): record the cause; the primitive then returns its failing value. -/
def raise (c : Cause) (s : State) : State :=
  { s with cause := c }

/-- `deselect()` (40_transport.md R133). -/
def deselect (s : State) : State :=
  send s.cfg.dummy (driveCs .deasserted s)

/-- The exit sequence (43_blockio.md R230, R322 step 5): `deselect()` then `Unlock()`, once for every operation that took the
lock, whether it failed or not. -/
def exitSequence (s : State) : Res Unit :=
  unlock (deselect s)

/-- `seq <- q` by the calling thread, outside the lock: `seq` is the place of the operation that has the sequencer, so while
another thread holds the lock it keeps that thread's place (R24; log 1). -/
def enterOwn (q : Seq) (s : State) : State :=
  if lockOpen s then enter q s else s

/-- The return to the host (R322 step 6, R324): the value on the host port, `seq` back to Idle; nothing is restored, because
nothing was saved. -/
def returnToHost (v : HostReturn) (s : State) : State :=
  enterOwn .idle (record (.ret s.me v) { meanwhile s with hostOut := v })

/-- How the host call `c` ends. -/
def Res.callOutcome (x : Res HostReturn) (c : Call) : Host.Outcome State Fault Refusal :=
  match x with
  | .ok v s => .next (returnToHost v s)
  | .hang h s => .next { s with hung := some ⟨h, s.me, some c⟩ }
  | .fault e => .fault e
  | .refuse r => .refused r

end Sys2Proof.Machine
end

