-- ==== Sys2Proof/Machine/Flags.lean ====
section
/-! DEFINITION. The block's flags (10_state.md R36): tests on a response byte (00_scope.md R14), the data-response test
(40_transport.md R143), the DriveStatus bits and their recomputation (45_guard_status.md R302). -/

namespace Sys2Proof.Machine

open Sys2Proof

/-- `Responded(r)` (R14): bit 7 clear. -/
def responded (r : Byte) : Bool := !r.getLsbD 7

/-- `AcceptedIdle(r)` (R14). -/
def acceptedIdle (r : Byte) : Bool := r == 0x01#8

/-- `AcceptedReady(r)` (R14). -/
def acceptedReady (r : Byte) : Bool := r == 0x00#8

/-- `IdleOrReady(r)` (R14): unsigned comparison with 1. -/
def idleOrReady (r : Byte) : Bool := decide (r.toNat ≤ 1)

/-- The data response is an acceptance (R143): its low five bits are 0b00101. -/
def dataAccepted (d : Byte) : Bool := d &&& dataAcceptMask == dataAcceptValue

/-- `ocr[0][6]`, the CCS bit (42_probe.md R210). -/
def ccsBit (ocr : Vector Byte 4) : Bool := ocr[0].getLsbD 6

/-- The R7 echo matches (42_probe.md R205). -/
def echoMatches (ocr : Vector Byte 4) : Bool := ocr[2] == 0x01#8 && ocr[3] == 0xAA#8

/-- `RefreshInputs()` (R302): card-detect first. Also the values sampled, which the early checks read (R303). -/
def refreshInputs (s : State) : DriveStatus × State :=
  let p := cardPresent s
  let a := wpActive { p.2 with status := { p.2.status with noDisk := !p.1 } }
  (⟨a.2.status.notInitialized, !p.1, a.1⟩, { a.2 with status := { a.2.status with writeProtected := a.1 } })

/-- The DriveStatus as the number of 30_encoding.md R110. -/
def driveStatusByte (d : DriveStatus) : Byte :=
  (if d.notInitialized then 0x01#8 else 0#8) ||| (if d.noDisk then 0x02#8 else 0#8)
    ||| (if d.writeProtected then 0x04#8 else 0#8)

/-- The Result as the number of R112. -/
def resultCode (r : Result) : Nat :=
  match r with
  | .ok => 0
  | .error => 1
  | .writeProtected => 2
  | .notReady => 3
  | .paramError => 4

end Sys2Proof.Machine
end

