-- ==== Sys2Proof/Machine/Operands.lean ====
section
/-! DEFINITION. Operands: the address conversion (20_memory.md R66), the bytes of a frame (30_encoding.md R92 to R95), and the
fields cut from the CSD and the SD status (44_ioctl.md R263 to R273). -/

namespace Sys2Proof.Machine

open Sys2Proof

/-- `ToAddr(s)` (R66): the sector number, or `s * 512` modulo 2^32. -/
def toAddr (card : Card) (sector : U32) : U32 :=
  if card.blockAddressed then sector else sector * 512#32

/-- The advance of the address per sector of a `read` (R67). -/
def addrStep (card : Card) : U32 :=
  if card.blockAddressed then 1#32 else 512#32

/-- `Trailer(idx)` (R95). -/
def trailer (c : Config) (idx : Byte) : Byte :=
  if idx = 0#8 then c.trailerCmd0 else if idx = 8#8 then c.trailerCmd8 else c.trailerOther

/-- The first byte of a frame (R93): `0x40 | (idx & 0x7F)`. -/
def frameByte0 (idx : Byte) : Byte := frameStartBits ||| (idx &&& 0x7F#8)

/-- The six bytes of a frame in the order they are sent (R92). -/
def frameBytes (c : Config) (idx : Byte) (arg : U32) : List Byte :=
  frameByte0 idx :: (u32Bytes arg ++ [trailer c idx])

/-! ### The CSD (R263 to R273) -/

/-- CSD_STRUCTURE: the top two bits of byte 0 (R265). -/
def csdStructure (csd : Vector Byte 16) : BitVec 2 := csd[0].extractLsb' 6 2

/-- C_SIZE of structure version 2 (R263), 22 bits. -/
def cSizeV2 (csd : Vector Byte 16) : BitVec 22 := csd[7].extractLsb' 0 6 ++ csd[8] ++ csd[9]

/-- READ_BL_LEN (R264). -/
def readBlLen (csd : Vector Byte 16) : BitVec 4 := csd[5].extractLsb' 0 4

/-- C_SIZE of the v1 formula (R264), 12 bits. -/
def cSizeV1 (csd : Vector Byte 16) : BitVec 12 := csd[6].extractLsb' 0 2 ++ csd[7] ++ csd[8].extractLsb' 6 2

/-- C_SIZE_MULT (R264), 3 bits. -/
def cSizeMult (csd : Vector Byte 16) : BitVec 3 := csd[9].extractLsb' 0 2 ++ csd[10].extractLsb' 7 1

/-- `n` of the v1 formula (R264). -/
def v1Exponent (csd : Vector Byte 16) : Nat := (readBlLen csd).toNat + (cSizeMult csd).toNat + 2

/-- `SectorCount` (R263, R264); none where R264's shift count is negative (U6). -/
def sectorCount (csd : Vector Byte 16) : Option U32 :=
  if csdStructure csd = 1#2 then some (((cSizeV2 csd).setWidth 32 + 1#32) * 1024#32)
  else if 9 ≤ v1Exponent csd then some (((cSizeV1 csd).setWidth 32 + 1#32) <<< (v1Exponent csd - 9))
  else none

/-- SECTOR_SIZE (R269), 7 bits. -/
def eraseSectorSize (csd : Vector Byte 16) : BitVec 7 := csd[10].extractLsb' 0 6 ++ csd[11].extractLsb' 7 1

/-- The low two bits of WRITE_BL_LEN (R269). -/
def writeBlLenLow (csd : Vector Byte 16) : BitVec 2 := csd[13].extractLsb' 6 2

/-- `BlockSize(SD1, csd)` (R269); none where the shift count is negative (U6). -/
def blockSizeSd1 (csd : Vector Byte 16) : Option U32 :=
  if 1 ≤ (writeBlLenLow csd).toNat then
    some (((eraseSectorSize csd).setWidth 32 + 1#32) <<< ((writeBlLenLow csd).toNat - 1))
  else none

/-- ERASE_GRP_SIZE (R270), 5 bits. -/
def eraseGrpSize (csd : Vector Byte 16) : BitVec 5 := csd[10].extractLsb' 2 5

/-- ERASE_GRP_MULT (R270), 5 bits; its two high bits by the platform's reading (U7). -/
def eraseGrpMult (m : MmcGroupMult) (csd : Vector Byte 16) : BitVec 5 :=
  match m with
  | .fromByte10 => csd[10].extractLsb' 0 2 ++ csd[11].extractLsb' 5 3
  | .fromByte11 => csd[11].extractLsb' 0 2 ++ csd[11].extractLsb' 5 3

/-- `BlockSize(MMC, csd)` (R270). -/
def blockSizeMmc (m : MmcGroupMult) (csd : Vector Byte 16) : U32 :=
  ((eraseGrpSize csd).setWidth 32 + 1#32) * ((eraseGrpMult m csd).setWidth 32 + 1#32)

/-- The size on SD2, from the first 16 bytes of the SD status (R268): `16 << nibble`. -/
def auSize (sdStatus : Vector Byte 16) : U32 := 16#32 <<< (sdStatus[10].extractLsb' 4 4).toNat

/-- `EraseSupported(csd)` (R273). -/
def eraseSupported (csd : Vector Byte 16) : Bool :=
  csdStructure csd != 0#2 || csd[10].getLsbD 6

/-! ### The decoding functions as the platform has them (93_implementation_defined.md U6 to U8) -/

/-- A value of the spec's formula, or a free value where the formula gives none (U6, log 8). -/
def valueOrDraw (v : Option U32) (s : State) : U32 × State :=
  match v with
  | some x => (x, s)
  | none => drawU32 s

/-- The value GET_SECTOR_COUNT writes (R265). -/
def sectorCountValue (s : State) : U32 × State :=
  match s.cfg.csdDecode with
  | .standard => valueOrDraw (sectorCount s.csd) s
  | .platform => (Config.platformSectorCount s.csd.toList, s)

/-- `BlockSize(card.type, csd)` (R267): none for a type the spec gives no formula (Unknown, reached only in the case of
70_reset_and_hazards.md R373; log 8). -/
def blockSize (m : MmcGroupMult) (t : CardType) (csd : Vector Byte 16) : Option U32 :=
  match t with
  | .mmc => some (blockSizeMmc m csd)
  | .sd1 => blockSizeSd1 csd
  | .sd2 => none
  | .unknown => none

/-- The value GET_BLOCK_SIZE writes for SD1 and MMC (R267); for a card of type Unknown a free value, whoever decodes (log 8). -/
def blockSizeValue (s : State) : U32 × State :=
  match s.cfg.csdDecode with
  | .standard => valueOrDraw (blockSize s.cfg.mmcGroupMult s.card.type s.csd) s
  | .platform =>
    if s.card.type = .unknown then drawU32 s else (Config.platformBlockSize (s.card.type == .mmc) s.csd.toList, s)

/-- The value GET_BLOCK_SIZE writes on SD2 (R268). -/
def auSizeValue (s : State) : U32 :=
  match s.cfg.csdDecode with
  | .standard => auSize s.csd
  | .platform => Config.platformAuSize s.csd.toList

/-- The support test of ERASE_SECTOR (R273). -/
def eraseSupportedHere (s : State) : Bool :=
  match s.cfg.csdDecode with
  | .standard => eraseSupported s.csd
  | .platform => Config.platformEraseSupported s.csd.toList

end Sys2Proof.Machine
end

