-- ==== Sys2Proof/Machine/Transport.lean ====
section
/-! DEFINITION. The transport primitives (40_transport.md R130 to R149) and the transfer bridge they move payloads with
(45_guard_status.md R292, R293), each with its meaning as an instruction. -/

namespace Sys2Proof.Machine

open Sys2Proof

/-! ### The transfer bridge (R292, R293) -/

/-- `StartTransfer(dir, loc, len)` (R292); precondition: nothing pending on the peripheral (U3). -/
def startTransfer (dir : Dir) (place : Place) (len : Nat) (s : State) : Res Unit :=
  if pendingHere s then .refuse .transferPending
  else if !placeHolds place len then .fault .scratchOutOfRange
  else
    .ok () (emit (.startTransfer dir place len)
      { s with pending := s.pending.set s.cfg.peripheralId true, engine := some ⟨dir, place, len, false⟩ })

/-- The engine's exchanges of an outbound transfer, ascending, received bytes discarded (R292). -/
def moveOut (place : Place) (i k : Nat) (s : State) : State :=
  match k with
  | 0 => s
  | j + 1 => moveOut place (i + 1) j (send (placeRead place i s) s)

/-- The engine's exchanges of an inbound transfer: `DUMMY` out, the received byte stored, ascending (R292). -/
def moveIn (place : Place) (i k : Nat) (s : State) : State :=
  match k with
  | 0 => s
  | j + 1 => moveIn place (i + 1) j (placeWrite place i (xchg s.cfg.dummy s).1 (xchg s.cfg.dummy s).2)

/-- All the exchanges of a transfer. -/
def moveBytes (t : Transfer) (s : State) : State :=
  match t.dir with
  | .out => moveOut t.place 0 t.len s
  | .inp => moveIn t.place 0 t.len s

/-- The completion closure (R293): the pending bit cleared, the waiting sequencer released. -/
def complete (s : State) : State :=
  emit (.complete s.cfg.peripheralId)
    { s with pending := s.pending.set s.cfg.peripheralId false, engine := none }

/-- The engine works on what it holds: the exchanges, then the completion signal if it ever fires (free input `fires`; R293,
R364). True when it fired. -/
def runEngine (t : Transfer) (s : State) : Bool × State :=
  if t.moved then (false, s)
  else
    let s := moveBytes t s
    if s.fires.pop.1 then (true, complete { s with fires := s.fires.pop.2 })
    else (false, { s with fires := s.fires.pop.2, engine := some { t with moved := true } })

/-- `WaitForTransfer()` (R293): until the completion signal has fired, without limit. -/
def waitForTransfer (s : State) : Res Unit :=
  if !pendingHere s then .ok () s
  else
    match s.engine with
    | none => .refuse .foreignTransfer
    | some t =>
      let r := runEngine t s
      if r.1 then .ok () r.2 else .hang .completion r.2

/-- One payload: start, then wait (40_transport.md R142, R147). -/
def transferPayload (dir : Dir) (place : Place) (len : Nat) (s : State) : Res Unit :=
  (startTransfer dir place len s).bind fun _ s => waitForTransfer s

/-! ### waitReady, select (R132, R134) -/

/-- Polling can never end: the card repeats a byte that is not ready and the tick counter has stopped (R363). -/
def readyNever (s : State) : Bool :=
  frozen s && s.rx.rest != readyByte

/-- The loop of R134: read, test, test expiry, delay. -/
def waitReadyLoop (k : Nat) (w : Window) (s : State) : Res Bool :=
  match k with
  | 0 => .hang .waitReady s
  | j + 1 =>
    let d := xchg s.cfg.dummy s
    if d.1 = readyByte then .ok true d.2
    else
      let e := expired w d.2
      if e.1 then .ok false (raise (.timeout .waitReady) e.2)
      else
        let s := delay s.cfg.pollDelayMs e.2
        if readyNever s then .hang .waitReady s else waitReadyLoop j w s

/-- `waitReady(T)` (R134). -/
def waitReady (ms : U32) (s : State) : Res Bool :=
  let w := startWindow ms s
  (waitReadyLoop (pollFuel w.2) w.1 w.2).bind fun ok s => .ok ok (closeWindow s)

/-- `select()` (R132). -/
def select (s : State) : Res Bool :=
  (waitReady tSelectMs (send s.cfg.dummy (driveCs .asserted s))).bind fun ready s =>
    if ready then .ok true s else .ok false (deselect s)

/-! ### sendCommand (R136 to R140) -/

/-- What one polled byte does (R138): it is kept in `r1` and one poll fewer is left. -/
def takeResponse (b : Byte) (s : State) : State :=
  { s with r1 := b, n := if s.n = 0#4 then 0#4 else s.n - 1#4 }

/-- The response poll (R138): at most `k` bytes, up to the first with bit 7 clear. -/
def pollResponse (k : Nat) (s : State) : State :=
  match k with
  | 0 => s
  | j + 1 =>
    let d := xchg s.cfg.dummy s
    let s := takeResponse d.1 d.2
    if responded d.1 then s else pollResponse j s

/-- The frame, the discard byte of the stop-transmission command, the response poll (R136). -/
def frameAndPoll (idx : Byte) (arg : U32) (s : State) : State :=
  let s := { s with fr := ⟨idx, arg, trailer s.cfg idx⟩ }
  let s := sendAll (frameBytes s.cfg idx arg) s
  let s := if idx = s.cfg.stopCmdIndex then send s.cfg.dummy s else s
  pollResponse cmdResponsePolls { s with n := BitVec.ofNat 4 cmdResponsePolls }

/-- One command without the application flag (R136, R140). -/
def sendPlain (idx : Byte) (arg : U32) (s : State) : Res Byte :=
  if idx = s.cfg.stopCmdIndex then
    if s.cs = .deasserted then .refuse .stopOutsideSelection
    else
      let t := frameAndPoll idx arg s
      .ok t.r1 t
  else
    (select (deselect s)).bind fun selected s =>
      if selected then
        let t := frameAndPoll idx arg s
        .ok t.r1 t
      else .ok selectFailR1 { s with r1 := selectFailR1 }

/-- `sendCommand(index, arg)` (R136, R137): with the application flag, CMD55 first, and its value alone when above 1. -/
def sendCommand (index : Byte) (arg : U32) (s : State) : Res Byte :=
  if index.getLsbD 6 then .refuse .reservedIndex
  else if index.getLsbD 7 then
    (sendPlain 55#8 0#32 s).bind fun r s =>
      if idleOrReady r then sendPlain (index &&& 0x7F#8) arg s else .ok r s
  else sendPlain index arg s

/-! ### sendDataBlock, receiveDataBlock (R141 to R147) -/

/-- `sendDataBlock(off, token)` (R141). -/
def sendDataBlock (off : Nat) (token : Byte) (s : State) : Res Bool :=
  (waitReady tSendBlockMs s).bind fun ready s =>
    if !ready then .ok false s
    else
      let s := send token s
      if token = s.cfg.tokenStop then .ok true s
      else
        (transferPayload .out (.buffer off) sectorSize s).bind fun _ s =>
          let s := send s.cfg.crcPlaceholder (send s.cfg.crcPlaceholder s)
          let d := xchg s.cfg.dummy s
          if dataAccepted d.1 then .ok true d.2
          else .ok false (raise (.diskError .dataResponse) d.2)

/-- The token poll can never end: the line idles at 0xFF and the tick counter has stopped (R363). -/
def tokenNever (s : State) : Bool :=
  frozen s && s.rx.rest == 0xFF#8

/-- The token poll (R146): goes on only while the byte is 0xFF; true when it ended on another byte. -/
def tokenLoop (k : Nat) (w : Window) (s : State) : Res Bool :=
  match k with
  | 0 => .hang .dataToken s
  | j + 1 =>
    let d := xchg s.cfg.dummy s
    let s := { d.2 with tok := d.1 }
    if d.1 ≠ 0xFF#8 then .ok true s
    else
      let e := expired w s
      if e.1 then .ok false (raise (.timeout .dataToken) e.2)
      else
        let s := delay s.cfg.pollDelayMs e.2
        if tokenNever s then .hang .dataToken s else tokenLoop j w s

/-- `receiveDataBlock(dest, len)` (R145). -/
def receiveDataBlock (dest : Place) (len : Nat) (s : State) : Res Bool :=
  let w := startWindow tTokenMs s
  (tokenLoop (pollFuel w.2) w.1 w.2).bind fun found s =>
    let s := closeWindow s
    if !found then .ok false s
    else if s.tok ≠ dataStartToken then .ok false (raise (.diskError .wrongToken) s)
    else
      (transferPayload .inp dest len s).bind fun _ s => .ok true (sendDummies 2 s)

/-! ### The primitives as instructions (30_encoding.md R116) -/

/-- `Xchg(tx)` (R130). -/
def execXchg (tx : Byte) (s : State) : Host.Outcome State Fault Refusal :=
  Res.outcome .byte (.ok (xchg tx s).1 (xchg tx s).2)

/-- `select()` (R132). -/
def execSelect (s : State) : Host.Outcome State Fault Refusal :=
  Res.outcome .bool (select s)

/-- `deselect()` (R133). -/
def execDeselect (s : State) : Host.Outcome State Fault Refusal :=
  Res.outcome (fun _ => .none) (.ok () (deselect s))

/-- `waitReady(T)` (R134). -/
def execWaitReady (ms : U32) (s : State) : Host.Outcome State Fault Refusal :=
  Res.outcome .bool (waitReady ms s)

/-- `sendCommand(index, arg)` (R136). -/
def execSendCommand (index : Byte) (arg : U32) (s : State) : Host.Outcome State Fault Refusal :=
  Res.outcome .byte (sendCommand index arg s)

/-- `sendDataBlock(off, token)` (R141). -/
def execSendDataBlock (off : U64) (token : Byte) (s : State) : Host.Outcome State Fault Refusal :=
  Res.outcome .bool (sendDataBlock off.toNat token s)

/-- `receiveDataBlock(dest, len)` (R145). -/
def execReceiveDataBlock (dest : Loc) (len : BitVec 16) (s : State) : Host.Outcome State Fault Refusal :=
  Res.outcome .bool (receiveDataBlock (placeOf dest) len.toNat s)

/-- `StartTransfer(dir, loc, len)` (R292). -/
def execStartTransfer (dir : Dir) (loc : Loc) (len : BitVec 16) (s : State) : Host.Outcome State Fault Refusal :=
  Res.outcome (fun _ => .none) (startTransfer dir (placeOf loc) len.toNat s)

/-- `WaitForTransfer()` (R293). -/
def execWaitForTransfer (s : State) : Host.Outcome State Fault Refusal :=
  Res.outcome (fun _ => .none) (waitForTransfer s)

end Sys2Proof.Machine
end

