-- ==== Sys2Proof/Machine/Commands.lean ====
section
/-! DEFINITION. The card commands, one per row of 30_encoding.md R106 (41_commands.md R160 to R178): the call the sequencer
makes, the test on the response, and what the row says follows on the link. Each returns whether the card accepted and what
follows succeeded; `r1` holds the response. -/

namespace Sys2Proof.Machine

open Sys2Proof

/-- `seq <- q` inside a host operation; a command executed by itself has no place in an operation (log 12). -/
def visit (inOp : Bool) (q : Seq) (s : State) : State :=
  if inOp then enter q s else s

/-- A command whose test is `AcceptedReady` (41_commands.md R161); a failing test raises its cause (60_exceptions.md R310). -/
def command (index : Byte) (arg : U32) (tag : DiskTag) (s : State) : Res Bool :=
  (sendCommand index arg s).bind fun r s =>
    if acceptedReady r then .ok true s else .ok false (raise (.diskError tag) s)

/-- Read `ocr[0..3]`, index 0 first (10_state.md R29, 42_probe.md R205, R209). -/
def readOcr (i k : Nat) (s : State) : State :=
  match k with
  | 0 => s
  | j + 1 =>
    let d := xchg s.cfg.dummy s
    readOcr (i + 1) j { d.2 with ocr := d.2.ocr.setIfInBounds i d.1 }

/-- CMD0 (R162): test `r == 0x01`. -/
def cmd0 (arg : U32) (s : State) : Res Bool :=
  (sendCommand 0x00#8 arg s).bind fun r s =>
    if acceptedIdle r then .ok true s else .ok false (raise (.diskError .cmd0) s)

/-- CMD1 (R163): test `r == 0x00`; a poll, so another value raises nothing. -/
def cmd1 (arg : U32) (s : State) : Res Bool :=
  (sendCommand 0x01#8 arg s).bind fun r s => .ok (acceptedReady r) s

/-- CMD8 (R164): test `r == 0x01`; when accepted the four bytes of the R7 payload follow. -/
def cmd8 (inOp : Bool) (arg : U32) (s : State) : Res Bool :=
  (sendCommand 0x08#8 arg s).bind fun r s =>
    if acceptedIdle r then .ok true (readOcr 0 4 (visit inOp .pR7 s)) else .ok false s

/-- CMD9 (R165) and the data block of 16 bytes: `ReadCSD()` (44_ioctl.md R262). -/
def cmd9 (arg : U32) (s : State) : Res Bool :=
  (command 0x09#8 arg .cmd9 s).bind fun ok s =>
    if ok then receiveDataBlock .csd csdLen s else .ok false s

/-- CMD12 (R166): no test is defined; true when the card responded. -/
def cmd12 (arg : U32) (s : State) : Res Bool :=
  (sendCommand 0x0C#8 arg s).bind fun r s => .ok (responded r) s

/-- ACMD13 (R167, 44_ioctl.md R268): one discarded byte, 16 bytes kept, 48 discarded. -/
def acmd13 (arg : U32) (s : State) : Res Bool :=
  (command 0x8D#8 arg .acmd13 s).bind fun ok s =>
    if !ok then .ok false s
    else
      (receiveDataBlock .csd csdLen (sendDummies 1 s)).bind fun got s =>
        if got then .ok true (sendDummies sdStatusRest s) else .ok false s

/-- CMD16 (R168). -/
def cmd16 (arg : U32) (s : State) : Res Bool :=
  command 0x10#8 arg .cmd16 s

/-- CMD17 (R169) and the data block of 512 bytes at `off`. -/
def cmd17 (inOp : Bool) (arg : U32) (s : State) : Res Bool :=
  (command 0x11#8 arg .cmd17 s).bind fun ok s =>
    if ok then receiveDataBlock (.buffer s.off) sectorSize (visit inOp .rData s) else .ok false s

/-- ACMD23 (R170): no test, the value is ignored. -/
def acmd23 (arg : U32) (s : State) : Res Bool :=
  (sendCommand 0x97#8 arg s).bind fun _ s => .ok true s

/-- CMD24 (R171) and the data block at offset 0. -/
def cmd24 (inOp : Bool) (arg : U32) (s : State) : Res Bool :=
  (command 0x18#8 arg .cmd24 s).bind fun ok s =>
    if ok then sendDataBlock 0 s.cfg.tokenSingle (visit inOp .wSingle s) else .ok false s

/-- The block loop of a multi-block write (43_blockio.md R234): until `remaining` is 0 or a block fails. -/
def blockLoop (inOp : Bool) (k : Nat) (s : State) : Res Unit :=
  match k with
  | 0 => .ok () s
  | j + 1 =>
    if s.remaining = 0#32 then .ok () s
    else
      (sendDataBlock s.off s.cfg.tokenMulti (visit inOp .wBlock s)).bind fun ok s =>
        if ok then blockLoop inOp j { s with off := s.off + sectorSize, remaining := s.remaining - 1#32 }
        else .ok () s

/-- The stream after an accepted CMD25: the blocks from offset 0, then the stop token, once, however the loop ended (R239). -/
def stream (inOp : Bool) (s : State) : Res Unit :=
  (blockLoop inOp s.remaining.toNat { s with off := 0 }).bind fun _ s =>
    (sendDataBlock 0 s.cfg.tokenStop (visit inOp .wStop s)).bind fun ok s =>
      if ok then .ok () s else .ok () { s with remaining := 1#32 }

/-- CMD25 (R172): when accepted, `remaining` blocks and the stop token; true when all went out. -/
def cmd25 (inOp : Bool) (arg : U32) (s : State) : Res Bool :=
  (command 0x19#8 arg .cmd25 s).bind fun ok s =>
    if ok then (stream inOp s).bind fun _ s => .ok (s.remaining == 0#32) s else .ok false s

/-- CMD32 (R173). -/
def cmd32 (arg : U32) (s : State) : Res Bool :=
  command 0x20#8 arg .cmd32 s

/-- CMD33 (R174). -/
def cmd33 (arg : U32) (s : State) : Res Bool :=
  command 0x21#8 arg .cmd33 s

/-- CMD38 (R175): when accepted, `waitReady(30000)` in the same selection. -/
def cmd38 (arg : U32) (s : State) : Res Bool :=
  (command 0x26#8 arg .cmd38 s).bind fun ok s =>
    if ok then waitReady tEraseMs s else .ok false s

/-- ACMD41 (R176): a poll, test `r == 0x00`; the type test looks at `r1` itself. -/
def acmd41 (arg : U32) (s : State) : Res Bool :=
  (sendCommand 0xA9#8 arg s).bind fun r s => .ok (acceptedReady r) s

/-- CMD55 (R177): test `r <= 0x01`. -/
def cmd55 (arg : U32) (s : State) : Res Bool :=
  (sendCommand 0x37#8 arg s).bind fun r s => .ok (idleOrReady r) s

/-- CMD58 (R178): when accepted the four bytes of the OCR follow. -/
def cmd58 (inOp : Bool) (arg : U32) (s : State) : Res Bool :=
  (command 0x3A#8 arg .cmd58 s).bind fun ok s =>
    if ok then .ok true (readOcr 0 4 (visit inOp .pOcr s)) else .ok false s

/-! ### The commands as instructions -/

/-- CMD0 (R162). -/
def execCmd0 (arg : U32) (s : State) : Host.Outcome State Fault Refusal := Res.outcome .bool (cmd0 arg s)
/-- CMD1 (R163). -/
def execCmd1 (arg : U32) (s : State) : Host.Outcome State Fault Refusal := Res.outcome .bool (cmd1 arg s)
/-- CMD8 (R164). -/
def execCmd8 (arg : U32) (s : State) : Host.Outcome State Fault Refusal := Res.outcome .bool (cmd8 false arg s)
/-- CMD9 (R165). -/
def execCmd9 (arg : U32) (s : State) : Host.Outcome State Fault Refusal := Res.outcome .bool (cmd9 arg s)
/-- CMD12 (R166). -/
def execCmd12 (arg : U32) (s : State) : Host.Outcome State Fault Refusal := Res.outcome .bool (cmd12 arg s)
/-- ACMD13 (R167). -/
def execAcmd13 (arg : U32) (s : State) : Host.Outcome State Fault Refusal := Res.outcome .bool (acmd13 arg s)
/-- CMD16 (R168). -/
def execCmd16 (arg : U32) (s : State) : Host.Outcome State Fault Refusal := Res.outcome .bool (cmd16 arg s)
/-- CMD17 (R169). -/
def execCmd17 (arg : U32) (s : State) : Host.Outcome State Fault Refusal := Res.outcome .bool (cmd17 false arg s)
/-- ACMD23 (R170). -/
def execAcmd23 (arg : U32) (s : State) : Host.Outcome State Fault Refusal := Res.outcome .bool (acmd23 arg s)
/-- CMD24 (R171). -/
def execCmd24 (arg : U32) (s : State) : Host.Outcome State Fault Refusal := Res.outcome .bool (cmd24 false arg s)
/-- CMD25 (R172). -/
def execCmd25 (arg : U32) (s : State) : Host.Outcome State Fault Refusal := Res.outcome .bool (cmd25 false arg s)
/-- CMD32 (R173). -/
def execCmd32 (arg : U32) (s : State) : Host.Outcome State Fault Refusal := Res.outcome .bool (cmd32 arg s)
/-- CMD33 (R174). -/
def execCmd33 (arg : U32) (s : State) : Host.Outcome State Fault Refusal := Res.outcome .bool (cmd33 arg s)
/-- CMD38 (R175). -/
def execCmd38 (arg : U32) (s : State) : Host.Outcome State Fault Refusal := Res.outcome .bool (cmd38 arg s)
/-- ACMD41 (R176). -/
def execAcmd41 (arg : U32) (s : State) : Host.Outcome State Fault Refusal := Res.outcome .bool (acmd41 arg s)
/-- CMD55 (R177). -/
def execCmd55 (arg : U32) (s : State) : Host.Outcome State Fault Refusal := Res.outcome .bool (cmd55 arg s)
/-- CMD58 (R178). -/
def execCmd58 (arg : U32) (s : State) : Host.Outcome State Fault Refusal := Res.outcome .bool (cmd58 false arg s)

end Sys2Proof.Machine
end

