-- ==== Sys2Proof/Machine/BlockIo.lean ====
section
/-! DEFINITION. The bodies of `read` and `write` after their early checks and lock (43_blockio.md R230 to R244). -/

namespace Sys2Proof.Machine

open Sys2Proof

/-- Ok exactly when nothing remains (R240). -/
def transferResult (s : State) : HostReturn :=
  .result (if s.remaining = 0#32 then .ok else .error)

/-- The sector loop of `read` (R231): one CMD17 and one data block per sector, until `remaining` is 0 or one fails. -/
def readLoop (k : Nat) (s : State) : Res Unit :=
  match k with
  | 0 => .ok () s
  | j + 1 =>
    if s.remaining = 0#32 then .ok () s
    else
      (cmd17 true s.addr (enter .rCmd17 s)).bind fun ok s =>
        if ok then
          readLoop j { s with off := s.off + sectorSize, addr := s.addr + addrStep s.card, remaining := s.remaining - 1#32 }
        else .ok () s

/-- The exit of an operation: state `q`, the exit sequence, the result (R230). -/
def leave (q : Seq) (f : State → HostReturn) (s : State) : Res HostReturn :=
  (exitSequence (enter q s)).bind fun _ s => .ok (f s) s

/-- `read` after the lock (R231). It stores into its own buffer also where the buffer of a waiting call overlaps it (DESIGN
CHOICE, log 37). -/
def readBody (buf sector count : U32) (s : State) : Res HostReturn :=
  let s := { enter .rLock s with bufBase := buf.toNat, addr := toAddr s.card sector, remaining := count, off := 0 }
  (readLoop count.toNat s).bind fun _ s => leave .rExit transferResult s

/-- `write` with one sector (R233). -/
def writeSingle (s : State) : Res Unit :=
  (cmd24 true s.addr (enter .wCmd24 s)).bind fun ok s =>
    if ok then .ok () { s with remaining := 0#32 } else .ok () s

/-- The ACMD23 hint, for SD cards only (R237); its answer is ignored. -/
def hint (count : U32) (s : State) : Res Unit :=
  if s.card.type = .sd1 ∨ s.card.type = .sd2 then
    (acmd23 count (enter .wHint s)).bind fun _ s => .ok () s
  else .ok () s

/-- `write` with more than one sector (R234). -/
def writeMulti (count : U32) (s : State) : Res Unit :=
  (hint count s).bind fun _ s =>
    (cmd25 true s.addr (enter .wCmd25 s)).bind fun _ s => .ok () s

/-- `write` after the lock (R236). -/
def writeBody (buf sector count : U32) (s : State) : Res HostReturn :=
  let s := { enter .wLock s with bufBase := buf.toNat, addr := toAddr s.card sector, remaining := count, off := 0 }
  (if count = 1#32 then writeSingle s else writeMulti count s).bind fun _ s => leave .wExit transferResult s

end Sys2Proof.Machine
end

