-- ==== Sys2Proof/Machine/Ioctl.lean ====
section
/-! DEFINITION. The bodies of `ioctl` (44_ioctl.md R260 to R277) between the lock and the exit sequence. Each returns the
result code. -/

namespace Sys2Proof.Machine

open Sys2Proof

/-- `ReadCSD()` (R262). -/
def readCsd (s : State) : Res Bool := cmd9 0#32 s

/-- SYNC (R261). -/
def syncBody (s : State) : Res Result :=
  (select s).bind fun ok s => .ok (if ok then .ok else .error) s

/-- GET_SECTOR_COUNT (R265). -/
def sectorCountBody (s : State) : Res Result :=
  (readCsd s).bind fun ok s =>
    if ok then
      let v := sectorCountValue s
      .ok .ok { v.2 with out := v.1 }
    else .ok .error s

/-- GET_BLOCK_SIZE (R267, R268). -/
def blockSizeBody (s : State) : Res Result :=
  if s.card.type = .sd2 then
    (acmd13 0#32 s).bind fun ok s =>
      if ok then .ok .ok { s with out := auSizeValue s } else .ok .error s
  else
    (readCsd s).bind fun ok s =>
      if ok then
        let v := blockSizeValue s
        .ok .ok { v.2 with out := v.1 }
      else .ok .error s

/-- `InnerReadCSD()` (R274): the common frame again on the same thread, which holds the lock. -/
def innerReadCsd (s : State) : Res Bool :=
  let r := refreshInputs (enter .iNested s)
  if notReady r.1 then .ok false r.2
  else
    (readCsd (grantLock r.2)).bind fun ok s =>
      (exitSequence s).bind fun _ s => .ok ok s

/-- `DiskError(eraseNotValid)` where no cause of its own was left (60_exceptions.md R310). -/
def raiseEraseNotValid (s : State) : State :=
  raise (.diskError .eraseNotValid) s

/-- The erase sequence (R272). -/
def eraseSequence (st ed : U32) (s : State) : Res Result :=
  (cmd32 st s).bind fun ok s =>
    if !ok then .ok .error s
    else
      (cmd33 ed s).bind fun ok s =>
        if !ok then .ok .error s
        else (cmd38 0#32 s).bind fun ok s => .ok (if ok then .ok else .error) s

/-- ERASE_SECTOR (R271). 60_exceptions.md R310 gives the cause for MMC; a card of type Unknown, which only the case of
70_reset_and_hazards.md R373 brings here, gets the same (log 13). -/
def eraseBody (start stop : U32) (s : State) : Res Result :=
  if s.card.type = .sd1 ∨ s.card.type = .sd2 then
    (innerReadCsd s).bind fun ok s =>
      let s := enter .iBody s
      if !ok then .ok .error (if s.cause = .none then raiseEraseNotValid s else s)
      else if eraseSupportedHere s then eraseSequence (toAddr s.card start) (toAddr s.card stop) s
      else .ok .error (raiseEraseNotValid s)
  else .ok .error (raiseEraseNotValid s)

/-- The body a code selects (R260, R112, R275). -/
def codeBody (code : Byte) (start stop : U32) (s : State) : Res Result :=
  match code.toNat with
  | 0 => syncBody s
  | 1 => sectorCountBody s
  | 3 => blockSizeBody s
  | 4 => eraseBody start stop s
  | _ => .ok .paramError s

/-- `ioctl` after the lock (R260). -/
def ioctlBody (code : Byte) (start stop : U32) (s : State) : Res HostReturn :=
  (codeBody code start stop (enter .iBody s)).bind fun r s => leave .iExit (fun _ => .result r) s

end Sys2Proof.Machine
end

