-- ==== Sys2Proof/Machine/Probe.lean ====
section
/-! DEFINITION. The card-type probe: the body of `initialize` after its early check and lock (42_probe.md R200 to R220). -/

namespace Sys2Proof.Machine

open Sys2Proof

/-- The unchecked CMD0 iterations of R203. -/
def preCmd0 (k : Nat) (s : State) : Res Unit :=
  match k with
  | 0 => .ok () s
  | j + 1 => (sendCommand 0x00#8 0#32 (delay s.cfg.cmd0PreDelayMs s)).bind fun _ s => preCmd0 j s

/-- `Poll(w, index, arg)` (R211): test expiry, then the command, then delay. When nothing in the environment changes any more
and an iteration failed, every further one is the same (R363, log 4). -/
def pollLoop (k : Nat) (w : Window) (q : Seq) (index : Byte) (arg : U32) (s : State) : Res Bool :=
  match k with
  | 0 => .hang .initPoll s
  | j + 1 =>
    let s := enter q s
    let e := expired w s
    if e.1 then .ok false (raise (.timeout .initPoll) e.2)
    else
      (sendCommand index arg e.2).bind fun r t =>
        if acceptedReady r then .ok true t
        else
          let t := delay t.cfg.pollDelayMs t
          if frozen s then .hang .initPoll t else pollLoop j w q index arg t

/-- The init poll with its bound. -/
def poll (w : Window) (q : Seq) (index : Byte) (arg : U32) (s : State) : Res Bool :=
  pollLoop (pollFuel s) w q index arg s

/-- The SD2 branch after a CMD8 that was accepted (R205 to R210). -/
def probeSd2 (w : Window) (s : State) : Res Card :=
  if !echoMatches s.ocr then .ok Card.none (raise (.diskError .cmd8Echo) s)
  else
    (poll w .pPollSd2 0xA9#8 s.cfg.acmd41HcsArg s).bind fun ready s =>
      if !ready then .ok Card.none s
      else
        (cmd58 true 0#32 (enter .pCmd58 s)).bind fun ok s =>
          if ok then .ok ⟨.sd2, ccsBit s.ocr⟩ s else .ok Card.none s

/-- The branch after a CMD8 that was rejected (R212, R213): ACMD41(0) tells SD1 from MMC and so which command polls. -/
def probeV1 (w : Window) (s : State) : Res Card :=
  (sendCommand 0xA9#8 0#32 (enter .pTypeTest s)).bind fun r s =>
    let sd1 := idleOrReady r
    (poll w .pPollV1 (if sd1 then 0xA9#8 else 0x01#8) 0#32 s).bind fun ready s =>
      if !ready then .ok Card.none s
      else
        (cmd16 s.cfg.cmd16Arg (enter .pCmd16 s)).bind fun ok s =>
          if ok then .ok ⟨if sd1 then .sd1 else .mmc, false⟩ s else .ok Card.none s

/-- Steps 3 to 5 (R204 to R213): the outcome of the probe. -/
def probeCard (s : State) : Res Card :=
  (cmd0 0#32 (enter .pCmd0 s)).bind fun idle s =>
    if !idle then .ok Card.none s
    else
      let w := startWindow tInitMs s
      (cmd8 true cmd8Arg (enter .pCmd8 w.2)).bind fun accepted s =>
        (if accepted then probeSd2 w.1 s else probeV1 w.1 s).bind fun c s => .ok c (closeWindow s)

/-- Step 6 (R214, R215): record the card, deselect, update the status. A call of another thread that falls between the
exchange and the store of NotInitialized still sees the old bit (45_guard_status.md R301). -/
def recordCard (c : Card) (s : State) : State :=
  let s := meanwhile (deselect { enter .pRecord s with card := c })
  let s := { s with status := { s.status with notInitialized := c.type == .unknown } }
  let a := wpActive s
  { a.2 with status := { a.2.status with writeProtected := a.1 } }

/-- Step 7 (R216): high speed, unlock, the whole status as it stands when it returns. -/
def probeDone (s : State) : Res HostReturn :=
  (unlock (setSpeed .high (enter .pDone s))).bind fun _ s => .ok (.drive (meanwhile s).status) (meanwhile s)

/-- `initialize` from `Speed <- Low` on (R217). -/
def probeBody (s : State) : Res HostReturn :=
  let s := sendDummies s.cfg.initIdleBytes (setSpeed .low (enter .pClocks s))
  (preCmd0 s.cfg.nCmd0Pre (enter .pPre s)).bind fun _ s =>
    (probeCard s).bind fun c s => probeDone (recordCard c s)

end Sys2Proof.Machine
end

