-- ==== Sys2Proof/Machine/Guard.lean ====
section
/-! DEFINITION. Host calls and the guard: the shape every locked operation has (43_blockio.md R230), waiting for the lock
(45_guard_status.md R290), and the host operations, `Lock`, `Unlock` and `RefreshInputs` as instructions. -/

namespace Sys2Proof.Machine

open Sys2Proof

/-! ### The shape of a call (R230) -/

/-- The named value of `seq` in which a call makes its early checks (42_probe.md R200, 43_blockio.md R238). -/
def checkPlace (c : Call) : Seq :=
  match c with
  | .initCard => .pCheck
  | .read _ _ _ => .rCheck
  | .write _ _ _ => .wCheck
  | .ioctl _ _ _ => .iCheck
  | .bareLock => .idle

/-- The body of a call whose `Lock()` has just been granted; `cause <- None` first (60_exceptions.md R310). -/
def lockedBody (c : Call) (s : State) : Host.Outcome State Fault Refusal :=
  match c with
  | .initCard => (probeBody (raise .none s)).callOutcome c
  | .read buf sector count => (readBody buf sector count (raise .none s)).callOutcome c
  | .write buf sector count => (writeBody buf sector count (raise .none s)).callOutcome c
  | .ioctl code start stop => (ioctlBody code start stop (raise .none s)).callOutcome c
  | .bareLock => Res.outcome (fun _ => .none) (.ok () s)

/-- Whether `Lock()` is granted at once: it is the caller's own, or it is free and no other thread wins the race for it (free
input `contend`, R290). -/
def lockRace (s : State) : Bool × State :=
  if s.lock.owner = some s.me then (true, s)
  else if s.lock.owner = none then (!s.contend.pop.1, { s with contend := s.contend.pop.2 })
  else (false, s)

/-- `Lock()` granted to a call: `seq` at its check place (42_probe.md R219: P_CHECK goes to P_CLOCKS with the lock), then the
lock. The primitive `Lock()` has no place in an operation. -/
def takeLock (c : Call) (s : State) : State :=
  grantLock (if c = .bareLock then s else enter (checkPlace c) s)

/-- `Lock()` and then the body, now or when the lock is granted; a thread that waits has not got the sequencer, and where it
stands is its `Waiter` (log 1). -/
def lockThen (c : Call) (s : State) : Host.Outcome State Fault Refusal :=
  let r := lockRace s
  if r.1 then lockedBody c (takeLock c r.2) else .next (addWaiter ⟨s.me, c⟩ r.2)

/-- A call that needs the lock (R230): recompute the inputs, check, lock, body, exit. -/
def hostCall (c : Call) (s : State) : Host.Outcome State Fault Refusal :=
  let r := refreshInputs s
  match earlyReturn c r.1 with
  | some v => .next (returnToHost v (enterOwn (checkPlace c) r.2))
  | none => lockThen c r.2

/-! ### The lock granted to a waiting thread (R290; which one: U13, log 9) -/

/-- The `k`-th waiter and the others. -/
def removeWaiter (k : Nat) (l : List Waiter) : Option (Waiter × List Waiter) :=
  match l with
  | [] => none
  | w :: t =>
    match k with
    | 0 => some (w, t)
    | j + 1 =>
      match removeWaiter j t with
      | some (v, r) => some (v, w :: r)
      | none => none

/-- Which waiter gets the lock: the only one, or a free choice among several. -/
def chooseWaiter (s : State) : Nat × State :=
  if s.waiters.length ≤ 1 then (0, s)
  else (Config.freeChoice s.free % s.waiters.length, { s with free := s.free + 1 })

/-- A waiting thread gets the free lock and goes on; with the lock held or nobody waiting, nothing moves. -/
def grantNext (s : State) : Host.Outcome State Fault Refusal :=
  if s.lock.owner = none then
    let c := chooseWaiter s
    match removeWaiter c.1 c.2.waiters with
    | some (w, rest) => lockedBody w.call (takeLock w.call { c.2 with me := w.thread, waiters := rest })
    | none => .next s
  else .next s

/-! ### Host operations as instructions -/

/-- `initialize()` (42_probe.md R217). -/
def execInitCard (s : State) : Host.Outcome State Fault Refusal := hostCall .initCard s

/-- `status()` (45_guard_status.md R301): no lock, nothing on the link; the three bits as they stand when it returns. -/
def execStatus (s : State) : Host.Outcome State Fault Refusal :=
  let s := meanwhile (refreshInputs s).2
  .next (returnToHost (.drive s.status) (enterOwn .sCheck s))

/-- `read(buffer, sector, count)` (43_blockio.md R231). -/
def execRead (buf sector count : U32) (s : State) : Host.Outcome State Fault Refusal :=
  hostCall (.read buf sector count) s

/-- `write(buffer, sector, count)` (43_blockio.md R236). -/
def execWrite (buf sector count : U32) (s : State) : Host.Outcome State Fault Refusal :=
  hostCall (.write buf sector count) s

/-- `ioctl(code, buffer)` (44_ioctl.md R260), whatever the code. -/
def execIoctl (code : Byte) (start stop : U32) (s : State) : Host.Outcome State Fault Refusal :=
  hostCall (.ioctl code start stop) s

/-- `ioctl(SYNC)` (R261), code 0. -/
def execIoctlSync (s : State) : Host.Outcome State Fault Refusal :=
  hostCall (.ioctl 0#8 0#32 0#32) s

/-- `ioctl(GET_SECTOR_COUNT)` (R265), code 1. -/
def execIoctlGetSectorCount (s : State) : Host.Outcome State Fault Refusal :=
  hostCall (.ioctl 1#8 0#32 0#32) s

/-- `ioctl(GET_BLOCK_SIZE)` (R267), code 3. -/
def execIoctlGetBlockSize (s : State) : Host.Outcome State Fault Refusal :=
  hostCall (.ioctl 3#8 0#32 0#32) s

/-- `ioctl(ERASE_SECTOR)` (R271), code 4. -/
def execIoctlEraseSector (start stop : U32) (s : State) : Host.Outcome State Fault Refusal :=
  hostCall (.ioctl 4#8 start stop) s

/-- `ioctl` with an unknown code (R275). -/
def execIoctlUnknown (code : Byte) (s : State) : Host.Outcome State Fault Refusal :=
  hostCall (.ioctl code 0#32 0#32) s

/-! ### Guard and status primitives as instructions -/

/-- `Lock()` (R290): granted, or the calling thread waits. -/
def execLock (s : State) : Host.Outcome State Fault Refusal := lockThen .bareLock s

/-- `Unlock()` (R291). -/
def execUnlock (s : State) : Host.Outcome State Fault Refusal :=
  Res.outcome (fun _ => .none) (unlock s)

/-- `RefreshInputs()` (R302). -/
def execRefreshInputs (s : State) : Host.Outcome State Fault Refusal :=
  Res.outcome (fun _ => .none) (.ok () (refreshInputs s).2)

end Sys2Proof.Machine
end

