-- ==== Sys2Proof/Machine/Wire.lean ====
section
/-! DEFINITION. The single bytes on the link (41_commands.md R179 to R184; 30_encoding.md R98, R104, R105). A byte out is one
exchange. A byte in is one exchange in which the card returns exactly that byte, in the poll or read the byte belongs to, with
what that poll does with it (log 12). -/

namespace Sys2Proof.Machine

open Sys2Proof

/-- TOKEN_SINGLE (R179): one byte out. -/
def execTokenSingle (s : State) : Host.Outcome State Fault Refusal :=
  Res.outcome (fun _ => .none) (.ok () (send s.cfg.tokenSingle s))

/-- TOKEN_MULTI (R180): one byte out. -/
def execTokenMulti (s : State) : Host.Outcome State Fault Refusal :=
  Res.outcome (fun _ => .none) (.ok () (send s.cfg.tokenMulti s))

/-- TOKEN_STOP (R181): one byte out, alone. -/
def execTokenStop (s : State) : Host.Outcome State Fault Refusal :=
  Res.outcome (fun _ => .none) (.ok () (send s.cfg.tokenStop s))

/-- DUMMY (R183): one byte out to clock the card or to read from it; what comes back is returned. -/
def execDummy (s : State) : Host.Outcome State Fault Refusal :=
  Res.outcome .byte (.ok (xchg s.cfg.dummy s).1 (xchg s.cfg.dummy s).2)

/-- CRC_PLACEHOLDER (R184): one byte out. -/
def execCrcPlaceholder (s : State) : Host.Outcome State Fault Refusal :=
  Res.outcome (fun _ => .none) (.ok () (send s.cfg.crcPlaceholder s))

/-- DATA_START (R182), in the token poll: it is the token the poll looks for (40_transport.md R146). -/
def execDataStart (s : State) : Host.Outcome State Fault Refusal :=
  Res.outcome .bool (.ok true { xchgGiven s.cfg.dummy dataStartToken s with tok := dataStartToken })

/-- A response byte in the response poll (R98, R138): it is kept in `r1`; true when the poll ends on it. -/
def receiveResponse (b : Byte) (s : State) : Res Bool :=
  let t := takeResponse b (xchgGiven s.cfg.dummy b s)
  .ok (responded b || t.n == 0#4) t

/-- R1 (R98): bit 7 clear. -/
def execR1 (r : BitVec 7) (s : State) : Host.Outcome State Fault Refusal :=
  Res.outcome .bool (receiveResponse (0#1 ++ r) s)

/-- NO_RESPONSE (R138): bit 7 set; the poll goes on unless it was the tenth byte. -/
def execNoResponse (x : BitVec 7) (s : State) : Host.Outcome State Fault Refusal :=
  Res.outcome .bool (receiveResponse (1#1 ++ x) s)

/-- The data response (R104, R143): true when it is an acceptance. -/
def receiveDataResponse (d : Byte) (s : State) : Res Bool :=
  .ok (dataAccepted d) (xchgGiven s.cfg.dummy d s)

/-- DATA_RESPONSE_ACCEPTED (R104). -/
def execDataResponseAccepted (x : BitVec 3) (s : State) : Host.Outcome State Fault Refusal :=
  Res.outcome .bool (receiveDataResponse (x ++ 0b00101#5) s)

/-- A byte of `waitReady` (40_transport.md R134): true when it is 0xFF, ready. -/
def receiveReady (d : Byte) (s : State) : Res Bool :=
  .ok (d == readyByte) (xchgGiven s.cfg.dummy d s)

/-- READY (R134, R105). -/
def execReady (s : State) : Host.Outcome State Fault Refusal :=
  Res.outcome .bool (receiveReady readyByte s)

end Sys2Proof.Machine
end

