-- ==== Sys2Proof/Machine/Dispatch.lean ====
section
/-! DEFINITION. exec: one arm per constructor of Instr, each one direct call of that instruction's meaning. -/

namespace Sys2Proof.Machine

open Sys2Proof

def exec (i : Instr) (s : State) : Host.Outcome State Fault Refusal :=
  match i with
  | .cmd0 arg => Sys2Proof.Machine.execCmd0 arg s
  | .cmd1 arg => Sys2Proof.Machine.execCmd1 arg s
  | .cmd8 arg => Sys2Proof.Machine.execCmd8 arg s
  | .cmd9 arg => Sys2Proof.Machine.execCmd9 arg s
  | .cmd12 arg => Sys2Proof.Machine.execCmd12 arg s
  | .acmd13 arg => Sys2Proof.Machine.execAcmd13 arg s
  | .cmd16 arg => Sys2Proof.Machine.execCmd16 arg s
  | .cmd17 arg => Sys2Proof.Machine.execCmd17 arg s
  | .acmd23 arg => Sys2Proof.Machine.execAcmd23 arg s
  | .cmd24 arg => Sys2Proof.Machine.execCmd24 arg s
  | .cmd25 arg => Sys2Proof.Machine.execCmd25 arg s
  | .cmd32 arg => Sys2Proof.Machine.execCmd32 arg s
  | .cmd33 arg => Sys2Proof.Machine.execCmd33 arg s
  | .cmd38 arg => Sys2Proof.Machine.execCmd38 arg s
  | .acmd41 arg => Sys2Proof.Machine.execAcmd41 arg s
  | .cmd55 arg => Sys2Proof.Machine.execCmd55 arg s
  | .cmd58 arg => Sys2Proof.Machine.execCmd58 arg s
  | .tokenSingle => Sys2Proof.Machine.execTokenSingle s
  | .tokenMulti => Sys2Proof.Machine.execTokenMulti s
  | .tokenStop => Sys2Proof.Machine.execTokenStop s
  | .dataStart => Sys2Proof.Machine.execDataStart s
  | .dummy => Sys2Proof.Machine.execDummy s
  | .crcPlaceholder => Sys2Proof.Machine.execCrcPlaceholder s
  | .r1 r => Sys2Proof.Machine.execR1 r s
  | .noResponse x => Sys2Proof.Machine.execNoResponse x s
  | .dataResponseAccepted x => Sys2Proof.Machine.execDataResponseAccepted x s
  | .ready => Sys2Proof.Machine.execReady s
  | .initCard => Sys2Proof.Machine.execInitCard s
  | .status => Sys2Proof.Machine.execStatus s
  | .read buf sector count => Sys2Proof.Machine.execRead buf sector count s
  | .write buf sector count => Sys2Proof.Machine.execWrite buf sector count s
  | .ioctl code start stop => Sys2Proof.Machine.execIoctl code start stop s
  | .ioctlSync => Sys2Proof.Machine.execIoctlSync s
  | .ioctlGetSectorCount => Sys2Proof.Machine.execIoctlGetSectorCount s
  | .ioctlGetBlockSize => Sys2Proof.Machine.execIoctlGetBlockSize s
  | .ioctlEraseSector start stop => Sys2Proof.Machine.execIoctlEraseSector start stop s
  | .ioctlUnknown code => Sys2Proof.Machine.execIoctlUnknown code s
  | .xchg tx => Sys2Proof.Machine.execXchg tx s
  | .select => Sys2Proof.Machine.execSelect s
  | .deselect => Sys2Proof.Machine.execDeselect s
  | .waitReady ms => Sys2Proof.Machine.execWaitReady ms s
  | .sendCommand index arg => Sys2Proof.Machine.execSendCommand index arg s
  | .sendDataBlock off token => Sys2Proof.Machine.execSendDataBlock off token s
  | .receiveDataBlock dest len => Sys2Proof.Machine.execReceiveDataBlock dest len s
  | .lock => Sys2Proof.Machine.execLock s
  | .unlock => Sys2Proof.Machine.execUnlock s
  | .startTransfer dir loc len => Sys2Proof.Machine.execStartTransfer dir loc len s
  | .waitForTransfer => Sys2Proof.Machine.execWaitForTransfer s
  | .refreshInputs => Sys2Proof.Machine.execRefreshInputs s

end Sys2Proof.Machine
end

