-- ==== Sys2Proof/Machine/Fetch.lean ====
section
/-! DEFINITION. How a statement comes to be executed: which request is taken up, and the turns of the other agents
(10_state.md R41). The block fetches no instructions from a memory (20_memory.md R77): a host call stands on the host port, a
primitive or an element on the link is a statement of the sequencer (log 18). -/

namespace Sys2Proof.Machine

open Sys2Proof

/-- A call on the host port, as against a statement of the sequencer. -/
def isHostSlot (slot : Slot) : Bool :=
  match slot with
  | .host => true
  | .ioctlEntry => true
  | _ => false

/-- Statements of the sequencer that only the thread which holds the lock may make (40_transport.md R131, 60_exceptions.md R330
(b)): all but `Lock()` itself, `Unlock()`, which is refused to others by name (45_guard_status.md R291), and `RefreshInputs()`,
which runs before the lock (R302). -/
def needsLock (i : Instr) : Bool :=
  !isHostSlot (slotOf i) && i != .lock && i != .unlock && i != .refreshInputs

/-- The request is such a statement and its thread does not hold the lock. -/
def lockedOut (s : State) (r : Request) : Bool :=
  match decode r.slot r.bytes with
  | .ok (i, _) => needsLock i && s.lock.owner != some r.thread
  | .error _ => false

/-- A request can be taken up when its thread is not inside a call; a statement of the sequencer also needs the sequencer not
to be inside a wait that never ends (R24: no two statements in progress at once), and its thread to hold the lock where R131
asks for it. -/
def takeable (s : State) (r : Request) : Bool :=
  !threadBusy s r.thread && (isHostSlot r.slot || (s.hung.isNone && !lockedOut s r))

/-- The first request with the property, and the others in order. -/
def takeFirst (p : Request → Bool) (l : List Request) : Option (Request × List Request) :=
  match l with
  | [] => none
  | r :: t =>
    if p r then some (r, t)
    else
      match takeFirst p t with
      | some (q, rest) => some (q, r :: rest)
      | none => none

/-- Execute one request: its word decoded in its slot, the instruction executed for its thread. -/
def runRequest (r : Request) (s : State) : Host.Outcome State Fault Refusal :=
  match decode r.slot r.bytes with
  | .ok (i, _) => exec i { s with me := r.thread }
  | .error e => .refused (.undecodable e)

/-- The sequencer's turn: the next request; with none to take up, a waiting thread gets the lock if it is free; else the block
waits for a host call (R43). -/
def sequencerTurn (s : State) : Host.Outcome State Fault Refusal :=
  match takeFirst (takeable s) s.requests with
  | some (r, rest) => runRequest r { s with requests := rest }
  | none => grantNext s

/-- The transfer engine's turn (45_guard_status.md R292, R293): its exchanges and the completion signal. A completion with
nothing pending is refused (R365). -/
def engineTurn (s : State) : Host.Outcome State Fault Refusal :=
  match s.engine with
  | some t => .next (runEngine t s).2
  | none => .refused .completionWithoutTransfer

/-- Another user of the bus sets the peripheral's configuration; only while this instance's lock is free (R39, R366). -/
def busUserTurn (c : SpiConfig) (s : State) : Host.Outcome State Fault Refusal :=
  if s.lock.owner = none then .next { s with spiCfg := c } else .refused .busInUse

/-- Another instance registers or finishes a transfer on peripheral `p` in the shared table (R34, R333, R365); on this
instance's peripheral it starts none while this instance's lock is held (R366). -/
def peerTurn (p registers : Bool) (s : State) : Host.Outcome State Fault Refusal :=
  if registers then
    if s.pending.get p then .refused .transferPending
    else if p = s.cfg.peripheralId ∧ s.lock.owner ≠ none then .refused .busInUse
    else .next { s with pending := s.pending.set p true }
  else if s.pending.get p && !(p == s.cfg.peripheralId && s.engine.isSome) then
    .next { s with pending := s.pending.set p false }
  else .refused .completionWithoutTransfer

/-- The call has a buffer (20_memory.md R64) and the address is in it. -/
def Call.owns (c : Call) (a : Nat) : Bool :=
  match c with
  | .read buf _ count => decide (buf.toNat ≤ a ∧ a < buf.toNat + sectorSize * count.toNat)
  | .write buf _ count => decide (buf.toNat ≤ a ∧ a < buf.toNat + sectorSize * count.toNat)
  | .initCard => false
  | .ioctl _ _ _ => false
  | .bareLock => false

/-- The address is among the bytes the transfer moves (45_guard_status.md R292); the scratch array is no host memory. -/
def Transfer.owns (t : Transfer) (base a : Nat) : Bool :=
  match t.place with
  | .buffer off => decide (base + off ≤ a ∧ a < base + off + t.len)
  | .csd => false

/-- The bytes the host may not change: those in the buffer of a call that has not returned, in its early part, waiting for the
lock or in a wait that never ends (R64), and those of a transfer that runs (45_guard_status.md R295). -/
def bufferOwned (s : State) (a : Nat) : Bool :=
  s.waiters.any (fun w => w.call.owns a)
    || s.early.any (fun e => e.call.any (fun c => c.owns a))
    || s.hung.any (fun h => h.call.any (fun c => c.owns a))
    || s.engine.any (fun t => t.owns s.bufBase a)

/-- The host stores bytes from address `a` on; those it may not change stay as they are (R64, R295; log 10). -/
def hostStore (a : Nat) (bytes : List Byte) (s : State) : State :=
  match bytes with
  | [] => s
  | b :: t => hostStore (a + 1) t (if bufferOwned s a then s else { s with mem := s.mem.write a b })

/-- The host's turn: a store into its memory, between instructions. -/
def hostTurn (a : Nat) (bytes : List Byte) (s : State) : Host.Outcome State Fault Refusal :=
  .next (hostStore a bytes s)

/-- The turn of the threads whose calls are in their early part, with no instruction running: the next entry of `others`. -/
def threadsTurn (s : State) : Host.Outcome State Fault Refusal := .next (meanwhile s)

/-- One agent moves (R41). -/
def agentTurn (a : Agent) (s : State) : Host.Outcome State Fault Refusal :=
  match a with
  | .sequencer => sequencerTurn s
  | .grant => grantNext s
  | .engine => engineTurn s
  | .threads => threadsTurn s
  | .host a bytes => hostTurn a bytes s
  | .busUser c => busUserTurn c s
  | .peer p registers => peerTurn p registers s

/-- A thread that is in no call: the current one, or a new one. -/
def idleThread (s : State) : Nat :=
  if s.waiters.any (fun w => w.thread == s.me) || s.early.any (fun e => e.thread == s.me) then
    (s.waiters.map (fun w => w.thread)).sum + (s.early.map (fun e => e.thread)).sum + 1
  else s.me

/-- The request a table word stands for. -/
def tableRequest (s : State) (nbits w : Nat) : Request :=
  ⟨idleThread s, tableSlot nbits w, tableBytes nbits w⟩

/-- The lock as an instruction needs it to be run by that thread: held by it where R131 or R291 asks for that. -/
def lockFor (i : Instr) (s : State) : LockState :=
  if (needsLock i || i == .unlock) && s.lock.owner != some (idleThread s) then ⟨some (idleThread s), 1⟩ else s.lock

/-- The same for a table word. -/
def tableLock (s : State) (nbits w : Nat) : LockState :=
  match decodeTableWord nbits w with
  | some i => lockFor i s
  | none => s.lock

end Sys2Proof.Machine
end

