-- ==== Sys2Proof/Machine/Step.lean ====
section
/-! DEFINITION. One step of the machine: the agent whose turn it is moves (log 1). -/

namespace Sys2Proof.Machine

open Sys2Proof

/-- One step. -/
def step (s : State) : Host.Outcome State Fault Refusal :=
  agentTurn s.turns.pop.1 { s with turns := s.turns.pop.2 }

/-- `s` with the instruction of a table word as the next request: it is put first among the requests, by a thread that can
make it and that holds the lock where the instruction asks for it, the sequencer has the next turn, and no wait that never ends
stands in its way. -/
def State.withFetchWord (s : State) (nbits w : Nat) : State :=
  { s with
    requests := tableRequest s nbits w :: s.requests
    turns := { s.turns with next := .sequencer :: s.turns.next }
    lock := tableLock s nbits w
    hung := none }

end Sys2Proof.Machine
end

