-- ==== Sys2Proof/Safety.lean ====
section
/-! DEFINITION. The terms statements are made in: the invariants of a safe run, the frames (which fields a group of
instructions may change), what the card is supposed to answer, and the traces the block leaves on its ports
(10_state.md R41: claims are stated over port events and values returned on the host port). -/

namespace Sys2Proof.Machine

open Sys2Proof

/-! ### Invariants -/

/-- What every step keeps, whatever is executed: host memory is canonical; `blockAddressed` only with SD2 (10_state.md R21);
`NotInitialized` is set exactly when the type is Unknown (42_probe.md R215, R218); the lock is free exactly at depth 0 (R33);
`n` is at most 10 (R28); the tick reading is in range (R32); the engine holds a transfer only while it is pending (R34). -/
def Inv (s : State) : Prop :=
  s.mem.wf = true
    ∧ (s.card.blockAddressed = true → s.card.type = .sd2)
    ∧ s.status.notInitialized = (s.card.type == .unknown)
    ∧ (s.lock.owner = none ↔ s.lock.depth = 0)
    ∧ s.n.toNat ≤ 10
    ∧ s.tick < tickModulus s.cfg
    ∧ (s.engine.isSome = true → pendingHere s = true)

/-- The move is the primitive `Lock()`. -/
def OtherMove.isLock (v : OtherMove) : Bool :=
  match v with
  | .call _ c => c == some .bareLock
  | .go _ => false

/-- Who waits for the lock, now or later, waits with a host operation. -/
def HostCalls (s : State) : Prop :=
  (∀ w ∈ s.waiters, w.call ≠ .bareLock) ∧ (∀ e ∈ s.early, e.call ≠ some .bareLock)
    ∧ ∀ vs ∈ s.others, ∀ v ∈ vs, v.isLock = false

/-- Only the host port is used: no statement of the sequencer is presented from outside, and none waits for the lock. -/
def HostOnly (s : State) : Prop :=
  (∀ r ∈ s.requests, isHostSlot r.slot = true) ∧ HostCalls s

/-- Between operations (10_state.md R35, R37; 45_guard_status.md R291): chip-select deasserted, lock free, `seq` at Idle; or one
operation never ends (70_reset_and_hazards.md R363, R364), and its thread keeps the lock and `seq`. -/
def Resting (s : State) : Prop :=
  HostOnly s
    ∧ (s.hung = none → s.cs = .deasserted ∧ s.lock = ⟨none, 0⟩ ∧ s.seq = .idle)
    ∧ (∀ h, s.hung = some h → s.lock.owner = some h.thread ∧ s.seq ≠ .idle)

/-! ### Frames

`t = { s with f := t.f, … }` says that every field that is not named is unchanged. Calls of other threads that fall inside the
instruction (45_guard_status.md R294) may write the last seven fields of each list; what they may write there is `heard`. -/

/-- No call of another thread falls inside the next instructions (log 1). -/
abbrev quiet (s : State) : Prop := s.others = []

/-- Calls of other threads add waiting threads behind those that wait; without such calls nothing they could write changes. -/
def heard (s t : State) : Prop :=
  (∃ new, t.waiters = s.waiters ++ new)
    ∧ (quiet s → t.status = s.status ∧ t.cd = s.cd ∧ t.wp = s.wp ∧ t.hostOut = s.hostOut ∧ t.waiters = s.waiters
      ∧ t.early = s.early ∧ quiet t)

/-- What a primitive that only waits or exchanges bytes may change. -/
def linkFrame (s t : State) : Prop :=
  t = { s with
    cs := t.cs, cause := t.cause, wins := t.wins, rx := t.rx, tick := t.tick, tickAdv := t.tickAdv,
    events := t.events, ret := t.ret, hung := t.hung,
    status := { s.status with noDisk := t.status.noDisk, writeProtected := t.status.writeProtected },
    cd := t.cd, wp := t.wp, hostOut := t.hostOut, waiters := t.waiters, early := t.early, others := t.others }
    ∧ heard s t

/-- What a command without data may change: also the CommandFrame, the response and its poll counter (10_state.md R25, R26,
R28). -/
def commandFrame (s t : State) : Prop :=
  t = { s with
    cs := t.cs, cause := t.cause, wins := t.wins, rx := t.rx, tick := t.tick, tickAdv := t.tickAdv,
    events := t.events, ret := t.ret, hung := t.hung, fr := t.fr, r1 := t.r1, n := t.n,
    status := { s.status with noDisk := t.status.noDisk, writeProtected := t.status.writeProtected },
    cd := t.cd, wp := t.wp, hostOut := t.hostOut, waiters := t.waiters, early := t.early, others := t.others }
    ∧ heard s t

/-- What a command with four trailing bytes may change: also `ocr` (R29). -/
def trailingFrame (s t : State) : Prop :=
  t = { s with
    cs := t.cs, cause := t.cause, wins := t.wins, rx := t.rx, tick := t.tick, tickAdv := t.tickAdv,
    events := t.events, ret := t.ret, hung := t.hung, fr := t.fr, r1 := t.r1, n := t.n, ocr := t.ocr,
    status := { s.status with noDisk := t.status.noDisk, writeProtected := t.status.writeProtected },
    cd := t.cd, wp := t.wp, hostOut := t.hostOut, waiters := t.waiters, early := t.early, others := t.others }
    ∧ heard s t

/-- What a data block out may change: the pending table and the transfer engine, for a stream also `off` and `remaining`
(R27, R34). -/
def blockOutFrame (s t : State) : Prop :=
  t = { s with
    cs := t.cs, cause := t.cause, wins := t.wins, rx := t.rx, tick := t.tick, tickAdv := t.tickAdv,
    events := t.events, ret := t.ret, hung := t.hung, fr := t.fr, r1 := t.r1, n := t.n,
    off := t.off, remaining := t.remaining, pending := t.pending, engine := t.engine, fires := t.fires,
    status := { s.status with noDisk := t.status.noDisk, writeProtected := t.status.writeProtected },
    cd := t.cd, wp := t.wp, hostOut := t.hostOut, waiters := t.waiters, early := t.early, others := t.others }
    ∧ heard s t

/-- What a data block in may change: `tok`, its destination (host memory or `csd`), the pending table and the engine. -/
def blockInFrame (s t : State) : Prop :=
  t = { s with
    cs := t.cs, cause := t.cause, wins := t.wins, rx := t.rx, tick := t.tick, tickAdv := t.tickAdv,
    events := t.events, ret := t.ret, hung := t.hung, fr := t.fr, r1 := t.r1, n := t.n,
    tok := t.tok, csd := t.csd, mem := t.mem, pending := t.pending, engine := t.engine, fires := t.fires,
    status := { s.status with noDisk := t.status.noDisk, writeProtected := t.status.writeProtected },
    cd := t.cd, wp := t.wp, hostOut := t.hostOut, waiters := t.waiters, early := t.early, others := t.others }
    ∧ heard s t

/-- Every byte of host memory outside `len` bytes from `lo` on reads as before. -/
def keepsOutside (lo len : Nat) (s t : State) : Prop :=
  ∀ a, a < lo ∨ lo + len ≤ a → t.mem.read a = s.mem.read a

/-! ### What the card answers (20_memory.md R75: a claim adds it as a premise) -/

/-- The bytes the card returns around one command frame when it is ready: with the two dummy bytes at the chip-select changes,
during the six frame bytes, then bytes with bit 7 set, then the response, or the tenth byte of the poll when the card does not
answer. -/
structure Answer where
  d0 : Byte
  d1 : Byte
  echo : List Byte
  gap : List Byte
  r : Byte
  deriving DecidableEq, Repr

/-- Six bytes during the frame; at most nine polls without a response; then a byte with bit 7 clear, or, after nine, any byte:
the poll ends on the tenth (40_transport.md R138). -/
def Answer.wf (a : Answer) : Bool :=
  decide (a.echo.length = 6) && decide (a.gap.length ≤ 9) && a.gap.all (fun b => b.getLsbD 7)
    && (!a.r.getLsbD 7 || decide (a.gap.length = 9))

/-- The bytes of an answer in the order they arrive; the third is the 0xFF of `waitReady`. -/
def Answer.bytes (a : Answer) : List Byte :=
  a.d0 :: a.d1 :: 0xFF#8 :: (a.echo ++ (a.gap ++ [a.r]))

/-- The reading the tick counter gives next. -/
def nextTick (s : State) : Nat := (s.tick + s.tickAdv.pop.1) % tickModulus s.cfg

/-- Exchanges that read: DUMMY out (30_encoding.md R105). -/
def reads (c : Config) (bs : List Byte) : List Event := bs.map (fun b => Event.xchg c.dummy b)

/-- The trace of one command, oldest event first (40_transport.md R136): `[CS-] FF>-- [CS+] FF>--`, one tick reading and the
0xFF of `waitReady`, the frame, the response polls. -/
def commandTrace (c : Config) (idx : Byte) (arg : U32) (a : Answer) (t : Nat) : List Event :=
  [.cs .deasserted, .xchg c.dummy a.d0, .cs .asserted, .xchg c.dummy a.d1, .now t, .xchg c.dummy 0xFF#8]
    ++ List.zipWith Event.xchg (frameBytes c idx arg) a.echo ++ reads c (a.gap ++ [a.r])

/-- The state after one command to a card that was ready; `rest` is what the card returns after it. -/
def answered (idx : Byte) (arg : U32) (a : Answer) (rest : List Byte) (s : State) : State :=
  { s with
    cs := .asserted
    fr := ⟨idx, arg, trailer s.cfg idx⟩
    r1 := a.r
    n := BitVec.ofNat 4 (9 - a.gap.length)
    rx := { s.rx with next := rest }
    tick := nextTick s
    tickAdv := s.tickAdv.pop.2
    events := (commandTrace s.cfg idx arg a (nextTick s)).reverse ++ s.events }

/-- The state after exchanges that read `bs`. -/
def readOn (bs rest : List Byte) (s : State) : State :=
  { s with rx := { s.rx with next := rest }, events := (reads s.cfg bs).reverse ++ s.events }

/-- The bytes a read data packet delivers from its token on (30_encoding.md R101): the token, the payload, two trailing
bytes. -/
structure Packet where
  payload : List Byte
  c0 : Byte
  c1 : Byte
  deriving DecidableEq, Repr

/-- The bytes of a packet in the order they arrive. -/
def Packet.bytes (p : Packet) : List Byte := 0xFE#8 :: (p.payload ++ [p.c0, p.c1])

/-- What the card returns while a data packet goes out (30_encoding.md R100): during the token, the payload and the two
placeholders, then the data response. -/
structure Sink where
  e : Byte
  echo : List Byte
  c0 : Byte
  c1 : Byte
  response : Byte
  deriving DecidableEq, Repr

/-- The bytes of a sink in the order they arrive; the first is the 0xFF of `waitReady`. -/
def Sink.bytes (k : Sink) : List Byte := 0xFF#8 :: k.e :: (k.echo ++ [k.c0, k.c1, k.response])

/-- Bytes stored one after another from element `i` of the scratch array on. -/
def csdWriteAll (v : Vector Byte 16) (i : Nat) (bs : List Byte) : Vector Byte 16 :=
  match bs with
  | [] => v
  | b :: t => csdWriteAll (v.setIfInBounds i b) (i + 1) t

/-- Host memory after `bs` arrived at a place (45_guard_status.md R292). -/
def memAfter (p : Place) (bs : List Byte) (s : State) : Memory :=
  match p with
  | .buffer off => s.mem.writeAll (s.bufBase + off) bs
  | .csd => s.mem

/-- The scratch array after `bs` arrived at a place. -/
def csdAfter (p : Place) (bs : List Byte) (s : State) : Vector Byte 16 :=
  match p with
  | .buffer _ => s.csd
  | .csd => csdWriteAll s.csd 0 bs

/-- The trace of a read data packet whose token comes at once (40_transport.md R145): one tick reading, the token, the
transfer with its exchanges and its completion, two discarded bytes. -/
def receiveTrace (c : Config) (p : Place) (k : Packet) (t : Nat) : List Event :=
  [.now t, .xchg c.dummy 0xFE#8, .startTransfer .inp p k.payload.length] ++ reads c k.payload
    ++ [.complete c.peripheralId] ++ reads c [k.c0, k.c1]

/-- The state after a read data packet whose token came at once. -/
def received (p : Place) (k : Packet) (rest : List Byte) (s : State) : State :=
  { s with
    tok := 0xFE#8
    mem := memAfter p k.payload s
    csd := csdAfter p k.payload s
    engine := none
    fires := s.fires.pop.2
    rx := { s.rx with next := rest }
    tick := nextTick s
    tickAdv := s.tickAdv.pop.2
    events := (receiveTrace s.cfg p k (nextTick s)).reverse ++ s.events }

/-- `len` bytes of host memory from `lo` on. -/
def memBytes (m : Memory) (lo len : Nat) : List Byte := (List.range len).map (fun i => m.read (lo + i))

/-- The trace of a write data packet to a ready card (40_transport.md R141): one tick reading, the 0xFF of `waitReady`, the
token, the transfer with its exchanges and its completion, two placeholders, the data response. -/
def sendTrace (c : Config) (off : Nat) (token : Byte) (payload : List Byte) (k : Sink) (t : Nat) : List Event :=
  [.now t, .xchg c.dummy 0xFF#8, .xchg token k.e, .startTransfer .out (.buffer off) sectorSize]
    ++ List.zipWith Event.xchg payload k.echo
    ++ [.complete c.peripheralId, .xchg c.crcPlaceholder k.c0, .xchg c.crcPlaceholder k.c1, .xchg c.dummy k.response]

/-- The state after a write data packet to a ready card, apart from what a rejection records. -/
def sentBlock (off : Nat) (token : Byte) (k : Sink) (rest : List Byte) (s : State) : State :=
  { s with
    engine := none
    fires := s.fires.pop.2
    rx := { s.rx with next := rest }
    tick := nextTick s
    tickAdv := s.tickAdv.pop.2
    events :=
      (sendTrace s.cfg off token (memBytes s.mem (s.bufBase + off) sectorSize) k (nextTick s)).reverse ++ s.events }

/-- The state after the stop token went out to a ready card (R144); `d` comes back during it. -/
def sentStop (d : Byte) (rest : List Byte) (s : State) : State :=
  { s with
    rx := { s.rx with next := rest }
    tick := nextTick s
    tickAdv := s.tickAdv.pop.2
    events := [.xchg s.cfg.tokenStop d, .xchg s.cfg.dummy 0xFF#8, .now (nextTick s)] ++ s.events }

/-! ### Port events -/

/-- An event of the thread's own operation: no reading of an input, no return to another thread. -/
def Event.own (thread : Nat) (e : Event) : Bool :=
  match e with
  | .cardDetect _ => false
  | .writeProtect _ => false
  | .ret u _ => u == thread
  | _ => true

/-- The byte an event puts on the link, if it is an exchange. -/
def Event.sent (e : Event) : Option Byte :=
  match e with
  | .xchg tx _ => some tx
  | _ => none

/-- All bytes put on the link so far, oldest first. -/
def State.sent (s : State) : List Byte := s.events.reverse.filterMap Event.sent

/-- The bytes one command puts on the link: the dummies, the frame, one dummy per response poll. -/
def commandSent (c : Config) (idx : Byte) (arg : U32) (a : Answer) : List Byte :=
  [c.dummy, c.dummy, c.dummy] ++ frameBytes c idx arg ++ List.replicate (a.gap.length + 1) c.dummy

/-- The bytes one write data packet puts on the link (30_encoding.md R100): the ready poll, the token, the payload, two
placeholders, the data-response read. -/
def packetSent (c : Config) (token : Byte) (payload : List Byte) : List Byte :=
  [c.dummy, token] ++ payload ++ [c.crcPlaceholder, c.crcPlaceholder, c.dummy]

/-- The bytes `read` puts on the link for sectors that the card delivers (43_blockio.md R231): for sector `k` from `first` on
its CMD17 with the address of 20_memory.md R67, the token poll, the payload, two trailing bytes. -/
def readSent (c : Config) (card : Card) (sector : U32) (as : List (Answer × Packet)) : List Byte :=
  as.zipIdx.flatMap fun p =>
    commandSent c 17#8 (toAddr card (sector + BitVec.ofNat 32 p.2)) p.1.1 ++ List.replicate (1 + 512 + 2) c.dummy

/-- The bytes of `n` blocks of a stream (43_blockio.md R234): block `k` is the 512 bytes of memory from `base + 512 * k` on. -/
def streamSent (c : Config) (m : Memory) (base n : Nat) : List Byte :=
  (List.range n).flatMap fun k => packetSent c c.tokenMulti (memBytes m (base + 512 * k) 512)

/-! ### Inputs and early returns -/

/-- A call that returned `v` before the lock (60_exceptions.md R313): the two sampled status bits, the value on the host port,
and `seq`, which is at Idle again or never left the operation that holds the lock. -/
def turnedAway (s : State) (v : HostReturn) (t : State) : Prop :=
  t = { sampled s with
    hostOut := v
    events := .ret s.me v :: (inputEvents s ++ s.events)
    seq := if lockOpen s then .idle else s.seq
    path := t.path }

/-- The card is busy for the first polls of a `waitReady` of `ms` milliseconds: it returns `bs`, none of them 0xFF, while the
tick counter advances by `a` at each reading, so that the window is open at each of these polls and the next. -/
def busyFor (bs : List Byte) (ms a : Nat) (s : State) : Prop :=
  s.tickAdv = ⟨[], a⟩ ∧ (∀ b ∈ bs, b ≠ 0xFF#8) ∧ (bs = [] ∨ bs.length * a < ms)
    ∧ (bs.length + 1) * a < tickModulus s.cfg

/-- The line idles at 0xFF for the first `k` polls of a `receiveDataBlock`, with the tick counter as in `busyFor`. -/
def idleFor (k a : Nat) (s : State) : Prop :=
  s.tickAdv = ⟨[], a⟩ ∧ (k = 0 ∨ k * a < 200) ∧ (k + 1) * a < tickModulus s.cfg

/-! ### What a command meets -/

/-- What one command frame meets (40_transport.md R136): a ready card, with what it returns; or a card that stays busy for the
100 ms of `select`, so that no frame is sent and the value is 0xFF. -/
inductive Turn where
  | ready (index : Byte) (arg : U32) (a : Answer)
  | busy (d0 d1 : Byte) (bs : List Byte) (b e : Byte)
  deriving DecidableEq, Repr

/-- It is a turn of this frame. -/
def Turn.isOf (x : Turn) (index : Byte) (arg : U32) : Prop :=
  match x with
  | .ready i v _ => i = index ∧ v = arg
  | .busy _ _ _ _ _ => True

/-- The value `sendCommand` gives. -/
def Turn.value (x : Turn) : Byte :=
  match x with
  | .ready _ _ a => a.r
  | .busy _ _ _ _ _ => 0xFF#8

/-- The bytes the card returns. -/
def Turn.bytes (x : Turn) : List Byte :=
  match x with
  | .ready _ _ a => a.bytes
  | .busy d0 d1 bs b e => d0 :: d1 :: (bs ++ [b, e])

/-- The bytes on the link. -/
def Turn.sent (c : Config) (x : Turn) : List Byte :=
  match x with
  | .ready index arg a => commandSent c index arg a
  | .busy _ _ bs _ _ => List.replicate (bs.length + 4) c.dummy

/-- How often the tick counter is read. -/
def Turn.readings (x : Turn) : Nat :=
  match x with
  | .ready _ _ _ => 1
  | .busy _ _ bs _ _ => bs.length + 2

/-- The card was busy. -/
def Turn.isBusy (x : Turn) : Bool :=
  match x with
  | .ready _ _ _ => false
  | .busy _ _ _ _ _ => true

/-- The bytes make such a turn, when the tick counter advances by `adv` at each reading. -/
def Turn.wf (adv : Nat) (s : State) (x : Turn) : Prop :=
  match x with
  | .ready _ _ a => a.wf = true
  | .busy _ _ bs b _ => busyFor bs 100 adv s ∧ b ≠ 0xFF#8 ∧ 100 ≤ (bs.length + 1) * adv

/-- What `sendCommand(index, arg)` meets, and its value: its frame; with the application flag CMD55 first, and the command only
behind a CMD55 of value at most 1 (R137). -/
def meets (index : Byte) (arg : U32) (xs : List Turn) (r : Byte) : Prop :=
  if index.getLsbD 7 then
    (∃ x, xs = [x] ∧ x.isOf 55#8 0#32 ∧ 1 < x.value.toNat ∧ r = x.value)
      ∨ ∃ x y, xs = [x, y] ∧ x.isOf 55#8 0#32 ∧ x.value.toNat ≤ 1 ∧ y.isOf (index &&& 0x7F#8) arg ∧ r = y.value
  else ∃ x, xs = [x] ∧ x.isOf index arg ∧ r = x.value

/-- All turns have the right bytes. -/
def turnsWf (adv : Nat) (s : State) (xs : List Turn) : Prop := ∀ x ∈ xs, x.wf adv s

/-- The bytes the card returns over several turns. -/
def turnsBytes (xs : List Turn) : List Byte := xs.flatMap Turn.bytes

/-- The bytes on the link over several turns. -/
def turnsSent (c : Config) (xs : List Turn) : List Byte := xs.flatMap (Turn.sent c)

/-- The readings of the tick counter over several turns. -/
def turnsReadings (xs : List Turn) : Nat := (xs.map Turn.readings).sum

/-- The cause several turns leave: a busy card raised a timeout (60_exceptions.md R310). -/
def turnsCause (xs : List Turn) (c : Cause) : Cause := if xs.any Turn.isBusy then .timeout .waitReady else c

/-- Polls that go on: none has the value 0x00 (42_probe.md R211). -/
def pollsGoOn (index : Byte) (arg : U32) (ps : List (List Turn)) : Prop :=
  ∀ xs ∈ ps, ∃ r, meets index arg xs r ∧ r ≠ 0x00#8

/-- The readings of the tick counter during polls: one for the window and those of the command. -/
def pollReadings (ps : List (List Turn)) : Nat := ps.length + turnsReadings ps.flatten

/-- A window of 1000 ms that has been read `before` times is open at each of these polls, and over at the next test. -/
def pollsExpire (adv before : Nat) (ps : List (List Turn)) (s : State) : Prop :=
  (∀ init xs, ps = init ++ [xs] → (before + pollReadings init + 1) * adv < 1000)
    ∧ 1000 ≤ (before + pollReadings ps + 1) * adv ∧ (before + pollReadings ps + 1) * adv < tickModulus s.cfg

/-- How a command whose test is `r == 0x00` is not accepted (41_commands.md R161): a response that is not 0x00, an unanswered
frame, or a card that stays busy. Here and below `failing` is what the card returns, `sent` what goes out, `cause` what it leaves
(60_exceptions.md R310). -/
def commandFails (adv : Nat) (index : Byte) (arg : U32) (tag : DiskTag) (failing sent : List Byte) (cause : Cause) (s : State) :
    Prop :=
  ∃ x : Turn, x.isOf index arg ∧ x.wf adv s ∧ x.value ≠ 0x00#8 ∧ failing = x.bytes ∧ sent = x.sent s.cfg ∧ cause = .diskError tag

/-- How the token poll of a read data block fails (40_transport.md R146): `j` idle bytes and a wrong token, or no token within
its window. -/
def tokenFails (adv : Nat) (failing sent : List Byte) (cause : Cause) (s : State) : Prop :=
  ∃ j : Nat, idleFor j adv s ∧ sent = List.replicate (j + 1) s.cfg.dummy
    ∧ ((∃ b, b ≠ 0xFF#8 ∧ b ≠ 0xFE#8 ∧ failing = List.replicate j 0xFF#8 ++ [b] ∧ cause = .diskError .wrongToken)
      ∨ (200 ≤ (j + 1) * adv ∧ failing = List.replicate (j + 1) 0xFF#8 ∧ cause = .timeout .dataToken))

/-- How a command and the data block it reads fail: the command is not accepted; or it is, and its token fails. -/
def blockReadFails (adv : Nat) (index : Byte) (arg : U32) (tag : DiskTag) (failing sent : List Byte) (cause : Cause) (s : State) :
    Prop :=
  commandFails adv index arg tag failing sent cause s
    ∨ ∃ (a : Answer) (data out : List Byte), a.wf = true ∧ a.r = 0x00#8 ∧ tokenFails adv data out cause s
      ∧ failing = a.bytes ++ data ∧ sent = commandSent s.cfg index arg a ++ out

/-- A card that stays busy for the window of 100 ms before a token goes out (40_transport.md R141): nothing goes out but the
polls. -/
def tokenHeldBack (adv : Nat) (failing sent : List Byte) (cause : Cause) (s : State) : Prop :=
  ∃ (bs : List Byte) (b : Byte), busyFor bs 100 adv s ∧ b ≠ 0xFF#8 ∧ 100 ≤ (bs.length + 1) * adv
    ∧ failing = bs ++ [b] ∧ sent = List.replicate (bs.length + 1) s.cfg.dummy ∧ cause = .timeout .waitReady

/-- How a block of `payload` fails on its way out: its data response is no acceptance, or its token is held back (43_blockio.md
R243 (c)). -/
def blockFails (adv : Nat) (token : Byte) (payload failing sent : List Byte) (cause : Cause) (s : State) : Prop :=
  (∃ k : Sink, k.echo.length = 512 ∧ k.response.toNat % 32 ≠ 5 ∧ failing = k.bytes ∧ sent = packetSent s.cfg token payload
      ∧ cause = .diskError .dataResponse)
    ∨ tokenHeldBack adv failing sent cause s

/-- What the stop token meets when `before` is the cause so far: it goes out to a ready card, or is held back (43_blockio.md
R239, R243 (d)). -/
def stopMeets (adv : Nat) (before : Cause) (meeting sent : List Byte) (cause : Cause) (s : State) : Prop :=
  (∃ d, meeting = [0xFF#8, d] ∧ sent = [s.cfg.dummy, s.cfg.tokenStop] ∧ cause = before)
    ∨ tokenHeldBack adv meeting sent cause s

/-- How the erase sequence fails (44_ioctl.md R272): at CMD32, CMD33 or CMD38, each sent only when the one before was accepted,
or when the wait of 30000 ms runs out. -/
def eraseFails (adv : Nat) (st ed : U32) (failing sent : List Byte) (cause : Cause) (s : State) : Prop :=
  commandFails adv 32#8 st .cmd32 failing sent cause s
    ∨ ∃ (a : Answer) (bytes out : List Byte), a.wf = true ∧ a.r = 0x00#8 ∧ failing = a.bytes ++ bytes
      ∧ sent = commandSent s.cfg 32#8 st a ++ out
      ∧ (commandFails adv 33#8 ed .cmd33 bytes out cause s
        ∨ ∃ (b : Answer) (bytes' out' : List Byte), b.wf = true ∧ b.r = 0x00#8 ∧ bytes = b.bytes ++ bytes'
          ∧ out = commandSent s.cfg 33#8 ed b ++ out'
          ∧ (commandFails adv 38#8 0#32 .cmd38 bytes' out' cause s
            ∨ ∃ (c : Answer) (bs : List Byte) (e : Byte), c.wf = true ∧ c.r = 0x00#8 ∧ busyFor bs 30000 adv s ∧ e ≠ 0xFF#8
              ∧ 30000 ≤ (bs.length + 1) * adv ∧ bytes' = c.bytes ++ (bs ++ [e])
              ∧ out' = commandSent s.cfg 38#8 0#32 c ++ List.replicate (bs.length + 1) s.cfg.dummy
              ∧ cause = .timeout .waitReady))

/-- What the hint of a multi-block write meets (43_blockio.md R237): ACMD23 with the count on SD cards, nothing on the others. -/
def hintMeets (count : U32) (hint : List Turn) (s : State) : Prop :=
  if s.card.type = .sd1 ∨ s.card.type = .sd2 then ∃ r, meets 0x97#8 count hint r else hint = []

/-! ### Premises -/

/-- Every started transfer completes (45_guard_status.md R293). -/
def fair (s : State) : Prop := s.fires.rest = true ∧ ∀ b ∈ s.fires.next, b = true

/-- The transfer bridge is at rest on this instance's peripheral, and every started transfer completes. -/
def bridgeReady (s : State) : Prop := pendingHere s = false ∧ fair s

/-- The lock is free and nobody else wins the race for it. -/
def lockFree (s : State) : Prop := s.lock = ⟨none, 0⟩ ∧ s.contend.pop.1 = false

/-- A data call finds the card present and initialized and gets the lock, and no call of another thread falls inside it
(70_reset_and_hazards.md R353 (a)). -/
def usable (s : State) : Prop :=
  inputPresent s = true ∧ s.status.notInitialized = false ∧ lockFree s ∧ quiet s

/-- `initialize` runs from a present card and a free lock, with no call of another thread in between; `idle` is what the card
returns during the idle clocks, `pre` what the unchecked CMD0 iterations meet (42_probe.md R202, R203). -/
def probeStarts (adv : Nat) (idle : List Byte) (pre : List Turn) (s : State) : Prop :=
  inputPresent s = true ∧ lockFree s ∧ quiet s ∧ s.cfg.stopCmdIndex = 12#8 ∧ idle.length = s.cfg.initIdleBytes
    ∧ pre.length = s.cfg.nCmd0Pre ∧ (∀ x ∈ pre, x.isOf 0#8 0#32) ∧ turnsWf adv s pre

/-- The tick counter advances past any window (70_reset_and_hazards.md R363): once the scripted advances are used up it goes on
by a fixed amount at each reading, too small to jump over a window of 30000 ms. -/
def ticking (s : State) : Prop := 1 ≤ s.tickAdv.rest ∧ s.tickAdv.rest + 30000 ≤ tickModulus s.cfg

/-- What a host call leaves when it returned: chip-select deasserted, lock free, `seq` at Idle, value `v` on the host port. -/
def returned (v : HostReturn) (t : State) : Prop :=
  t.cs = .deasserted ∧ t.lock = ⟨none, 0⟩ ∧ t.seq = .idle ∧ t.hostOut = v

/-- What a data operation of the host (`read`, `write`, `ioctl`) may change: not the card record, not `NotInitialized`, not the
speed selector, not the parameters; who waits goes on waiting. -/
def hostFrame (s t : State) : Prop :=
  t = { s with
    cs := t.cs, cause := t.cause, wins := t.wins, rx := t.rx, tick := t.tick, tickAdv := t.tickAdv,
    events := t.events, hung := t.hung, fr := t.fr, r1 := t.r1, n := t.n,
    addr := t.addr, remaining := t.remaining, off := t.off, csd := t.csd, tok := t.tok,
    pending := t.pending, engine := t.engine, fires := t.fires, mem := t.mem, bufBase := t.bufBase,
    status := { s.status with noDisk := t.status.noDisk, writeProtected := t.status.writeProtected },
    lock := t.lock, contend := t.contend, waiters := t.waiters, early := t.early, spiCfg := t.spiCfg, cd := t.cd, wp := t.wp,
    out := t.out, free := t.free, hostOut := t.hostOut, seq := t.seq, path := t.path, others := t.others }
    ∧ ∃ new, t.waiters = s.waiters ++ new

/-- What `initialize` may change: the card record, the status, the speed selector and what its commands use; no memory, no
scratch array `csd`, no ioctl value, nothing of the transfer bridge. -/
def initFrame (s t : State) : Prop :=
  t = { s with
    cs := t.cs, cause := t.cause, wins := t.wins, rx := t.rx, tick := t.tick, tickAdv := t.tickAdv,
    events := t.events, hung := t.hung, fr := t.fr, r1 := t.r1, n := t.n, ocr := t.ocr,
    card := t.card, status := t.status, speedSel := t.speedSel, lock := t.lock, contend := t.contend,
    waiters := t.waiters, early := t.early, spiCfg := t.spiCfg, cd := t.cd, wp := t.wp, hostOut := t.hostOut, seq := t.seq,
    path := t.path, others := t.others }
    ∧ ∃ new, t.waiters = s.waiters ++ new

/-- What `initialize` leaves with this outcome, `sent` being what it sent before its last dummy byte: the card record,
NotInitialized exactly with type Unknown, WriteProtected sampled once more, high speed, the whole status returned (42_probe.md
R214 to R216). -/
def probeEnds (card : Card) (cause : Cause) (sent rest : List Byte) (s t : State) : Prop :=
  initFrame s t ∧ t.card = card ∧ t.status = ⟨card.type == .unknown, false, inputProtected (sampled s)⟩ ∧ t.speedSel = .high
    ∧ returned (.drive t.status) t ∧ t.cause = cause ∧ t.hung = s.hung ∧ t.rx = { s.rx with next := rest }
    ∧ t.sent = s.sent ++ List.replicate s.cfg.initIdleBytes s.cfg.dummy ++ sent ++ [s.cfg.dummy]

end Sys2Proof.Machine
end

