-- ==== Sys2Proof/Certificates/Slice0/Obligations.lean ====
section
/-! DEFINITION. The statements for the provers. Where a statement rests on a choice of the model, its docstring names the log
entry. Received bytes are premises of the form `s.rx.next = …`: what the card does is the environment's (20_memory.md R75). -/

open Sys2Proof Sys2Proof.Machine

/-! ### Encoding -/

/-- Words written out from the spec's encodings decode to the instruction they stand for (41_commands.md R162, R164, R169,
R166; 30_encoding.md R98, R102, R104, R112, R116). -/
def Obligations.TableWordsDecode : Prop :=
  decodeTableWord 48 0x400000000095 = some (.cmd0 0#32)
    ∧ decodeTableWord 48 0x48000001AA87 = some (.cmd8 0x1AA#32)
    ∧ decodeTableWord 48 0x510000020001 = some (.cmd17 0x200#32)
    ∧ decodeTableWord 56 0x4C0000000001FF = some (.cmd12 0#32)
    ∧ decodeTableWord 8 0xFD = some .tokenStop
    ∧ decodeTableWord 8 0x41 = some (.r1 0x41#7)
    ∧ decodeTableWord 8 0xE5 = some (.dataResponseAccepted 7#3)
    ∧ decodeTableWord 3 1 = some .status
    ∧ decodeTableWord 11 0x401 = some .ioctlGetSectorCount
    ∧ decodeTableWord 4 10 = some .waitForTransfer

/-- Decode and encode agree: for every well-formed instruction, with every operand at every value, whatever follows its word
(30_encoding.md R90 to R116; where the spec gives an operand no bits the layout is the model's, log 11). -/
def Obligations.EncodeThenDecode : Prop :=
  ∀ (i : Instr) (rest : List Byte), i.wellFormed = true →
    decode (slotOf i) (encode i ++ rest) = .ok (i, rest)

/-- A decoded word is the instruction's own word, in its own slot, and the instruction is well formed; only the discard byte of
the stop-transmission frame (30_encoding.md R96) may have another value than the encoder gives it (log 32). -/
def Obligations.DecodedWordIsEncoding : Prop :=
  ∀ (slot : Slot) (bytes rest : List Byte) (i : Instr), decode slot bytes = .ok (i, rest) →
    i.wellFormed = true ∧ slotOf i = slot ∧
      ∃ word, bytes = word ++ rest ∧ word.length = (encode i).length ∧
        (word = encode i ∨ ((∃ arg, i = .cmd12 arg) ∧ word.take 6 = (encode i).take 6))

/-- Words that are no row are refused: a first frame byte that is none of the seventeen of the command map, a trailer other than
its index's, host selectors above 4, primitive numbers above 11, bytes that are none of the three tokens (30_encoding.md R92,
R95, R102, R106, R113, R116). That a frame of another index, which the spec calls well formed (R108), is refused because it is no
row is the model's choice (log 34), and so are the trailers at their parameters' defaults (log 33). -/
def Obligations.ReservedWordsRejected : Prop :=
  (∀ (b0 a b c d t : Byte) (rest : List Byte),
      b0 ∉ [0x40#8, 0x41#8, 0x48#8, 0x49#8, 0x4C#8, 0x4D#8, 0x50#8, 0x51#8, 0x57#8, 0x58#8, 0x59#8, 0x60#8, 0x61#8, 0x66#8,
          0x69#8, 0x77#8, 0x7A#8] ∨
        t ≠ (if b0 = 0x40#8 then 0x95#8 else if b0 = 0x48#8 then 0x87#8 else 0x01#8) →
      ∃ e, decode .frame (b0 :: a :: b :: c :: d :: t :: rest) = .error e)
    ∧ (∀ (op : Byte) (rest : List Byte), 4 < op.toNat → decode .host (op :: rest) = .error .badHostSelector)
    ∧ (∀ (p : Byte) (rest : List Byte), 11 < p.toNat → decode .primitive (p :: rest) = .error .badPrimitiveNumber)
    ∧ (∀ (b : Byte) (rest : List Byte), b ∉ [0xFC#8, 0xFD#8, 0xFE#8] → decode .token (b :: rest) = .error .badToken)

/-! ### Step -/

/-- On the sequencer's turn the first request that can be taken up is decoded in its slot and executed for its thread, and
taken off the requests; bytes that are no instruction are refused. (How requests stand for calls: log 18; that a statement of the
sequencer is taken up only for the lock's holder, 40_transport.md R131: log 14.) -/
def Obligations.StepRunsNextRequest : Prop :=
  ∀ (s : State) (blocked later : List Request) (r : Request), s.turns.pop.1 = .sequencer →
    s.requests = blocked ++ r :: later → (∀ q ∈ blocked, takeable s q = false) → takeable s r = true →
    (∀ i rest, decode r.slot r.bytes = .ok (i, rest) →
        step s = exec i { s with turns := s.turns.pop.2, requests := blocked ++ later, me := r.thread })
      ∧ (∀ e, decode r.slot r.bytes = .error e → step s = .refused (.undecodable e))

/-- A table word placed as the next request is the instruction the very next step runs, for a thread that holds the lock where
the instruction asks for it (log 18). -/
def Obligations.TableWordRunsFirst : Prop :=
  ∀ (s : State) (nbits w : Nat) (i : Instr), decodeTableWord nbits w = some i →
    step (s.withFetchWord nbits w) = exec i { s with hung := none, me := idleThread s, lock := lockFor i s }

/-! ### Reset and invariants -/

/-- The values the spec gives for reset (70_reset_and_hazards.md R350, 10_state.md R43), and that reset puts nothing on a port
(R351). The working registers the spec leaves unspecified are not part of this statement (log 5). -/
def Obligations.ResetValues : Prop :=
  State.reset.card = ⟨.unknown, false⟩ ∧ State.reset.status.notInitialized = true ∧ State.reset.cs = .deasserted
    ∧ State.reset.lock = ⟨none, 0⟩ ∧ State.reset.pending = ⟨false, false⟩ ∧ State.reset.seq = .idle
    ∧ State.reset.cause = .none ∧ State.reset.status.noDisk = false ∧ State.reset.status.writeProtected = false
    ∧ State.reset.events = []

/-- Reset meets the invariants that `StepKeepsInvariant` and `StepKeepsRestingBus` are about. -/
def Obligations.ResetSatisfiesInvariants : Prop := Machine.Inv State.reset ∧ Resting State.reset

/-- Every step keeps: canonical memory; `blockAddressed` only with SD2 (10_state.md R21); NotInitialized exactly when the type
is Unknown (42_probe.md R215, R218); lock free exactly at depth 0 (R33); `n` at most 10 (R28); the tick reading in range (R32);
the engine only holds what is pending (R34). -/
def Obligations.StepKeepsInvariant : Prop :=
  ∀ s t : State, Machine.Inv s → step s = .next t → Machine.Inv t

/-- With only the host port in use, every step from a state between operations leaves one: chip-select deasserted, lock free,
`seq` at Idle, or an operation that never ends and keeps the lock (10_state.md R35, R37; 45_guard_status.md R291;
70_reset_and_hazards.md R363, R364). That a whole operation is one step is log 1. -/
def Obligations.StepKeepsRestingBus : Prop :=
  ∀ s t : State, Resting s → step s = .next t → Resting t

/-- Only `initialize` writes the card record, NotInitialized and the speed selector; nothing writes a parameter (10_state.md
R21, R22, R23, R37; 45_guard_status.md R303; 70_reset_and_hazards.md R352). -/
def Obligations.OnlyInitializeWritesCard : Prop :=
  ∀ (i : Instr) (s t : State), exec i s = .next t →
    t.cfg = s.cfg ∧
      (i ≠ .initCard →
        t.card = s.card ∧ t.status.notInitialized = s.status.notInitialized ∧ t.speedSel = s.speedSel)

/-- Host memory: a write keeps the canonical form, the byte written is read back and no other byte changes, and equal contents
are equal lists (20_memory.md R64; the form is the model's, log 10). -/
def Obligations.MemoryIsCanonical : Prop :=
  (∀ (m : Memory) (a : Nat) (v : Byte), m.wf = true →
      (m.write a v).wf = true ∧ ∀ b, (m.write a v).read b = if b = a then v else m.read b)
    ∧ (∀ m m' : Memory, m.wf = true → m'.wf = true → (∀ a, m.read a = m'.read a) → m = m')

/-! ### Early checks, inputs, lock -/

/-- Early returns (60_exceptions.md R313; their order: R321, 43_blockio.md R235): nothing but the two sampled
status bits changes, and no port but the two inputs and the host port sees an event. An unknown `ioctl` code is no early check: it
is found inside the lock, and the exit sequence runs. The order of the checks, WriteProtected before NotReady and both before
the count, and that a count of 0 is a check at all, rest on the spec's decisions D17 and D18; that `seq` keeps the place of an
operation of another thread is log 1. No call of another thread falls in between (`quiet`). -/
def Obligations.EarlyChecksTurnAway : Prop :=
  ∀ (s : State) (buf sector count : U32), quiet s →
    (inputPresent s = false ∨ s.status.notInitialized = true →
        ∃ t, exec (.read buf sector count) s = .next t ∧ turnedAway s (.result .notReady) t)
      ∧ (inputPresent s = true → s.status.notInitialized = false → count = 0#32 →
          ∃ t, exec (.read buf sector count) s = .next t ∧ turnedAway s (.result .paramError) t)
      ∧ (inputProtected s = true →
          ∃ t, exec (.write buf sector count) s = .next t ∧ turnedAway s (.result .writeProtected) t)
      ∧ (inputProtected s = false → inputPresent s = false ∨ s.status.notInitialized = true →
          ∃ t, exec (.write buf sector count) s = .next t ∧ turnedAway s (.result .notReady) t)
      ∧ (inputProtected s = false → inputPresent s = true → s.status.notInitialized = false → count = 0#32 →
          ∃ t, exec (.write buf sector count) s = .next t ∧ turnedAway s (.result .paramError) t)
      ∧ (∀ (code : Byte) (start stop : U32) (i : Instr),
          i ∈ [.ioctl code start stop, .ioctlSync, .ioctlGetSectorCount, .ioctlGetBlockSize, .ioctlEraseSector start stop,
            .ioctlUnknown code] →
          inputPresent s = false ∨ s.status.notInitialized = true →
          ∃ t, exec i s = .next t ∧ turnedAway s (.result .notReady) t)
      ∧ (inputPresent s = false →
          ∃ t, exec .initCard s = .next t ∧ turnedAway s (.drive (sampledStatus s)) t)
      ∧ (∀ (code : Byte) (start stop : U32) (i : Instr), i ∈ [.ioctlUnknown code, .ioctl code start stop] →
          code ∉ [0#8, 1#8, 3#8, 4#8] → usable s →
          ∃ t, exec i s = .next t ∧ t.events = .ret s.me (.result .paramError) :: .unlock s.me
            :: .xchg s.cfg.dummy s.rx.pop.1 :: .cs .deasserted :: .configure (lockConfig s) :: .lock s.me
            :: (inputEvents s ++ s.events))

/-- `RefreshInputs` and `status` (45_guard_status.md R302, R301): both bits from the live inputs, in every state, also while
another thread holds the lock; nothing on the link. And a `status` call of another thread that falls inside a running locked
operation, here before one exchange, or with its two readings on either side of a chip-select event, returns the live bits, and
the operation goes on as if it had not been made but for the bits, the readings and the host port (R294). What may fall where is
the model's choice (log 1). -/
def Obligations.StatusSamplesInputs : Prop :=
  (∀ s : State, quiet s →
    exec .refreshInputs s = .next { sampled s with ret := .none }
      ∧ ∃ t, exec .status s = .next t ∧ turnedAway s (.drive (sampledStatus s)) t)
    ∧ (∀ (s : State) (thread : Nat) (later : List (List OtherMove)), canCall s thread = true →
      (∀ tx : Byte, s.others = [.call thread none, .go thread, .go thread, .go thread] :: later →
          exec (.xchg tx) s = .next { sampled s with
            others := later
            hostOut := .drive (sampledStatus s)
            rx := s.rx.pop.2
            events := .xchg tx s.rx.pop.1 :: .ret thread (.drive (sampledStatus s)) :: (inputEvents s ++ s.events)
            ret := .byte s.rx.pop.1 })
        ∧ (s.cfg.cdEnabled = true → s.cfg.wpEnabled = true →
          s.others = [.call thread none, .go thread] :: [.go thread, .go thread] :: later →
          exec .deselect s = .next { sampled s with
            others := later
            hostOut := .drive (sampledStatus s)
            cs := .deasserted
            rx := s.rx.pop.2
            events := [.xchg s.cfg.dummy s.rx.pop.1, .ret thread (.drive (sampledStatus s)),
              .writeProtect (inputProtected s), .cs .deasserted, .cardDetect (inputPresent s)] ++ s.events
            ret := .none }))

/-- `Lock()` (45_guard_status.md R290): re-entry by the owner adds 1 to the depth, a free lock is taken at depth 1, and each
acquisition configures the peripheral; a lock that another thread holds is waited for, and so is a free one that another thread
wins first (input `contend`, log 25). -/
def Obligations.LockAcquires : Prop :=
  ∀ s : State,
    (quiet s → s.lock.owner = some s.me →
        exec .lock s = .next { s with
          lock := ⟨some s.me, s.lock.depth + 1⟩
          spiCfg := ⟨speedOf s.cfg s.speedSel, s.cfg.spiMode, s.cfg.spiBitOrder⟩
          events := .configure ⟨speedOf s.cfg s.speedSel, s.cfg.spiMode, s.cfg.spiBitOrder⟩ :: .lock s.me :: s.events
          ret := .none })
      ∧ (quiet s → s.lock.owner = none → s.contend.pop.1 = false →
          exec .lock s = .next { s with
            lock := ⟨some s.me, 1⟩
            contend := s.contend.pop.2
            spiCfg := ⟨speedOf s.cfg s.speedSel, s.cfg.spiMode, s.cfg.spiBitOrder⟩
            events := .configure ⟨speedOf s.cfg s.speedSel, s.cfg.spiMode, s.cfg.spiBitOrder⟩ :: .lock s.me :: s.events
            ret := .none })
      ∧ (∀ o, s.lock.owner = some o → o ≠ s.me →
          exec .lock s = .next { s with waiters := s.waiters ++ [⟨s.me, .bareLock⟩] })
      ∧ (s.lock.owner = none → s.contend.pop.1 = true →
          exec .lock s = .next { s with contend := s.contend.pop.2, waiters := s.waiters ++ [⟨s.me, .bareLock⟩] })

/-- `Unlock()` (45_guard_status.md R291): the owner's depth goes down by 1 and the lock is free at 0; by another thread, or at
depth 0, it is refused. -/
def Obligations.UnlockReleases : Prop :=
  ∀ s : State,
    (quiet s → s.lock.owner = some s.me → 1 ≤ s.lock.depth →
        exec .unlock s = .next { s with
          lock := if s.lock.depth = 1 then ⟨none, 0⟩ else ⟨some s.me, s.lock.depth - 1⟩
          events := .unlock s.me :: s.events
          ret := .none })
      ∧ (s.lock.owner ≠ some s.me ∨ s.lock.depth = 0 → exec .unlock s = .refused .unlockByNonOwner)

/-- A free lock goes to a waiting thread, which then goes on with its call (45_guard_status.md R290); which one is free (U13,
log 9). -/
def Obligations.WaitingThreadGetsLock : Prop :=
  ∀ s : State, s.lock.owner = none → s.waiters ≠ [] →
    (s.turns.pop.1 = .grant ∨ (s.turns.pop.1 = .sequencer ∧ ∀ q ∈ s.requests, takeable s q = false)) →
    ∃ (before after : List Waiter) (w : Waiter) (f : Nat), s.waiters = before ++ w :: after ∧
      step s = lockedBody w.call
        (takeLock w.call { s with turns := s.turns.pop.2, me := w.thread, waiters := before ++ after, free := f })

/-- While a thread holds the lock, a host call of any other thread puts nothing on the link and changes neither the lock nor
chip-select, memory, `card`, `seq` or a working register: it returns before the lock or waits; and a step that puts a byte on the
link is a step of the thread that holds the lock, or the transfer engine's (45_guard_status.md R294, R301; 60_exceptions.md R330;
40_transport.md R131). -/
def Obligations.LockExcludesOtherThreads : Prop :=
  (∀ (i : Instr) (s : State) (o : Nat), isHostSlot (slotOf i) = true → s.lock.owner = some o → o ≠ s.me →
    ∃ t, exec i s = .next t ∧ t.sent = s.sent ∧
      t = { s with
        status := { s.status with noDisk := t.status.noDisk, writeProtected := t.status.writeProtected }
        cd := t.cd, wp := t.wp, events := t.events, hostOut := t.hostOut, waiters := t.waiters, early := t.early, others := t.others } ∧
      ∃ new, t.waiters = s.waiters ++ new)
    ∧ (∀ (s t : State) (o : Nat), s.lock.owner = some o → step s = .next t → t.sent ≠ s.sent →
      (s.turns.pop.1 = .sequencer ∧ t.me = o) ∨ s.turns.pop.1 = .engine)

/-! ### The transfer bridge -/

/-- `StartTransfer` with nothing pending registers the transfer and hands it to the engine, whatever its direction, place and
length; the scratch array has elements 0 to 15 only (45_guard_status.md R292; 10_state.md R29, R34). -/
def Obligations.StartTransferRegisters : Prop :=
  ∀ (s : State) (dir : Dir) (loc : Loc) (len : BitVec 16), s.pending.get s.cfg.peripheralId = false →
    (quiet s → (loc = .csd → len.toNat ≤ 16) →
        exec (.startTransfer dir loc len) s = .next { s with
          pending := s.pending.set s.cfg.peripheralId true
          engine := some ⟨dir, placeOf loc, len.toNat, false⟩
          events := .startTransfer dir (placeOf loc) len.toNat :: s.events
          ret := .none })
      ∧ (loc = .csd → 16 < len.toNat → exec (.startTransfer dir loc len) s = .fault .scratchOutOfRange)

/-- `WaitForTransfer` when the completion signal fires: `len` exchanges in ascending order, then the completion, which clears
the pending bit. Out: the bytes of the place are sent, what comes back is dropped; in: DUMMY is sent, what comes back is stored
(45_guard_status.md R292, R293, R295). With nothing pending it returns at once (log 16). -/
def Obligations.TransferMovesBytes : Prop :=
  ∀ (s : State) (place : Place) (bytes rest : List Byte), quiet s → s.fires.pop.1 = true → s.rx.next = bytes ++ rest →
    s.pending.get s.cfg.peripheralId = true →
    (s.engine = some ⟨.out, place, bytes.length, false⟩ →
        exec .waitForTransfer s = .next { s with
          pending := s.pending.set s.cfg.peripheralId false
          engine := none
          fires := s.fires.pop.2
          rx := { s.rx with next := rest }
          events := .complete s.cfg.peripheralId ::
            ((List.zipWith Event.xchg ((List.range bytes.length).map (fun i => placeRead place i s)) bytes).reverse ++ s.events)
          ret := .none })
      ∧ (s.engine = some ⟨.inp, place, bytes.length, false⟩ →
        exec .waitForTransfer s = .next { s with
          pending := s.pending.set s.cfg.peripheralId false
          engine := none
          fires := s.fires.pop.2
          rx := { s.rx with next := rest }
          mem := memAfter place bytes s
          csd := csdAfter place bytes s
          events := .complete s.cfg.peripheralId :: ((reads s.cfg bytes).reverse ++ s.events)
          ret := .none })
      ∧ exec .waitForTransfer { s with pending := s.pending.set s.cfg.peripheralId false } =
          .next { s with pending := s.pending.set s.cfg.peripheralId false, ret := .none }

/-- A second registration on a peripheral and a completion with nothing pending are refused, from this instance and from
another one (70_reset_and_hazards.md R365); so is, while the lock is held, another user's configuration of the peripheral and
another instance's transfer on it (R366). -/
def Obligations.BridgePreconditionsRefused : Prop :=
  (∀ (s : State) (dir : Dir) (loc : Loc) (len : BitVec 16), s.pending.get s.cfg.peripheralId = true →
      exec (.startTransfer dir loc len) s = .refused .transferPending)
    ∧ (∀ (s : State) (p : Bool), s.turns.pop.1 = .peer p true → s.pending.get p = true →
        step s = .refused .transferPending)
    ∧ (∀ (s : State) (p : Bool), s.turns.pop.1 = .peer p false → s.pending.get p = false →
        step s = .refused .completionWithoutTransfer)
    ∧ (∀ (s : State) (c : SpiConfig), s.turns.pop.1 = .busUser c → s.lock.owner ≠ none → step s = .refused .busInUse)
    ∧ (∀ s : State, s.turns.pop.1 = .peer s.cfg.peripheralId true → s.pending.get s.cfg.peripheralId = false →
        s.lock.owner ≠ none → step s = .refused .busInUse)
    ∧ (∀ s : State, s.turns.pop.1 = .engine → s.engine = none → step s = .refused .completionWithoutTransfer)

/-- Waits that never end leave the block waiting with chip-select and the lock as they were: a transfer whose completion never
fires, with its pending bit still set (70_reset_and_hazards.md R364), and polls whose byte never comes while the tick counter
stands still (R363; how the model knows: log 4). -/
def Obligations.WaitsNeverEnd : Prop :=
  (∀ (s : State) (x : Transfer), s.engine = some x → s.pending.get s.cfg.peripheralId = true → s.fires.pop.1 = false →
      ∃ t, exec .waitForTransfer s = .next t ∧ t.hung = some ⟨.completion, s.me, none⟩ ∧ t.cs = s.cs ∧ t.lock = s.lock
        ∧ t.pending = s.pending)
    ∧ (∀ (s : State) (ms : U32) (b : Byte) (a : Nat), s.rx = ⟨[], b⟩ → b ≠ 0xFF#8 → s.tickAdv = ⟨[], a⟩ →
        a % tickModulus s.cfg = 0 → ms ≠ 0#32 →
        ∃ t, exec (.waitReady ms) s = .next t ∧ t.hung = some ⟨.waitReady, s.me, none⟩ ∧ t.cs = s.cs ∧ t.lock = s.lock)
    ∧ (∀ (s : State) (dest : Loc) (len : BitVec 16) (a : Nat), s.rx = ⟨[], 0xFF#8⟩ → s.tickAdv = ⟨[], a⟩ →
        a % tickModulus s.cfg = 0 →
        ∃ t, exec (.receiveDataBlock dest len) s = .next t ∧ t.hung = some ⟨.dataToken, s.me, none⟩ ∧ t.cs = s.cs
          ∧ t.lock = s.lock ∧ t.mem = s.mem ∧ t.csd = s.csd)

/-! ### Transport primitives -/

/-- `Xchg` and `deselect` (40_transport.md R130, R133; calls of other threads in between: the frames): one byte each way whatever chip-select is; deselect
drives the level again even when it is already deasserted, and sends one dummy byte. -/
def Obligations.ExchangeAndDeselect : Prop :=
  ∀ (s : State) (tx : Byte), quiet s →
    exec (.xchg tx) s = .next { s with
      rx := s.rx.pop.2, events := .xchg tx s.rx.pop.1 :: s.events, ret := .byte s.rx.pop.1 }
      ∧ exec .deselect s = .next { s with
        cs := .deasserted, rx := s.rx.pop.2
        events := .xchg s.cfg.dummy s.rx.pop.1 :: .cs .deasserted :: s.events, ret := .none }

/-- `waitReady(T)` (40_transport.md R134): true at the first 0xFF, also at the poll at which the window has run out; false, with
its cause, at the first poll after which the window is over; one dummy byte per poll, nothing else on the link. -/
def Obligations.WaitReadyOutcome : Prop :=
  ∀ (s : State) (ms : U32) (bs rest : List Byte) (a : Nat), quiet s → busyFor bs ms.toNat a s →
    (s.rx.next = bs ++ 0xFF#8 :: rest →
        ∃ t, exec (.waitReady ms) s = .next t ∧ linkFrame s t ∧ t.ret = .bool true ∧ t.cs = s.cs ∧ t.cause = s.cause
          ∧ t.wins = s.wins ∧ t.hung = s.hung ∧ t.rx = { s.rx with next := rest }
          ∧ t.sent = s.sent ++ List.replicate (bs.length + 1) s.cfg.dummy)
      ∧ (∀ b, b ≠ 0xFF#8 → ms.toNat ≤ (bs.length + 1) * a → s.rx.next = bs ++ b :: rest →
        ∃ t, exec (.waitReady ms) s = .next t ∧ linkFrame s t ∧ t.ret = .bool false ∧ t.cs = s.cs
          ∧ t.cause = .timeout .waitReady ∧ t.wins = s.wins ∧ t.hung = s.hung ∧ t.rx = { s.rx with next := rest }
          ∧ t.sent = s.sent ++ List.replicate (bs.length + 1) s.cfg.dummy)

/-- `select()` (40_transport.md R132): the first dummy byte's answer `d` is not looked at; ready within 100 ms leaves
chip-select asserted and gives true, a card that stays busy is deselected and gives false; in a command the reselection that
fails gives 0xFF and no frame is sent (R136). -/
def Obligations.SelectOutcome : Prop :=
  ∀ (s : State) (bs rest : List Byte) (d : Byte) (a : Nat), quiet s → busyFor bs 100 a s →
    (s.rx.next = d :: (bs ++ 0xFF#8 :: rest) →
        ∃ t, exec .select s = .next t ∧ linkFrame s t ∧ t.ret = .bool true ∧ t.cs = .asserted ∧ t.cause = s.cause
          ∧ t.wins = s.wins ∧ t.hung = s.hung ∧ t.rx = { s.rx with next := rest }
          ∧ t.sent = s.sent ++ List.replicate (bs.length + 2) s.cfg.dummy)
      ∧ (∀ b e, b ≠ 0xFF#8 → 100 ≤ (bs.length + 1) * a → s.rx.next = d :: (bs ++ b :: e :: rest) →
        ∃ t, exec .select s = .next t ∧ linkFrame s t ∧ t.ret = .bool false ∧ t.cs = .deasserted
          ∧ t.cause = .timeout .waitReady ∧ t.wins = s.wins ∧ t.hung = s.hung ∧ t.rx = { s.rx with next := rest }
          ∧ t.sent = s.sent ++ List.replicate (bs.length + 3) s.cfg.dummy)
      ∧ (∀ b c e index arg, b ≠ 0xFF#8 → 100 ≤ (bs.length + 1) * a → s.rx.next = c :: d :: (bs ++ b :: e :: rest) →
        index.getLsbD 6 = false → index.getLsbD 7 = false → index ≠ s.cfg.stopCmdIndex →
        ∃ t, exec (.sendCommand index arg) s = .next t ∧ t.ret = .byte 0xFF#8 ∧ t.r1 = 0xFF#8 ∧ t.fr = s.fr
          ∧ t.cs = .deasserted ∧ t.cause = .timeout .waitReady ∧ t.hung = s.hung
          ∧ t.sent = s.sent ++ List.replicate (bs.length + 4) s.cfg.dummy)

/-- When the tick counter advances past any window and every started transfer completes, every primitive with a wait returns,
whatever the card does (70_reset_and_hazards.md R363, R364; 40_transport.md R138). The premise `ticking` is the model's form of
R363's premise. -/
def Obligations.PrimitivesReturn : Prop :=
  ∀ s : State, ticking s → fair s → s.pending.get s.cfg.peripheralId = false →
    (∀ ms : U32, ms.toNat ≤ 30000 → ∃ t, exec (.waitReady ms) s = .next t ∧ t.hung = s.hung)
      ∧ (∃ t, exec .select s = .next t ∧ t.hung = s.hung)
      ∧ (∀ index arg, index.getLsbD 6 = false → 55#8 ≠ s.cfg.stopCmdIndex → index &&& 0x7F#8 ≠ s.cfg.stopCmdIndex →
        ∃ t, exec (.sendCommand index arg) s = .next t ∧ t.hung = s.hung)
      ∧ (∀ off token, ∃ t, exec (.sendDataBlock off token) s = .next t ∧ t.hung = s.hung)
      ∧ (∀ (dest : Loc) (len : BitVec 16), (dest = .csd → len.toNat ≤ 16) →
        ∃ t, exec (.receiveDataBlock dest len) s = .next t ∧ t.hung = s.hung)

/-- `sendCommand` to a card that answers (40_transport.md R136): the state after it in full, and the bytes it puts on the link
spelled out (30_encoding.md R93, R94, R95). Chip-select stays asserted (R139). -/
def Obligations.SendCommandAnswered : Prop :=
  ∀ (s : State) (index : Byte) (arg : U32) (a : Answer) (rest : List Byte), quiet s → a.wf = true →
    index.getLsbD 6 = false → index.getLsbD 7 = false → index ≠ s.cfg.stopCmdIndex → s.rx.next = a.bytes ++ rest →
    exec (.sendCommand index arg) s = .next { answered index arg a rest s with ret := .byte a.r }
      ∧ (answered index arg a rest s).sent =
          s.sent ++ [s.cfg.dummy, s.cfg.dummy, s.cfg.dummy]
            ++ [0x40#8 ||| (index &&& 0x7F#8), arg.extractLsb' 24 8, arg.extractLsb' 16 8, arg.extractLsb' 8 8,
              arg.extractLsb' 0 8,
              if index = 0#8 then s.cfg.trailerCmd0 else if index = 8#8 then s.cfg.trailerCmd8 else s.cfg.trailerOther]
            ++ List.replicate (a.gap.length + 1) s.cfg.dummy
      ∧ (Config.default.trailerCmd0, Config.default.trailerCmd8, Config.default.trailerOther) = (0x95#8, 0x87#8, 0x01#8)

/-- The response poll (40_transport.md R138): the first byte with bit 7 clear within ten is taken, after exactly that many
polls; when all ten have bit 7 set, the tenth is returned, every response test fails on it, and no eleventh poll happens. -/
def Obligations.ResponsePollTenBytes : Prop :=
  ∀ (s : State) (index : Byte) (arg : U32) (d0 d1 r : Byte) (echo gap rest : List Byte), quiet s → echo.length = 6 →
    gap.length ≤ 9 → (∀ b ∈ gap, b.getLsbD 7 = true) → index.getLsbD 6 = false → index.getLsbD 7 = false →
    index ≠ s.cfg.stopCmdIndex → s.rx.next = d0 :: d1 :: 0xFF#8 :: (echo ++ (gap ++ r :: rest)) →
    (r.getLsbD 7 = false ∨ gap.length = 9) →
    ∃ t, exec (.sendCommand index arg) s = .next t ∧ t.ret = .byte r ∧ t.r1 = r ∧ t.n.toNat = 9 - gap.length
      ∧ t.rx = { s.rx with next := rest } ∧ t.cs = .asserted ∧ t.sent.length = s.sent.length + 9 + (gap.length + 1)
      ∧ (r.getLsbD 7 = true → acceptedReady r = false ∧ acceptedIdle r = false ∧ idleOrReady r = false)

/-- An application command (40_transport.md R137, 30_encoding.md R97): a whole CMD55 first; above 1 its value is returned and no
second frame is sent, else the command follows with a deselect and select of its own. -/
def Obligations.ApplicationCommandPrefix : Prop :=
  ∀ (s : State) (index : Byte) (arg : U32) (a b : Answer) (rest : List Byte), quiet s → a.wf = true → b.wf = true →
    index.getLsbD 6 = false → index.getLsbD 7 = true → 55#8 ≠ s.cfg.stopCmdIndex →
    index &&& 0x7F#8 ≠ s.cfg.stopCmdIndex →
    (a.r.toNat ≤ 1 → s.rx.next = a.bytes ++ (b.bytes ++ rest) →
        exec (.sendCommand index arg) s =
          .next { answered (index &&& 0x7F#8) arg b rest (answered 55#8 0#32 a (b.bytes ++ rest) s) with ret := .byte b.r })
      ∧ (1 < a.r.toNat → s.rx.next = a.bytes ++ rest →
        exec (.sendCommand index arg) s = .next { answered 55#8 0#32 a rest s with ret := .byte a.r })

/-- The stop-transmission command inside an open selection (40_transport.md R140, 41_commands.md R166): no deselect, no select,
the frame, one discarded byte, then the response poll. R166 defines no test: that the CMD12 row's result is whether the card
responded is the model's choice (log 12). Index 12 is a parameter's default (log 6). -/
def Obligations.StopTransmissionCommand : Prop :=
  ∀ (s : State) (arg : U32) (echo gap rest : List Byte) (d r : Byte), quiet s → s.cfg.stopCmdIndex = 12#8 → s.cs = .asserted →
    echo.length = 6 → gap.length ≤ 9 → (∀ b ∈ gap, b.getLsbD 7 = true) → r.getLsbD 7 = false →
    s.rx.next = echo ++ d :: (gap ++ r :: rest) →
    ∃ t, t = { s with
        fr := ⟨12#8, arg, s.cfg.trailerOther⟩
        r1 := r
        n := BitVec.ofNat 4 (9 - gap.length)
        rx := { s.rx with next := rest }
        events := (List.zipWith Event.xchg
          ([0x4C#8, arg.extractLsb' 24 8, arg.extractLsb' 16 8, arg.extractLsb' 8 8, arg.extractLsb' 0 8, s.cfg.trailerOther]
            ++ List.replicate (gap.length + 2) s.cfg.dummy) (echo ++ d :: (gap ++ [r]))).reverse ++ s.events }
      ∧ exec (.sendCommand 12#8 arg) s = .next { t with ret := .byte r }
      ∧ exec (.cmd12 arg) s = .next { t with ret := .bool true }

/-- The two preconditions of `sendCommand` (70_reset_and_hazards.md R371): the stop-transmission command with no selection open,
and an index byte with bit 6 set, are refused. -/
def Obligations.CommandPreconditionsRefused : Prop :=
  (∀ (s : State) (arg : U32), s.cfg.stopCmdIndex = 12#8 → s.cs = .deasserted →
      exec (.sendCommand 12#8 arg) s = .refused .stopOutsideSelection
        ∧ exec (.cmd12 arg) s = .refused .stopOutsideSelection)
    ∧ (∀ (s : State) (index : Byte) (arg : U32), index.getLsbD 6 = true →
      exec (.sendCommand index arg) s = .refused .reservedIndex)

/-- `sendDataBlock` (40_transport.md R141, R142, R143, R144): to a ready card the token, the 512 buffer bytes in ascending
order, two placeholders, one data response, accepted exactly when its low five bits are 0b00101; the stop token alone, with
nothing read after it; to a card that stays busy nothing of the packet, not even the token. -/
def Obligations.SendDataBlockOutcome : Prop :=
  ∀ (s : State) (off : U64) (token : Byte) (rest : List Byte), quiet s →
    (∀ k : Sink, s.pending.get s.cfg.peripheralId = false → s.fires.pop.1 = true → token ≠ s.cfg.tokenStop →
        k.echo.length = 512 → s.rx.next = k.bytes ++ rest →
        (k.response.toNat % 32 = 5 →
            exec (.sendDataBlock off token) s = .next { sentBlock off.toNat token k rest s with ret := .bool true })
          ∧ (k.response.toNat % 32 ≠ 5 →
            exec (.sendDataBlock off token) s = .next { sentBlock off.toNat token k rest s with
              cause := .diskError .dataResponse, ret := .bool false }))
      ∧ (∀ d, s.rx.next = 0xFF#8 :: d :: rest →
        exec (.sendDataBlock off s.cfg.tokenStop) s = .next { sentStop d rest s with ret := .bool true })
      ∧ (∀ (bs : List Byte) (b : Byte) (a : Nat), busyFor bs 100 a s → b ≠ 0xFF#8 → 100 ≤ (bs.length + 1) * a →
        s.rx.next = bs ++ b :: rest →
        ∃ t, exec (.sendDataBlock off token) s = .next t ∧ linkFrame s t ∧ t.ret = .bool false
          ∧ t.cause = .timeout .waitReady ∧ t.cs = s.cs ∧ t.rx = { s.rx with next := rest }
          ∧ t.sent = s.sent ++ List.replicate (bs.length + 1) s.cfg.dummy)

/-- `receiveDataBlock` when the token comes at once (40_transport.md R145, R147): `len` bytes stored in ascending order at the
buffer offset or in the scratch array, two trailing bytes dropped, nothing checked. -/
def Obligations.ReceiveDataBlockStores : Prop :=
  ∀ (s : State) (dest : Loc) (len : BitVec 16) (k : Packet) (rest : List Byte), quiet s → k.payload.length = len.toNat →
    s.pending.get s.cfg.peripheralId = false → s.fires.pop.1 = true → (dest = .csd → len.toNat ≤ 16) →
    s.mem.wf = true → s.rx.next = k.bytes ++ rest →
    exec (.receiveDataBlock dest len) s = .next { received (placeOf dest) k rest s with ret := .bool true }
      ∧ (∀ off, dest = .buffer off →
        (∀ i (h : i < k.payload.length),
            (received (placeOf dest) k rest s).mem.read (s.bufBase + off.toNat + i) = k.payload[i])
          ∧ keepsOutside (s.bufBase + off.toNat) len.toNat s (received (placeOf dest) k rest s)
          ∧ (received (placeOf dest) k rest s).csd = s.csd)
      ∧ (dest = .csd →
        (received (placeOf dest) k rest s).csd.toList.take len.toNat = k.payload
          ∧ (received (placeOf dest) k rest s).mem = s.mem)

/-- The token poll (40_transport.md R146): it goes on only while the line idles at 0xFF; a byte that is neither 0xFF nor 0xFE
ends it at once, 200 ms of 0xFF end it with a timeout, nothing is stored; 0xFE is accepted also at the poll at which the window
has run out. -/
def Obligations.TokenPollOutcome : Prop :=
  ∀ (s : State) (dest : Loc) (len : BitVec 16) (j a : Nat) (rest : List Byte), quiet s → idleFor j a s →
    (∀ d, d ≠ 0xFF#8 → d ≠ 0xFE#8 → s.rx.next = List.replicate j 0xFF#8 ++ d :: rest →
        ∃ t, exec (.receiveDataBlock dest len) s = .next t ∧ t.ret = .bool false ∧ t.tok = d
          ∧ t.cause = .diskError .wrongToken ∧ t.mem = s.mem ∧ t.csd = s.csd ∧ t.pending = s.pending
          ∧ t.rx = { s.rx with next := rest } ∧ t.sent = s.sent ++ List.replicate (j + 1) s.cfg.dummy)
      ∧ (200 ≤ (j + 1) * a → s.rx.next = List.replicate (j + 1) 0xFF#8 ++ rest →
        ∃ t, exec (.receiveDataBlock dest len) s = .next t ∧ t.ret = .bool false ∧ t.tok = 0xFF#8
          ∧ t.cause = .timeout .dataToken ∧ t.mem = s.mem ∧ t.csd = s.csd ∧ t.pending = s.pending
          ∧ t.rx = { s.rx with next := rest } ∧ t.sent = s.sent ++ List.replicate (j + 1) s.cfg.dummy)
      ∧ (∀ k : Packet, k.payload.length = len.toNat → s.pending.get s.cfg.peripheralId = false → s.fires.pop.1 = true →
        (dest = .csd → len.toNat ≤ 16) → s.rx.next = List.replicate j 0xFF#8 ++ (k.bytes ++ rest) →
        ∃ t, exec (.receiveDataBlock dest len) s = .next t ∧ t.ret = .bool true ∧ t.cause = s.cause
          ∧ t.mem = memAfter (placeOf dest) k.payload s ∧ t.csd = csdAfter (placeOf dest) k.payload s
          ∧ t.rx = { s.rx with next := rest }
          ∧ t.sent = s.sent ++ List.replicate (j + 1 + len.toNat + 2) s.cfg.dummy)

/-! ### Single bytes on the link -/

/-- The bytes a block sends alone and the bytes it receives (41_commands.md R179 to R184; 30_encoding.md R98, R104, R105): each
row of the table is one exchange. A byte in is the exchange of the poll it belongs to, in which the card returns exactly that
byte (log 12); a poll counter that is already 0 stays 0 (log 19). -/
def Obligations.WireBytes : Prop :=
  (∀ s : State, quiet s →
      exec .tokenSingle s = .next { s with
        rx := s.rx.pop.2, events := .xchg s.cfg.tokenSingle s.rx.pop.1 :: s.events, ret := .none }
      ∧ exec .tokenMulti s = .next { s with
        rx := s.rx.pop.2, events := .xchg s.cfg.tokenMulti s.rx.pop.1 :: s.events, ret := .none }
      ∧ exec .tokenStop s = .next { s with
        rx := s.rx.pop.2, events := .xchg s.cfg.tokenStop s.rx.pop.1 :: s.events, ret := .none }
      ∧ exec .dummy s = .next { s with
        rx := s.rx.pop.2, events := .xchg s.cfg.dummy s.rx.pop.1 :: s.events, ret := .byte s.rx.pop.1 }
      ∧ exec .crcPlaceholder s = .next { s with
        rx := s.rx.pop.2, events := .xchg s.cfg.crcPlaceholder s.rx.pop.1 :: s.events, ret := .none }
      ∧ exec .dataStart s = .next { s with
        tok := 0xFE#8, events := .xchg s.cfg.dummy 0xFE#8 :: s.events, ret := .bool true }
      ∧ exec .ready s = .next { s with events := .xchg s.cfg.dummy 0xFF#8 :: s.events, ret := .bool true })
    ∧ (∀ (s : State) (r : BitVec 7) (x : BitVec 3), quiet s →
      exec (.r1 r) s = .next { s with
        r1 := BitVec.ofNat 8 r.toNat, n := if s.n = 0#4 then 0#4 else s.n - 1#4
        events := .xchg s.cfg.dummy (BitVec.ofNat 8 r.toNat) :: s.events, ret := .bool true }
      ∧ exec (.noResponse r) s = .next { s with
        r1 := BitVec.ofNat 8 (128 + r.toNat), n := if s.n = 0#4 then 0#4 else s.n - 1#4
        events := .xchg s.cfg.dummy (BitVec.ofNat 8 (128 + r.toNat)) :: s.events
        ret := .bool (s.n == 1#4 || s.n == 0#4) }
      ∧ exec (.dataResponseAccepted x) s = .next { s with
        events := .xchg s.cfg.dummy (BitVec.ofNat 8 (32 * x.toNat + 5)) :: s.events, ret := .bool true })
    ∧ (Config.default.tokenSingle, Config.default.tokenMulti, Config.default.tokenStop, Config.default.dummy,
        Config.default.crcPlaceholder) = (0xFE#8, 0xFC#8, 0xFD#8, 0xFF#8, 0xFF#8)

/-! ### Card commands -/

/-- CMD0, CMD1, CMD16, CMD32, CMD33 and CMD55 to a card that answers: the frame of their index, and their test on the response;
a failing test of CMD0, CMD16, CMD32, CMD33 records its cause, CMD1 and CMD55 record none (41_commands.md R161, R162, R163,
R168, R173, R174, R177; 60_exceptions.md R310). Index 12 of the stop command is a parameter's default (log 6). -/
def Obligations.PlainCommandsAnswered : Prop :=
  ∀ (s : State) (arg : U32) (a : Answer) (rest : List Byte), quiet s → a.wf = true → s.cfg.stopCmdIndex = 12#8 →
    s.rx.next = a.bytes ++ rest →
    exec (.cmd0 arg) s = .next { answered 0#8 arg a rest s with
        cause := if a.r = 0x01#8 then s.cause else .diskError .cmd0, ret := .bool (a.r == 0x01#8) }
      ∧ exec (.cmd1 arg) s = .next { answered 1#8 arg a rest s with ret := .bool (a.r == 0x00#8) }
      ∧ exec (.cmd16 arg) s = .next { answered 16#8 arg a rest s with
        cause := if a.r = 0x00#8 then s.cause else .diskError .cmd16, ret := .bool (a.r == 0x00#8) }
      ∧ exec (.cmd32 arg) s = .next { answered 32#8 arg a rest s with
        cause := if a.r = 0x00#8 then s.cause else .diskError .cmd32, ret := .bool (a.r == 0x00#8) }
      ∧ exec (.cmd33 arg) s = .next { answered 33#8 arg a rest s with
        cause := if a.r = 0x00#8 then s.cause else .diskError .cmd33, ret := .bool (a.r == 0x00#8) }
      ∧ exec (.cmd55 arg) s = .next { answered 55#8 arg a rest s with ret := .bool (decide (a.r.toNat ≤ 1)) }

/-- CMD8 and CMD58 (41_commands.md R164, R178; 30_encoding.md R99): when accepted, four bytes are read into `ocr`, first byte at
index 0; when rejected nothing more is read, and only CMD58 records a cause. -/
def Obligations.TrailingByteCommands : Prop :=
  ∀ (s : State) (arg : U32) (a : Answer) (b0 b1 b2 b3 : Byte) (rest : List Byte), quiet s → a.wf = true →
    s.cfg.stopCmdIndex = 12#8 →
    (s.rx.next = a.bytes ++ (b0 :: b1 :: b2 :: b3 :: rest) →
        (a.r = 0x01#8 →
            exec (.cmd8 arg) s = .next
              { readOn [b0, b1, b2, b3] rest (answered 8#8 arg a (b0 :: b1 :: b2 :: b3 :: rest) s) with
                ocr := #v[b0, b1, b2, b3], ret := .bool true })
          ∧ (a.r = 0x00#8 →
            exec (.cmd58 arg) s = .next
              { readOn [b0, b1, b2, b3] rest (answered 58#8 arg a (b0 :: b1 :: b2 :: b3 :: rest) s) with
                ocr := #v[b0, b1, b2, b3], ret := .bool true }))
      ∧ (s.rx.next = a.bytes ++ rest →
        (a.r ≠ 0x01#8 → exec (.cmd8 arg) s = .next { answered 8#8 arg a rest s with ret := .bool false })
          ∧ (a.r ≠ 0x00#8 → exec (.cmd58 arg) s =
            .next { answered 58#8 arg a rest s with cause := .diskError .cmd58, ret := .bool false }))

/-- ACMD23 and ACMD41 (41_commands.md R170, R176): CMD55 first; ACMD23's answer is ignored, ACMD41's is tested against 0x00; a
CMD55 above 1 ends both without the second frame and counts as a failed test. -/
def Obligations.ApplicationCommandsAnswered : Prop :=
  ∀ (s : State) (arg : U32) (a b : Answer) (rest : List Byte), quiet s → a.wf = true → b.wf = true →
    s.cfg.stopCmdIndex = 12#8 →
    (a.r.toNat ≤ 1 → s.rx.next = a.bytes ++ (b.bytes ++ rest) →
        exec (.acmd23 arg) s =
            .next { answered 23#8 arg b rest (answered 55#8 0#32 a (b.bytes ++ rest) s) with ret := .bool true }
          ∧ exec (.acmd41 arg) s =
            .next { answered 41#8 arg b rest (answered 55#8 0#32 a (b.bytes ++ rest) s) with ret := .bool (b.r == 0x00#8) })
      ∧ (1 < a.r.toNat → s.rx.next = a.bytes ++ rest →
        exec (.acmd23 arg) s = .next { answered 55#8 0#32 a rest s with ret := .bool true }
          ∧ exec (.acmd41 arg) s = .next { answered 55#8 0#32 a rest s with ret := .bool false })

/-- CMD9 and ACMD13 accepted, with their data (41_commands.md R165, R167; 44_ioctl.md R262, R268): 16 bytes into `csd`, index 0
first; ACMD13 drops one byte before the token and 48 bytes after the packet. -/
def Obligations.RegisterReadCommands : Prop :=
  ∀ (s : State) (arg : U32) (a b : Answer) (x : Byte) (k : Packet) (tail rest : List Byte), quiet s → a.wf = true → b.wf = true →
    s.cfg.stopCmdIndex = 12#8 → s.pending.get s.cfg.peripheralId = false → s.fires.pop.1 = true →
    k.payload.length = 16 →
    (a.r = 0x00#8 → s.rx.next = a.bytes ++ (k.bytes ++ rest) →
        exec (.cmd9 arg) s =
            .next { received .csd k rest (answered 9#8 arg a (k.bytes ++ rest) s) with ret := .bool true }
          ∧ (received .csd k rest (answered 9#8 arg a (k.bytes ++ rest) s)).csd.toList = k.payload)
      ∧ (a.r.toNat ≤ 1 → b.r = 0x00#8 → tail.length = 48 →
        s.rx.next = a.bytes ++ (b.bytes ++ (x :: (k.bytes ++ (tail ++ rest)))) →
        ∃ t, exec (.acmd13 arg) s = .next t ∧ t.ret = .bool true ∧ t.csd.toList = k.payload ∧ t.mem = s.mem
          ∧ t.cause = s.cause ∧ t.rx = { s.rx with next := rest }
          ∧ t.sent = s.sent ++ commandSent s.cfg 55#8 0#32 a ++ commandSent s.cfg 13#8 arg b
              ++ List.replicate (1 + 1 + 16 + 2 + 48) s.cfg.dummy)

/-- CMD17 and CMD24 accepted, with their data block (41_commands.md R169, R171): CMD17 stores 512 bytes at the current offset,
CMD24 sends the first 512 bytes of the buffer behind TOKEN_SINGLE; a rejected data response fails CMD24. -/
def Obligations.SingleBlockCommands : Prop :=
  ∀ (s : State) (arg : U32) (a : Answer) (rest : List Byte), quiet s → a.wf = true → a.r = 0x00#8 →
    s.cfg.stopCmdIndex = 12#8 → s.pending.get s.cfg.peripheralId = false → s.fires.pop.1 = true →
    (∀ k : Packet, k.payload.length = 512 → s.rx.next = a.bytes ++ (k.bytes ++ rest) →
        exec (.cmd17 arg) s =
          .next { received (.buffer s.off) k rest (answered 17#8 arg a (k.bytes ++ rest) s) with ret := .bool true })
      ∧ (∀ k : Sink, k.echo.length = 512 → s.cfg.tokenSingle ≠ s.cfg.tokenStop → s.rx.next = a.bytes ++ (k.bytes ++ rest) →
        (k.response.toNat % 32 = 5 →
            exec (.cmd24 arg) s = .next
              { sentBlock 0 s.cfg.tokenSingle k rest (answered 24#8 arg a (k.bytes ++ rest) s) with ret := .bool true })
          ∧ (k.response.toNat % 32 ≠ 5 →
            exec (.cmd24 arg) s = .next
              { sentBlock 0 s.cfg.tokenSingle k rest (answered 24#8 arg a (k.bytes ++ rest) s) with
                cause := .diskError .dataResponse, ret := .bool false }))

/-- CMD25 accepted, with `remaining` blocks that are all accepted and the stop token (41_commands.md R172; 43_blockio.md R234,
R239): block `k` is the 512 buffer bytes from offset `512 * k` on behind TOKEN_MULTI, all in one selection. -/
def Obligations.StreamCommandSends : Prop :=
  ∀ (s : State) (arg : U32) (a : Answer) (ks : List Sink) (d : Byte) (rest : List Byte), quiet s → a.wf = true → a.r = 0x00#8 →
    s.cfg.stopCmdIndex = 12#8 → s.cfg.tokenMulti ≠ s.cfg.tokenStop → bridgeReady s →
    s.remaining.toNat = ks.length → (∀ k ∈ ks, k.echo.length = 512 ∧ k.response.toNat % 32 = 5) →
    s.rx.next = a.bytes ++ (ks.flatMap Sink.bytes ++ (0xFF#8 :: d :: rest)) →
    ∃ t, exec (.cmd25 arg) s = .next t ∧ blockOutFrame s t ∧ t.ret = .bool true ∧ t.remaining = 0#32
      ∧ t.off = 512 * ks.length ∧ t.cs = .asserted ∧ t.cause = s.cause ∧ t.hung = s.hung ∧ t.rx = { s.rx with next := rest }
      ∧ t.sent = s.sent ++ commandSent s.cfg 25#8 arg a
          ++ (List.range ks.length).flatMap
              (fun k => packetSent s.cfg s.cfg.tokenMulti (memBytes s.mem (s.bufBase + 512 * k) 512))
          ++ [s.cfg.dummy, s.cfg.tokenStop]

/-- CMD38 (41_commands.md R175, 44_ioctl.md R272): when accepted, `waitReady(30000)` in the same selection; when rejected
nothing follows. -/
def Obligations.EraseCommandWaits : Prop :=
  ∀ (s : State) (arg : U32) (a : Answer) (bs rest : List Byte) (adv : Nat), quiet s → a.wf = true → s.cfg.stopCmdIndex = 12#8 →
    busyFor bs 30000 adv s →
    (a.r = 0x00#8 → s.rx.next = a.bytes ++ (bs ++ 0xFF#8 :: rest) →
        ∃ t, exec (.cmd38 arg) s = .next t ∧ commandFrame s t ∧ t.ret = .bool true ∧ t.cs = .asserted ∧ t.cause = s.cause
          ∧ t.hung = s.hung ∧ t.rx = { s.rx with next := rest }
          ∧ t.sent = s.sent ++ commandSent s.cfg 38#8 arg a ++ List.replicate (bs.length + 1) s.cfg.dummy)
      ∧ (∀ b, a.r = 0x00#8 → b ≠ 0xFF#8 → 30000 ≤ (bs.length + 1) * adv →
        s.rx.next = a.bytes ++ (bs ++ b :: rest) →
        ∃ t, exec (.cmd38 arg) s = .next t ∧ commandFrame s t ∧ t.ret = .bool false ∧ t.cause = .timeout .waitReady)
      ∧ (a.r ≠ 0x00#8 → s.rx.next = a.bytes ++ rest →
        exec (.cmd38 arg) s = .next { answered 38#8 arg a rest s with cause := .diskError .cmd38, ret := .bool false })

/-- No data block without an accepted response (70_reset_and_hazards.md R369, 10_state.md R37): after any value but 0x00, a
response, the tenth polled byte of a card that does not answer (40_transport.md R138) or the 0xFF of a failed select (R136), the
commands with data leave what the command itself leaves, with their cause; no token, no payload, no transfer. For answered and
unanswered frames the state is given in full; the last clause also covers a card that stays busy, at either frame of ACMD13
(R137). -/
def Obligations.NoDataWithoutAcceptance : Prop :=
  ∀ (s : State) (arg : U32) (rest : List Byte), quiet s → s.cfg.stopCmdIndex = 12#8 →
    (∀ a b : Answer, a.wf = true → b.wf = true →
      (s.rx.next = a.bytes ++ rest → a.r ≠ 0x00#8 →
        exec (.cmd9 arg) s = .next { answered 9#8 arg a rest s with cause := .diskError .cmd9, ret := .bool false }
          ∧ exec (.cmd17 arg) s = .next { answered 17#8 arg a rest s with cause := .diskError .cmd17, ret := .bool false }
          ∧ exec (.cmd24 arg) s = .next { answered 24#8 arg a rest s with cause := .diskError .cmd24, ret := .bool false }
          ∧ exec (.cmd25 arg) s = .next { answered 25#8 arg a rest s with cause := .diskError .cmd25, ret := .bool false })
      ∧ (s.rx.next = a.bytes ++ (b.bytes ++ rest) → a.r.toNat ≤ 1 → b.r ≠ 0x00#8 →
        exec (.acmd13 arg) s = .next { answered 13#8 arg b rest (answered 55#8 0#32 a (b.bytes ++ rest) s) with
          cause := .diskError .acmd13, ret := .bool false })
      ∧ (s.rx.next = a.bytes ++ rest → 1 < a.r.toNat →
        exec (.acmd13 arg) s = .next { answered 55#8 0#32 a rest s with cause := .diskError .acmd13, ret := .bool false }))
    ∧ (∀ (i : Instr) (index r : Byte) (tag : DiskTag) (xs : List Turn) (adv : Nat),
      (i, index, tag) ∈ [(.cmd9 arg, 9#8, .cmd9), (.cmd17 arg, 17#8, .cmd17), (.cmd24 arg, 24#8, .cmd24),
        (.cmd25 arg, 25#8, .cmd25), (.acmd13 arg, 0x8D#8, .acmd13)] →
      meets index arg xs r → turnsWf adv s xs → r ≠ 0x00#8 → s.rx.next = turnsBytes xs ++ rest →
      ∃ t, exec i s = .next t ∧ commandFrame s t ∧ t.ret = .bool false ∧ t.r1 = r ∧ t.cause = .diskError tag
        ∧ t.wins = s.wins ∧ t.hung = s.hung ∧ t.rx = { s.rx with next := rest } ∧ t.sent = s.sent ++ turnsSent s.cfg xs)

/-! ### Host operations -/

/-- `read` (43_blockio.md R231; 20_memory.md R67, R79, R80): when the card delivers every sector, Ok, exactly the card's bytes
in ascending order in the buffer and nothing else in memory, one CMD17 per sector with its own address. When at some sector CMD17
is not accepted (rejected, unanswered, or the card busy), or its data token is a wrong byte or does not come within 200 ms, Error,
the sectors before it stored, no later one attempted, nothing of this one stored. -/
def Obligations.ReadTransfersSectors : Prop :=
  ∀ (s : State) (buf sector count : U32) (as : List (Answer × Packet)) (d : Byte) (rest : List Byte),
    usable s → bridgeReady s → s.cfg.stopCmdIndex = 12#8 → s.mem.wf = true → count ≠ 0#32 →
    (∀ p ∈ as, p.1.wf = true ∧ p.1.r = 0x00#8 ∧ p.2.payload.length = 512) →
    (as.length = count.toNat → s.rx.next = as.flatMap (fun p => p.1.bytes ++ p.2.bytes) ++ d :: rest →
        ∃ t, exec (.read buf sector count) s = .next t ∧ hostFrame s t ∧ returned (.result .ok) t ∧ t.cause = .none
          ∧ t.hung = s.hung ∧ t.rx = { s.rx with next := rest }
          ∧ t.sent = s.sent ++ readSent s.cfg s.card sector as ++ [s.cfg.dummy]
          ∧ (∀ k i (hk : k < as.length) (hi : i < as[k].2.payload.length),
              t.mem.read (buf.toNat + (512 * k + i)) = as[k].2.payload[i])
          ∧ keepsOutside buf.toNat (512 * count.toNat) s t)
      ∧ (∀ (failing sent : List Byte) (cause : Cause) (adv : Nat), as.length < count.toNat →
        blockReadFails adv 17#8 (toAddr s.card (sector + BitVec.ofNat 32 as.length)) .cmd17 failing sent cause s →
        s.rx.next = as.flatMap (fun p => p.1.bytes ++ p.2.bytes) ++ (failing ++ d :: rest) →
        ∃ t, exec (.read buf sector count) s = .next t ∧ hostFrame s t ∧ returned (.result .error) t
          ∧ t.cause = cause ∧ t.hung = s.hung ∧ t.rx = { s.rx with next := rest }
          ∧ t.sent = s.sent ++ readSent s.cfg s.card sector as ++ sent ++ [s.cfg.dummy]
          ∧ (∀ k i (hk : k < as.length) (hi : i < as[k].2.payload.length),
              t.mem.read (buf.toNat + (512 * k + i)) = as[k].2.payload[i])
          ∧ keepsOutside buf.toNat (512 * as.length) s t)

/-- `write` of one sector (43_blockio.md R233, R240; 60_exceptions.md R314): CMD24 with the sector's address, the buffer's 512
bytes behind TOKEN_SINGLE; Ok when the block is accepted, Error when it is rejected or when the card stays busy before the token,
which is then not sent (40_transport.md R141). When CMD24 is not accepted (rejected, unanswered, or the card busy) nothing of the
packet is sent, and the result is Error. Memory is only read. -/
def Obligations.WriteSingleSector : Prop :=
  ∀ (s : State) (buf sector : U32) (d : Byte) (rest : List Byte),
    usable s → inputProtected s = false → bridgeReady s → s.cfg.stopCmdIndex = 12#8 → s.cfg.tokenSingle ≠ s.cfg.tokenStop →
    (∀ (a : Answer) (k : Sink), a.wf = true → a.r = 0x00#8 → k.echo.length = 512 → k.response.toNat % 32 = 5 →
        s.rx.next = a.bytes ++ (k.bytes ++ d :: rest) →
        ∃ t, exec (.write buf sector 1#32) s = .next t ∧ hostFrame s t ∧ t.mem = s.mem ∧ returned (.result .ok) t
          ∧ t.cause = .none ∧ t.hung = s.hung ∧ t.rx = { s.rx with next := rest }
          ∧ t.sent = s.sent ++ commandSent s.cfg 24#8 (toAddr s.card sector) a
              ++ packetSent s.cfg s.cfg.tokenSingle (memBytes s.mem buf.toNat 512) ++ [s.cfg.dummy])
      ∧ (∀ (a : Answer) (failing sent : List Byte) (cause : Cause) (adv : Nat), a.wf = true → a.r = 0x00#8 →
        blockFails adv s.cfg.tokenSingle (memBytes s.mem buf.toNat 512) failing sent cause s →
        s.rx.next = a.bytes ++ (failing ++ d :: rest) →
        ∃ t, exec (.write buf sector 1#32) s = .next t ∧ hostFrame s t ∧ t.mem = s.mem ∧ returned (.result .error) t
          ∧ t.cause = cause ∧ t.hung = s.hung ∧ t.rx = { s.rx with next := rest }
          ∧ t.sent = s.sent ++ commandSent s.cfg 24#8 (toAddr s.card sector) a ++ sent ++ [s.cfg.dummy])
      ∧ (∀ (failing sent : List Byte) (cause : Cause) (adv : Nat),
        commandFails adv 24#8 (toAddr s.card sector) .cmd24 failing sent cause s →
        s.rx.next = failing ++ d :: rest →
        ∃ t, exec (.write buf sector 1#32) s = .next t ∧ hostFrame s t ∧ t.mem = s.mem ∧ returned (.result .error) t
          ∧ t.cause = cause ∧ t.hung = s.hung ∧ t.rx = { s.rx with next := rest }
          ∧ t.sent = s.sent ++ sent ++ [s.cfg.dummy])

/-- `write` of several sectors (43_blockio.md R234, R237, R239, R243): on SD cards the hint with `count`, whatever it meets, CMD25
with the first sector's address, the blocks in ascending order, the stop token once; Ok when every block is accepted. When a block
fails, rejected by its data response or held back by a card that stays busy, no later block is sent, the stop token is still
attempted, once, and whether it goes out or is itself held back, the result is Error. When CMD25 itself is not accepted (rejected,
unanswered, or the card busy) nothing of the stream is sent, not even the stop token, and the result is Error. -/
def Obligations.WriteStreamsSectors : Prop :=
  ∀ (s : State) (buf sector count : U32) (hint : List Turn) (ks : List Sink) (adv : Nat) (rest : List Byte),
    usable s → inputProtected s = false → bridgeReady s → s.cfg.stopCmdIndex = 12#8 →
    s.cfg.tokenMulti ≠ s.cfg.tokenStop → 1 < count.toNat → hintMeets count hint s → turnsWf adv s hint →
    (∀ k ∈ ks, k.echo.length = 512 ∧ k.response.toNat % 32 = 5) →
    (∀ (a : Answer) (d e : Byte), a.wf = true → a.r = 0x00#8 → ks.length = count.toNat →
        s.rx.next = turnsBytes hint ++ (a.bytes ++ (ks.flatMap Sink.bytes ++ (0xFF#8 :: d :: e :: rest))) →
        ∃ t, exec (.write buf sector count) s = .next t ∧ hostFrame s t ∧ t.mem = s.mem ∧ returned (.result .ok) t
          ∧ t.cause = turnsCause hint .none ∧ t.hung = s.hung ∧ t.rx = { s.rx with next := rest }
          ∧ t.sent = s.sent ++ turnsSent s.cfg hint ++ commandSent s.cfg 25#8 (toAddr s.card sector) a
              ++ streamSent s.cfg s.mem buf.toNat ks.length ++ [s.cfg.dummy, s.cfg.tokenStop] ++ [s.cfg.dummy])
      ∧ (∀ (a : Answer) (failing sent stopping stopSent : List Byte) (cause cause' : Cause) (e : Byte),
        a.wf = true → a.r = 0x00#8 → ks.length < count.toNat →
        blockFails adv s.cfg.tokenMulti (memBytes s.mem (buf.toNat + 512 * ks.length) 512) failing sent cause s →
        stopMeets adv cause stopping stopSent cause' s →
        s.rx.next = turnsBytes hint ++ (a.bytes ++ (ks.flatMap Sink.bytes ++ (failing ++ (stopping ++ e :: rest)))) →
        ∃ t, exec (.write buf sector count) s = .next t ∧ hostFrame s t ∧ t.mem = s.mem ∧ returned (.result .error) t
          ∧ t.cause = cause' ∧ t.hung = s.hung ∧ t.rx = { s.rx with next := rest }
          ∧ t.sent = s.sent ++ turnsSent s.cfg hint ++ commandSent s.cfg 25#8 (toAddr s.card sector) a
              ++ streamSent s.cfg s.mem buf.toNat ks.length ++ sent ++ stopSent ++ [s.cfg.dummy])
      ∧ (∀ (failing sent : List Byte) (cause : Cause) (e : Byte),
        commandFails adv 25#8 (toAddr s.card sector) .cmd25 failing sent cause s →
        s.rx.next = turnsBytes hint ++ (failing ++ e :: rest) →
        ∃ t, exec (.write buf sector count) s = .next t ∧ hostFrame s t ∧ t.mem = s.mem ∧ returned (.result .error) t
          ∧ t.cause = cause ∧ t.hung = s.hung ∧ t.rx = { s.rx with next := rest }
          ∧ t.sent = s.sent ++ turnsSent s.cfg hint ++ sent ++ [s.cfg.dummy])

/-- A multi-block `write` whose stop token finds the card busy for 100 ms (43_blockio.md R244, R239; 40_transport.md R141): the
polls alone, no stop token, then the exit's one `deselect` and nothing else on the link; the result is Error. -/
def Obligations.StopTokenNotTaken : Prop :=
  ∀ (s : State) (buf sector count : U32) (hint : List Turn) (a : Answer) (ks : List Sink) (bs rest : List Byte) (b d : Byte)
    (adv : Nat),
    usable s → inputProtected s = false → bridgeReady s → s.cfg.stopCmdIndex = 12#8 →
    s.cfg.tokenMulti ≠ s.cfg.tokenStop → 1 < count.toNat → hintMeets count hint s → turnsWf adv s hint → a.wf = true →
    a.r = 0x00#8 → (∀ k ∈ ks, k.echo.length = 512 ∧ k.response.toNat % 32 = 5) → ks.length = count.toNat →
    busyFor bs 100 adv s → b ≠ 0xFF#8 → 100 ≤ (bs.length + 1) * adv →
    s.rx.next = turnsBytes hint ++ (a.bytes ++ (ks.flatMap Sink.bytes ++ (bs ++ b :: d :: rest))) →
    ∃ t, exec (.write buf sector count) s = .next t ∧ hostFrame s t ∧ t.mem = s.mem ∧ returned (.result .error) t
      ∧ t.cause = .timeout .waitReady ∧ t.hung = s.hung ∧ t.rx = { s.rx with next := rest }
      ∧ t.sent = s.sent ++ turnsSent s.cfg hint ++ commandSent s.cfg 25#8 (toAddr s.card sector) a
          ++ streamSent s.cfg s.mem buf.toNat ks.length ++ List.replicate (bs.length + 1) s.cfg.dummy ++ [s.cfg.dummy]

/-- `ioctl(SYNC)` and unknown codes (44_ioctl.md R261, R275): SYNC is Ok exactly when the card is ready within 100 ms, else
Error; an unknown code is ParamError after the lock, with the exit's one dummy byte as the only byte on the link. The row with
the code as an operand does the same (log 31). -/
def Obligations.SyncAndUnknownCode : Prop :=
  ∀ (s : State) (start stop : U32), usable s →
    (∀ (i : Instr) (bs rest : List Byte) (d : Byte) (adv : Nat), i ∈ [.ioctlSync, .ioctl 0#8 start stop] →
        busyFor bs 100 adv s →
        (∀ e, s.rx.next = d :: (bs ++ 0xFF#8 :: e :: rest) →
            ∃ t, exec i s = .next t ∧ hostFrame s t ∧ returned (.result .ok) t ∧ t.cause = .none ∧ t.mem = s.mem
              ∧ t.out = s.out ∧ t.hung = s.hung
              ∧ t.sent = s.sent ++ List.replicate (bs.length + 3) s.cfg.dummy)
          ∧ (∀ b e f, b ≠ 0xFF#8 → 100 ≤ (bs.length + 1) * adv → s.rx.next = d :: (bs ++ b :: e :: f :: rest) →
            ∃ t, exec i s = .next t ∧ hostFrame s t ∧ returned (.result .error) t ∧ t.cause = .timeout .waitReady
              ∧ t.mem = s.mem ∧ t.out = s.out ∧ t.hung = s.hung
              ∧ t.sent = s.sent ++ List.replicate (bs.length + 4) s.cfg.dummy))
      ∧ (∀ (i : Instr) (code : Byte), i ∈ [.ioctlUnknown code, .ioctl code start stop] → code ∉ [0#8, 1#8, 3#8, 4#8] →
        ∃ t, exec i s = .next t ∧ hostFrame s t ∧ returned (.result .paramError) t ∧ t.cause = .none ∧ t.mem = s.mem
          ∧ t.out = s.out ∧ t.hung = s.hung ∧ t.sent = s.sent ++ [s.cfg.dummy])

/-- `ioctl(GET_SECTOR_COUNT)` and `ioctl(GET_BLOCK_SIZE)` (44_ioctl.md R265, R267, R268): the register read, and the value of
the spec's formula on its bytes in `out`; where the formula gives none a free value (U6, log 8), with the platform's own decoding
that function's value, but a free value for the block size of a card of type Unknown, which the spec gives no formula (U8, log 7,
log 8). A CMD9 or ACMD13 that is not accepted (rejected, unanswered, or the card busy) leaves `out` and gives Error, for each of
the two, and so does a data token that is wrong or does not come within 200 ms (R265, R268). -/
def Obligations.RegisterIoctls : Prop :=
  ∀ (s : State) (start stop : U32) (a b : Answer) (k : Packet) (x d : Byte) (tail rest : List Byte),
    usable s → bridgeReady s → s.cfg.stopCmdIndex = 12#8 → a.wf = true → b.wf = true → k.payload.length = 16 →
    (∀ i : Instr, i ∈ [.ioctlGetSectorCount, .ioctl 1#8 start stop] →
        a.r = 0x00#8 → s.rx.next = a.bytes ++ (k.bytes ++ d :: rest) →
        ∃ t, exec i s = .next t ∧ hostFrame s t ∧ returned (.result .ok) t ∧ t.hung = s.hung
          ∧ t.csd.toList = k.payload ∧ t.mem = s.mem
          ∧ t.sent = s.sent ++ commandSent s.cfg 9#8 0#32 a ++ List.replicate (1 + 16 + 2 + 1) s.cfg.dummy
          ∧ (s.cfg.csdDecode = .standard → t.out = (sectorCount t.csd).getD (Config.freeU32 s.free))
          ∧ (s.cfg.csdDecode = .platform → t.out = Config.platformSectorCount k.payload))
      ∧ (∀ i : Instr, i ∈ [.ioctlGetBlockSize, .ioctl 3#8 start stop] →
        (s.card.type ≠ .sd2 → a.r = 0x00#8 → s.rx.next = a.bytes ++ (k.bytes ++ d :: rest) →
            ∃ t, exec i s = .next t ∧ hostFrame s t ∧ returned (.result .ok) t ∧ t.hung = s.hung
              ∧ t.csd.toList = k.payload ∧ t.mem = s.mem
              ∧ t.sent = s.sent ++ commandSent s.cfg 9#8 0#32 a ++ List.replicate (1 + 16 + 2 + 1) s.cfg.dummy
              ∧ (s.cfg.csdDecode = .standard →
                  t.out = (blockSize s.cfg.mmcGroupMult s.card.type t.csd).getD (Config.freeU32 s.free))
              ∧ (s.cfg.csdDecode = .platform → t.out =
                  if s.card.type = .unknown then Config.freeU32 s.free
                  else Config.platformBlockSize (s.card.type == .mmc) k.payload))
          ∧ (s.card.type = .sd2 → a.r.toNat ≤ 1 → b.r = 0x00#8 → tail.length = 48 →
            s.rx.next = a.bytes ++ (b.bytes ++ (x :: (k.bytes ++ (tail ++ d :: rest)))) →
            ∃ t, exec i s = .next t ∧ hostFrame s t ∧ returned (.result .ok) t ∧ t.hung = s.hung
              ∧ t.csd.toList = k.payload ∧ t.mem = s.mem
              ∧ t.sent = s.sent ++ commandSent s.cfg 55#8 0#32 a ++ commandSent s.cfg 13#8 0#32 b
                  ++ List.replicate (1 + 1 + 16 + 2 + 48 + 1) s.cfg.dummy
              ∧ (s.cfg.csdDecode = .standard → t.out = auSize t.csd)
              ∧ (s.cfg.csdDecode = .platform → t.out = Config.platformAuSize k.payload)))
      ∧ (∀ (i : Instr) (index r : Byte) (tag : DiskTag) (xs : List Turn) (adv : Nat),
        (i ∈ [.ioctlGetSectorCount, .ioctl 1#8 start stop] ∧ index = 9#8 ∧ tag = .cmd9)
          ∨ (i ∈ [.ioctlGetBlockSize, .ioctl 3#8 start stop]
            ∧ (index, tag) = if s.card.type = .sd2 then (0x8D#8, .acmd13) else (9#8, .cmd9)) →
        meets index 0#32 xs r → turnsWf adv s xs → r ≠ 0x00#8 →
        s.rx.next = turnsBytes xs ++ d :: rest →
        ∃ t, exec i s = .next t ∧ hostFrame s t ∧ returned (.result .error) t ∧ t.hung = s.hung ∧ t.out = s.out
          ∧ t.mem = s.mem ∧ t.csd = s.csd ∧ t.cause = .diskError tag
          ∧ t.sent = s.sent ++ turnsSent s.cfg xs ++ [s.cfg.dummy])
      ∧ (∀ (i : Instr) (failing sent : List Byte) (cause : Cause) (adv : Nat), tokenFails adv failing sent cause s →
        (i ∈ [.ioctlGetSectorCount, .ioctl 1#8 start stop]
              ∨ (i ∈ [.ioctlGetBlockSize, .ioctl 3#8 start stop] ∧ s.card.type ≠ .sd2) →
            a.r = 0x00#8 → s.rx.next = a.bytes ++ (failing ++ d :: rest) →
            ∃ t, exec i s = .next t ∧ hostFrame s t ∧ returned (.result .error) t ∧ t.hung = s.hung ∧ t.out = s.out
              ∧ t.mem = s.mem ∧ t.csd = s.csd ∧ t.cause = cause
              ∧ t.sent = s.sent ++ commandSent s.cfg 9#8 0#32 a ++ sent ++ [s.cfg.dummy])
          ∧ (i ∈ [.ioctlGetBlockSize, .ioctl 3#8 start stop] → s.card.type = .sd2 → a.r.toNat ≤ 1 → b.r = 0x00#8 →
            s.rx.next = a.bytes ++ (b.bytes ++ (x :: (failing ++ d :: rest))) →
            ∃ t, exec i s = .next t ∧ hostFrame s t ∧ returned (.result .error) t ∧ t.hung = s.hung ∧ t.out = s.out
              ∧ t.mem = s.mem ∧ t.csd = s.csd ∧ t.cause = cause
              ∧ t.sent = s.sent ++ commandSent s.cfg 55#8 0#32 a ++ commandSent s.cfg 13#8 0#32 b ++ [s.cfg.dummy] ++ sent
                  ++ [s.cfg.dummy]))

/-- `ioctl(ERASE_SECTOR)` (44_ioctl.md R271, R272, R273, R274; 60_exceptions.md R310, R324): on an SD card the nested CSD read
with its own lock, inputs and exit, then, when the CSD allows it, CMD32, CMD33 and CMD38 with the converted addresses and the
wait of 30000 ms. Error with nothing more sent than the exits when the nested inputs say that the card is gone, when the CSD read
fails (CMD9 not accepted, or its token), when the CSD does not allow it, and when a command is not accepted or the wait runs out;
and with the exit's dummy byte alone when the card is no SD card. R310 gives the cause of that last case for MMC; that a card of
type Unknown leaves the same is the model's reading (log 13). -/
def Obligations.EraseIoctl : Prop :=
  ∀ (s : State) (start stop : U32) (i : Instr) (a : Answer) (k : Packet) (d e : Byte) (rest : List Byte),
    usable s → bridgeReady s → s.cfg.stopCmdIndex = 12#8 → i ∈ [.ioctlEraseSector start stop, .ioctl 4#8 start stop] →
    (s.card.type = .sd1 ∨ s.card.type = .sd2 → inputPresent (sampled s) = true →
        (a.wf = true → a.r = 0x00#8 → k.payload.length = 16 →
          (eraseSupportedHere { s with csd := csdAfter .csd k.payload s } = true →
            (∀ (c32 c33 c38 : Answer) (bs : List Byte) (adv : Nat), c32.wf = true → c33.wf = true → c38.wf = true →
                c32.r = 0x00#8 → c33.r = 0x00#8 → c38.r = 0x00#8 → busyFor bs 30000 adv s →
                s.rx.next = a.bytes ++ (k.bytes ++ (d :: (c32.bytes ++ (c33.bytes ++ (c38.bytes
                  ++ (bs ++ 0xFF#8 :: e :: rest)))))) →
                ∃ t, exec i s = .next t ∧ hostFrame s t ∧ returned (.result .ok) t ∧ t.cause = .none ∧ t.hung = s.hung
                  ∧ t.csd.toList = k.payload ∧ t.mem = s.mem ∧ t.out = s.out
                  ∧ t.sent = s.sent ++ commandSent s.cfg 9#8 0#32 a ++ List.replicate (1 + 16 + 2) s.cfg.dummy
                      ++ [s.cfg.dummy] ++ commandSent s.cfg 32#8 (toAddr s.card start) c32
                      ++ commandSent s.cfg 33#8 (toAddr s.card stop) c33 ++ commandSent s.cfg 38#8 0#32 c38
                      ++ List.replicate (bs.length + 1) s.cfg.dummy ++ [s.cfg.dummy])
              ∧ (∀ (failing sent : List Byte) (cause : Cause) (adv : Nat),
                eraseFails adv (toAddr s.card start) (toAddr s.card stop) failing sent cause s →
                s.rx.next = a.bytes ++ (k.bytes ++ (d :: (failing ++ e :: rest))) →
                ∃ t, exec i s = .next t ∧ hostFrame s t ∧ returned (.result .error) t ∧ t.cause = cause ∧ t.hung = s.hung
                  ∧ t.mem = s.mem ∧ t.out = s.out
                  ∧ t.sent = s.sent ++ commandSent s.cfg 9#8 0#32 a ++ List.replicate (1 + 16 + 2) s.cfg.dummy
                      ++ [s.cfg.dummy] ++ sent ++ [s.cfg.dummy]))
            ∧ (eraseSupportedHere { s with csd := csdAfter .csd k.payload s } = false →
              s.rx.next = a.bytes ++ (k.bytes ++ (d :: e :: rest)) →
              ∃ t, exec i s = .next t ∧ hostFrame s t ∧ returned (.result .error) t ∧ t.cause = .diskError .eraseNotValid
                ∧ t.hung = s.hung ∧ t.mem = s.mem ∧ t.out = s.out
                ∧ t.sent = s.sent ++ commandSent s.cfg 9#8 0#32 a ++ List.replicate (1 + 16 + 2) s.cfg.dummy
                    ++ [s.cfg.dummy, s.cfg.dummy]))
          ∧ (∀ (failing sent : List Byte) (cause : Cause) (adv : Nat), blockReadFails adv 9#8 0#32 .cmd9 failing sent cause s →
            s.rx.next = failing ++ d :: e :: rest →
            ∃ t, exec i s = .next t ∧ hostFrame s t ∧ returned (.result .error) t ∧ t.cause = cause ∧ t.hung = s.hung
              ∧ t.mem = s.mem ∧ t.csd = s.csd ∧ t.out = s.out
              ∧ t.sent = s.sent ++ sent ++ [s.cfg.dummy, s.cfg.dummy]))
      ∧ (s.card.type = .sd1 ∨ s.card.type = .sd2 → inputPresent (sampled s) = false →
        ∃ t, exec i s = .next t ∧ hostFrame s t ∧ returned (.result .error) t ∧ t.cause = .diskError .eraseNotValid
          ∧ t.hung = s.hung ∧ t.mem = s.mem ∧ t.csd = s.csd ∧ t.out = s.out ∧ t.sent = s.sent ++ [s.cfg.dummy])
      ∧ (s.card.type ≠ .sd1 → s.card.type ≠ .sd2 →
        ∃ t, exec i s = .next t ∧ hostFrame s t ∧ returned (.result .error) t ∧ t.cause = .diskError .eraseNotValid
          ∧ t.hung = s.hung ∧ t.mem = s.mem ∧ t.csd = s.csd ∧ t.out = s.out ∧ t.sent = s.sent ++ [s.cfg.dummy])

/-- `initialize` on an SD version 2 card (42_probe.md R201 to R210, R214 to R217): idle clocks, the unchecked CMD0 iterations,
CMD0, CMD8 with its echo, ACMD41 until 0x00 while the window of 1000 ms is open, CMD58; the type is SD2, `blockAddressed` is bit
6 of OCR byte 0, NotInitialized is cleared, WriteProtected sampled once more, high speed, and the whole status returned. A poll
goes on whatever it meets, also an unanswered frame, a CMD55 above 1 or a card that is busy, which leaves its timeout as the
cause. The tick counter advances by `adv` at each reading. -/
def Obligations.InitializeFindsSd2 : Prop :=
  ∀ (s : State) (idle : List Byte) (pre xs : List Turn) (c0 c8 c58 : Answer) (ps : List (List Turn))
    (e0 e1 o0 o1 o2 o3 d : Byte) (rest : List Byte) (adv : Nat),
    probeStarts adv idle pre s → s.tickAdv = ⟨[], adv⟩ → 1000 ≤ tickModulus s.cfg → c0.wf = true → c0.r = 0x01#8 → c8.wf = true → c8.r = 0x01#8 →
    pollsGoOn 0xA9#8 s.cfg.acmd41HcsArg ps → meets 0xA9#8 s.cfg.acmd41HcsArg xs 0x00#8 → turnsWf adv s (ps.flatten ++ xs) →
    (1 + pollReadings ps + 1) * adv < 1000 → c58.wf = true → c58.r = 0x00#8 →
    s.rx.next = idle ++ (turnsBytes pre ++ (c0.bytes ++ (c8.bytes ++ ([e0, e1, 0x01#8, 0xAA#8]
      ++ (turnsBytes (ps.flatten ++ xs) ++ (c58.bytes ++ ([o0, o1, o2, o3] ++ d :: rest))))))) →
    ∃ t, exec .initCard s = .next t ∧ probeEnds ⟨.sd2, o0.getLsbD 6⟩ (turnsCause (pre ++ (ps.flatten ++ xs)) .none)
      (turnsSent s.cfg pre ++ commandSent s.cfg 0#8 0#32 c0 ++ commandSent s.cfg 8#8 0x1AA#32 c8
        ++ List.replicate 4 s.cfg.dummy ++ turnsSent s.cfg (ps.flatten ++ xs) ++ commandSent s.cfg 58#8 0#32 c58
        ++ List.replicate 4 s.cfg.dummy) rest s t

/-- `initialize` on a card that does not accept CMD8 (42_probe.md R212, R213, R214 to R217): the type test ACMD41(0) at or below 1
means SD version 1, polled with ACMD41(0); above 1, also when its CMD55 is above 1 so that frame 41 is not sent
(41_commands.md R176), means MMC, polled with CMD1(0); CMD16 must be accepted; never block-addressed. -/
def Obligations.InitializeFindsSd1OrMmc : Prop :=
  ∀ (s : State) (idle : List Byte) (pre tt xs : List Turn) (x8 : Turn) (c0 c16 : Answer) (ps : List (List Turn)) (r index d : Byte)
    (rest : List Byte) (adv : Nat),
    probeStarts adv idle pre s → s.tickAdv = ⟨[], adv⟩ → 1000 ≤ tickModulus s.cfg → c0.wf = true → c0.r = 0x01#8 → x8.isOf 8#8 0x1AA#32 → x8.wf adv s → x8.value ≠ 0x01#8 →
    meets 0xA9#8 0#32 tt r → turnsWf adv s tt → index = (if r.toNat ≤ 1 then 0xA9#8 else 0x01#8) →
    pollsGoOn index 0#32 ps → meets index 0#32 xs 0x00#8 → turnsWf adv s (ps.flatten ++ xs) →
    (x8.readings + turnsReadings tt + pollReadings ps + 1) * adv < 1000 → c16.wf = true → c16.r = 0x00#8 →
    s.rx.next = idle ++ (turnsBytes pre ++ (c0.bytes ++ (x8.bytes ++ (turnsBytes tt ++ (turnsBytes (ps.flatten ++ xs)
      ++ (c16.bytes ++ d :: rest)))))) →
    ∃ t, exec .initCard s = .next t ∧ probeEnds ⟨if r.toNat ≤ 1 then .sd1 else .mmc, false⟩
      (turnsCause (pre ++ x8 :: (tt ++ (ps.flatten ++ xs))) .none)
      (turnsSent s.cfg pre ++ commandSent s.cfg 0#8 0#32 c0 ++ x8.sent s.cfg ++ turnsSent s.cfg tt
        ++ turnsSent s.cfg (ps.flatten ++ xs) ++ commandSent s.cfg 16#8 s.cfg.cmd16Arg c16) rest s t

/-- A failed probe (42_probe.md R218, with R204, R206, R208, R209, R213; R214 to R216): CMD0 with any value but 0x01 (a response,
an unanswered frame, or the 0xFF of a card that is busy); an R7 payload with another echo; a poll of ACMD41 or of the version 1
branch whose window of 1000 ms runs out; CMD58 or CMD16 with any value but 0x00. Each leaves type Unknown, NotInitialized set, high
speed and its cause; nothing but the exit's dummy byte follows. -/
def Obligations.InitializeFails : Prop :=
  ∀ (s : State) (idle : List Byte) (pre : List Turn) (d : Byte) (rest : List Byte) (adv : Nat), probeStarts adv idle pre s →
    (∀ x0 : Turn, x0.isOf 0#8 0#32 → x0.wf adv s → x0.value ≠ 0x01#8 →
        s.rx.next = idle ++ (turnsBytes pre ++ (x0.bytes ++ d :: rest)) →
        ∃ t, exec .initCard s = .next t ∧ probeEnds ⟨.unknown, false⟩ (.diskError .cmd0)
          (turnsSent s.cfg pre ++ x0.sent s.cfg) rest s t)
      ∧ (∀ (c0 c8 : Answer) (e0 e1 e2 e3 : Byte), c0.wf = true → c0.r = 0x01#8 → c8.wf = true → c8.r = 0x01#8 →
        (e2 ≠ 0x01#8 ∨ e3 ≠ 0xAA#8 →
            s.rx.next = idle ++ (turnsBytes pre ++ (c0.bytes ++ (c8.bytes ++ ([e0, e1, e2, e3] ++ d :: rest)))) →
            ∃ t, exec .initCard s = .next t ∧ probeEnds ⟨.unknown, false⟩ (.diskError .cmd8Echo)
              (turnsSent s.cfg pre ++ commandSent s.cfg 0#8 0#32 c0 ++ commandSent s.cfg 8#8 0x1AA#32 c8
                ++ List.replicate 4 s.cfg.dummy) rest s t)
          ∧ (∀ ps : List (List Turn), s.tickAdv = ⟨[], adv⟩ → 1000 ≤ tickModulus s.cfg → pollsGoOn 0xA9#8 s.cfg.acmd41HcsArg ps → turnsWf adv s ps.flatten → pollsExpire adv 1 ps s →
            s.rx.next = idle ++ (turnsBytes pre ++ (c0.bytes ++ (c8.bytes ++ ([e0, e1, 0x01#8, 0xAA#8]
              ++ (turnsBytes ps.flatten ++ d :: rest))))) →
            ∃ t, exec .initCard s = .next t ∧ probeEnds ⟨.unknown, false⟩ (.timeout .initPoll)
              (turnsSent s.cfg pre ++ commandSent s.cfg 0#8 0#32 c0 ++ commandSent s.cfg 8#8 0x1AA#32 c8
                ++ List.replicate 4 s.cfg.dummy ++ turnsSent s.cfg ps.flatten) rest s t)
          ∧ (∀ (ps : List (List Turn)) (xs : List Turn) (x58 : Turn), s.tickAdv = ⟨[], adv⟩ → 1000 ≤ tickModulus s.cfg →
            pollsGoOn 0xA9#8 s.cfg.acmd41HcsArg ps →
            meets 0xA9#8 s.cfg.acmd41HcsArg xs 0x00#8 → turnsWf adv s (ps.flatten ++ xs) →
            (1 + pollReadings ps + 1) * adv < 1000 → x58.isOf 58#8 0#32 → x58.wf adv s → x58.value ≠ 0x00#8 →
            s.rx.next = idle ++ (turnsBytes pre ++ (c0.bytes ++ (c8.bytes ++ ([e0, e1, 0x01#8, 0xAA#8]
              ++ (turnsBytes (ps.flatten ++ xs) ++ (x58.bytes ++ d :: rest)))))) →
            ∃ t, exec .initCard s = .next t ∧ probeEnds ⟨.unknown, false⟩ (.diskError .cmd58)
              (turnsSent s.cfg pre ++ commandSent s.cfg 0#8 0#32 c0 ++ commandSent s.cfg 8#8 0x1AA#32 c8
                ++ List.replicate 4 s.cfg.dummy ++ turnsSent s.cfg (ps.flatten ++ xs) ++ x58.sent s.cfg) rest s t))
      ∧ (∀ (c0 : Answer) (x8 : Turn) (tt : List Turn) (r index : Byte) (ps : List (List Turn)), s.tickAdv = ⟨[], adv⟩ →
        1000 ≤ tickModulus s.cfg → c0.wf = true → c0.r = 0x01#8 →
        x8.isOf 8#8 0x1AA#32 → x8.wf adv s → x8.value ≠ 0x01#8 → meets 0xA9#8 0#32 tt r → turnsWf adv s tt →
        index = (if r.toNat ≤ 1 then 0xA9#8 else 0x01#8) → pollsGoOn index 0#32 ps → turnsWf adv s ps.flatten →
        (pollsExpire adv (x8.readings + turnsReadings tt) ps s →
            s.rx.next = idle ++ (turnsBytes pre ++ (c0.bytes ++ (x8.bytes ++ (turnsBytes tt ++ (turnsBytes ps.flatten
              ++ d :: rest))))) →
            ∃ t, exec .initCard s = .next t ∧ probeEnds ⟨.unknown, false⟩ (.timeout .initPoll)
              (turnsSent s.cfg pre ++ commandSent s.cfg 0#8 0#32 c0 ++ x8.sent s.cfg ++ turnsSent s.cfg tt
                ++ turnsSent s.cfg ps.flatten) rest s t)
          ∧ (∀ (xs : List Turn) (x16 : Turn), meets index 0#32 xs 0x00#8 → turnsWf adv s xs →
            (x8.readings + turnsReadings tt + pollReadings ps + 1) * adv < 1000 → x16.isOf 16#8 s.cfg.cmd16Arg → x16.wf adv s →
            x16.value ≠ 0x00#8 →
            s.rx.next = idle ++ (turnsBytes pre ++ (c0.bytes ++ (x8.bytes ++ (turnsBytes tt ++ (turnsBytes (ps.flatten ++ xs)
              ++ (x16.bytes ++ d :: rest)))))) →
            ∃ t, exec .initCard s = .next t ∧ probeEnds ⟨.unknown, false⟩ (.diskError .cmd16)
              (turnsSent s.cfg pre ++ commandSent s.cfg 0#8 0#32 c0 ++ x8.sent s.cfg ++ turnsSent s.cfg tt
                ++ turnsSent s.cfg (ps.flatten ++ xs) ++ x16.sent s.cfg) rest s t))

/-- Every operation that took the lock ends with the exit sequence (43_blockio.md R230; 60_exceptions.md R322, R324; 42_probe.md
R220 (f)): chip-select deasserted, one dummy byte, unlock, return, as its own last events, whether it failed or not; `initialize`
sets high speed before it unlocks. Readings of the inputs and returns to other threads may fall in between and are left out. The
exception is the wait that never ends (R363, R364). -/
def Obligations.ExitSequenceEndsCalls : Prop :=
  ∀ (i : Instr) (s t : State), isHostSlot (slotOf i) = true → s.hung = none → exec i s = .next t → t.hung = none →
    (∃ new, t.events = new ++ s.events ∧ .lock s.me ∈ new) →
    ∃ v d es, t.events.filter (Event.own s.me) =
      .ret s.me v :: .unlock s.me :: ((if i = .initCard then [.speed .high] else []) ++ .xchg s.cfg.dummy d :: .cs .deasserted :: es)

/-- Every data call returns, whatever the card does, when the tick counter advances past any window and every started transfer
completes (70_reset_and_hazards.md R363, R364): lock free, chip-select deasserted, `seq` at Idle. The premises are the model's
form of the spec's (log 4); 12 is the default of a parameter (log 6). -/
def Obligations.DataCallsReturn : Prop :=
  ∀ (s : State) (i : Instr), isHostSlot (slotOf i) = true → i ≠ .initCard → lockFree s → bridgeReady s → ticking s →
    s.cfg.stopCmdIndex = 12#8 → s.cs = .deasserted →
    ∃ t v, exec i s = .next t ∧ t.hung = s.hung ∧ returned v t

/-! ### Arithmetic -/

/-- Addresses (20_memory.md R66, R67, R63): the sector number on a block-addressed card, else times 512 modulo 2^32, so that
sectors 2^23 apart share an address; the advance per sector reaches the address of the sector `k` further on. -/
def Obligations.AddressesOfSectors : Prop :=
  ∀ (card : Card) (sector : U32) (k : Nat),
    (toAddr card sector).toNat = (if card.blockAddressed then sector.toNat else sector.toNat * 512 % 2 ^ 32)
      ∧ toAddr card (sector + BitVec.ofNat 32 k) = toAddr card sector + BitVec.ofNat 32 k * addrStep card
      ∧ (card.blockAddressed = false → toAddr card (sector + 0x800000#32) = toAddr card sector)

/-- The register fields (44_ioctl.md R263, R264, R268, R269, R270, R273) as arithmetic on the bytes. The MMC clause is the reading
U7's decision takes by default (log 7), and "none" where the spec's shift count is negative stands for a free value (U6, log 8):
both are the model's. -/
def Obligations.RegisterFormulas : Prop :=
  ∀ (csd : Vector Byte 16),
    (csd[0].toNat / 64 = 1 →
        sectorCount csd = some (BitVec.ofNat 32
          ((csd[7].toNat % 64 * 65536 + csd[8].toNat * 256 + csd[9].toNat + 1) * 1024)))
      ∧ (∀ n cSize, csd[0].toNat / 64 ≠ 1 → n = csd[5].toNat % 16 + (csd[9].toNat % 4 * 2 + csd[10].toNat / 128) + 2 →
        cSize = csd[6].toNat % 4 * 1024 + csd[7].toNat * 4 + csd[8].toNat / 64 →
        sectorCount csd = if 9 ≤ n then some (BitVec.ofNat 32 ((cSize + 1) * 2 ^ (n - 9))) else none)
      ∧ (∀ w size, w = csd[13].toNat / 64 → size = csd[10].toNat % 64 * 2 + csd[11].toNat / 128 →
        blockSizeSd1 csd = if 1 ≤ w then some (BitVec.ofNat 32 ((size + 1) * 2 ^ (w - 1))) else none)
      ∧ blockSizeMmc .fromByte10 csd = BitVec.ofNat 32
          ((csd[10].toNat / 4 % 32 + 1) * (csd[10].toNat % 4 * 8 + csd[11].toNat / 32 + 1))
      ∧ auSize csd = BitVec.ofNat 32 (16 * 2 ^ (csd[10].toNat / 16))
      ∧ (eraseSupported csd = true ↔ csd[0].toNat / 64 ≠ 0 ∨ csd[10].toNat / 64 % 2 = 1)

/-! ### Frames -/

/-- Frames of what moves no data block (10_state.md R25, R26, R28, R29; 40_transport.md R131): bytes, waits and chip-select
change no register but what the frame names; commands also the CommandFrame, `r1` and the poll counter; CMD8 and CMD58 also
`ocr`. Memory, the scratch array, the lock, `card`, status and parameters are unchanged. -/
def Obligations.CommandFrames : Prop :=
  ∀ (i : Instr) (s t : State) (arg ms : U32) (index b : Byte) (r : BitVec 7) (x : BitVec 3), exec i s = .next t →
    (i ∈ [.select, .deselect] → linkFrame s t ∧ (t.wins = s.wins ∨ t.hung = some ⟨.waitReady, s.me, none⟩))
      ∧ (i ∈ [.xchg b, .waitReady ms, .dummy, .crcPlaceholder, .tokenSingle, .tokenMulti, .tokenStop, .ready,
          .dataResponseAccepted x] → linkFrame s t ∧ t.cs = s.cs)
      ∧ (i ∈ [.cmd0 arg, .cmd1 arg, .cmd12 arg, .cmd16 arg, .acmd23 arg, .cmd32 arg, .cmd33 arg, .cmd38 arg, .acmd41 arg,
          .cmd55 arg, .sendCommand index arg, .r1 r, .noResponse r] → commandFrame s t)
      ∧ (i ∈ [.cmd8 arg, .cmd58 arg] → trailingFrame s t)

/-- Frames of what moves a data block (40_transport.md R141, R145; 45_guard_status.md R292): out, memory and the scratch array
are unchanged; in, every byte of memory outside the block's bytes is, and all of memory when the block goes to the scratch
array. The address is the current buffer's start plus the offset the meaning uses. -/
def Obligations.DataBlockFrames : Prop :=
  ∀ (i : Instr) (s t : State) (arg : U32) (off : U64) (token : Byte) (dest : Loc) (dir : Dir) (len : BitVec 16),
    exec i s = .next t →
    (i ∈ [.cmd24 arg, .cmd25 arg, .sendDataBlock off token, .startTransfer dir dest len] → blockOutFrame s t)
      ∧ (i ∈ [.cmd24 arg, .sendDataBlock off token, .startTransfer dir dest len] →
        t.off = s.off ∧ t.remaining = s.remaining)
      ∧ (i ∈ [.cmd9 arg, .acmd13 arg] → blockInFrame s t ∧ t.mem = s.mem)
      ∧ (i = .cmd17 arg → blockInFrame s t ∧ t.csd = s.csd ∧ keepsOutside (s.bufBase + s.off) 512 s t)
      ∧ (i = .receiveDataBlock dest len → blockInFrame s t ∧
        (dest = .csd → t.mem = s.mem)
          ∧ (∀ o, dest = .buffer o → t.csd = s.csd ∧ keepsOutside (s.bufBase + o.toNat) len.toNat s t))
      ∧ (i = .dataStart → blockInFrame s t ∧ t.mem = s.mem ∧ t.csd = s.csd)
      ∧ (i = .waitForTransfer → blockInFrame s t ∧
        (∀ y : Transfer, s.engine = some y →
          (y.dir = .out ∨ y.place = .csd → t.mem = s.mem)
            ∧ (∀ o, y.place = .buffer o → t.csd = s.csd ∧ keepsOutside (s.bufBase + o) y.len s t))
        ∧ (s.engine = none → t.mem = s.mem ∧ t.csd = s.csd))

/-- Frames of the host operations (43_blockio.md R231, R236; 44_ioctl.md R260; 42_probe.md R217): `read` stores inside its buffer
only, the others store nothing in memory; only ioctl writes `out`; `read` and `write` leave the scratch array; `initialize`
leaves everything of the transfer bridge. -/
def Obligations.HostCallFrames : Prop :=
  ∀ (i : Instr) (s t : State) (buf sector count start stop : U32) (code : Byte), exec i s = .next t →
    (i = .read buf sector count →
        hostFrame s t ∧ t.csd = s.csd ∧ t.out = s.out ∧ keepsOutside buf.toNat (512 * count.toNat) s t)
      ∧ (i = .write buf sector count → hostFrame s t ∧ t.csd = s.csd ∧ t.out = s.out ∧ t.mem = s.mem)
      ∧ (i ∈ [.ioctl code start stop, .ioctlSync, .ioctlGetSectorCount, .ioctlGetBlockSize, .ioctlEraseSector start stop,
          .ioctlUnknown code] →
        hostFrame s t ∧ t.mem = s.mem ∧ t.bufBase = s.bufBase ∧ t.addr = s.addr ∧ t.remaining = s.remaining
          ∧ t.off = s.off)
      ∧ (i = .initCard → initFrame s t)
end

