-- ==== Sys2Proof/Laws/Memory.lean ====
section
/-! SUPPORT. Host memory: reading after writing, and that every write keeps the canonical form. -/

namespace Sys2Proof.Machine

set_option Elab.async false

open Sys2Proof

theorem Memory.wfFrom_cons (lo : Nat) (c : Host.Cell) (t : Memory) :
    Memory.wfFrom lo (c :: t) = true ↔ lo ≤ c.1 ∧ c.2 ≠ Memory.absent ∧ Memory.wfFrom (c.1 + 1) t = true := by
  simp [Memory.wfFrom, and_assoc]

theorem Memory.wfFrom_mono {lo lo' : Nat} {m : Memory} (h : Memory.wfFrom lo m = true) (hl : lo' ≤ lo) :
    Memory.wfFrom lo' m = true := by
  cases m with
  | nil => rfl
  | cons c t =>
    rw [Memory.wfFrom_cons] at h ⊢
    exact ⟨le_trans hl h.1, h.2⟩

/-- An address below the first listed one reads as absent. -/
theorem Memory.read_below {lo a : Nat} {m : Memory} (h : Memory.wfFrom lo m = true) (ha : a < lo) :
    m.read a = Memory.absent := by
  induction m generalizing lo with
  | nil => rfl
  | cons c t ih =>
    rw [Memory.wfFrom_cons] at h
    simp only [Memory.read]
    rw [if_neg (by omega)]
    exact ih h.2.2 (by omega)

theorem Memory.read_cons (a b' : Nat) (v : Byte) {t : Memory} (h : Memory.wfFrom (a + 1) t = true) :
    Memory.read (Memory.cons a v t) b' = if b' = a then v else Memory.read t b' := by
  unfold Memory.cons
  split
  · subst v
    split
    · subst b'; exact Memory.read_below h (by omega)
    · rfl
  · simp only [Memory.read, eq_comm]

theorem Memory.cons_wfFrom {lo a : Nat} (v : Byte) {t : Memory} (h : Memory.wfFrom (a + 1) t = true) (ha : lo ≤ a) :
    Memory.wfFrom lo (Memory.cons a v t) = true := by
  unfold Memory.cons
  split
  · exact Memory.wfFrom_mono h (by omega)
  · rw [Memory.wfFrom_cons]; exact ⟨ha, ‹_›, h⟩

theorem Memory.write_wfFrom {lo a : Nat} (v : Byte) {m : Memory} (h : Memory.wfFrom lo m = true) (ha : lo ≤ a) :
    Memory.wfFrom lo (m.write a v) = true := by
  induction m generalizing lo with
  | nil => exact Memory.cons_wfFrom v rfl ha
  | cons c t ih =>
    have hc := (Memory.wfFrom_cons lo c t).1 h
    simp only [Memory.write]
    split
    · exact Memory.cons_wfFrom v ((Memory.wfFrom_cons _ c t).2 ⟨by omega, hc.2⟩) ha
    · split
      · exact Memory.cons_wfFrom v (Memory.wfFrom_mono hc.2.2 (by omega)) ha
      · exact (Memory.wfFrom_cons lo c _).2 ⟨hc.1, hc.2.1, ih hc.2.2 (by omega)⟩

/-- A write keeps the canonical form. -/
theorem Memory.write_wf {m : Memory} (a : Nat) (v : Byte) (h : m.wf = true) : (m.write a v).wf = true :=
  Memory.write_wfFrom v h (Nat.zero_le a)

theorem Memory.read_write_from {lo : Nat} {m : Memory} (h : Memory.wfFrom lo m = true) (a : Nat) (v : Byte) (b : Nat) :
    (m.write a v).read b = if b = a then v else m.read b := by
  induction m generalizing lo with
  | nil => exact Memory.read_cons a b v rfl
  | cons c t ih =>
    have hc := (Memory.wfFrom_cons lo c t).1 h
    simp only [Memory.write]
    split
    · rw [Memory.read_cons a b v ((Memory.wfFrom_cons _ c t).2 ⟨by omega, hc.2⟩)]
    · split
      · subst a
        rw [Memory.read_cons c.1 b v hc.2.2]
        simp only [Memory.read]
        by_cases hb : b = c.1
        · simp [hb]
        · simp [hb, Ne.symm hb]
      · simp only [Memory.read, ih hc.2.2]
        by_cases hb : c.1 = b
        · simp [hb]; omega
        · simp [hb]

/-- A read after a write: the value written at that address, the old value everywhere else. -/
theorem Memory.read_write {m : Memory} (h : m.wf = true) (a : Nat) (v : Byte) (b : Nat) :
    (m.write a v).read b = if b = a then v else m.read b :=
  Memory.read_write_from h a v b

/-- The reading of other bytes needs no canonical form on the written byte's side. -/
theorem Memory.read_write_other {m : Memory} (a : Nat) (v : Byte) {b : Nat} (hb : b ≠ a) :
    (m.write a v).read b = m.read b := by
  have key : ∀ t : Memory, Memory.read (Memory.cons a v t) b = Memory.read t b := by
    intro t
    unfold Memory.cons
    split
    · rfl
    · simp [Memory.read, Ne.symm hb]
  induction m with
  | nil => exact key []
  | cons c t ih =>
    simp only [Memory.write]
    split
    · exact key _
    · split
      · rename_i h1 h2
        rw [key]; simp [Memory.read, ← h2, Ne.symm hb]
      · simp only [Memory.read, ih]

end Sys2Proof.Machine
end

