-- ==== Sys2Proof/Laws/State.lean ====
section
/-! SUPPORT. What each named update of the state does to each field: one lemma per field per update, true by unfolding. -/

namespace Sys2Proof.Machine

set_option Elab.async false

open Sys2Proof

/-! ### record -/

@[simp] theorem record_cfg (e : Event) (s : State) : (record e s).cfg = s.cfg := rfl
@[simp] theorem record_card (e : Event) (s : State) : (record e s).card = s.card := rfl
@[simp] theorem record_status (e : Event) (s : State) : (record e s).status = s.status := rfl
@[simp] theorem record_speedSel (e : Event) (s : State) : (record e s).speedSel = s.speedSel := rfl
@[simp] theorem record_cs (e : Event) (s : State) : (record e s).cs = s.cs := rfl
@[simp] theorem record_lock (e : Event) (s : State) : (record e s).lock = s.lock := rfl
@[simp] theorem record_pending (e : Event) (s : State) : (record e s).pending = s.pending := rfl
@[simp] theorem record_seq (e : Event) (s : State) : (record e s).seq = s.seq := rfl
@[simp] theorem record_fr (e : Event) (s : State) : (record e s).fr = s.fr := rfl
@[simp] theorem record_r1 (e : Event) (s : State) : (record e s).r1 = s.r1 := rfl
@[simp] theorem record_addr (e : Event) (s : State) : (record e s).addr = s.addr := rfl
@[simp] theorem record_remaining (e : Event) (s : State) : (record e s).remaining = s.remaining := rfl
@[simp] theorem record_off (e : Event) (s : State) : (record e s).off = s.off := rfl
@[simp] theorem record_n (e : Event) (s : State) : (record e s).n = s.n := rfl
@[simp] theorem record_ocr (e : Event) (s : State) : (record e s).ocr = s.ocr := rfl
@[simp] theorem record_csd (e : Event) (s : State) : (record e s).csd = s.csd := rfl
@[simp] theorem record_tok (e : Event) (s : State) : (record e s).tok = s.tok := rfl
@[simp] theorem record_cause (e : Event) (s : State) : (record e s).cause = s.cause := rfl
@[simp] theorem record_wins (e : Event) (s : State) : (record e s).wins = s.wins := rfl
@[simp] theorem record_out (e : Event) (s : State) : (record e s).out = s.out := rfl
@[simp] theorem record_hostOut (e : Event) (s : State) : (record e s).hostOut = s.hostOut := rfl
@[simp] theorem record_spiCfg (e : Event) (s : State) : (record e s).spiCfg = s.spiCfg := rfl
@[simp] theorem record_mem (e : Event) (s : State) : (record e s).mem = s.mem := rfl
@[simp] theorem record_bufBase (e : Event) (s : State) : (record e s).bufBase = s.bufBase := rfl
@[simp] theorem record_engine (e : Event) (s : State) : (record e s).engine = s.engine := rfl
@[simp] theorem record_me (e : Event) (s : State) : (record e s).me = s.me := rfl
@[simp] theorem record_waiters (e : Event) (s : State) : (record e s).waiters = s.waiters := rfl
@[simp] theorem record_early (e : Event) (s : State) : (record e s).early = s.early := rfl
@[simp] theorem record_hung (e : Event) (s : State) : (record e s).hung = s.hung := rfl
@[simp] theorem record_ret (e : Event) (s : State) : (record e s).ret = s.ret := rfl
@[simp] theorem record_requests (e : Event) (s : State) : (record e s).requests = s.requests := rfl
@[simp] theorem record_rx (e : Event) (s : State) : (record e s).rx = s.rx := rfl
@[simp] theorem record_tick (e : Event) (s : State) : (record e s).tick = s.tick := rfl
@[simp] theorem record_tickAdv (e : Event) (s : State) : (record e s).tickAdv = s.tickAdv := rfl
@[simp] theorem record_cd (e : Event) (s : State) : (record e s).cd = s.cd := rfl
@[simp] theorem record_wp (e : Event) (s : State) : (record e s).wp = s.wp := rfl
@[simp] theorem record_fires (e : Event) (s : State) : (record e s).fires = s.fires := rfl
@[simp] theorem record_contend (e : Event) (s : State) : (record e s).contend = s.contend := rfl
@[simp] theorem record_others (e : Event) (s : State) : (record e s).others = s.others := rfl
@[simp] theorem record_turns (e : Event) (s : State) : (record e s).turns = s.turns := rfl
@[simp] theorem record_free (e : Event) (s : State) : (record e s).free = s.free := rfl
@[simp] theorem record_events (e : Event) (s : State) : (record e s).events = e :: s.events := rfl
@[simp] theorem record_path (e : Event) (s : State) : (record e s).path = s.path := rfl

/-! ### meanwhile -/

@[simp] theorem meanwhile_cfg (s : State) : (meanwhile s).cfg = s.cfg := rfl
@[simp] theorem meanwhile_card (s : State) : (meanwhile s).card = s.card := rfl
@[simp] theorem meanwhile_speedSel (s : State) : (meanwhile s).speedSel = s.speedSel := rfl
@[simp] theorem meanwhile_cs (s : State) : (meanwhile s).cs = s.cs := rfl
@[simp] theorem meanwhile_lock (s : State) : (meanwhile s).lock = s.lock := rfl
@[simp] theorem meanwhile_pending (s : State) : (meanwhile s).pending = s.pending := rfl
@[simp] theorem meanwhile_seq (s : State) : (meanwhile s).seq = s.seq := rfl
@[simp] theorem meanwhile_fr (s : State) : (meanwhile s).fr = s.fr := rfl
@[simp] theorem meanwhile_r1 (s : State) : (meanwhile s).r1 = s.r1 := rfl
@[simp] theorem meanwhile_addr (s : State) : (meanwhile s).addr = s.addr := rfl
@[simp] theorem meanwhile_remaining (s : State) : (meanwhile s).remaining = s.remaining := rfl
@[simp] theorem meanwhile_off (s : State) : (meanwhile s).off = s.off := rfl
@[simp] theorem meanwhile_n (s : State) : (meanwhile s).n = s.n := rfl
@[simp] theorem meanwhile_ocr (s : State) : (meanwhile s).ocr = s.ocr := rfl
@[simp] theorem meanwhile_csd (s : State) : (meanwhile s).csd = s.csd := rfl
@[simp] theorem meanwhile_tok (s : State) : (meanwhile s).tok = s.tok := rfl
@[simp] theorem meanwhile_cause (s : State) : (meanwhile s).cause = s.cause := rfl
@[simp] theorem meanwhile_wins (s : State) : (meanwhile s).wins = s.wins := rfl
@[simp] theorem meanwhile_out (s : State) : (meanwhile s).out = s.out := rfl
@[simp] theorem meanwhile_spiCfg (s : State) : (meanwhile s).spiCfg = s.spiCfg := rfl
@[simp] theorem meanwhile_mem (s : State) : (meanwhile s).mem = s.mem := rfl
@[simp] theorem meanwhile_bufBase (s : State) : (meanwhile s).bufBase = s.bufBase := rfl
@[simp] theorem meanwhile_engine (s : State) : (meanwhile s).engine = s.engine := rfl
@[simp] theorem meanwhile_me (s : State) : (meanwhile s).me = s.me := rfl
@[simp] theorem meanwhile_hung (s : State) : (meanwhile s).hung = s.hung := rfl
@[simp] theorem meanwhile_ret (s : State) : (meanwhile s).ret = s.ret := rfl
@[simp] theorem meanwhile_requests (s : State) : (meanwhile s).requests = s.requests := rfl
@[simp] theorem meanwhile_rx (s : State) : (meanwhile s).rx = s.rx := rfl
@[simp] theorem meanwhile_tick (s : State) : (meanwhile s).tick = s.tick := rfl
@[simp] theorem meanwhile_tickAdv (s : State) : (meanwhile s).tickAdv = s.tickAdv := rfl
@[simp] theorem meanwhile_fires (s : State) : (meanwhile s).fires = s.fires := rfl
@[simp] theorem meanwhile_contend (s : State) : (meanwhile s).contend = s.contend := rfl
@[simp] theorem meanwhile_turns (s : State) : (meanwhile s).turns = s.turns := rfl
@[simp] theorem meanwhile_free (s : State) : (meanwhile s).free = s.free := rfl
@[simp] theorem meanwhile_path (s : State) : (meanwhile s).path = s.path := rfl

/-! ### emit -/

@[simp] theorem emit_cfg (e : Event) (s : State) : (emit e s).cfg = s.cfg := rfl
@[simp] theorem emit_card (e : Event) (s : State) : (emit e s).card = s.card := rfl
@[simp] theorem emit_speedSel (e : Event) (s : State) : (emit e s).speedSel = s.speedSel := rfl
@[simp] theorem emit_cs (e : Event) (s : State) : (emit e s).cs = s.cs := rfl
@[simp] theorem emit_lock (e : Event) (s : State) : (emit e s).lock = s.lock := rfl
@[simp] theorem emit_pending (e : Event) (s : State) : (emit e s).pending = s.pending := rfl
@[simp] theorem emit_seq (e : Event) (s : State) : (emit e s).seq = s.seq := rfl
@[simp] theorem emit_fr (e : Event) (s : State) : (emit e s).fr = s.fr := rfl
@[simp] theorem emit_r1 (e : Event) (s : State) : (emit e s).r1 = s.r1 := rfl
@[simp] theorem emit_addr (e : Event) (s : State) : (emit e s).addr = s.addr := rfl
@[simp] theorem emit_remaining (e : Event) (s : State) : (emit e s).remaining = s.remaining := rfl
@[simp] theorem emit_off (e : Event) (s : State) : (emit e s).off = s.off := rfl
@[simp] theorem emit_n (e : Event) (s : State) : (emit e s).n = s.n := rfl
@[simp] theorem emit_ocr (e : Event) (s : State) : (emit e s).ocr = s.ocr := rfl
@[simp] theorem emit_csd (e : Event) (s : State) : (emit e s).csd = s.csd := rfl
@[simp] theorem emit_tok (e : Event) (s : State) : (emit e s).tok = s.tok := rfl
@[simp] theorem emit_cause (e : Event) (s : State) : (emit e s).cause = s.cause := rfl
@[simp] theorem emit_wins (e : Event) (s : State) : (emit e s).wins = s.wins := rfl
@[simp] theorem emit_out (e : Event) (s : State) : (emit e s).out = s.out := rfl
@[simp] theorem emit_spiCfg (e : Event) (s : State) : (emit e s).spiCfg = s.spiCfg := rfl
@[simp] theorem emit_mem (e : Event) (s : State) : (emit e s).mem = s.mem := rfl
@[simp] theorem emit_bufBase (e : Event) (s : State) : (emit e s).bufBase = s.bufBase := rfl
@[simp] theorem emit_engine (e : Event) (s : State) : (emit e s).engine = s.engine := rfl
@[simp] theorem emit_me (e : Event) (s : State) : (emit e s).me = s.me := rfl
@[simp] theorem emit_hung (e : Event) (s : State) : (emit e s).hung = s.hung := rfl
@[simp] theorem emit_ret (e : Event) (s : State) : (emit e s).ret = s.ret := rfl
@[simp] theorem emit_requests (e : Event) (s : State) : (emit e s).requests = s.requests := rfl
@[simp] theorem emit_rx (e : Event) (s : State) : (emit e s).rx = s.rx := rfl
@[simp] theorem emit_tick (e : Event) (s : State) : (emit e s).tick = s.tick := rfl
@[simp] theorem emit_tickAdv (e : Event) (s : State) : (emit e s).tickAdv = s.tickAdv := rfl
@[simp] theorem emit_fires (e : Event) (s : State) : (emit e s).fires = s.fires := rfl
@[simp] theorem emit_contend (e : Event) (s : State) : (emit e s).contend = s.contend := rfl
@[simp] theorem emit_turns (e : Event) (s : State) : (emit e s).turns = s.turns := rfl
@[simp] theorem emit_free (e : Event) (s : State) : (emit e s).free = s.free := rfl
@[simp] theorem emit_path (e : Event) (s : State) : (emit e s).path = s.path := rfl

/-! ### xchg -/

@[simp] theorem xchg_cfg (tx : Byte) (s : State) : ((xchg tx s).2).cfg = s.cfg := rfl
@[simp] theorem xchg_card (tx : Byte) (s : State) : ((xchg tx s).2).card = s.card := rfl
@[simp] theorem xchg_speedSel (tx : Byte) (s : State) : ((xchg tx s).2).speedSel = s.speedSel := rfl
@[simp] theorem xchg_cs (tx : Byte) (s : State) : ((xchg tx s).2).cs = s.cs := rfl
@[simp] theorem xchg_lock (tx : Byte) (s : State) : ((xchg tx s).2).lock = s.lock := rfl
@[simp] theorem xchg_pending (tx : Byte) (s : State) : ((xchg tx s).2).pending = s.pending := rfl
@[simp] theorem xchg_seq (tx : Byte) (s : State) : ((xchg tx s).2).seq = s.seq := rfl
@[simp] theorem xchg_fr (tx : Byte) (s : State) : ((xchg tx s).2).fr = s.fr := rfl
@[simp] theorem xchg_r1 (tx : Byte) (s : State) : ((xchg tx s).2).r1 = s.r1 := rfl
@[simp] theorem xchg_addr (tx : Byte) (s : State) : ((xchg tx s).2).addr = s.addr := rfl
@[simp] theorem xchg_remaining (tx : Byte) (s : State) : ((xchg tx s).2).remaining = s.remaining := rfl
@[simp] theorem xchg_off (tx : Byte) (s : State) : ((xchg tx s).2).off = s.off := rfl
@[simp] theorem xchg_n (tx : Byte) (s : State) : ((xchg tx s).2).n = s.n := rfl
@[simp] theorem xchg_ocr (tx : Byte) (s : State) : ((xchg tx s).2).ocr = s.ocr := rfl
@[simp] theorem xchg_csd (tx : Byte) (s : State) : ((xchg tx s).2).csd = s.csd := rfl
@[simp] theorem xchg_tok (tx : Byte) (s : State) : ((xchg tx s).2).tok = s.tok := rfl
@[simp] theorem xchg_cause (tx : Byte) (s : State) : ((xchg tx s).2).cause = s.cause := rfl
@[simp] theorem xchg_wins (tx : Byte) (s : State) : ((xchg tx s).2).wins = s.wins := rfl
@[simp] theorem xchg_out (tx : Byte) (s : State) : ((xchg tx s).2).out = s.out := rfl
@[simp] theorem xchg_spiCfg (tx : Byte) (s : State) : ((xchg tx s).2).spiCfg = s.spiCfg := rfl
@[simp] theorem xchg_mem (tx : Byte) (s : State) : ((xchg tx s).2).mem = s.mem := rfl
@[simp] theorem xchg_bufBase (tx : Byte) (s : State) : ((xchg tx s).2).bufBase = s.bufBase := rfl
@[simp] theorem xchg_engine (tx : Byte) (s : State) : ((xchg tx s).2).engine = s.engine := rfl
@[simp] theorem xchg_me (tx : Byte) (s : State) : ((xchg tx s).2).me = s.me := rfl
@[simp] theorem xchg_hung (tx : Byte) (s : State) : ((xchg tx s).2).hung = s.hung := rfl
@[simp] theorem xchg_ret (tx : Byte) (s : State) : ((xchg tx s).2).ret = s.ret := rfl
@[simp] theorem xchg_requests (tx : Byte) (s : State) : ((xchg tx s).2).requests = s.requests := rfl
@[simp] theorem xchg_rx (tx : Byte) (s : State) : ((xchg tx s).2).rx = s.rx.pop.2 := rfl
@[simp] theorem xchg_tick (tx : Byte) (s : State) : ((xchg tx s).2).tick = s.tick := rfl
@[simp] theorem xchg_tickAdv (tx : Byte) (s : State) : ((xchg tx s).2).tickAdv = s.tickAdv := rfl
@[simp] theorem xchg_fires (tx : Byte) (s : State) : ((xchg tx s).2).fires = s.fires := rfl
@[simp] theorem xchg_contend (tx : Byte) (s : State) : ((xchg tx s).2).contend = s.contend := rfl
@[simp] theorem xchg_turns (tx : Byte) (s : State) : ((xchg tx s).2).turns = s.turns := rfl
@[simp] theorem xchg_free (tx : Byte) (s : State) : ((xchg tx s).2).free = s.free := rfl
@[simp] theorem xchg_path (tx : Byte) (s : State) : ((xchg tx s).2).path = s.path := rfl

/-! ### xchgGiven -/

@[simp] theorem xchgGiven_cfg (tx rx : Byte) (s : State) : (xchgGiven tx rx s).cfg = s.cfg := rfl
@[simp] theorem xchgGiven_card (tx rx : Byte) (s : State) : (xchgGiven tx rx s).card = s.card := rfl
@[simp] theorem xchgGiven_speedSel (tx rx : Byte) (s : State) : (xchgGiven tx rx s).speedSel = s.speedSel := rfl
@[simp] theorem xchgGiven_cs (tx rx : Byte) (s : State) : (xchgGiven tx rx s).cs = s.cs := rfl
@[simp] theorem xchgGiven_lock (tx rx : Byte) (s : State) : (xchgGiven tx rx s).lock = s.lock := rfl
@[simp] theorem xchgGiven_pending (tx rx : Byte) (s : State) : (xchgGiven tx rx s).pending = s.pending := rfl
@[simp] theorem xchgGiven_seq (tx rx : Byte) (s : State) : (xchgGiven tx rx s).seq = s.seq := rfl
@[simp] theorem xchgGiven_fr (tx rx : Byte) (s : State) : (xchgGiven tx rx s).fr = s.fr := rfl
@[simp] theorem xchgGiven_r1 (tx rx : Byte) (s : State) : (xchgGiven tx rx s).r1 = s.r1 := rfl
@[simp] theorem xchgGiven_addr (tx rx : Byte) (s : State) : (xchgGiven tx rx s).addr = s.addr := rfl
@[simp] theorem xchgGiven_remaining (tx rx : Byte) (s : State) : (xchgGiven tx rx s).remaining = s.remaining := rfl
@[simp] theorem xchgGiven_off (tx rx : Byte) (s : State) : (xchgGiven tx rx s).off = s.off := rfl
@[simp] theorem xchgGiven_n (tx rx : Byte) (s : State) : (xchgGiven tx rx s).n = s.n := rfl
@[simp] theorem xchgGiven_ocr (tx rx : Byte) (s : State) : (xchgGiven tx rx s).ocr = s.ocr := rfl
@[simp] theorem xchgGiven_csd (tx rx : Byte) (s : State) : (xchgGiven tx rx s).csd = s.csd := rfl
@[simp] theorem xchgGiven_tok (tx rx : Byte) (s : State) : (xchgGiven tx rx s).tok = s.tok := rfl
@[simp] theorem xchgGiven_cause (tx rx : Byte) (s : State) : (xchgGiven tx rx s).cause = s.cause := rfl
@[simp] theorem xchgGiven_wins (tx rx : Byte) (s : State) : (xchgGiven tx rx s).wins = s.wins := rfl
@[simp] theorem xchgGiven_out (tx rx : Byte) (s : State) : (xchgGiven tx rx s).out = s.out := rfl
@[simp] theorem xchgGiven_spiCfg (tx rx : Byte) (s : State) : (xchgGiven tx rx s).spiCfg = s.spiCfg := rfl
@[simp] theorem xchgGiven_mem (tx rx : Byte) (s : State) : (xchgGiven tx rx s).mem = s.mem := rfl
@[simp] theorem xchgGiven_bufBase (tx rx : Byte) (s : State) : (xchgGiven tx rx s).bufBase = s.bufBase := rfl
@[simp] theorem xchgGiven_engine (tx rx : Byte) (s : State) : (xchgGiven tx rx s).engine = s.engine := rfl
@[simp] theorem xchgGiven_me (tx rx : Byte) (s : State) : (xchgGiven tx rx s).me = s.me := rfl
@[simp] theorem xchgGiven_hung (tx rx : Byte) (s : State) : (xchgGiven tx rx s).hung = s.hung := rfl
@[simp] theorem xchgGiven_ret (tx rx : Byte) (s : State) : (xchgGiven tx rx s).ret = s.ret := rfl
@[simp] theorem xchgGiven_requests (tx rx : Byte) (s : State) : (xchgGiven tx rx s).requests = s.requests := rfl
@[simp] theorem xchgGiven_rx (tx rx : Byte) (s : State) : (xchgGiven tx rx s).rx = s.rx := rfl
@[simp] theorem xchgGiven_tick (tx rx : Byte) (s : State) : (xchgGiven tx rx s).tick = s.tick := rfl
@[simp] theorem xchgGiven_tickAdv (tx rx : Byte) (s : State) : (xchgGiven tx rx s).tickAdv = s.tickAdv := rfl
@[simp] theorem xchgGiven_fires (tx rx : Byte) (s : State) : (xchgGiven tx rx s).fires = s.fires := rfl
@[simp] theorem xchgGiven_contend (tx rx : Byte) (s : State) : (xchgGiven tx rx s).contend = s.contend := rfl
@[simp] theorem xchgGiven_turns (tx rx : Byte) (s : State) : (xchgGiven tx rx s).turns = s.turns := rfl
@[simp] theorem xchgGiven_free (tx rx : Byte) (s : State) : (xchgGiven tx rx s).free = s.free := rfl
@[simp] theorem xchgGiven_path (tx rx : Byte) (s : State) : (xchgGiven tx rx s).path = s.path := rfl

/-! ### send -/

@[simp] theorem send_cfg (tx : Byte) (s : State) : (send tx s).cfg = s.cfg := rfl
@[simp] theorem send_card (tx : Byte) (s : State) : (send tx s).card = s.card := rfl
@[simp] theorem send_speedSel (tx : Byte) (s : State) : (send tx s).speedSel = s.speedSel := rfl
@[simp] theorem send_cs (tx : Byte) (s : State) : (send tx s).cs = s.cs := rfl
@[simp] theorem send_lock (tx : Byte) (s : State) : (send tx s).lock = s.lock := rfl
@[simp] theorem send_pending (tx : Byte) (s : State) : (send tx s).pending = s.pending := rfl
@[simp] theorem send_seq (tx : Byte) (s : State) : (send tx s).seq = s.seq := rfl
@[simp] theorem send_fr (tx : Byte) (s : State) : (send tx s).fr = s.fr := rfl
@[simp] theorem send_r1 (tx : Byte) (s : State) : (send tx s).r1 = s.r1 := rfl
@[simp] theorem send_addr (tx : Byte) (s : State) : (send tx s).addr = s.addr := rfl
@[simp] theorem send_remaining (tx : Byte) (s : State) : (send tx s).remaining = s.remaining := rfl
@[simp] theorem send_off (tx : Byte) (s : State) : (send tx s).off = s.off := rfl
@[simp] theorem send_n (tx : Byte) (s : State) : (send tx s).n = s.n := rfl
@[simp] theorem send_ocr (tx : Byte) (s : State) : (send tx s).ocr = s.ocr := rfl
@[simp] theorem send_csd (tx : Byte) (s : State) : (send tx s).csd = s.csd := rfl
@[simp] theorem send_tok (tx : Byte) (s : State) : (send tx s).tok = s.tok := rfl
@[simp] theorem send_cause (tx : Byte) (s : State) : (send tx s).cause = s.cause := rfl
@[simp] theorem send_wins (tx : Byte) (s : State) : (send tx s).wins = s.wins := rfl
@[simp] theorem send_out (tx : Byte) (s : State) : (send tx s).out = s.out := rfl
@[simp] theorem send_spiCfg (tx : Byte) (s : State) : (send tx s).spiCfg = s.spiCfg := rfl
@[simp] theorem send_mem (tx : Byte) (s : State) : (send tx s).mem = s.mem := rfl
@[simp] theorem send_bufBase (tx : Byte) (s : State) : (send tx s).bufBase = s.bufBase := rfl
@[simp] theorem send_engine (tx : Byte) (s : State) : (send tx s).engine = s.engine := rfl
@[simp] theorem send_me (tx : Byte) (s : State) : (send tx s).me = s.me := rfl
@[simp] theorem send_hung (tx : Byte) (s : State) : (send tx s).hung = s.hung := rfl
@[simp] theorem send_ret (tx : Byte) (s : State) : (send tx s).ret = s.ret := rfl
@[simp] theorem send_requests (tx : Byte) (s : State) : (send tx s).requests = s.requests := rfl
@[simp] theorem send_rx (tx : Byte) (s : State) : (send tx s).rx = s.rx.pop.2 := rfl
@[simp] theorem send_tick (tx : Byte) (s : State) : (send tx s).tick = s.tick := rfl
@[simp] theorem send_tickAdv (tx : Byte) (s : State) : (send tx s).tickAdv = s.tickAdv := rfl
@[simp] theorem send_fires (tx : Byte) (s : State) : (send tx s).fires = s.fires := rfl
@[simp] theorem send_contend (tx : Byte) (s : State) : (send tx s).contend = s.contend := rfl
@[simp] theorem send_turns (tx : Byte) (s : State) : (send tx s).turns = s.turns := rfl
@[simp] theorem send_free (tx : Byte) (s : State) : (send tx s).free = s.free := rfl
@[simp] theorem send_path (tx : Byte) (s : State) : (send tx s).path = s.path := rfl

/-! ### driveCs -/

@[simp] theorem driveCs_cfg (l : ChipSelect) (s : State) : (driveCs l s).cfg = s.cfg := rfl
@[simp] theorem driveCs_card (l : ChipSelect) (s : State) : (driveCs l s).card = s.card := rfl
@[simp] theorem driveCs_speedSel (l : ChipSelect) (s : State) : (driveCs l s).speedSel = s.speedSel := rfl
@[simp] theorem driveCs_cs (l : ChipSelect) (s : State) : (driveCs l s).cs = l := rfl
@[simp] theorem driveCs_lock (l : ChipSelect) (s : State) : (driveCs l s).lock = s.lock := rfl
@[simp] theorem driveCs_pending (l : ChipSelect) (s : State) : (driveCs l s).pending = s.pending := rfl
@[simp] theorem driveCs_seq (l : ChipSelect) (s : State) : (driveCs l s).seq = s.seq := rfl
@[simp] theorem driveCs_fr (l : ChipSelect) (s : State) : (driveCs l s).fr = s.fr := rfl
@[simp] theorem driveCs_r1 (l : ChipSelect) (s : State) : (driveCs l s).r1 = s.r1 := rfl
@[simp] theorem driveCs_addr (l : ChipSelect) (s : State) : (driveCs l s).addr = s.addr := rfl
@[simp] theorem driveCs_remaining (l : ChipSelect) (s : State) : (driveCs l s).remaining = s.remaining := rfl
@[simp] theorem driveCs_off (l : ChipSelect) (s : State) : (driveCs l s).off = s.off := rfl
@[simp] theorem driveCs_n (l : ChipSelect) (s : State) : (driveCs l s).n = s.n := rfl
@[simp] theorem driveCs_ocr (l : ChipSelect) (s : State) : (driveCs l s).ocr = s.ocr := rfl
@[simp] theorem driveCs_csd (l : ChipSelect) (s : State) : (driveCs l s).csd = s.csd := rfl
@[simp] theorem driveCs_tok (l : ChipSelect) (s : State) : (driveCs l s).tok = s.tok := rfl
@[simp] theorem driveCs_cause (l : ChipSelect) (s : State) : (driveCs l s).cause = s.cause := rfl
@[simp] theorem driveCs_wins (l : ChipSelect) (s : State) : (driveCs l s).wins = s.wins := rfl
@[simp] theorem driveCs_out (l : ChipSelect) (s : State) : (driveCs l s).out = s.out := rfl
@[simp] theorem driveCs_spiCfg (l : ChipSelect) (s : State) : (driveCs l s).spiCfg = s.spiCfg := rfl
@[simp] theorem driveCs_mem (l : ChipSelect) (s : State) : (driveCs l s).mem = s.mem := rfl
@[simp] theorem driveCs_bufBase (l : ChipSelect) (s : State) : (driveCs l s).bufBase = s.bufBase := rfl
@[simp] theorem driveCs_engine (l : ChipSelect) (s : State) : (driveCs l s).engine = s.engine := rfl
@[simp] theorem driveCs_me (l : ChipSelect) (s : State) : (driveCs l s).me = s.me := rfl
@[simp] theorem driveCs_hung (l : ChipSelect) (s : State) : (driveCs l s).hung = s.hung := rfl
@[simp] theorem driveCs_ret (l : ChipSelect) (s : State) : (driveCs l s).ret = s.ret := rfl
@[simp] theorem driveCs_requests (l : ChipSelect) (s : State) : (driveCs l s).requests = s.requests := rfl
@[simp] theorem driveCs_rx (l : ChipSelect) (s : State) : (driveCs l s).rx = s.rx := rfl
@[simp] theorem driveCs_tick (l : ChipSelect) (s : State) : (driveCs l s).tick = s.tick := rfl
@[simp] theorem driveCs_tickAdv (l : ChipSelect) (s : State) : (driveCs l s).tickAdv = s.tickAdv := rfl
@[simp] theorem driveCs_fires (l : ChipSelect) (s : State) : (driveCs l s).fires = s.fires := rfl
@[simp] theorem driveCs_contend (l : ChipSelect) (s : State) : (driveCs l s).contend = s.contend := rfl
@[simp] theorem driveCs_turns (l : ChipSelect) (s : State) : (driveCs l s).turns = s.turns := rfl
@[simp] theorem driveCs_free (l : ChipSelect) (s : State) : (driveCs l s).free = s.free := rfl
@[simp] theorem driveCs_path (l : ChipSelect) (s : State) : (driveCs l s).path = s.path := rfl

/-! ### deselect -/

@[simp] theorem deselect_cfg (s : State) : (deselect s).cfg = s.cfg := rfl
@[simp] theorem deselect_card (s : State) : (deselect s).card = s.card := rfl
@[simp] theorem deselect_speedSel (s : State) : (deselect s).speedSel = s.speedSel := rfl
@[simp] theorem deselect_cs (s : State) : (deselect s).cs = .deasserted := rfl
@[simp] theorem deselect_lock (s : State) : (deselect s).lock = s.lock := rfl
@[simp] theorem deselect_pending (s : State) : (deselect s).pending = s.pending := rfl
@[simp] theorem deselect_seq (s : State) : (deselect s).seq = s.seq := rfl
@[simp] theorem deselect_fr (s : State) : (deselect s).fr = s.fr := rfl
@[simp] theorem deselect_r1 (s : State) : (deselect s).r1 = s.r1 := rfl
@[simp] theorem deselect_addr (s : State) : (deselect s).addr = s.addr := rfl
@[simp] theorem deselect_remaining (s : State) : (deselect s).remaining = s.remaining := rfl
@[simp] theorem deselect_off (s : State) : (deselect s).off = s.off := rfl
@[simp] theorem deselect_n (s : State) : (deselect s).n = s.n := rfl
@[simp] theorem deselect_ocr (s : State) : (deselect s).ocr = s.ocr := rfl
@[simp] theorem deselect_csd (s : State) : (deselect s).csd = s.csd := rfl
@[simp] theorem deselect_tok (s : State) : (deselect s).tok = s.tok := rfl
@[simp] theorem deselect_cause (s : State) : (deselect s).cause = s.cause := rfl
@[simp] theorem deselect_wins (s : State) : (deselect s).wins = s.wins := rfl
@[simp] theorem deselect_out (s : State) : (deselect s).out = s.out := rfl
@[simp] theorem deselect_spiCfg (s : State) : (deselect s).spiCfg = s.spiCfg := rfl
@[simp] theorem deselect_mem (s : State) : (deselect s).mem = s.mem := rfl
@[simp] theorem deselect_bufBase (s : State) : (deselect s).bufBase = s.bufBase := rfl
@[simp] theorem deselect_engine (s : State) : (deselect s).engine = s.engine := rfl
@[simp] theorem deselect_me (s : State) : (deselect s).me = s.me := rfl
@[simp] theorem deselect_hung (s : State) : (deselect s).hung = s.hung := rfl
@[simp] theorem deselect_ret (s : State) : (deselect s).ret = s.ret := rfl
@[simp] theorem deselect_requests (s : State) : (deselect s).requests = s.requests := rfl
@[simp] theorem deselect_rx (s : State) : (deselect s).rx = s.rx.pop.2 := rfl
@[simp] theorem deselect_tick (s : State) : (deselect s).tick = s.tick := rfl
@[simp] theorem deselect_tickAdv (s : State) : (deselect s).tickAdv = s.tickAdv := rfl
@[simp] theorem deselect_fires (s : State) : (deselect s).fires = s.fires := rfl
@[simp] theorem deselect_contend (s : State) : (deselect s).contend = s.contend := rfl
@[simp] theorem deselect_turns (s : State) : (deselect s).turns = s.turns := rfl
@[simp] theorem deselect_free (s : State) : (deselect s).free = s.free := rfl
@[simp] theorem deselect_path (s : State) : (deselect s).path = s.path := rfl

/-! ### now -/

@[simp] theorem now_cfg (s : State) : ((now s).2).cfg = s.cfg := rfl
@[simp] theorem now_card (s : State) : ((now s).2).card = s.card := rfl
@[simp] theorem now_speedSel (s : State) : ((now s).2).speedSel = s.speedSel := rfl
@[simp] theorem now_cs (s : State) : ((now s).2).cs = s.cs := rfl
@[simp] theorem now_lock (s : State) : ((now s).2).lock = s.lock := rfl
@[simp] theorem now_pending (s : State) : ((now s).2).pending = s.pending := rfl
@[simp] theorem now_seq (s : State) : ((now s).2).seq = s.seq := rfl
@[simp] theorem now_fr (s : State) : ((now s).2).fr = s.fr := rfl
@[simp] theorem now_r1 (s : State) : ((now s).2).r1 = s.r1 := rfl
@[simp] theorem now_addr (s : State) : ((now s).2).addr = s.addr := rfl
@[simp] theorem now_remaining (s : State) : ((now s).2).remaining = s.remaining := rfl
@[simp] theorem now_off (s : State) : ((now s).2).off = s.off := rfl
@[simp] theorem now_n (s : State) : ((now s).2).n = s.n := rfl
@[simp] theorem now_ocr (s : State) : ((now s).2).ocr = s.ocr := rfl
@[simp] theorem now_csd (s : State) : ((now s).2).csd = s.csd := rfl
@[simp] theorem now_tok (s : State) : ((now s).2).tok = s.tok := rfl
@[simp] theorem now_cause (s : State) : ((now s).2).cause = s.cause := rfl
@[simp] theorem now_wins (s : State) : ((now s).2).wins = s.wins := rfl
@[simp] theorem now_out (s : State) : ((now s).2).out = s.out := rfl
@[simp] theorem now_spiCfg (s : State) : ((now s).2).spiCfg = s.spiCfg := rfl
@[simp] theorem now_mem (s : State) : ((now s).2).mem = s.mem := rfl
@[simp] theorem now_bufBase (s : State) : ((now s).2).bufBase = s.bufBase := rfl
@[simp] theorem now_engine (s : State) : ((now s).2).engine = s.engine := rfl
@[simp] theorem now_me (s : State) : ((now s).2).me = s.me := rfl
@[simp] theorem now_hung (s : State) : ((now s).2).hung = s.hung := rfl
@[simp] theorem now_ret (s : State) : ((now s).2).ret = s.ret := rfl
@[simp] theorem now_requests (s : State) : ((now s).2).requests = s.requests := rfl
@[simp] theorem now_rx (s : State) : ((now s).2).rx = s.rx := rfl
@[simp] theorem now_tick (s : State) : ((now s).2).tick = (s.tick + s.tickAdv.pop.1) % tickModulus s.cfg := rfl
@[simp] theorem now_tickAdv (s : State) : ((now s).2).tickAdv = s.tickAdv.pop.2 := rfl
@[simp] theorem now_fires (s : State) : ((now s).2).fires = s.fires := rfl
@[simp] theorem now_contend (s : State) : ((now s).2).contend = s.contend := rfl
@[simp] theorem now_turns (s : State) : ((now s).2).turns = s.turns := rfl
@[simp] theorem now_free (s : State) : ((now s).2).free = s.free := rfl
@[simp] theorem now_path (s : State) : ((now s).2).path = s.path := rfl

/-! ### delay -/

@[simp] theorem delay_cfg (ms : Nat) (s : State) : (delay ms s).cfg = s.cfg := rfl
@[simp] theorem delay_card (ms : Nat) (s : State) : (delay ms s).card = s.card := rfl
@[simp] theorem delay_speedSel (ms : Nat) (s : State) : (delay ms s).speedSel = s.speedSel := rfl
@[simp] theorem delay_cs (ms : Nat) (s : State) : (delay ms s).cs = s.cs := rfl
@[simp] theorem delay_lock (ms : Nat) (s : State) : (delay ms s).lock = s.lock := rfl
@[simp] theorem delay_pending (ms : Nat) (s : State) : (delay ms s).pending = s.pending := rfl
@[simp] theorem delay_seq (ms : Nat) (s : State) : (delay ms s).seq = s.seq := rfl
@[simp] theorem delay_fr (ms : Nat) (s : State) : (delay ms s).fr = s.fr := rfl
@[simp] theorem delay_r1 (ms : Nat) (s : State) : (delay ms s).r1 = s.r1 := rfl
@[simp] theorem delay_addr (ms : Nat) (s : State) : (delay ms s).addr = s.addr := rfl
@[simp] theorem delay_remaining (ms : Nat) (s : State) : (delay ms s).remaining = s.remaining := rfl
@[simp] theorem delay_off (ms : Nat) (s : State) : (delay ms s).off = s.off := rfl
@[simp] theorem delay_n (ms : Nat) (s : State) : (delay ms s).n = s.n := rfl
@[simp] theorem delay_ocr (ms : Nat) (s : State) : (delay ms s).ocr = s.ocr := rfl
@[simp] theorem delay_csd (ms : Nat) (s : State) : (delay ms s).csd = s.csd := rfl
@[simp] theorem delay_tok (ms : Nat) (s : State) : (delay ms s).tok = s.tok := rfl
@[simp] theorem delay_cause (ms : Nat) (s : State) : (delay ms s).cause = s.cause := rfl
@[simp] theorem delay_wins (ms : Nat) (s : State) : (delay ms s).wins = s.wins := rfl
@[simp] theorem delay_out (ms : Nat) (s : State) : (delay ms s).out = s.out := rfl
@[simp] theorem delay_spiCfg (ms : Nat) (s : State) : (delay ms s).spiCfg = s.spiCfg := rfl
@[simp] theorem delay_mem (ms : Nat) (s : State) : (delay ms s).mem = s.mem := rfl
@[simp] theorem delay_bufBase (ms : Nat) (s : State) : (delay ms s).bufBase = s.bufBase := rfl
@[simp] theorem delay_engine (ms : Nat) (s : State) : (delay ms s).engine = s.engine := rfl
@[simp] theorem delay_me (ms : Nat) (s : State) : (delay ms s).me = s.me := rfl
@[simp] theorem delay_hung (ms : Nat) (s : State) : (delay ms s).hung = s.hung := rfl
@[simp] theorem delay_ret (ms : Nat) (s : State) : (delay ms s).ret = s.ret := rfl
@[simp] theorem delay_requests (ms : Nat) (s : State) : (delay ms s).requests = s.requests := rfl
@[simp] theorem delay_rx (ms : Nat) (s : State) : (delay ms s).rx = s.rx := rfl
@[simp] theorem delay_tick (ms : Nat) (s : State) : (delay ms s).tick = s.tick := rfl
@[simp] theorem delay_tickAdv (ms : Nat) (s : State) : (delay ms s).tickAdv = s.tickAdv := rfl
@[simp] theorem delay_fires (ms : Nat) (s : State) : (delay ms s).fires = s.fires := rfl
@[simp] theorem delay_contend (ms : Nat) (s : State) : (delay ms s).contend = s.contend := rfl
@[simp] theorem delay_turns (ms : Nat) (s : State) : (delay ms s).turns = s.turns := rfl
@[simp] theorem delay_free (ms : Nat) (s : State) : (delay ms s).free = s.free := rfl
@[simp] theorem delay_path (ms : Nat) (s : State) : (delay ms s).path = s.path := rfl

/-! ### raise -/

@[simp] theorem raise_cfg (c : Cause) (s : State) : (raise c s).cfg = s.cfg := rfl
@[simp] theorem raise_card (c : Cause) (s : State) : (raise c s).card = s.card := rfl
@[simp] theorem raise_status (c : Cause) (s : State) : (raise c s).status = s.status := rfl
@[simp] theorem raise_speedSel (c : Cause) (s : State) : (raise c s).speedSel = s.speedSel := rfl
@[simp] theorem raise_cs (c : Cause) (s : State) : (raise c s).cs = s.cs := rfl
@[simp] theorem raise_lock (c : Cause) (s : State) : (raise c s).lock = s.lock := rfl
@[simp] theorem raise_pending (c : Cause) (s : State) : (raise c s).pending = s.pending := rfl
@[simp] theorem raise_seq (c : Cause) (s : State) : (raise c s).seq = s.seq := rfl
@[simp] theorem raise_fr (c : Cause) (s : State) : (raise c s).fr = s.fr := rfl
@[simp] theorem raise_r1 (c : Cause) (s : State) : (raise c s).r1 = s.r1 := rfl
@[simp] theorem raise_addr (c : Cause) (s : State) : (raise c s).addr = s.addr := rfl
@[simp] theorem raise_remaining (c : Cause) (s : State) : (raise c s).remaining = s.remaining := rfl
@[simp] theorem raise_off (c : Cause) (s : State) : (raise c s).off = s.off := rfl
@[simp] theorem raise_n (c : Cause) (s : State) : (raise c s).n = s.n := rfl
@[simp] theorem raise_ocr (c : Cause) (s : State) : (raise c s).ocr = s.ocr := rfl
@[simp] theorem raise_csd (c : Cause) (s : State) : (raise c s).csd = s.csd := rfl
@[simp] theorem raise_tok (c : Cause) (s : State) : (raise c s).tok = s.tok := rfl
@[simp] theorem raise_cause (c : Cause) (s : State) : (raise c s).cause = c := rfl
@[simp] theorem raise_wins (c : Cause) (s : State) : (raise c s).wins = s.wins := rfl
@[simp] theorem raise_out (c : Cause) (s : State) : (raise c s).out = s.out := rfl
@[simp] theorem raise_hostOut (c : Cause) (s : State) : (raise c s).hostOut = s.hostOut := rfl
@[simp] theorem raise_spiCfg (c : Cause) (s : State) : (raise c s).spiCfg = s.spiCfg := rfl
@[simp] theorem raise_mem (c : Cause) (s : State) : (raise c s).mem = s.mem := rfl
@[simp] theorem raise_bufBase (c : Cause) (s : State) : (raise c s).bufBase = s.bufBase := rfl
@[simp] theorem raise_engine (c : Cause) (s : State) : (raise c s).engine = s.engine := rfl
@[simp] theorem raise_me (c : Cause) (s : State) : (raise c s).me = s.me := rfl
@[simp] theorem raise_waiters (c : Cause) (s : State) : (raise c s).waiters = s.waiters := rfl
@[simp] theorem raise_early (c : Cause) (s : State) : (raise c s).early = s.early := rfl
@[simp] theorem raise_hung (c : Cause) (s : State) : (raise c s).hung = s.hung := rfl
@[simp] theorem raise_ret (c : Cause) (s : State) : (raise c s).ret = s.ret := rfl
@[simp] theorem raise_requests (c : Cause) (s : State) : (raise c s).requests = s.requests := rfl
@[simp] theorem raise_rx (c : Cause) (s : State) : (raise c s).rx = s.rx := rfl
@[simp] theorem raise_tick (c : Cause) (s : State) : (raise c s).tick = s.tick := rfl
@[simp] theorem raise_tickAdv (c : Cause) (s : State) : (raise c s).tickAdv = s.tickAdv := rfl
@[simp] theorem raise_cd (c : Cause) (s : State) : (raise c s).cd = s.cd := rfl
@[simp] theorem raise_wp (c : Cause) (s : State) : (raise c s).wp = s.wp := rfl
@[simp] theorem raise_fires (c : Cause) (s : State) : (raise c s).fires = s.fires := rfl
@[simp] theorem raise_contend (c : Cause) (s : State) : (raise c s).contend = s.contend := rfl
@[simp] theorem raise_others (c : Cause) (s : State) : (raise c s).others = s.others := rfl
@[simp] theorem raise_turns (c : Cause) (s : State) : (raise c s).turns = s.turns := rfl
@[simp] theorem raise_free (c : Cause) (s : State) : (raise c s).free = s.free := rfl
@[simp] theorem raise_events (c : Cause) (s : State) : (raise c s).events = s.events := rfl
@[simp] theorem raise_path (c : Cause) (s : State) : (raise c s).path = s.path := rfl

/-! ### enter -/

@[simp] theorem enter_cfg (q : Seq) (s : State) : (enter q s).cfg = s.cfg := rfl
@[simp] theorem enter_card (q : Seq) (s : State) : (enter q s).card = s.card := rfl
@[simp] theorem enter_status (q : Seq) (s : State) : (enter q s).status = s.status := rfl
@[simp] theorem enter_speedSel (q : Seq) (s : State) : (enter q s).speedSel = s.speedSel := rfl
@[simp] theorem enter_cs (q : Seq) (s : State) : (enter q s).cs = s.cs := rfl
@[simp] theorem enter_lock (q : Seq) (s : State) : (enter q s).lock = s.lock := rfl
@[simp] theorem enter_pending (q : Seq) (s : State) : (enter q s).pending = s.pending := rfl
@[simp] theorem enter_seq (q : Seq) (s : State) : (enter q s).seq = q := rfl
@[simp] theorem enter_fr (q : Seq) (s : State) : (enter q s).fr = s.fr := rfl
@[simp] theorem enter_r1 (q : Seq) (s : State) : (enter q s).r1 = s.r1 := rfl
@[simp] theorem enter_addr (q : Seq) (s : State) : (enter q s).addr = s.addr := rfl
@[simp] theorem enter_remaining (q : Seq) (s : State) : (enter q s).remaining = s.remaining := rfl
@[simp] theorem enter_off (q : Seq) (s : State) : (enter q s).off = s.off := rfl
@[simp] theorem enter_n (q : Seq) (s : State) : (enter q s).n = s.n := rfl
@[simp] theorem enter_ocr (q : Seq) (s : State) : (enter q s).ocr = s.ocr := rfl
@[simp] theorem enter_csd (q : Seq) (s : State) : (enter q s).csd = s.csd := rfl
@[simp] theorem enter_tok (q : Seq) (s : State) : (enter q s).tok = s.tok := rfl
@[simp] theorem enter_cause (q : Seq) (s : State) : (enter q s).cause = s.cause := rfl
@[simp] theorem enter_wins (q : Seq) (s : State) : (enter q s).wins = s.wins := rfl
@[simp] theorem enter_out (q : Seq) (s : State) : (enter q s).out = s.out := rfl
@[simp] theorem enter_hostOut (q : Seq) (s : State) : (enter q s).hostOut = s.hostOut := rfl
@[simp] theorem enter_spiCfg (q : Seq) (s : State) : (enter q s).spiCfg = s.spiCfg := rfl
@[simp] theorem enter_mem (q : Seq) (s : State) : (enter q s).mem = s.mem := rfl
@[simp] theorem enter_bufBase (q : Seq) (s : State) : (enter q s).bufBase = s.bufBase := rfl
@[simp] theorem enter_engine (q : Seq) (s : State) : (enter q s).engine = s.engine := rfl
@[simp] theorem enter_me (q : Seq) (s : State) : (enter q s).me = s.me := rfl
@[simp] theorem enter_waiters (q : Seq) (s : State) : (enter q s).waiters = s.waiters := rfl
@[simp] theorem enter_early (q : Seq) (s : State) : (enter q s).early = s.early := rfl
@[simp] theorem enter_hung (q : Seq) (s : State) : (enter q s).hung = s.hung := rfl
@[simp] theorem enter_ret (q : Seq) (s : State) : (enter q s).ret = s.ret := rfl
@[simp] theorem enter_requests (q : Seq) (s : State) : (enter q s).requests = s.requests := rfl
@[simp] theorem enter_rx (q : Seq) (s : State) : (enter q s).rx = s.rx := rfl
@[simp] theorem enter_tick (q : Seq) (s : State) : (enter q s).tick = s.tick := rfl
@[simp] theorem enter_tickAdv (q : Seq) (s : State) : (enter q s).tickAdv = s.tickAdv := rfl
@[simp] theorem enter_cd (q : Seq) (s : State) : (enter q s).cd = s.cd := rfl
@[simp] theorem enter_wp (q : Seq) (s : State) : (enter q s).wp = s.wp := rfl
@[simp] theorem enter_fires (q : Seq) (s : State) : (enter q s).fires = s.fires := rfl
@[simp] theorem enter_contend (q : Seq) (s : State) : (enter q s).contend = s.contend := rfl
@[simp] theorem enter_others (q : Seq) (s : State) : (enter q s).others = s.others := rfl
@[simp] theorem enter_turns (q : Seq) (s : State) : (enter q s).turns = s.turns := rfl
@[simp] theorem enter_free (q : Seq) (s : State) : (enter q s).free = s.free := rfl
@[simp] theorem enter_events (q : Seq) (s : State) : (enter q s).events = s.events := rfl
@[simp] theorem enter_path (q : Seq) (s : State) : (enter q s).path = q :: s.path := rfl

/-! ### closeWindow -/

@[simp] theorem closeWindow_cfg (s : State) : (closeWindow s).cfg = s.cfg := rfl
@[simp] theorem closeWindow_card (s : State) : (closeWindow s).card = s.card := rfl
@[simp] theorem closeWindow_status (s : State) : (closeWindow s).status = s.status := rfl
@[simp] theorem closeWindow_speedSel (s : State) : (closeWindow s).speedSel = s.speedSel := rfl
@[simp] theorem closeWindow_cs (s : State) : (closeWindow s).cs = s.cs := rfl
@[simp] theorem closeWindow_lock (s : State) : (closeWindow s).lock = s.lock := rfl
@[simp] theorem closeWindow_pending (s : State) : (closeWindow s).pending = s.pending := rfl
@[simp] theorem closeWindow_seq (s : State) : (closeWindow s).seq = s.seq := rfl
@[simp] theorem closeWindow_fr (s : State) : (closeWindow s).fr = s.fr := rfl
@[simp] theorem closeWindow_r1 (s : State) : (closeWindow s).r1 = s.r1 := rfl
@[simp] theorem closeWindow_addr (s : State) : (closeWindow s).addr = s.addr := rfl
@[simp] theorem closeWindow_remaining (s : State) : (closeWindow s).remaining = s.remaining := rfl
@[simp] theorem closeWindow_off (s : State) : (closeWindow s).off = s.off := rfl
@[simp] theorem closeWindow_n (s : State) : (closeWindow s).n = s.n := rfl
@[simp] theorem closeWindow_ocr (s : State) : (closeWindow s).ocr = s.ocr := rfl
@[simp] theorem closeWindow_csd (s : State) : (closeWindow s).csd = s.csd := rfl
@[simp] theorem closeWindow_tok (s : State) : (closeWindow s).tok = s.tok := rfl
@[simp] theorem closeWindow_cause (s : State) : (closeWindow s).cause = s.cause := rfl
@[simp] theorem closeWindow_wins (s : State) : (closeWindow s).wins = s.wins.tail := rfl
@[simp] theorem closeWindow_out (s : State) : (closeWindow s).out = s.out := rfl
@[simp] theorem closeWindow_hostOut (s : State) : (closeWindow s).hostOut = s.hostOut := rfl
@[simp] theorem closeWindow_spiCfg (s : State) : (closeWindow s).spiCfg = s.spiCfg := rfl
@[simp] theorem closeWindow_mem (s : State) : (closeWindow s).mem = s.mem := rfl
@[simp] theorem closeWindow_bufBase (s : State) : (closeWindow s).bufBase = s.bufBase := rfl
@[simp] theorem closeWindow_engine (s : State) : (closeWindow s).engine = s.engine := rfl
@[simp] theorem closeWindow_me (s : State) : (closeWindow s).me = s.me := rfl
@[simp] theorem closeWindow_waiters (s : State) : (closeWindow s).waiters = s.waiters := rfl
@[simp] theorem closeWindow_early (s : State) : (closeWindow s).early = s.early := rfl
@[simp] theorem closeWindow_hung (s : State) : (closeWindow s).hung = s.hung := rfl
@[simp] theorem closeWindow_ret (s : State) : (closeWindow s).ret = s.ret := rfl
@[simp] theorem closeWindow_requests (s : State) : (closeWindow s).requests = s.requests := rfl
@[simp] theorem closeWindow_rx (s : State) : (closeWindow s).rx = s.rx := rfl
@[simp] theorem closeWindow_tick (s : State) : (closeWindow s).tick = s.tick := rfl
@[simp] theorem closeWindow_tickAdv (s : State) : (closeWindow s).tickAdv = s.tickAdv := rfl
@[simp] theorem closeWindow_cd (s : State) : (closeWindow s).cd = s.cd := rfl
@[simp] theorem closeWindow_wp (s : State) : (closeWindow s).wp = s.wp := rfl
@[simp] theorem closeWindow_fires (s : State) : (closeWindow s).fires = s.fires := rfl
@[simp] theorem closeWindow_contend (s : State) : (closeWindow s).contend = s.contend := rfl
@[simp] theorem closeWindow_others (s : State) : (closeWindow s).others = s.others := rfl
@[simp] theorem closeWindow_turns (s : State) : (closeWindow s).turns = s.turns := rfl
@[simp] theorem closeWindow_free (s : State) : (closeWindow s).free = s.free := rfl
@[simp] theorem closeWindow_events (s : State) : (closeWindow s).events = s.events := rfl
@[simp] theorem closeWindow_path (s : State) : (closeWindow s).path = s.path := rfl

/-! ### memWrite -/

@[simp] theorem memWrite_cfg (off : Nat) (v : Byte) (s : State) : (memWrite off v s).cfg = s.cfg := rfl
@[simp] theorem memWrite_card (off : Nat) (v : Byte) (s : State) : (memWrite off v s).card = s.card := rfl
@[simp] theorem memWrite_status (off : Nat) (v : Byte) (s : State) : (memWrite off v s).status = s.status := rfl
@[simp] theorem memWrite_speedSel (off : Nat) (v : Byte) (s : State) : (memWrite off v s).speedSel = s.speedSel := rfl
@[simp] theorem memWrite_cs (off : Nat) (v : Byte) (s : State) : (memWrite off v s).cs = s.cs := rfl
@[simp] theorem memWrite_lock (off : Nat) (v : Byte) (s : State) : (memWrite off v s).lock = s.lock := rfl
@[simp] theorem memWrite_pending (off : Nat) (v : Byte) (s : State) : (memWrite off v s).pending = s.pending := rfl
@[simp] theorem memWrite_seq (off : Nat) (v : Byte) (s : State) : (memWrite off v s).seq = s.seq := rfl
@[simp] theorem memWrite_fr (off : Nat) (v : Byte) (s : State) : (memWrite off v s).fr = s.fr := rfl
@[simp] theorem memWrite_r1 (off : Nat) (v : Byte) (s : State) : (memWrite off v s).r1 = s.r1 := rfl
@[simp] theorem memWrite_addr (off : Nat) (v : Byte) (s : State) : (memWrite off v s).addr = s.addr := rfl
@[simp] theorem memWrite_remaining (off : Nat) (v : Byte) (s : State) : (memWrite off v s).remaining = s.remaining := rfl
@[simp] theorem memWrite_off (off : Nat) (v : Byte) (s : State) : (memWrite off v s).off = s.off := rfl
@[simp] theorem memWrite_n (off : Nat) (v : Byte) (s : State) : (memWrite off v s).n = s.n := rfl
@[simp] theorem memWrite_ocr (off : Nat) (v : Byte) (s : State) : (memWrite off v s).ocr = s.ocr := rfl
@[simp] theorem memWrite_csd (off : Nat) (v : Byte) (s : State) : (memWrite off v s).csd = s.csd := rfl
@[simp] theorem memWrite_tok (off : Nat) (v : Byte) (s : State) : (memWrite off v s).tok = s.tok := rfl
@[simp] theorem memWrite_cause (off : Nat) (v : Byte) (s : State) : (memWrite off v s).cause = s.cause := rfl
@[simp] theorem memWrite_wins (off : Nat) (v : Byte) (s : State) : (memWrite off v s).wins = s.wins := rfl
@[simp] theorem memWrite_out (off : Nat) (v : Byte) (s : State) : (memWrite off v s).out = s.out := rfl
@[simp] theorem memWrite_hostOut (off : Nat) (v : Byte) (s : State) : (memWrite off v s).hostOut = s.hostOut := rfl
@[simp] theorem memWrite_spiCfg (off : Nat) (v : Byte) (s : State) : (memWrite off v s).spiCfg = s.spiCfg := rfl
@[simp] theorem memWrite_mem (off : Nat) (v : Byte) (s : State) : (memWrite off v s).mem = s.mem.write (s.bufBase + off) v := rfl
@[simp] theorem memWrite_bufBase (off : Nat) (v : Byte) (s : State) : (memWrite off v s).bufBase = s.bufBase := rfl
@[simp] theorem memWrite_engine (off : Nat) (v : Byte) (s : State) : (memWrite off v s).engine = s.engine := rfl
@[simp] theorem memWrite_me (off : Nat) (v : Byte) (s : State) : (memWrite off v s).me = s.me := rfl
@[simp] theorem memWrite_waiters (off : Nat) (v : Byte) (s : State) : (memWrite off v s).waiters = s.waiters := rfl
@[simp] theorem memWrite_early (off : Nat) (v : Byte) (s : State) : (memWrite off v s).early = s.early := rfl
@[simp] theorem memWrite_hung (off : Nat) (v : Byte) (s : State) : (memWrite off v s).hung = s.hung := rfl
@[simp] theorem memWrite_ret (off : Nat) (v : Byte) (s : State) : (memWrite off v s).ret = s.ret := rfl
@[simp] theorem memWrite_requests (off : Nat) (v : Byte) (s : State) : (memWrite off v s).requests = s.requests := rfl
@[simp] theorem memWrite_rx (off : Nat) (v : Byte) (s : State) : (memWrite off v s).rx = s.rx := rfl
@[simp] theorem memWrite_tick (off : Nat) (v : Byte) (s : State) : (memWrite off v s).tick = s.tick := rfl
@[simp] theorem memWrite_tickAdv (off : Nat) (v : Byte) (s : State) : (memWrite off v s).tickAdv = s.tickAdv := rfl
@[simp] theorem memWrite_cd (off : Nat) (v : Byte) (s : State) : (memWrite off v s).cd = s.cd := rfl
@[simp] theorem memWrite_wp (off : Nat) (v : Byte) (s : State) : (memWrite off v s).wp = s.wp := rfl
@[simp] theorem memWrite_fires (off : Nat) (v : Byte) (s : State) : (memWrite off v s).fires = s.fires := rfl
@[simp] theorem memWrite_contend (off : Nat) (v : Byte) (s : State) : (memWrite off v s).contend = s.contend := rfl
@[simp] theorem memWrite_others (off : Nat) (v : Byte) (s : State) : (memWrite off v s).others = s.others := rfl
@[simp] theorem memWrite_turns (off : Nat) (v : Byte) (s : State) : (memWrite off v s).turns = s.turns := rfl
@[simp] theorem memWrite_free (off : Nat) (v : Byte) (s : State) : (memWrite off v s).free = s.free := rfl
@[simp] theorem memWrite_events (off : Nat) (v : Byte) (s : State) : (memWrite off v s).events = s.events := rfl
@[simp] theorem memWrite_path (off : Nat) (v : Byte) (s : State) : (memWrite off v s).path = s.path := rfl

/-! ### takeResponse -/

@[simp] theorem takeResponse_cfg (b : Byte) (s : State) : (takeResponse b s).cfg = s.cfg := rfl
@[simp] theorem takeResponse_card (b : Byte) (s : State) : (takeResponse b s).card = s.card := rfl
@[simp] theorem takeResponse_status (b : Byte) (s : State) : (takeResponse b s).status = s.status := rfl
@[simp] theorem takeResponse_speedSel (b : Byte) (s : State) : (takeResponse b s).speedSel = s.speedSel := rfl
@[simp] theorem takeResponse_cs (b : Byte) (s : State) : (takeResponse b s).cs = s.cs := rfl
@[simp] theorem takeResponse_lock (b : Byte) (s : State) : (takeResponse b s).lock = s.lock := rfl
@[simp] theorem takeResponse_pending (b : Byte) (s : State) : (takeResponse b s).pending = s.pending := rfl
@[simp] theorem takeResponse_seq (b : Byte) (s : State) : (takeResponse b s).seq = s.seq := rfl
@[simp] theorem takeResponse_fr (b : Byte) (s : State) : (takeResponse b s).fr = s.fr := rfl
@[simp] theorem takeResponse_r1 (b : Byte) (s : State) : (takeResponse b s).r1 = b := rfl
@[simp] theorem takeResponse_addr (b : Byte) (s : State) : (takeResponse b s).addr = s.addr := rfl
@[simp] theorem takeResponse_remaining (b : Byte) (s : State) : (takeResponse b s).remaining = s.remaining := rfl
@[simp] theorem takeResponse_off (b : Byte) (s : State) : (takeResponse b s).off = s.off := rfl
@[simp] theorem takeResponse_n (b : Byte) (s : State) : (takeResponse b s).n = if s.n = 0#4 then 0#4 else s.n - 1#4 := rfl
@[simp] theorem takeResponse_ocr (b : Byte) (s : State) : (takeResponse b s).ocr = s.ocr := rfl
@[simp] theorem takeResponse_csd (b : Byte) (s : State) : (takeResponse b s).csd = s.csd := rfl
@[simp] theorem takeResponse_tok (b : Byte) (s : State) : (takeResponse b s).tok = s.tok := rfl
@[simp] theorem takeResponse_cause (b : Byte) (s : State) : (takeResponse b s).cause = s.cause := rfl
@[simp] theorem takeResponse_wins (b : Byte) (s : State) : (takeResponse b s).wins = s.wins := rfl
@[simp] theorem takeResponse_out (b : Byte) (s : State) : (takeResponse b s).out = s.out := rfl
@[simp] theorem takeResponse_hostOut (b : Byte) (s : State) : (takeResponse b s).hostOut = s.hostOut := rfl
@[simp] theorem takeResponse_spiCfg (b : Byte) (s : State) : (takeResponse b s).spiCfg = s.spiCfg := rfl
@[simp] theorem takeResponse_mem (b : Byte) (s : State) : (takeResponse b s).mem = s.mem := rfl
@[simp] theorem takeResponse_bufBase (b : Byte) (s : State) : (takeResponse b s).bufBase = s.bufBase := rfl
@[simp] theorem takeResponse_engine (b : Byte) (s : State) : (takeResponse b s).engine = s.engine := rfl
@[simp] theorem takeResponse_me (b : Byte) (s : State) : (takeResponse b s).me = s.me := rfl
@[simp] theorem takeResponse_waiters (b : Byte) (s : State) : (takeResponse b s).waiters = s.waiters := rfl
@[simp] theorem takeResponse_early (b : Byte) (s : State) : (takeResponse b s).early = s.early := rfl
@[simp] theorem takeResponse_hung (b : Byte) (s : State) : (takeResponse b s).hung = s.hung := rfl
@[simp] theorem takeResponse_ret (b : Byte) (s : State) : (takeResponse b s).ret = s.ret := rfl
@[simp] theorem takeResponse_requests (b : Byte) (s : State) : (takeResponse b s).requests = s.requests := rfl
@[simp] theorem takeResponse_rx (b : Byte) (s : State) : (takeResponse b s).rx = s.rx := rfl
@[simp] theorem takeResponse_tick (b : Byte) (s : State) : (takeResponse b s).tick = s.tick := rfl
@[simp] theorem takeResponse_tickAdv (b : Byte) (s : State) : (takeResponse b s).tickAdv = s.tickAdv := rfl
@[simp] theorem takeResponse_cd (b : Byte) (s : State) : (takeResponse b s).cd = s.cd := rfl
@[simp] theorem takeResponse_wp (b : Byte) (s : State) : (takeResponse b s).wp = s.wp := rfl
@[simp] theorem takeResponse_fires (b : Byte) (s : State) : (takeResponse b s).fires = s.fires := rfl
@[simp] theorem takeResponse_contend (b : Byte) (s : State) : (takeResponse b s).contend = s.contend := rfl
@[simp] theorem takeResponse_others (b : Byte) (s : State) : (takeResponse b s).others = s.others := rfl
@[simp] theorem takeResponse_turns (b : Byte) (s : State) : (takeResponse b s).turns = s.turns := rfl
@[simp] theorem takeResponse_free (b : Byte) (s : State) : (takeResponse b s).free = s.free := rfl
@[simp] theorem takeResponse_events (b : Byte) (s : State) : (takeResponse b s).events = s.events := rfl
@[simp] theorem takeResponse_path (b : Byte) (s : State) : (takeResponse b s).path = s.path := rfl

/-! ### setSpeed -/

@[simp] theorem setSpeed_cfg (sp : Speed) (s : State) : (setSpeed sp s).cfg = s.cfg := rfl
@[simp] theorem setSpeed_card (sp : Speed) (s : State) : (setSpeed sp s).card = s.card := rfl
@[simp] theorem setSpeed_speedSel (sp : Speed) (s : State) : (setSpeed sp s).speedSel = sp := rfl
@[simp] theorem setSpeed_cs (sp : Speed) (s : State) : (setSpeed sp s).cs = s.cs := rfl
@[simp] theorem setSpeed_lock (sp : Speed) (s : State) : (setSpeed sp s).lock = s.lock := rfl
@[simp] theorem setSpeed_pending (sp : Speed) (s : State) : (setSpeed sp s).pending = s.pending := rfl
@[simp] theorem setSpeed_seq (sp : Speed) (s : State) : (setSpeed sp s).seq = s.seq := rfl
@[simp] theorem setSpeed_fr (sp : Speed) (s : State) : (setSpeed sp s).fr = s.fr := rfl
@[simp] theorem setSpeed_r1 (sp : Speed) (s : State) : (setSpeed sp s).r1 = s.r1 := rfl
@[simp] theorem setSpeed_addr (sp : Speed) (s : State) : (setSpeed sp s).addr = s.addr := rfl
@[simp] theorem setSpeed_remaining (sp : Speed) (s : State) : (setSpeed sp s).remaining = s.remaining := rfl
@[simp] theorem setSpeed_off (sp : Speed) (s : State) : (setSpeed sp s).off = s.off := rfl
@[simp] theorem setSpeed_n (sp : Speed) (s : State) : (setSpeed sp s).n = s.n := rfl
@[simp] theorem setSpeed_ocr (sp : Speed) (s : State) : (setSpeed sp s).ocr = s.ocr := rfl
@[simp] theorem setSpeed_csd (sp : Speed) (s : State) : (setSpeed sp s).csd = s.csd := rfl
@[simp] theorem setSpeed_tok (sp : Speed) (s : State) : (setSpeed sp s).tok = s.tok := rfl
@[simp] theorem setSpeed_cause (sp : Speed) (s : State) : (setSpeed sp s).cause = s.cause := rfl
@[simp] theorem setSpeed_wins (sp : Speed) (s : State) : (setSpeed sp s).wins = s.wins := rfl
@[simp] theorem setSpeed_out (sp : Speed) (s : State) : (setSpeed sp s).out = s.out := rfl
@[simp] theorem setSpeed_spiCfg (sp : Speed) (s : State) : (setSpeed sp s).spiCfg = { s.spiCfg with speed := speedOf s.cfg sp } := rfl
@[simp] theorem setSpeed_mem (sp : Speed) (s : State) : (setSpeed sp s).mem = s.mem := rfl
@[simp] theorem setSpeed_bufBase (sp : Speed) (s : State) : (setSpeed sp s).bufBase = s.bufBase := rfl
@[simp] theorem setSpeed_engine (sp : Speed) (s : State) : (setSpeed sp s).engine = s.engine := rfl
@[simp] theorem setSpeed_me (sp : Speed) (s : State) : (setSpeed sp s).me = s.me := rfl
@[simp] theorem setSpeed_hung (sp : Speed) (s : State) : (setSpeed sp s).hung = s.hung := rfl
@[simp] theorem setSpeed_ret (sp : Speed) (s : State) : (setSpeed sp s).ret = s.ret := rfl
@[simp] theorem setSpeed_requests (sp : Speed) (s : State) : (setSpeed sp s).requests = s.requests := rfl
@[simp] theorem setSpeed_rx (sp : Speed) (s : State) : (setSpeed sp s).rx = s.rx := rfl
@[simp] theorem setSpeed_tick (sp : Speed) (s : State) : (setSpeed sp s).tick = s.tick := rfl
@[simp] theorem setSpeed_tickAdv (sp : Speed) (s : State) : (setSpeed sp s).tickAdv = s.tickAdv := rfl
@[simp] theorem setSpeed_fires (sp : Speed) (s : State) : (setSpeed sp s).fires = s.fires := rfl
@[simp] theorem setSpeed_contend (sp : Speed) (s : State) : (setSpeed sp s).contend = s.contend := rfl
@[simp] theorem setSpeed_turns (sp : Speed) (s : State) : (setSpeed sp s).turns = s.turns := rfl
@[simp] theorem setSpeed_free (sp : Speed) (s : State) : (setSpeed sp s).free = s.free := rfl
@[simp] theorem setSpeed_path (sp : Speed) (s : State) : (setSpeed sp s).path = s.path := rfl

/-! ### grantLock -/

@[simp] theorem grantLock_cfg (s : State) : (grantLock s).cfg = s.cfg := rfl
@[simp] theorem grantLock_card (s : State) : (grantLock s).card = s.card := rfl
@[simp] theorem grantLock_speedSel (s : State) : (grantLock s).speedSel = s.speedSel := rfl
@[simp] theorem grantLock_cs (s : State) : (grantLock s).cs = s.cs := rfl
@[simp] theorem grantLock_lock (s : State) : (grantLock s).lock = lockTaken s := rfl
@[simp] theorem grantLock_pending (s : State) : (grantLock s).pending = s.pending := rfl
@[simp] theorem grantLock_seq (s : State) : (grantLock s).seq = s.seq := rfl
@[simp] theorem grantLock_fr (s : State) : (grantLock s).fr = s.fr := rfl
@[simp] theorem grantLock_r1 (s : State) : (grantLock s).r1 = s.r1 := rfl
@[simp] theorem grantLock_addr (s : State) : (grantLock s).addr = s.addr := rfl
@[simp] theorem grantLock_remaining (s : State) : (grantLock s).remaining = s.remaining := rfl
@[simp] theorem grantLock_off (s : State) : (grantLock s).off = s.off := rfl
@[simp] theorem grantLock_n (s : State) : (grantLock s).n = s.n := rfl
@[simp] theorem grantLock_ocr (s : State) : (grantLock s).ocr = s.ocr := rfl
@[simp] theorem grantLock_csd (s : State) : (grantLock s).csd = s.csd := rfl
@[simp] theorem grantLock_tok (s : State) : (grantLock s).tok = s.tok := rfl
@[simp] theorem grantLock_cause (s : State) : (grantLock s).cause = s.cause := rfl
@[simp] theorem grantLock_wins (s : State) : (grantLock s).wins = s.wins := rfl
@[simp] theorem grantLock_out (s : State) : (grantLock s).out = s.out := rfl
@[simp] theorem grantLock_spiCfg (s : State) : (grantLock s).spiCfg = lockConfig s := rfl
@[simp] theorem grantLock_mem (s : State) : (grantLock s).mem = s.mem := rfl
@[simp] theorem grantLock_bufBase (s : State) : (grantLock s).bufBase = s.bufBase := rfl
@[simp] theorem grantLock_engine (s : State) : (grantLock s).engine = s.engine := rfl
@[simp] theorem grantLock_me (s : State) : (grantLock s).me = s.me := rfl
@[simp] theorem grantLock_hung (s : State) : (grantLock s).hung = s.hung := rfl
@[simp] theorem grantLock_ret (s : State) : (grantLock s).ret = s.ret := rfl
@[simp] theorem grantLock_requests (s : State) : (grantLock s).requests = s.requests := rfl
@[simp] theorem grantLock_rx (s : State) : (grantLock s).rx = s.rx := rfl
@[simp] theorem grantLock_tick (s : State) : (grantLock s).tick = s.tick := rfl
@[simp] theorem grantLock_tickAdv (s : State) : (grantLock s).tickAdv = s.tickAdv := rfl
@[simp] theorem grantLock_fires (s : State) : (grantLock s).fires = s.fires := rfl
@[simp] theorem grantLock_contend (s : State) : (grantLock s).contend = s.contend := rfl
@[simp] theorem grantLock_turns (s : State) : (grantLock s).turns = s.turns := rfl
@[simp] theorem grantLock_free (s : State) : (grantLock s).free = s.free := rfl
@[simp] theorem grantLock_path (s : State) : (grantLock s).path = s.path := rfl

/-! ### addWaiter -/

@[simp] theorem addWaiter_cfg (w : Waiter) (s : State) : (addWaiter w s).cfg = s.cfg := rfl
@[simp] theorem addWaiter_card (w : Waiter) (s : State) : (addWaiter w s).card = s.card := rfl
@[simp] theorem addWaiter_status (w : Waiter) (s : State) : (addWaiter w s).status = s.status := rfl
@[simp] theorem addWaiter_speedSel (w : Waiter) (s : State) : (addWaiter w s).speedSel = s.speedSel := rfl
@[simp] theorem addWaiter_cs (w : Waiter) (s : State) : (addWaiter w s).cs = s.cs := rfl
@[simp] theorem addWaiter_lock (w : Waiter) (s : State) : (addWaiter w s).lock = s.lock := rfl
@[simp] theorem addWaiter_pending (w : Waiter) (s : State) : (addWaiter w s).pending = s.pending := rfl
@[simp] theorem addWaiter_seq (w : Waiter) (s : State) : (addWaiter w s).seq = s.seq := rfl
@[simp] theorem addWaiter_fr (w : Waiter) (s : State) : (addWaiter w s).fr = s.fr := rfl
@[simp] theorem addWaiter_r1 (w : Waiter) (s : State) : (addWaiter w s).r1 = s.r1 := rfl
@[simp] theorem addWaiter_addr (w : Waiter) (s : State) : (addWaiter w s).addr = s.addr := rfl
@[simp] theorem addWaiter_remaining (w : Waiter) (s : State) : (addWaiter w s).remaining = s.remaining := rfl
@[simp] theorem addWaiter_off (w : Waiter) (s : State) : (addWaiter w s).off = s.off := rfl
@[simp] theorem addWaiter_n (w : Waiter) (s : State) : (addWaiter w s).n = s.n := rfl
@[simp] theorem addWaiter_ocr (w : Waiter) (s : State) : (addWaiter w s).ocr = s.ocr := rfl
@[simp] theorem addWaiter_csd (w : Waiter) (s : State) : (addWaiter w s).csd = s.csd := rfl
@[simp] theorem addWaiter_tok (w : Waiter) (s : State) : (addWaiter w s).tok = s.tok := rfl
@[simp] theorem addWaiter_cause (w : Waiter) (s : State) : (addWaiter w s).cause = s.cause := rfl
@[simp] theorem addWaiter_wins (w : Waiter) (s : State) : (addWaiter w s).wins = s.wins := rfl
@[simp] theorem addWaiter_out (w : Waiter) (s : State) : (addWaiter w s).out = s.out := rfl
@[simp] theorem addWaiter_hostOut (w : Waiter) (s : State) : (addWaiter w s).hostOut = s.hostOut := rfl
@[simp] theorem addWaiter_spiCfg (w : Waiter) (s : State) : (addWaiter w s).spiCfg = s.spiCfg := rfl
@[simp] theorem addWaiter_mem (w : Waiter) (s : State) : (addWaiter w s).mem = s.mem := rfl
@[simp] theorem addWaiter_bufBase (w : Waiter) (s : State) : (addWaiter w s).bufBase = s.bufBase := rfl
@[simp] theorem addWaiter_engine (w : Waiter) (s : State) : (addWaiter w s).engine = s.engine := rfl
@[simp] theorem addWaiter_me (w : Waiter) (s : State) : (addWaiter w s).me = s.me := rfl
@[simp] theorem addWaiter_waiters (w : Waiter) (s : State) : (addWaiter w s).waiters = s.waiters ++ [w] := rfl
@[simp] theorem addWaiter_early (w : Waiter) (s : State) : (addWaiter w s).early = s.early := rfl
@[simp] theorem addWaiter_hung (w : Waiter) (s : State) : (addWaiter w s).hung = s.hung := rfl
@[simp] theorem addWaiter_ret (w : Waiter) (s : State) : (addWaiter w s).ret = s.ret := rfl
@[simp] theorem addWaiter_requests (w : Waiter) (s : State) : (addWaiter w s).requests = s.requests := rfl
@[simp] theorem addWaiter_rx (w : Waiter) (s : State) : (addWaiter w s).rx = s.rx := rfl
@[simp] theorem addWaiter_tick (w : Waiter) (s : State) : (addWaiter w s).tick = s.tick := rfl
@[simp] theorem addWaiter_tickAdv (w : Waiter) (s : State) : (addWaiter w s).tickAdv = s.tickAdv := rfl
@[simp] theorem addWaiter_cd (w : Waiter) (s : State) : (addWaiter w s).cd = s.cd := rfl
@[simp] theorem addWaiter_wp (w : Waiter) (s : State) : (addWaiter w s).wp = s.wp := rfl
@[simp] theorem addWaiter_fires (w : Waiter) (s : State) : (addWaiter w s).fires = s.fires := rfl
@[simp] theorem addWaiter_contend (w : Waiter) (s : State) : (addWaiter w s).contend = s.contend := rfl
@[simp] theorem addWaiter_others (w : Waiter) (s : State) : (addWaiter w s).others = s.others := rfl
@[simp] theorem addWaiter_turns (w : Waiter) (s : State) : (addWaiter w s).turns = s.turns := rfl
@[simp] theorem addWaiter_free (w : Waiter) (s : State) : (addWaiter w s).free = s.free := rfl
@[simp] theorem addWaiter_events (w : Waiter) (s : State) : (addWaiter w s).events = s.events := rfl
@[simp] theorem addWaiter_path (w : Waiter) (s : State) : (addWaiter w s).path = s.path := rfl

/-! ### With no call of another thread in between -/

theorem meanwhile_quiet {s : State} (h : s.others = []) : meanwhile s = s := by
  unfold meanwhile takeOthers
  split
  · rfl
  · rename_i e; rw [h] at e; cases e

theorem emit_quiet {s : State} (e : Event) (h : s.others = []) : emit e s = { s with events := e :: s.events } := by
  unfold emit record
  rw [meanwhile_quiet h]

theorem xchgGiven_quiet {s : State} (tx rx : Byte) (h : s.others = []) :
    xchgGiven tx rx s = { s with events := .xchg tx rx :: s.events } := emit_quiet _ h

theorem xchg_quiet {s : State} (tx : Byte) (h : s.others = []) :
    xchg tx s = (s.rx.pop.1, { s with rx := s.rx.pop.2, events := .xchg tx s.rx.pop.1 :: s.events }) :=
  congrArg (Prod.mk _) (emit_quiet (s := { s with rx := s.rx.pop.2 }) _ h)

theorem send_quiet {s : State} (tx : Byte) (h : s.others = []) :
    send tx s = { s with rx := s.rx.pop.2, events := .xchg tx s.rx.pop.1 :: s.events } :=
  congrArg Prod.snd (xchg_quiet tx h)

theorem driveCs_quiet {s : State} (l : ChipSelect) (h : s.others = []) :
    driveCs l s = { s with cs := l, events := .cs l :: s.events } := emit_quiet (s := { s with cs := l }) _ h

theorem deselect_quiet {s : State} (h : s.others = []) :
    deselect s = { s with
      cs := .deasserted, rx := s.rx.pop.2
      events := .xchg s.cfg.dummy s.rx.pop.1 :: .cs .deasserted :: s.events } := by
  unfold deselect; rw [driveCs_quiet _ h]; exact send_quiet _ h

theorem now_quiet {s : State} (h : s.others = []) :
    (now s).2 = { s with tick := (now s).1, tickAdv := s.tickAdv.pop.2, events := .now (now s).1 :: s.events } :=
  emit_quiet (s := { s with tick := (now s).1, tickAdv := s.tickAdv.pop.2 }) _ h

theorem startWindow_quiet {s : State} (d : U32) (h : s.others = []) :
    (startWindow d s).2 = { s with
      tick := (now s).1, tickAdv := s.tickAdv.pop.2, events := .now (now s).1 :: s.events, wins := ⟨(now s).1, d⟩ :: s.wins } :=
  congrArg (fun u : State => { u with wins := ⟨(now s).1, d⟩ :: s.wins }) (now_quiet h)

theorem delay_quiet {s : State} (ms : Nat) (h : s.others = []) : delay ms s = { s with events := .delay ms :: s.events } :=
  emit_quiet _ h

/-- A reading of the tick counter and the delay after it, as a poll makes them. -/
theorem delay_now_quiet {s : State} (ms : Nat) (h : s.others = []) :
    delay ms (now s).2 = { s with
      tick := (now s).1, tickAdv := s.tickAdv.pop.2, events := .delay ms :: .now (now s).1 :: s.events } := by
  rw [now_quiet h]; exact delay_quiet ms h

/-! ### Values -/

@[simp] theorem meanwhile_notInitialized (s : State) : (meanwhile s).status.notInitialized = s.status.notInitialized := rfl
@[simp] theorem emit_notInitialized (e : Event) (s : State) : (emit e s).status.notInitialized = s.status.notInitialized := rfl
@[simp] theorem emit_events (e : Event) (s : State) : (emit e s).events = e :: (meanwhile s).events := rfl

@[simp] theorem xchg_fst (tx : Byte) (s : State) : (xchg tx s).1 = s.rx.pop.1 := rfl
@[simp] theorem now_fst (s : State) : (now s).1 = (s.tick + s.tickAdv.pop.1) % tickModulus s.cfg := rfl
@[simp] theorem expired_snd (w : Window) (s : State) : (expired w s).2 = (now s).2 := rfl
@[simp] theorem startWindow_snd (d : U32) (s : State) :
    (startWindow d s).2 = { (now s).2 with wins := ⟨(now s).1, d⟩ :: s.wins } := rfl
@[simp] theorem startWindow_fst (d : U32) (s : State) : (startWindow d s).1 = ⟨(now s).1, d⟩ := rfl
@[simp] theorem pop_cons {α : Type} (a r : α) (t : List α) : Feed.pop ⟨a :: t, r⟩ = (a, ⟨t, r⟩) := rfl
@[simp] theorem pop_nil {α : Type} (r : α) : Feed.pop ⟨[], r⟩ = (r, ⟨[], r⟩) := rfl

end Sys2Proof.Machine
end

