-- ==== Sys2Proof/Laws/Frames.lean ====
section
/-! SUPPORT. What each shared operation can do, said once: the fields it may change, and that it keeps the data part of the
invariant. `Res.All Q x` says that `x` leaves a state with `Q`, whether it returned or waits for ever. -/

namespace Sys2Proof.Machine

set_option Elab.async false

open Sys2Proof

/-! ### Rules for `Res` -/

/-- Every state `x` can leave has `Q`. -/
def Res.All {α : Type} (Q : State → Prop) (x : Res α) : Prop :=
  match x with
  | .ok _ s => Q s
  | .hang _ s => Q s
  | .fault _ => True
  | .refuse _ => True

theorem Res.all_mono {α : Type} {Q Q' : State → Prop} {x : Res α} (h : x.All Q) (hq : ∀ s, Q s → Q' s) : x.All Q' := by
  cases x <;> simp only [Res.All] at * <;> exact hq _ h

theorem Res.all_bind {α β : Type} {Q Q' : State → Prop} {x : Res α} {f : α → State → Res β} (hx : x.All Q)
    (hf : ∀ a t, Q t → (f a t).All Q') (hq : ∀ t, Q t → Q' t) : (x.bind f).All Q' := by
  cases x with
  | ok a s => exact hf a s hx
  | hang w s => exact hq s hx
  | fault e => trivial
  | refuse r => trivial

/-- The rule for a relation between the state before and the states after. -/
theorem Res.all_seq {α β : Type} {R : State → State → Prop} (tr : ∀ {a b c}, R a b → R b c → R a c) {s : State} {x : Res α}
    {f : α → State → Res β} (hx : x.All (R s)) (hf : ∀ a t, (f a t).All (R t)) : (x.bind f).All (R s) :=
  Res.all_bind hx (fun a t ht => Res.all_mono (hf a t) (fun _ h => tr ht h)) (fun _ h => h)

@[simp] theorem Res.bind_ok {α β : Type} (a : α) (s : State) (f : α → State → Res β) : (Res.ok a s).bind f = f a s := rfl
@[simp] theorem Res.bind_hang {α β : Type} (w : Hang) (s : State) (f : α → State → Res β) :
    (Res.hang w s : Res α).bind f = .hang w s := rfl
@[simp] theorem Res.bind_fault {α β : Type} (e : Fault) (f : α → State → Res β) :
    (Res.fault e : Res α).bind f = .fault e := rfl
@[simp] theorem Res.bind_refuse {α β : Type} (r : Refusal) (f : α → State → Res β) :
    (Res.refuse r : Res α).bind f = .refuse r := rfl

/-- What `exec` leaves when it wraps a primitive: the primitive's state with its value, or the wait that never ends. -/
theorem Res.outcome_next {α : Type} {f : α → RetVal} {x : Res α} {t : State} (h : Res.outcome f x = .next t) :
    (∃ a s, x = .ok a s ∧ t = { s with ret := f a }) ∨
      (∃ w s, x = .hang w s ∧ t = { s with hung := some ⟨w, s.me, none⟩ }) := by
  cases x with
  | ok a s => left; exact ⟨a, s, rfl, by simpa [Res.outcome] using h.symm⟩
  | hang w s => right; exact ⟨w, s, rfl, by simpa [Res.outcome] using h.symm⟩
  | fault e => simp [Res.outcome] at h
  | refuse r => simp [Res.outcome] at h

/-- What a host call leaves: the return to the host, or the wait that never ends. -/
theorem Res.callOutcome_next {c : Call} {x : Res HostReturn} {t : State} (h : x.callOutcome c = .next t) :
    (∃ v s, x = .ok v s ∧ t = returnToHost v s) ∨ (∃ w s, x = .hang w s ∧ t = { s with hung := some ⟨w, s.me, some c⟩ }) := by
  cases x with
  | ok v s => left; exact ⟨v, s, rfl, by simpa [Res.callOutcome] using h.symm⟩
  | hang w s => right; exact ⟨w, s, rfl, by simpa [Res.callOutcome] using h.symm⟩
  | fault e => simp [Res.callOutcome] at h
  | refuse r => simp [Res.callOutcome] at h

/-! ### The data part of the invariant -/

/-- The clauses of `Inv` about data that the link operations write. -/
def DataInv (s : State) : Prop :=
  s.mem.wf = true ∧ s.n.toNat ≤ 10 ∧ s.tick < tickModulus s.cfg ∧ (s.engine.isSome = true → pendingHere s = true)

theorem tickModulus_pos (c : Config) : 0 < tickModulus c := Nat.two_pow_pos _

/-- What every operation inside a body keeps besides its frame. -/
def steady (s t : State) : Prop :=
  t.ret = s.ret ∧ t.hung = s.hung ∧ (DataInv s → DataInv t) ∧ (s.seq ≠ .idle → t.seq ≠ .idle) ∧ (HostCalls s → HostCalls t)

theorem steady.refl (s : State) : steady s s := ⟨rfl, rfl, id, id, id⟩

theorem steady.trans {s t u : State} (h : steady s t) (k : steady t u) : steady s u :=
  ⟨k.1.trans h.1, k.2.1.trans h.2.1, k.2.2.1 ∘ h.2.2.1, k.2.2.2.1 ∘ h.2.2.2.1, k.2.2.2.2 ∘ h.2.2.2.2⟩

theorem steady.hung {s t : State} (h : steady s t) : t.hung = s.hung := h.2.1
theorem steady.data {s t : State} (h : steady s t) : DataInv s → DataInv t := h.2.2.1
theorem steady.seq {s t : State} (h : steady s t) : s.seq ≠ .idle → t.seq ≠ .idle := h.2.2.2.1
theorem steady.calls {s t : State} (h : steady s t) : HostCalls s → HostCalls t := h.2.2.2.2

/-! ### Calls of other threads -/

/-- An update that touches none of what other threads can write. -/
theorem heard.same {s t : State}
    (h : (t.status, t.cd, t.wp, t.hostOut, t.waiters, t.early, t.others) =
      (s.status, s.cd, s.wp, s.hostOut, s.waiters, s.early, s.others)) :
    heard s t := by
  simp only [Prod.mk.injEq] at h
  obtain ⟨h1, h2, h3, h4, h5, h6, h7⟩ := h
  exact ⟨⟨[], by rw [h5, List.append_nil]⟩, fun q => ⟨h1, h2, h3, h4, h5, h6, h7.trans q⟩⟩

theorem heard.refl (s : State) : heard s s := heard.same rfl

theorem heard.trans {s t u : State} (h : heard s t) (k : heard t u) : heard s u := by
  obtain ⟨⟨x, hx⟩, h⟩ := h
  obtain ⟨⟨y, hy⟩, k⟩ := k
  refine ⟨⟨x ++ y, by rw [hy, hx, List.append_assoc]⟩, fun q => ?_⟩
  obtain ⟨h1, h2, h3, h4, h5, h6, h7⟩ := h q
  obtain ⟨k1, k2, k3, k4, k5, k6, k7⟩ := k h7
  exact ⟨k1.trans h1, k2.trans h2, k3.trans h3, k4.trans h4, k5.trans h5, k6.trans h6, k7⟩

/-- Who waits for the lock or may come to it waits with a host operation. -/
def lockCalls (s : State) : Prop := (∀ w ∈ s.waiters, w.call ≠ .bareLock) ∧ ∀ e ∈ s.early, e.call ≠ some .bareLock

/-- What a move of another thread can do to the free input, nothing, and to the waiting threads: add some behind. -/
def movesCalls (s t : State) : Prop := t.others = s.others ∧ ∃ new, t.waiters = s.waiters ++ new

theorem movesCalls.refl (s : State) : movesCalls s s := ⟨rfl, [], by simp⟩
theorem movesCalls.trans {s t u : State} (h : movesCalls s t) (k : movesCalls t u) : movesCalls s u := by
  obtain ⟨h, x, hx⟩ := h
  obtain ⟨k, y, hy⟩ := k
  exact ⟨k.trans h, x ++ y, by rw [hy, hx, List.append_assoc]⟩

theorem mem_putEarly {e x : Early} {s : State} (h : x ∈ (putEarly e s).early) : x = e ∨ x ∈ s.early := by
  simp only [putEarly, List.mem_cons, List.mem_filter] at h
  tauto

/-- The next statement of a call's early part. -/
theorem earlyStatement_calls (e : Early) (s : State) :
    movesCalls s (earlyStatement e s) ∧ (e.call ≠ some .bareLock → lockCalls s → lockCalls (earlyStatement e s)) := by
  rcases e with ⟨t, c, d, w⟩
  unfold earlyStatement
  dsimp only
  split
  · refine ⟨⟨?_, [], ?_⟩, fun hc h => ⟨?_, fun x hx => ?_⟩⟩
    · simp [sampleDisk, putEarly, readCd]; split <;> rfl
    · simp [sampleDisk, putEarly, readCd]; split <;> rfl
    · simpa [sampleDisk, putEarly, readCd, apply_ite State.waiters] using h.1
    · rcases mem_putEarly hx with rfl | hx
      · exact hc
      · exact h.2 x (by simpa [readCd, apply_ite State.early] using hx)
  · refine ⟨⟨?_, [], ?_⟩, fun hc h => ⟨?_, fun x hx => ?_⟩⟩
    · simp [sampleProtect, putEarly, readWp]; split <;> rfl
    · simp [sampleProtect, putEarly, readWp]; split <;> rfl
    · simpa [sampleProtect, putEarly, readWp, apply_ite State.waiters] using h.1
    · rcases mem_putEarly hx with rfl | hx
      · exact hc
      · exact h.2 x (by simpa [readWp, apply_ite State.early] using hx)
  · have hend : ∀ v, movesCalls s (otherReturns t v (endEarly t s)) ∧
        (lockCalls s → lockCalls (otherReturns t v (endEarly t s))) := fun v =>
      ⟨⟨rfl, [], by simp [otherReturns, record, endEarly]⟩, fun h => ⟨h.1, fun x hx => h.2 x (List.mem_filter.1 hx).1⟩⟩
    unfold endOfEarly
    dsimp only
    split
    · exact ⟨(hend _).1, fun _ => (hend _).2⟩
    · rename_i c
      split
      · exact ⟨(hend _).1, fun _ => (hend _).2⟩
      · refine ⟨⟨rfl, [⟨t, c⟩], rfl⟩, fun hc h => ⟨fun x hx => ?_, fun x hx => h.2 x (List.mem_filter.1 hx).1⟩⟩
        rcases List.mem_append.1 hx with hx | hx
        · exact h.1 x hx
        · rw [List.mem_singleton.1 hx]
          exact fun k => hc (congrArg some k)

/-- One move of another thread. -/
theorem otherMove_calls (v : OtherMove) (s : State) :
    movesCalls s (otherMove v s) ∧
      (v.isLock = false → lockCalls s → lockCalls (otherMove v s)) := by
  cases v with
  | call t c =>
    unfold otherMove
    dsimp only
    split
    · split
      · rename_i hc
        exact ⟨⟨rfl, _, rfl⟩, fun k => by simp [OtherMove.isLock, hc] at k⟩
      · rename_i hc
        refine ⟨⟨rfl, [], by simp [putEarly]⟩, fun _ h => ⟨h.1, fun x hx => ?_⟩⟩
        rcases mem_putEarly hx with rfl | hx
        · exact hc
        · exact h.2 x hx
    · exact ⟨movesCalls.refl s, fun _ => id⟩
  | go t =>
    unfold otherMove
    dsimp only
    split
    · rename_i e he
      exact ⟨(earlyStatement_calls e s).1, fun _ h =>
        (earlyStatement_calls e s).2 (h.2 e (List.mem_of_find?_eq_some he)) h⟩
    · exact ⟨movesCalls.refl s, fun _ => id⟩

/-- Several moves, one after another. -/
theorem otherMoves_calls (vs : List OtherMove) (s : State) :
    movesCalls s (otherMoves vs s) ∧
      ((∀ v ∈ vs, v.isLock = false) → lockCalls s → lockCalls (otherMoves vs s)) := by
  induction vs generalizing s with
  | nil => exact ⟨movesCalls.refl s, fun _ => id⟩
  | cons v vs ih =>
    obtain ⟨h, hc⟩ := otherMove_calls v s
    obtain ⟨k, kc⟩ := ih (otherMove v s)
    exact ⟨h.trans k, fun hv hs => kc (fun x hx => hv x (List.mem_cons_of_mem _ hx)) (hc (hv v (by simp)) hs)⟩

theorem takeOthers_waiters (s : State) :
    (∃ new, (takeOthers s).waiters = s.waiters ++ new) ∧ (HostCalls s → HostCalls (takeOthers s)) := by
  unfold takeOthers
  split
  · exact ⟨⟨[], by simp⟩, id⟩
  · rename_i vs rest e
    obtain ⟨⟨h0, h1⟩, h2⟩ := otherMoves_calls vs { s with others := rest }
    refine ⟨h1, fun k => ?_⟩
    obtain ⟨ka, kb⟩ := h2 (k.2.2 vs (by rw [e]; simp)) ⟨k.1, k.2.1⟩
    exact ⟨ka, kb, fun ws hws => k.2.2 ws (by rw [e]; rw [h0] at hws; exact List.mem_cons_of_mem _ hws)⟩

theorem meanwhile_heard (s : State) : heard s (meanwhile s) :=
  ⟨(takeOthers_waiters s).1, fun q => by rw [meanwhile_quiet q]; exact ⟨rfl, rfl, rfl, rfl, rfl, rfl, q⟩⟩

theorem meanwhile_steady (s : State) : steady s (meanwhile s) :=
  ⟨rfl, rfl, id, id, (takeOthers_waiters s).2⟩

/-! ### Frames compose -/

/-- What happens to the state between `Lock` and the exit sequence of `read` and `write`. -/
def ioFrame (s t : State) : Prop :=
  t = { s with
    cs := t.cs, cause := t.cause, wins := t.wins, rx := t.rx, tick := t.tick, tickAdv := t.tickAdv,
    events := t.events, ret := t.ret, hung := t.hung, fr := t.fr, r1 := t.r1, n := t.n,
    tok := t.tok, csd := t.csd, mem := t.mem, pending := t.pending, engine := t.engine, fires := t.fires,
    off := t.off, remaining := t.remaining, addr := t.addr, bufBase := t.bufBase, seq := t.seq, path := t.path,
    status := { s.status with noDisk := t.status.noDisk, writeProtected := t.status.writeProtected },
    cd := t.cd, wp := t.wp, hostOut := t.hostOut, waiters := t.waiters, early := t.early, others := t.others }
    ∧ heard s t

/-- The same for the probe up to the recording of its outcome: no data block, but trailing bytes. -/
def bodyFrame (s t : State) : Prop :=
  t = { s with
    cs := t.cs, cause := t.cause, wins := t.wins, rx := t.rx, tick := t.tick, tickAdv := t.tickAdv,
    events := t.events, ret := t.ret, hung := t.hung, fr := t.fr, r1 := t.r1, n := t.n, ocr := t.ocr,
    seq := t.seq, path := t.path,
    status := { s.status with noDisk := t.status.noDisk, writeProtected := t.status.writeProtected },
    cd := t.cd, wp := t.wp, hostOut := t.hostOut, waiters := t.waiters, early := t.early, others := t.others }
    ∧ heard s t

theorem linkFrame.trans {s t u : State} (h : linkFrame s t) (k : linkFrame t u) : linkFrame s u := by
  exact ⟨by obtain ⟨h, -⟩ := h; obtain ⟨k, -⟩ := k; rw [k, h], h.2.trans k.2⟩
theorem commandFrame.trans {s t u : State} (h : commandFrame s t) (k : commandFrame t u) : commandFrame s u := by
  exact ⟨by obtain ⟨h, -⟩ := h; obtain ⟨k, -⟩ := k; rw [k, h], h.2.trans k.2⟩
theorem trailingFrame.trans {s t u : State} (h : trailingFrame s t) (k : trailingFrame t u) : trailingFrame s u := by
  exact ⟨by obtain ⟨h, -⟩ := h; obtain ⟨k, -⟩ := k; rw [k, h], h.2.trans k.2⟩
theorem blockOutFrame.trans {s t u : State} (h : blockOutFrame s t) (k : blockOutFrame t u) : blockOutFrame s u := by
  exact ⟨by obtain ⟨h, -⟩ := h; obtain ⟨k, -⟩ := k; rw [k, h], h.2.trans k.2⟩
theorem blockInFrame.trans {s t u : State} (h : blockInFrame s t) (k : blockInFrame t u) : blockInFrame s u := by
  exact ⟨by obtain ⟨h, -⟩ := h; obtain ⟨k, -⟩ := k; rw [k, h], h.2.trans k.2⟩
theorem bodyFrame.trans {s t u : State} (h : bodyFrame s t) (k : bodyFrame t u) : bodyFrame s u := by
  exact ⟨by obtain ⟨h, -⟩ := h; obtain ⟨k, -⟩ := k; rw [k, h], h.2.trans k.2⟩

theorem ioFrame.trans {s t u : State} (h : ioFrame s t) (k : ioFrame t u) : ioFrame s u := by
  exact ⟨by obtain ⟨h, -⟩ := h; obtain ⟨k, -⟩ := k; rw [k, h], h.2.trans k.2⟩

theorem linkFrame.command {s t : State} (h : linkFrame s t) : commandFrame s t := by
  exact ⟨by obtain ⟨h, -⟩ := h; rw [h], h.2⟩
theorem commandFrame.trailing {s t : State} (h : commandFrame s t) : trailingFrame s t := by
  exact ⟨by obtain ⟨h, -⟩ := h; rw [h], h.2⟩
theorem commandFrame.out {s t : State} (h : commandFrame s t) : blockOutFrame s t := by
  exact ⟨by obtain ⟨h, -⟩ := h; rw [h], h.2⟩
theorem commandFrame.inp {s t : State} (h : commandFrame s t) : blockInFrame s t := by
  exact ⟨by obtain ⟨h, -⟩ := h; rw [h], h.2⟩
theorem trailingFrame.body {s t : State} (h : trailingFrame s t) : bodyFrame s t := by
  exact ⟨by obtain ⟨h, -⟩ := h; rw [h], h.2⟩
theorem blockOutFrame.io {s t : State} (h : blockOutFrame s t) : ioFrame s t := by
  exact ⟨by obtain ⟨h, -⟩ := h; rw [h], h.2⟩
theorem blockInFrame.io {s t : State} (h : blockInFrame s t) : ioFrame s t := by
  exact ⟨by obtain ⟨h, -⟩ := h; rw [h], h.2⟩

/-- A frame together with what is steady. -/
def linkStep (s t : State) : Prop := linkFrame s t ∧ steady s t
/-- The same for a command. -/
def commandStep (s t : State) : Prop := commandFrame s t ∧ steady s t
/-- The same for a command with trailing bytes. -/
def trailingStep (s t : State) : Prop := trailingFrame s t ∧ steady s t
/-- The same for a data block out. -/
def outStep (s t : State) : Prop := blockOutFrame s t ∧ steady s t
/-- The same for a data block in. -/
def inpStep (s t : State) : Prop := blockInFrame s t ∧ steady s t
/-- The same for the bodies of `read` and `write`. -/
def ioStep (s t : State) : Prop := ioFrame s t ∧ steady s t
/-- The same for the probe. -/
def bodyStep (s t : State) : Prop := bodyFrame s t ∧ steady s t

theorem linkStep.trans {s t u : State} (h : linkStep s t) (k : linkStep t u) : linkStep s u :=
  ⟨h.1.trans k.1, h.2.trans k.2⟩
theorem commandStep.trans {s t u : State} (h : commandStep s t) (k : commandStep t u) : commandStep s u :=
  ⟨h.1.trans k.1, h.2.trans k.2⟩
theorem trailingStep.trans {s t u : State} (h : trailingStep s t) (k : trailingStep t u) : trailingStep s u :=
  ⟨h.1.trans k.1, h.2.trans k.2⟩
theorem outStep.trans {s t u : State} (h : outStep s t) (k : outStep t u) : outStep s u := ⟨h.1.trans k.1, h.2.trans k.2⟩
theorem inpStep.trans {s t u : State} (h : inpStep s t) (k : inpStep t u) : inpStep s u := ⟨h.1.trans k.1, h.2.trans k.2⟩
theorem ioStep.trans {s t u : State} (h : ioStep s t) (k : ioStep t u) : ioStep s u := ⟨h.1.trans k.1, h.2.trans k.2⟩
theorem bodyStep.trans {s t u : State} (h : bodyStep s t) (k : bodyStep t u) : bodyStep s u :=
  ⟨h.1.trans k.1, h.2.trans k.2⟩

theorem linkStep.command {s t : State} (h : linkStep s t) : commandStep s t := ⟨h.1.command, h.2⟩
theorem commandStep.trailing {s t : State} (h : commandStep s t) : trailingStep s t := ⟨h.1.trailing, h.2⟩
theorem commandStep.out {s t : State} (h : commandStep s t) : outStep s t := ⟨h.1.out, h.2⟩
theorem commandStep.inp {s t : State} (h : commandStep s t) : inpStep s t := ⟨h.1.inp, h.2⟩
theorem trailingStep.body {s t : State} (h : trailingStep s t) : bodyStep s t := ⟨h.1.body, h.2⟩
theorem outStep.io {s t : State} (h : outStep s t) : ioStep s t := ⟨h.1.io, h.2⟩
theorem inpStep.io {s t : State} (h : inpStep s t) : ioStep s t := ⟨h.1.io, h.2⟩
theorem commandStep.io {s t : State} (h : commandStep s t) : ioStep s t := h.out.io
theorem commandStep.body {s t : State} (h : commandStep s t) : bodyStep s t := h.trailing.body
theorem linkStep.body {s t : State} (h : linkStep s t) : bodyStep s t := h.command.body

theorem linkStep.refl (s : State) : linkStep s s := ⟨⟨rfl, heard.refl s⟩, steady.refl s⟩
theorem commandStep.refl (s : State) : commandStep s s := (linkStep.refl s).command
theorem trailingStep.refl (s : State) : trailingStep s s := (commandStep.refl s).trailing
theorem outStep.refl (s : State) : outStep s s := (commandStep.refl s).out
theorem inpStep.refl (s : State) : inpStep s s := (commandStep.refl s).inp
theorem ioStep.refl (s : State) : ioStep s s := (commandStep.refl s).io
theorem bodyStep.refl (s : State) : bodyStep s s := (linkStep.refl s).body

theorem linkStep.quiet {s t : State} (h : linkStep s t) (hq : quiet s) : quiet t := (h.1.2.2 hq).2.2.2.2.2.2
theorem commandStep.quiet {s t : State} (h : commandStep s t) (hq : quiet s) : quiet t := (h.1.2.2 hq).2.2.2.2.2.2
theorem outStep.quiet {s t : State} (h : outStep s t) (hq : quiet s) : quiet t := (h.1.2.2 hq).2.2.2.2.2.2
theorem inpStep.quiet {s t : State} (h : inpStep s t) (hq : quiet s) : quiet t := (h.1.2.2 hq).2.2.2.2.2.2

/-! ### Single statements -/

theorem meanwhile_step (s : State) : linkStep s (meanwhile s) := ⟨⟨rfl, meanwhile_heard s⟩, meanwhile_steady s⟩
theorem emit_step (e : Event) (s : State) : linkStep s (emit e s) := ⟨⟨rfl, meanwhile_heard s⟩, meanwhile_steady s⟩
theorem setRx_step (f : Feed Byte) (s : State) : linkStep s { s with rx := f } :=
  ⟨⟨rfl, heard.same rfl⟩, rfl, rfl, id, id, id⟩
theorem setCs_step (l : ChipSelect) (s : State) : linkStep s { s with cs := l } :=
  ⟨⟨rfl, heard.same rfl⟩, rfl, rfl, id, id, id⟩
theorem setWins_step (w : List Window) (s : State) : linkStep s { s with wins := w } :=
  ⟨⟨rfl, heard.same rfl⟩, rfl, rfl, id, id, id⟩

theorem xchg_step (b : Byte) (s : State) : linkStep s (xchg b s).2 := (setRx_step _ s).trans (emit_step _ _)
theorem send_step (b : Byte) (s : State) : linkStep s (send b s) := xchg_step b s
theorem driveCs_step (l : ChipSelect) (s : State) : linkStep s (driveCs l s) := (setCs_step l s).trans (emit_step _ _)
theorem deselect_step (s : State) : linkStep s (deselect s) := (driveCs_step _ s).trans (send_step _ _)
theorem delay_step (ms : Nat) (s : State) : linkStep s (delay ms s) := emit_step _ s
theorem raise_step (c : Cause) (s : State) : linkStep s (raise c s) := ⟨⟨rfl, heard.same rfl⟩, rfl, rfl, id, id, id⟩
theorem closeWindow_step (s : State) : linkStep s (closeWindow s) := setWins_step _ s

theorem now_step (s : State) : linkStep s (now s).2 :=
  (show linkStep s { s with tick := (now s).1, tickAdv := s.tickAdv.pop.2 } from
    ⟨⟨rfl, heard.same rfl⟩, rfl, rfl, fun h => ⟨h.1, h.2.1, Nat.mod_lt _ (tickModulus_pos _), h.2.2.2⟩, id, id⟩).trans
    (emit_step _ _)

theorem startWindow_step (d : U32) (s : State) : linkStep s (startWindow d s).2 := (now_step s).trans (setWins_step _ _)

theorem expired_step (w : Window) (s : State) : linkStep s (expired w s).2 := now_step s

theorem enter_io {q : Seq} (hq : q ≠ .idle) (s : State) : ioStep s (enter q s) :=
  ⟨⟨rfl, heard.same rfl⟩, rfl, rfl, id, fun _ => hq, id⟩
theorem enter_step {q : Seq} (hq : q ≠ .idle) (s : State) : bodyStep s (enter q s) :=
  ⟨⟨rfl, heard.same rfl⟩, rfl, rfl, id, fun _ => hq, id⟩

theorem visit_io (b : Bool) {q : Seq} (hq : q ≠ .idle) (s : State) : ioStep s (visit b q s) := by
  unfold visit; split
  · exact enter_io hq s
  · exact ioStep.refl s
theorem visit_step (b : Bool) {q : Seq} (hq : q ≠ .idle) (s : State) : bodyStep s (visit b q s) := by
  unfold visit; split
  · exact enter_step hq s
  · exact bodyStep.refl s

theorem sendDummies_step (k : Nat) (s : State) : linkStep s (sendDummies k s) := by
  induction k generalizing s with
  | zero => exact linkStep.refl s
  | succ j ih => exact (send_step _ s).trans (ih _)

theorem sendAll_step (bs : List Byte) (s : State) : linkStep s (sendAll bs s) := by
  induction bs generalizing s with
  | nil => exact linkStep.refl s
  | cons b t ih => exact (send_step b s).trans (ih _)

/-! ### waitReady, select -/

theorem waitReadyLoop_step (k : Nat) (w : Window) (s : State) : (waitReadyLoop k w s).All (linkStep s) := by
  induction k generalizing s with
  | zero => exact linkStep.refl s
  | succ j ih =>
    have h1 := xchg_step s.cfg.dummy s
    simp only [waitReadyLoop]
    split
    · exact h1
    · have h2 := h1.trans (expired_step w _)
      split
      · exact h2.trans (raise_step _ _)
      · have h3 := h2.trans (delay_step s.cfg.pollDelayMs _)
        split
        · exact h3
        · exact Res.all_mono (ih _) (fun _ h => h3.trans h)

theorem waitReady_step (ms : U32) (s : State) : (waitReady ms s).All (linkStep s) :=
  Res.all_bind (Res.all_mono (waitReadyLoop_step _ _ _) (fun _ h => (startWindow_step ms s).trans h))
    (fun _ t h => h.trans (closeWindow_step t)) (fun _ h => h)

theorem select_step (s : State) : (select s).All (linkStep s) := by
  refine Res.all_bind (Res.all_mono (waitReady_step _ _) (fun _ h =>
    ((driveCs_step .asserted s).trans (send_step _ _)).trans h)) (fun a t h => ?_) (fun _ h => h)
  split
  · exact h
  · exact h.trans (deselect_step t)

/-! ### sendCommand -/

theorem takeResponse_step (b : Byte) (s : State) : commandStep s (takeResponse b s) := by
  refine ⟨⟨rfl, heard.same rfl⟩, rfl, rfl, fun h => ⟨h.1, ?_, h.2.2⟩, id, id⟩
  have hn : s.n.toNat ≤ 10 := h.2.1
  simp only [takeResponse_n]
  split
  · simp
  · rename_i h0
    have hne : s.n.toNat ≠ 0 := fun h => h0 (BitVec.eq_of_toNat_eq (by simpa using h))
    have hs : (s.n - 1#4).toNat = s.n.toNat - 1 := by
      rw [BitVec.toNat_sub_of_le]
      · rfl
      · show (1#4).toNat ≤ s.n.toNat
        simp; omega
    omega

theorem pollResponse_step (k : Nat) (s : State) : commandStep s (pollResponse k s) := by
  induction k generalizing s with
  | zero => exact commandStep.refl s
  | succ j ih =>
    have h := (xchg_step s.cfg.dummy s).command.trans (takeResponse_step (xchg s.cfg.dummy s).1 _)
    simp only [pollResponse]
    split
    · exact h
    · exact h.trans (ih _)

theorem setFrame_step (f : CommandFrame) (s : State) : commandStep s { s with fr := f } := ⟨⟨rfl, heard.same rfl⟩, rfl, rfl, id, id, id⟩

theorem setPolls_step (s : State) : commandStep s { s with n := BitVec.ofNat 4 cmdResponsePolls } :=
  ⟨⟨rfl, heard.same rfl⟩, rfl, rfl,
    fun h => ⟨h.1, by show (BitVec.ofNat 4 cmdResponsePolls).toNat ≤ 10; decide, h.2.2⟩, id, id⟩

theorem frameAndPoll_step (idx : Byte) (arg : U32) (s : State) : commandStep s (frameAndPoll idx arg s) := by
  have h1 := (setFrame_step ⟨idx, arg, trailer s.cfg idx⟩ s).trans (sendAll_step (frameBytes s.cfg idx arg) _).command
  have h2 := h1.trans (show commandStep _ (if idx = s.cfg.stopCmdIndex then _ else _) by
    split
    · exact (send_step s.cfg.dummy _).command
    · exact commandStep.refl _)
  exact (h2.trans (setPolls_step _)).trans (pollResponse_step _ _)

theorem sendPlain_step (idx : Byte) (arg : U32) (s : State) : (sendPlain idx arg s).All (commandStep s) := by
  unfold sendPlain
  split
  · split
    · trivial
    · exact frameAndPoll_step idx arg s
  · refine Res.all_bind (Res.all_mono (select_step _) (fun _ h => (deselect_step s).command.trans h.command))
      (fun a t h => ?_) (fun _ h => h)
    split
    · exact h.trans (frameAndPoll_step idx arg t)
    · exact h.trans ⟨⟨rfl, heard.same rfl⟩, rfl, rfl, id, id, id⟩

theorem sendCommand_step (idx : Byte) (arg : U32) (s : State) : (sendCommand idx arg s).All (commandStep s) := by
  unfold sendCommand
  split
  · trivial
  · split
    · refine Res.all_seq (R := commandStep) commandStep.trans (sendPlain_step _ _ s) (fun r t => ?_)
      split
      · exact sendPlain_step _ _ t
      · exact commandStep.refl t
    · exact sendPlain_step _ _ s

/-! ### The transfer bridge -/

theorem pending_get_set (p : Pending) (i v : Bool) : (p.set i v).get i = v := by
  cases i <;> rfl

theorem register_out (t : Transfer) (s : State) :
    outStep s { s with pending := s.pending.set s.cfg.peripheralId true, engine := some t } :=
  ⟨⟨rfl, heard.same rfl⟩, rfl, rfl, fun h => ⟨h.1, h.2.1, h.2.2.1, fun _ => pending_get_set _ _ _⟩, id, id⟩

theorem register_inp (t : Transfer) (s : State) :
    inpStep s { s with pending := s.pending.set s.cfg.peripheralId true, engine := some t } :=
  ⟨⟨rfl, heard.same rfl⟩, rfl, rfl, fun h => ⟨h.1, h.2.1, h.2.2.1, fun _ => pending_get_set _ _ _⟩, id, id⟩

theorem complete_out (s : State) : outStep s (complete s) :=
  (show outStep s { s with pending := s.pending.set s.cfg.peripheralId false, engine := none } from
    ⟨⟨rfl, heard.same rfl⟩, rfl, rfl, fun k => ⟨k.1, k.2.1, k.2.2.1, by simp⟩, id, id⟩).trans (emit_step _ _).command.out

theorem complete_inp (s : State) : inpStep s (complete s) :=
  (show inpStep s { s with pending := s.pending.set s.cfg.peripheralId false, engine := none } from
    ⟨⟨rfl, heard.same rfl⟩, rfl, rfl, fun k => ⟨k.1, k.2.1, k.2.2.1, by simp⟩, id, id⟩).trans (emit_step _ _).command.inp

theorem setFires_out (f : Feed Bool) (s : State) : outStep s { s with fires := f } :=
  ⟨⟨rfl, heard.same rfl⟩, rfl, rfl, id, id, id⟩

theorem setFires_inp (f : Feed Bool) (s : State) : inpStep s { s with fires := f } :=
  ⟨⟨rfl, heard.same rfl⟩, rfl, rfl, id, id, id⟩

theorem startTransfer_out (d : Dir) (pl : Place) (len : Nat) (s : State) : (startTransfer d pl len s).All (outStep s) := by
  unfold startTransfer
  split
  · trivial
  · split
    · trivial
    · exact (register_out _ s).trans (emit_step _ _).command.out

theorem startTransfer_inp (d : Dir) (pl : Place) (len : Nat) (s : State) : (startTransfer d pl len s).All (inpStep s) := by
  unfold startTransfer
  split
  · trivial
  · split
    · trivial
    · exact (register_inp _ s).trans (emit_step _ _).command.inp

theorem placeWrite_step (p : Place) (i : Nat) (v : Byte) (s : State) : inpStep s (placeWrite p i v s) := by
  cases p with
  | buffer off => exact ⟨⟨rfl, heard.same rfl⟩, rfl, rfl, fun h => ⟨Memory.write_wf _ _ h.1, h.2⟩, id, id⟩
  | csd => exact ⟨⟨rfl, heard.same rfl⟩, rfl, rfl, id, id, id⟩

theorem moveOut_step (p : Place) (i k : Nat) (s : State) : linkStep s (moveOut p i k s) := by
  induction k generalizing i s with
  | zero => exact linkStep.refl s
  | succ j ih => exact (send_step _ s).trans (ih _ _)

theorem moveIn_step (p : Place) (i k : Nat) (s : State) : inpStep s (moveIn p i k s) := by
  induction k generalizing i s with
  | zero => exact inpStep.refl s
  | succ j ih => exact ((xchg_step s.cfg.dummy s).command.inp.trans (placeWrite_step p i _ _)).trans (ih _ _)

theorem placeWrite_pending (p : Place) (i : Nat) (v : Byte) (s : State) : (placeWrite p i v s).pending = s.pending := by
  cases p <;> rfl

theorem moveIn_pending (p : Place) (i k : Nat) (s : State) : (moveIn p i k s).pending = s.pending := by
  induction k generalizing i s with
  | zero => rfl
  | succ j ih => exact (ih _ _).trans (placeWrite_pending _ _ _ _)

/-- The frame of what the engine does, outbound. -/
theorem runEngine_out (t : Transfer) (s : State) (ht : t.dir = .out) (h : s.engine.isSome = true) :
    outStep s (runEngine t s).2 := by
  have hm : linkStep s (moveBytes t s) := by simp only [moveBytes, ht]; exact moveOut_step _ _ _ s
  have hb := hm.command.out
  unfold runEngine
  split
  · exact outStep.refl s
  · dsimp only
    have hp : (moveBytes t s).pending = s.pending := by rw [hm.1.1]
    have hc : (moveBytes t s).cfg = s.cfg := by rw [hm.1.1]
    split
    · exact (hb.trans (setFires_out _ _)).trans (complete_out _)
    · refine ⟨hb.1.trans ⟨rfl, heard.same rfl⟩, hb.2.1, hb.2.hung, fun k => ?_, hb.2.seq, hb.2.calls⟩
      have kt := hb.2.data k
      refine ⟨kt.1, kt.2.1, kt.2.2.1, fun _ => ?_⟩
      show (moveBytes t s).pending.get (moveBytes t s).cfg.peripheralId = true
      rw [hp, hc]; exact k.2.2.2 h

/-- The frame of what the engine does, either way. -/
theorem runEngine_inp (t : Transfer) (s : State) (h : s.engine.isSome = true) : inpStep s (runEngine t s).2 := by
  have hb : inpStep s (moveBytes t s) := by
    unfold moveBytes; split
    · exact (moveOut_step _ _ _ s).command.inp
    · exact moveIn_step _ _ _ s
  have hpc : (moveBytes t s).pending = s.pending ∧ (moveBytes t s).cfg = s.cfg := by
    refine ⟨?_, by rw [hb.1.1]⟩
    unfold moveBytes; split
    · rw [(moveOut_step _ _ _ s).1.1]
    · exact moveIn_pending _ _ _ s
  unfold runEngine
  split
  · exact inpStep.refl s
  · dsimp only
    split
    · exact (hb.trans (setFires_inp _ _)).trans (complete_inp _)
    · refine ⟨hb.1.trans ⟨rfl, heard.same rfl⟩, hb.2.1, hb.2.hung, fun k => ?_, hb.2.seq, hb.2.calls⟩
      have kt := hb.2.data k
      refine ⟨kt.1, kt.2.1, kt.2.2.1, fun _ => ?_⟩
      show (moveBytes t s).pending.get (moveBytes t s).cfg.peripheralId = true
      rw [hpc.1, hpc.2]; exact k.2.2.2 h

theorem waitForTransfer_inp (s : State) : (waitForTransfer s).All (inpStep s) := by
  unfold waitForTransfer
  split
  · exact inpStep.refl s
  · split
    · trivial
    · rename_i t ht
      have h := runEngine_inp t s (by simp [ht])
      simp only
      split <;> exact h

theorem transferPayload_inp (d : Dir) (pl : Place) (len : Nat) (s : State) :
    (transferPayload d pl len s).All (inpStep s) :=
  Res.all_seq (R := inpStep) inpStep.trans (startTransfer_inp d pl len s) (fun _ t => waitForTransfer_inp t)

/-- The state in which the engine has just been given a transfer. -/
def started (d : Dir) (pl : Place) (len : Nat) (s : State) : State :=
  emit (.startTransfer d pl len)
    { s with pending := s.pending.set s.cfg.peripheralId true, engine := some ⟨d, pl, len, false⟩ }

theorem started_step (d : Dir) (pl : Place) (len : Nat) (s : State) : outStep s (started d pl len s) :=
  (register_out _ s).trans (emit_step _ _).command.out

theorem started_pending (d : Dir) (pl : Place) (len : Nat) (s : State) : pendingHere (started d pl len s) = true :=
  pending_get_set _ _ _

/-- A payload, where nothing is pending: the engine runs, and the sequencer goes on when it has signalled. -/
theorem transferPayload_eq {d : Dir} {pl : Place} {len : Nat} {s : State} (h : pendingHere s = false)
    (hp : placeHolds pl len = true) :
    transferPayload d pl len s =
      if (runEngine ⟨d, pl, len, false⟩ (started d pl len s)).1 then
        .ok () (runEngine ⟨d, pl, len, false⟩ (started d pl len s)).2
      else .hang .completion (runEngine ⟨d, pl, len, false⟩ (started d pl len s)).2 := by
  have h1 : startTransfer d pl len s = .ok () (started d pl len s) := by simp [startTransfer, h, hp, started]
  unfold transferPayload
  rw [h1]
  simp only [Res.bind_ok, waitForTransfer, started_pending]
  rfl

theorem transferPayload_out (pl : Place) (len : Nat) (s : State) : (transferPayload .out pl len s).All (outStep s) := by
  by_cases h : pendingHere s = false
  · by_cases hp : placeHolds pl len = true
    · have h2 := (started_step .out pl len s).trans (runEngine_out ⟨.out, pl, len, false⟩ (started .out pl len s) rfl rfl)
      rw [transferPayload_eq h hp]
      split <;> exact h2
    · simp [transferPayload, startTransfer, h, hp, Res.All]
  · simp [transferPayload, startTransfer, h, Res.All]

/-! ### Data blocks -/

theorem sendDataBlock_step (off : Nat) (tk : Byte) (s : State) : (sendDataBlock off tk s).All (outStep s) := by
  refine Res.all_seq (R := outStep) outStep.trans (Res.all_mono (waitReady_step _ s) (fun _ h => h.command.out)) (fun a t => ?_)
  simp only
  split
  · exact outStep.refl t
  · split
    · exact (send_step tk t).command.out
    · refine Res.all_bind (Res.all_mono (transferPayload_out _ _ _) (fun _ h => (send_step tk t).command.out.trans h))
        (fun _ u h => ?_) (fun _ h => h)
      have h2 := h.trans (((send_step u.cfg.crcPlaceholder u).trans (send_step u.cfg.crcPlaceholder _)).trans
        (xchg_step (send u.cfg.crcPlaceholder (send u.cfg.crcPlaceholder u)).cfg.dummy _)).command.out
      split
      · exact h2
      · exact h2.trans (raise_step _ _).command.out

theorem setTok_step (b : Byte) (s : State) : inpStep s { s with tok := b } := ⟨⟨rfl, heard.same rfl⟩, rfl, rfl, id, id, id⟩

theorem tokenLoop_step (k : Nat) (w : Window) (s : State) : (tokenLoop k w s).All (inpStep s) := by
  induction k generalizing s with
  | zero => exact inpStep.refl s
  | succ j ih =>
    have h1 := (xchg_step s.cfg.dummy s).command.inp.trans (setTok_step (xchg s.cfg.dummy s).1 _)
    simp only [tokenLoop]
    split
    · exact h1
    · have h2 := h1.trans (expired_step w _).command.inp
      split
      · exact h2.trans (raise_step _ _).command.inp
      · have h3 := h2.trans (delay_step s.cfg.pollDelayMs _).command.inp
        split
        · exact h3
        · exact Res.all_mono (ih _) (fun _ h => h3.trans h)

theorem receiveDataBlock_step (pl : Place) (len : Nat) (s : State) : (receiveDataBlock pl len s).All (inpStep s) := by
  refine Res.all_bind (Res.all_mono (tokenLoop_step _ _ _) (fun _ h => (startWindow_step _ s).command.inp.trans h))
    (fun a t h => ?_) (fun _ h => h)
  have h1 := h.trans (closeWindow_step t).command.inp
  simp only
  split
  · exact h1
  · split
    · exact h1.trans (raise_step _ _).command.inp
    · exact Res.all_bind (Res.all_mono (transferPayload_inp _ _ _ _) (fun _ k => h1.trans k))
        (fun _ u k => k.trans (sendDummies_step 2 u).command.inp) (fun _ k => k)

end Sys2Proof.Machine
end

