-- ==== Sys2Proof/Laws/Answers.lean ====
section
/-! SUPPORT. What the primitives do when the card is ready and answers: the state after them, in full. -/

namespace Sys2Proof.Machine

set_option Elab.async false

open Sys2Proof

/-! ### Exchanges -/

/-- The state after exchanges that send `out` and receive `inp`. -/
def exchanged (out inp rest : List Byte) (s : State) : State :=
  { s with rx := { s.rx with next := rest }, events := (List.zipWith Event.xchg out inp).reverse ++ s.events }

theorem pop_of_next {α : Type} {f : Feed α} {a : α} {t : List α} (h : f.next = a :: t) :
    f.pop = (a, { f with next := t }) := by
  cases f; simp only at h; subst h; rfl

theorem send_answered {b d : Byte} {rest : List Byte} {s : State} (h : s.rx.next = d :: rest) (hq : quiet s := by assumption) :
    send b s = exchanged [b] [d] rest s := by
  rw [send_quiet b hq, pop_of_next h]; rfl

theorem xchg_answered {b d : Byte} {rest : List Byte} {s : State} (h : s.rx.next = d :: rest) (hq : quiet s := by assumption) :
    xchg b s = (d, exchanged [b] [d] rest s) := by
  rw [xchg_quiet b hq, pop_of_next h]; rfl

theorem exchanged_exchanged (o₁ o₂ i₁ i₂ r₁ r₂ : List Byte) (h : o₁.length = i₁.length) (s : State) :
    exchanged o₂ i₂ r₂ (exchanged o₁ i₁ r₁ s) = exchanged (o₁ ++ o₂) (i₁ ++ i₂) r₂ s := by
  simp [exchanged, List.zipWith_append h]

theorem sendAll_answered {out inp rest : List Byte} {s : State} (hl : out.length = inp.length)
    (h : s.rx.next = inp ++ rest) (hq : quiet s := by assumption) : sendAll out s = exchanged out inp rest s := by
  induction out generalizing inp s with
  | nil =>
    cases inp with
    | nil => simp only [List.nil_append] at h; subst h; rfl
    | cons => simp at hl
  | cons b t ih =>
    cases inp with
    | nil => simp at hl
    | cons d u =>
      simp only [List.cons_append] at h
      have hl' : t.length = u.length := by simpa using hl
      rw [sendAll, send_answered h, ih (s := exchanged [b] [d] _ s) hl' rfl hq, exchanged_exchanged [b] t [d] u _ rest rfl]
      rfl

theorem sendDummies_answered {k : Nat} {inp rest : List Byte} {s : State} (hl : inp.length = k)
    (h : s.rx.next = inp ++ rest) (hq : quiet s := by assumption) : sendDummies k s = exchanged (List.replicate k s.cfg.dummy) inp rest s := by
  induction k generalizing inp s with
  | zero =>
    have : inp = [] := List.length_eq_zero_iff.1 hl
    subst this
    simp only [List.nil_append] at h; subst h; rfl
  | succ j ih =>
    cases inp with
    | nil => simp at hl
    | cons d u =>
      simp only [List.cons_append] at h
      have hl' : u.length = j := by simpa using hl
      rw [sendDummies, send_answered h, ih (s := exchanged [s.cfg.dummy] [d] _ s) hl' rfl hq]
      rw [exchanged_exchanged [s.cfg.dummy] _ [d] _ _ _ rfl, List.replicate_succ]
      rfl

theorem reads_eq (c : Config) (bs : List Byte) : reads c bs = List.zipWith Event.xchg (List.replicate bs.length c.dummy) bs := by
  induction bs with
  | nil => rfl
  | cons b t ih => simp [reads, List.replicate_succ] at ih ⊢; exact ih

/-- The state after chip-select is driven. -/
def driven (l : ChipSelect) (s : State) : State := { s with cs := l, events := .cs l :: s.events }

theorem driveCs_driven (l : ChipSelect) {s : State} (hq : quiet s := by assumption) : driveCs l s = driven l s :=
  driveCs_quiet l hq

theorem deselect_answered {d : Byte} {rest : List Byte} {s : State} (h : s.rx.next = d :: rest)
    (hq : quiet s := by assumption) : deselect s = exchanged [s.cfg.dummy] [d] rest (driven .deasserted s) := by
  unfold deselect
  rw [driveCs_driven]
  exact send_answered (s := driven .deasserted s) h

/-! ### waitReady, select -/

theorem waitReadyLoop_ready {j : Nat} {w : Window} {rest : List Byte} {s : State} (h : s.rx.next = 0xFF#8 :: rest) (hq : quiet s := by assumption) :
    waitReadyLoop (j + 1) w s = .ok true (exchanged [s.cfg.dummy] [0xFF#8] rest s) := by
  rw [waitReadyLoop, xchg_answered h]
  rfl

/-- The state after a `waitReady` that found the card ready at the first poll: one tick reading, one exchange. -/
def foundReady (rest : List Byte) (s : State) : State :=
  { s with
    rx := { s.rx with next := rest }, tick := nextTick s, tickAdv := s.tickAdv.pop.2,
    events := .xchg s.cfg.dummy 0xFF#8 :: .now (nextTick s) :: s.events }

theorem waitReady_ready {ms : U32} {rest : List Byte} {s : State} (h : s.rx.next = 0xFF#8 :: rest) (hq : quiet s := by assumption) :
    waitReady ms s = .ok true (foundReady rest s) := by
  obtain ⟨j, hj⟩ : ∃ j, pollFuel (startWindow ms s).2 = j + 1 := ⟨_, rfl⟩
  unfold waitReady
  dsimp only
  rw [hj, waitReadyLoop_ready (s := (startWindow ms s).2) h ((startWindow_step ms s).quiet hq), startWindow_quiet ms hq]
  rfl

/-- The state after a `select` that found the card ready at the first poll. -/
def selectedReady (d : Byte) (rest : List Byte) (s : State) : State :=
  foundReady rest (exchanged [s.cfg.dummy] [d] (0xFF#8 :: rest) (driven .asserted s))

theorem select_ready {d : Byte} {rest : List Byte} {s : State} (h : s.rx.next = d :: 0xFF#8 :: rest)
    (hq : quiet s := by assumption) : select s = .ok true (selectedReady d rest s) := by
  unfold select
  rw [driveCs_driven, send_answered (s := driven .asserted s) h]
  rw [waitReady_ready (s := exchanged [s.cfg.dummy] [d] (0xFF#8 :: rest) (driven .asserted s)) rfl]
  rfl

/-! ### The response poll -/

theorem takeResponse_count {m : Nat} (hm : m ≤ 9) (b : Byte) {s : State} (hn : s.n = BitVec.ofNat 4 (m + 1)) :
    (takeResponse b s) = { s with r1 := b, n := BitVec.ofNat 4 m } := by
  unfold takeResponse
  rw [hn]
  have h0 : BitVec.ofNat 4 (m + 1) ≠ 0#4 := by
    intro h; have := congrArg BitVec.toNat h; simp at this; omega
  have h1 : BitVec.ofNat 4 (m + 1) - 1#4 = BitVec.ofNat 4 m := by
    apply BitVec.eq_of_toNat_eq
    simp
    omega
  simp [h0, h1]

/-- The poll ends on the first byte with bit 7 clear, or on the last one it may read (40_transport.md R138). -/
theorem pollResponse_answered {gap rest : List Byte} {r : Byte} (hg : ∀ b ∈ gap, b.getLsbD 7 = true)
    {k m : Nat} (hr : r.getLsbD 7 = false ∨ gap.length + 1 = k) (hk : gap.length < k) (hm : gap.length ≤ m) (hm9 : m ≤ 9) {s : State}
    (hn : s.n = BitVec.ofNat 4 (m + 1)) (h : s.rx.next = gap ++ r :: rest) (hq : quiet s := by assumption) :
    pollResponse k s =
      { exchanged (List.replicate (gap.length + 1) s.cfg.dummy) (gap ++ [r]) rest s with
        r1 := r, n := BitVec.ofNat 4 (m - gap.length) } := by
  induction gap generalizing k m s with
  | nil =>
    obtain ⟨j, rfl⟩ : ∃ j, k = j + 1 := ⟨k - 1, by simp at hk; omega⟩
    have hx := xchg_answered (b := s.cfg.dummy) (s := s) (d := r) (rest := rest) h
    simp only [pollResponse, hx, responded]
    rw [takeResponse_count hm9 r (s := exchanged _ _ _ s) hn]
    rcases hr with hr | hj
    · rw [hr]; rfl
    · obtain rfl : j = 0 := by simpa using hj.symm
      split <;> rfl
  | cons g t ih =>
    obtain ⟨j, rfl⟩ : ∃ j, k = j + 1 := ⟨k - 1, by simp at hk; omega⟩
    simp only [List.length_cons] at hk hm
    obtain ⟨m', rfl⟩ : ∃ m', m = m' + 1 := ⟨m - 1, by omega⟩
    have hx := xchg_answered (b := s.cfg.dummy) (s := s) (d := g) (rest := t ++ r :: rest) h
    have hg0 : g.getLsbD 7 = true := hg g (by simp)
    simp only [pollResponse, hx, responded, hg0]
    rw [takeResponse_count hm9 g (s := exchanged _ _ _ s) hn]
    simp only [Bool.not_true, Bool.false_eq_true, if_false]
    rw [ih (fun b hb => hg b (by simp [hb])) (by simpa using hr) (by omega) (by omega) (by omega) rfl rfl (by exact hq)]
    simp [exchanged, List.replicate_succ]

theorem frameBytes_length (c : Config) (idx : Byte) (arg : U32) : (frameBytes c idx arg).length = 6 := rfl

theorem frameAndPoll_plain {idx : Byte} {arg : U32} {s : State} (hi : idx ≠ s.cfg.stopCmdIndex) :
    frameAndPoll idx arg s =
      pollResponse cmdResponsePolls
        { sendAll (frameBytes s.cfg idx arg) { s with fr := ⟨idx, arg, trailer s.cfg idx⟩ } with
          n := BitVec.ofNat 4 cmdResponsePolls } := by
  have hc : (sendAll (frameBytes s.cfg idx arg) { s with fr := ⟨idx, arg, trailer s.cfg idx⟩ }).cfg = s.cfg := by
    rw [(sendAll_step _ _).1.1]
  unfold frameAndPoll
  dsimp only
  generalize sendAll (frameBytes s.cfg idx arg) _ = u at hc ⊢
  simp only [hc, hi, if_false]

/-- The frame of a command other than the stop-transmission command, and its answer. -/
theorem frameAndPoll_answered {idx : Byte} {arg : U32} {echo gap rest : List Byte} {r : Byte} {s : State}
    (hi : idx ≠ s.cfg.stopCmdIndex) (he : echo.length = 6) (hgl : gap.length ≤ 9) (hg : ∀ b ∈ gap, b.getLsbD 7 = true)
    (hr : r.getLsbD 7 = false ∨ gap.length = 9) (h : s.rx.next = echo ++ (gap ++ [r]) ++ rest) (hq : quiet s := by assumption) :
    frameAndPoll idx arg s =
      { exchanged (List.replicate (gap.length + 1) s.cfg.dummy) (gap ++ [r]) rest
          (exchanged (frameBytes s.cfg idx arg) echo (gap ++ r :: rest) s) with
        fr := ⟨idx, arg, trailer s.cfg idx⟩, r1 := r, n := BitVec.ofNat 4 (9 - gap.length) } := by
  rw [frameAndPoll_plain hi, sendAll_answered (s := { s with fr := _ }) (inp := echo) (rest := gap ++ r :: rest)
    (by rw [frameBytes_length, he]) (by simpa using h)]
  rw [pollResponse_answered hg (m := 9) (hr.imp_right fun e => by rw [e]; rfl) (by simp [cmdResponsePolls]; omega) hgl (le_refl 9) rfl rfl]
  rfl

/-! ### sendCommand -/

theorem Answer.wf_iff (a : Answer) : a.wf = true ↔
    a.echo.length = 6 ∧ a.gap.length ≤ 9 ∧ (∀ b ∈ a.gap, b.getLsbD 7 = true) ∧
      (a.r.getLsbD 7 = false ∨ a.gap.length = 9) := by
  simp [Answer.wf, and_assoc]

/-- One command that the card answers (R136). -/
theorem sendPlain_answered {idx : Byte} {arg : U32} {a : Answer} {rest : List Byte} {s : State} (ha : a.wf = true)
    (hi : idx ≠ s.cfg.stopCmdIndex) (h : s.rx.next = a.bytes ++ rest) (hq : quiet s := by assumption) :
    sendPlain idx arg s = .ok a.r (answered idx arg a rest s) := by
  obtain ⟨he, hgl, hg, hr⟩ := a.wf_iff.1 ha
  have h0 : s.rx.next = a.d0 :: a.d1 :: 0xFF#8 :: (a.echo ++ (a.gap ++ [a.r]) ++ rest) := by
    rw [h]; simp [Answer.bytes]
  unfold sendPlain
  rw [if_neg hi, deselect_answered h0, select_ready (s := exchanged _ _ _ (driven .deasserted s)) rfl]
  simp only [Res.bind_ok, if_true]
  have hf : ∀ u : State, u.cfg = s.cfg → u.rx.next = a.echo ++ (a.gap ++ [a.r]) ++ rest → quiet u → _ := fun u hu hn hq =>
    frameAndPoll_answered (arg := arg) (s := u) (by rw [hu]; exact hi) he hgl hg hr hn hq
  rw [hf (selectedReady _ _ (exchanged _ _ _ (driven .deasserted s))) (by rfl) (by rfl) hq]
  simp only [answered, commandTrace, reads_eq, exchanged, selectedReady, foundReady]
  simp [driven, nextTick]

theorem sendCommand_answered {idx : Byte} {arg : U32} {a : Answer} {rest : List Byte} {s : State} (ha : a.wf = true)
    (h6 : idx.getLsbD 6 = false) (h7 : idx.getLsbD 7 = false) (hi : idx ≠ s.cfg.stopCmdIndex)
    (h : s.rx.next = a.bytes ++ rest) (hq : quiet s := by assumption) : sendCommand idx arg s = .ok a.r (answered idx arg a rest s) := by
  unfold sendCommand
  rw [h6, h7]
  exact sendPlain_answered ha hi h

/-- An application command whose CMD55 passed (R137). -/
theorem sendCommand_application {idx : Byte} {arg : U32} {a b : Answer} {rest : List Byte} {s : State} (ha : a.wf = true)
    (hb : b.wf = true) (h6 : idx.getLsbD 6 = false) (h7 : idx.getLsbD 7 = true) (h55 : 55#8 ≠ s.cfg.stopCmdIndex)
    (hi : idx &&& 0x7F#8 ≠ s.cfg.stopCmdIndex) (hr : idleOrReady a.r = true)
    (h : s.rx.next = a.bytes ++ (b.bytes ++ rest)) (hq : quiet s := by assumption) :
    sendCommand idx arg s =
      .ok b.r (answered (idx &&& 0x7F#8) arg b rest (answered 55#8 0#32 a (b.bytes ++ rest) s)) := by
  unfold sendCommand
  rw [h6, h7]
  simp only [Bool.false_eq_true, if_false, if_true]
  rw [sendPlain_answered ha h55 h]
  simp only [Res.bind_ok, hr, if_true]
  exact sendPlain_answered hb hi rfl

/-- An application command whose CMD55 did not pass: its value, and no second frame (R137). -/
theorem sendCommand_prefixFails {idx : Byte} {arg : U32} {a : Answer} {rest : List Byte} {s : State} (ha : a.wf = true)
    (h6 : idx.getLsbD 6 = false) (h7 : idx.getLsbD 7 = true) (h55 : 55#8 ≠ s.cfg.stopCmdIndex)
    (hr : idleOrReady a.r = false) (h : s.rx.next = a.bytes ++ rest) (hq : quiet s := by assumption) :
    sendCommand idx arg s = .ok a.r (answered 55#8 0#32 a rest s) := by
  unfold sendCommand
  rw [h6, h7]
  simp only [Bool.false_eq_true, if_false, if_true]
  rw [sendPlain_answered ha h55 h]
  simp [hr]

/-! ### Trailing bytes -/

theorem readOcr_answered {b0 b1 b2 b3 : Byte} {rest : List Byte} {s : State}
    (h : s.rx.next = b0 :: b1 :: b2 :: b3 :: rest) (hq : quiet s := by assumption) :
    readOcr 0 4 s = { readOn [b0, b1, b2, b3] rest s with ocr := #v[b0, b1, b2, b3] } := by
  have e0 := xchg_answered (b := s.cfg.dummy) h
  have e : ∀ (v : Vector Byte 4), (((v.setIfInBounds 0 b0).setIfInBounds 1 b1).setIfInBounds 2 b2).setIfInBounds 3 b3
      = #v[b0, b1, b2, b3] := by
    intro v
    ext i hi
    rcases i with _ | _ | _ | _ | i <;> simp
    omega
  simp only [readOcr, e0]
  rw [xchg_answered (s := { exchanged [s.cfg.dummy] [b0] (b1 :: b2 :: b3 :: rest) s with ocr := _ }) rfl]
  dsimp only
  rw [xchg_answered (s := { exchanged _ [b1] (b2 :: b3 :: rest) _ with ocr := _ }) rfl]
  dsimp only
  rw [xchg_answered (s := { exchanged _ [b2] (b3 :: rest) _ with ocr := _ }) rfl]
  simp only [exchanged, readOn, reads]
  simp [e]

end Sys2Proof.Machine
end

