-- ==== Sys2Proof/Laws/Blocks.lean ====
section
/-! SUPPORT. What the data-block primitives do when the card plays its part: the state after them, in full; and the bytes they
store. -/

namespace Sys2Proof.Machine

set_option Elab.async false

open Sys2Proof

/-! ### Stored bytes -/

theorem Memory.writeAll_wf {m : Memory} (a : Nat) (bs : List Byte) (h : m.wf = true) : (m.writeAll a bs).wf = true := by
  induction bs generalizing m a with
  | nil => exact h
  | cons b t ih => exact ih (a + 1) (Memory.write_wf a b h)

/-- Outside the stored bytes nothing changes. -/
theorem Memory.read_writeAll_outside {m : Memory} {a : Nat} {bs : List Byte} {x : Nat}
    (hx : x < a ∨ a + bs.length ≤ x) : (m.writeAll a bs).read x = m.read x := by
  induction bs generalizing m a with
  | nil => rfl
  | cons b t ih =>
    simp only [List.length_cons] at hx
    rw [Memory.writeAll, ih (by omega), Memory.read_write_other a b (by omega)]

/-- Inside, byte `i` of the stored ones is read back. -/
theorem Memory.read_writeAll_inside {m : Memory} {a : Nat} {bs : List Byte} {i : Nat} (h : m.wf = true)
    (hi : i < bs.length) : (m.writeAll a bs).read (a + i) = bs[i] := by
  induction bs generalizing m a i with
  | nil => simp at hi
  | cons b t ih =>
    rw [Memory.writeAll]
    cases i with
    | zero =>
      rw [Memory.read_writeAll_outside (by omega), Nat.add_zero, Memory.read_write h]
      simp
    | succ j =>
      have := ih (a := a + 1) (i := j) (Memory.write_wf a b h) (by simpa using hi)
      rw [show a + (j + 1) = a + 1 + j by omega, this]
      rfl

theorem csdWriteAll_get (v : Vector Byte 16) (i : Nat) (bs : List Byte) (j : Nat) (hj : j < 16) :
    (csdWriteAll v i bs)[j] = if h : i ≤ j ∧ j - i < bs.length then bs[j - i] else v[j] := by
  induction bs generalizing v i with
  | nil => simp [csdWriteAll]
  | cons b t ih =>
    rw [csdWriteAll, ih]
    by_cases h1 : i + 1 ≤ j ∧ j - (i + 1) < t.length
    · have h2 : i ≤ j ∧ j - i < (b :: t).length := by simp; omega
      rw [dif_pos h1, dif_pos h2]
      have : j - i = (j - (i + 1)) + 1 := by omega
      simp [this]
    · rw [dif_neg h1, Vector.getElem_setIfInBounds]
      by_cases h3 : i = j
      · subst h3; simp
      · rw [if_neg h3, dif_neg (by simp; omega)]

/-- Sixteen bytes fill the scratch array, index 0 first (10_state.md R29). -/
theorem csdWriteAll_full (v : Vector Byte 16) {bs : List Byte} (h : bs.length = 16) :
    (csdWriteAll v 0 bs).toList = bs := by
  apply List.ext_getElem
  · simp [h]
  · intro j h1 h2
    have hj : j < 16 := by simpa using h1
    have := csdWriteAll_get v 0 bs j hj
    simpa [h, hj] using this

/-! ### Inbound -/

theorem moveIn_answered {p : Place} {i : Nat} {bs rest : List Byte} {s : State} (h : s.rx.next = bs ++ rest) (hq : quiet s := by assumption) :
    moveIn p i bs.length s =
      { exchanged (List.replicate bs.length s.cfg.dummy) bs rest s with
        mem := match p with
          | .buffer off => s.mem.writeAll (s.bufBase + (off + i)) bs
          | .csd => s.mem
        csd := match p with
          | .buffer _ => s.csd
          | .csd => csdWriteAll s.csd i bs } := by
  induction bs generalizing i s with
  | nil =>
    simp only [List.nil_append] at h; subst h
    cases p <;> rfl
  | cons b t ih =>
    have hx := xchg_answered (b := s.cfg.dummy) (s := s) (d := b) (rest := t ++ rest) h
    simp only [List.length_cons, moveIn, hx]
    cases p with
    | buffer off =>
      rw [ih (s := placeWrite (.buffer off) i b (exchanged [s.cfg.dummy] [b] (t ++ rest) s)) rfl (by exact hq)]
      simp [placeWrite, memWrite, exchanged, List.replicate_succ, Memory.writeAll, Nat.add_assoc]
    | csd =>
      rw [ih (s := placeWrite .csd i b (exchanged [s.cfg.dummy] [b] (t ++ rest) s)) rfl (by exact hq)]
      simp [placeWrite, exchanged, List.replicate_succ, csdWriteAll]

theorem pending_set_self {s : State} (h : pendingHere s = false) :
    (s.pending.set s.cfg.peripheralId true).set s.cfg.peripheralId false = s.pending := by
  unfold pendingHere Pending.get at h
  unfold Pending.set
  cases hp : s.cfg.peripheralId <;> rcases hq : s.pending with ⟨a, b⟩ <;> simp_all

theorem started_quiet {s : State} (d : Dir) (pl : Place) (len : Nat) (hq : quiet s) : started d pl len s = { s with
    pending := s.pending.set s.cfg.peripheralId true
    engine := some ⟨d, pl, len, false⟩
    events := .startTransfer d pl len :: s.events } :=
  emit_quiet (s := { s with pending := s.pending.set s.cfg.peripheralId true, engine := some ⟨d, pl, len, false⟩ }) _ hq

theorem complete_quiet {s : State} (hq : quiet s) : complete s = { s with
    pending := s.pending.set s.cfg.peripheralId false
    engine := none
    events := .complete s.cfg.peripheralId :: s.events } :=
  emit_quiet (s := { s with pending := s.pending.set s.cfg.peripheralId false, engine := none }) _ hq

/-- A payload in (40_transport.md R147). -/
theorem transferPayload_in {p : Place} {bs rest : List Byte} {s : State} (hp : pendingHere s = false)
    (hh : placeHolds p bs.length = true) (hf : s.fires.pop.1 = true) (h : s.rx.next = bs ++ rest) (hq : quiet s := by assumption) :
    transferPayload .inp p bs.length s = .ok ()
      { s with
        mem := memAfter p bs s, csd := csdAfter p bs s, engine := none, fires := s.fires.pop.2,
        rx := { s.rx with next := rest },
        events := .complete s.cfg.peripheralId ::
          ((reads s.cfg bs).reverse ++ .startTransfer .inp p bs.length :: s.events) } := by
  rw [transferPayload_eq hp hh]
  have hq' := (started_step .inp p bs.length s).quiet hq
  rw [started_quiet _ _ _ hq] at hq' ⊢
  generalize hu : ({ s with
    pending := s.pending.set s.cfg.peripheralId true
    engine := some ⟨.inp, p, bs.length, false⟩
    events := .startTransfer .inp p bs.length :: s.events } : State) = u at hq' ⊢
  have hm := moveIn_answered (p := p) (i := 0) (s := u) (by rw [← hu]; exact h)
  unfold runEngine moveBytes
  dsimp only
  rw [hm]
  have hf' : (exchanged (List.replicate bs.length u.cfg.dummy) bs rest u).fires.pop.1 = true := by rw [← hu]; exact hf
  simp only [hf', Bool.false_eq_true, if_false, if_true]
  rw [complete_quiet (by exact hq')]
  have hs := pending_set_self hp
  rw [← hu]
  cases p <;> simp [exchanged, memAfter, csdAfter, reads_eq, hs]

theorem tokenLoop_found {j : Nat} {w : Window} {d : Byte} {rest : List Byte} {s : State} (hd : d ≠ 0xFF#8)
    (h : s.rx.next = d :: rest) (hq : quiet s := by assumption) :
    tokenLoop (j + 1) w s = .ok true { exchanged [s.cfg.dummy] [d] rest s with tok := d } := by
  rw [tokenLoop, xchg_answered h]
  simp [hd]

/-- The state after the token poll ended on the first byte `d`. -/
def polledToken (d : Byte) (rest : List Byte) (s : State) : State :=
  { s with
    tok := d, rx := { s.rx with next := rest }, tick := nextTick s, tickAdv := s.tickAdv.pop.2,
    events := .xchg s.cfg.dummy d :: .now (nextTick s) :: s.events }

theorem receiveDataBlock_polled {p : Place} {len : Nat} {d : Byte} {rest : List Byte} {s : State} (hd : d ≠ 0xFF#8)
    (h : s.rx.next = d :: rest) (hq : quiet s := by assumption) :
    receiveDataBlock p len s =
      if d ≠ dataStartToken then .ok false (raise (.diskError .wrongToken) (polledToken d rest s))
      else (transferPayload .inp p len (polledToken d rest s)).bind fun _ s => .ok true (sendDummies 2 s) := by
  obtain ⟨j, hj⟩ : ∃ j, pollFuel (startWindow tTokenMs s).2 = j + 1 := ⟨_, rfl⟩
  have hc : closeWindow { exchanged [s.cfg.dummy] [d] rest (startWindow tTokenMs s).2 with tok := d } =
      polledToken d rest s := by
    rw [startWindow_quiet _ hq]
    rfl
  unfold receiveDataBlock
  dsimp only
  rw [hj, tokenLoop_found (s := (startWindow tTokenMs s).2) hd h ((startWindow_step _ s).quiet hq)]
  simp only [Res.bind_ok, Bool.not_true, Bool.false_eq_true, if_false]
  rw [show (startWindow tTokenMs s).2.cfg.dummy = s.cfg.dummy from rfl, hc]
  rfl

/-- A wrong token ends the primitive; nothing is stored (R146). -/
theorem receiveDataBlock_wrong {p : Place} {len : Nat} {d : Byte} {rest : List Byte} {s : State} (hd : d ≠ 0xFF#8)
    (hd' : d ≠ 0xFE#8) (h : s.rx.next = d :: rest) (hq : quiet s := by assumption) :
    receiveDataBlock p len s = .ok false (raise (.diskError .wrongToken) (polledToken d rest s)) := by
  rw [receiveDataBlock_polled hd h, if_pos (by simpa [dataStartToken] using hd')]

/-- A packet whose token comes at once is stored (R145). -/
theorem receiveDataBlock_received {p : Place} {k : Packet} {rest : List Byte} {s : State} (hp : pendingHere s = false)
    (hh : placeHolds p k.payload.length = true) (hf : s.fires.pop.1 = true) (h : s.rx.next = k.bytes ++ rest) (hq : quiet s := by assumption) :
    receiveDataBlock p k.payload.length s = .ok true (received p k rest s) := by
  have h0 : s.rx.next = 0xFE#8 :: (k.payload ++ ([k.c0, k.c1] ++ rest)) := by rw [h]; simp [Packet.bytes]
  rw [receiveDataBlock_polled (by decide) h0, if_neg (by decide)]
  rw [transferPayload_in (s := polledToken _ _ s) hp hh hf rfl]
  simp only [Res.bind_ok]
  rw [sendDummies_answered (k := 2) (inp := [k.c0, k.c1]) (rest := rest) rfl rfl]
  cases p <;> simp [exchanged, polledToken, received, receiveTrace, memAfter, csdAfter, reads, nextTick]

/-! ### Outbound -/

theorem memBytes_succ (m : Memory) (lo k : Nat) : memBytes m lo (k + 1) = m.read lo :: memBytes m (lo + 1) k := by
  simp [memBytes, List.range_succ_eq_map, Nat.add_assoc, Nat.add_comm 1]

theorem memBytes_length (m : Memory) (lo k : Nat) : (memBytes m lo k).length = k := by simp [memBytes]

theorem moveOut_answered {off i k : Nat} {inp rest : List Byte} {s : State} (hl : inp.length = k)
    (h : s.rx.next = inp ++ rest) (hq : quiet s := by assumption) :
    moveOut (.buffer off) i k s = exchanged (memBytes s.mem (s.bufBase + (off + i)) k) inp rest s := by
  induction k generalizing i inp s with
  | zero =>
    have : inp = [] := List.length_eq_zero_iff.1 hl
    subst this
    simp only [List.nil_append] at h; subst h; rfl
  | succ j ih =>
    cases inp with
    | nil => simp at hl
    | cons d u =>
      simp only [List.cons_append] at h
      rw [moveOut, send_answered h, ih (i := i + 1) (s := exchanged _ _ _ s) (by simpa using hl) rfl (by exact hq), memBytes_succ]
      rw [exchanged_exchanged [placeRead (.buffer off) i s] _ [d] u _ rest rfl]
      rfl

/-- A payload out (R142). -/
theorem transferPayload_sent {off : Nat} {inp rest : List Byte} {s : State} (hp : pendingHere s = false)
    (hf : s.fires.pop.1 = true) (hl : inp.length = sectorSize) (h : s.rx.next = inp ++ rest) (hq : quiet s := by assumption) :
    transferPayload .out (.buffer off) sectorSize s = .ok ()
      { s with
        engine := none, fires := s.fires.pop.2, rx := { s.rx with next := rest },
        events := .complete s.cfg.peripheralId ::
          ((List.zipWith Event.xchg (memBytes s.mem (s.bufBase + off) sectorSize) inp).reverse ++
            .startTransfer .out (.buffer off) sectorSize :: s.events) } := by
  rw [transferPayload_eq hp rfl]
  have hq' := (started_step .out (.buffer off) sectorSize s).quiet hq
  rw [started_quiet _ _ _ hq] at hq' ⊢
  generalize hu : ({ s with
    pending := s.pending.set s.cfg.peripheralId true
    engine := some ⟨.out, .buffer off, sectorSize, false⟩
    events := .startTransfer .out (.buffer off) sectorSize :: s.events } : State) = u at hq' ⊢
  have hm := moveOut_answered (off := off) (i := 0) (s := u) hl (by rw [← hu]; exact h)
  unfold runEngine moveBytes
  dsimp only
  rw [hm]
  have hf' : (exchanged (memBytes u.mem (u.bufBase + (off + 0)) sectorSize) inp rest u).fires.pop.1 = true := by
    rw [← hu]; exact hf
  simp only [hf', Bool.false_eq_true, if_false, if_true]
  rw [complete_quiet (by exact hq')]
  have hs := pending_set_self hp
  rw [← hu]
  simp [exchanged, hs]

theorem send_send {c₁ c₂ d₁ d₂ : Byte} {rest : List Byte} {s : State} (h : s.rx.next = d₁ :: d₂ :: rest) (hq : quiet s := by assumption) :
    send c₂ (send c₁ s) = exchanged [c₁, c₂] [d₁, d₂] rest s := by
  rw [send_answered h, send_answered (s := exchanged [c₁] [d₁] (d₂ :: rest) s) rfl]
  rfl

/-- A data packet to a ready card (R141, R143). -/
theorem sendDataBlock_sent {off : Nat} {token : Byte} {k : Sink} {rest : List Byte} {s : State} (hp : pendingHere s = false)
    (hf : s.fires.pop.1 = true) (ht : token ≠ s.cfg.tokenStop) (hl : k.echo.length = sectorSize)
    (h : s.rx.next = k.bytes ++ rest) (hq : quiet s := by assumption) :
    sendDataBlock off token s =
      if dataAccepted k.response then .ok true (sentBlock off token k rest s)
      else .ok false (raise (.diskError .dataResponse) (sentBlock off token k rest s)) := by
  have h0 : s.rx.next = 0xFF#8 :: k.e :: (k.echo ++ k.c0 :: k.c1 :: k.response :: rest) := by rw [h]; simp [Sink.bytes]
  unfold sendDataBlock
  rw [waitReady_ready h0]
  simp only [Res.bind_ok, Bool.not_true, Bool.false_eq_true, if_false]
  rw [send_answered (s := foundReady _ s) rfl]
  rw [if_neg (show ¬ token = (exchanged [token] [k.e] (k.echo ++ k.c0 :: k.c1 :: k.response :: rest)
    (foundReady (k.e :: (k.echo ++ k.c0 :: k.c1 :: k.response :: rest)) s)).cfg.tokenStop from ht)]
  rw [transferPayload_sent (s := exchanged _ _ _ (foundReady _ s)) hp hf hl rfl]
  simp only [Res.bind_ok]
  rw [send_send (d₁ := k.c0) (d₂ := k.c1) (rest := k.response :: rest) (by rfl)]
  rw [xchg_answered (d := k.response) (rest := rest) (by rfl)]
  have e : ∀ t : State, t = sentBlock off token k rest s →
      (if dataAccepted k.response = true then Res.ok true t else Res.ok false (raise (.diskError .dataResponse) t)) =
      (if dataAccepted k.response = true then Res.ok true (sentBlock off token k rest s)
        else Res.ok false (raise (.diskError .dataResponse) (sentBlock off token k rest s))) := by
    intro t ht; rw [ht]
  refine e _ ?_
  simp [exchanged, foundReady, sentBlock, sendTrace, nextTick]

/-- The stop token to a ready card (R144). -/
theorem sendDataBlock_stop {off : Nat} {d : Byte} {rest : List Byte} {s : State} (h : s.rx.next = 0xFF#8 :: d :: rest) (hq : quiet s := by assumption) :
    sendDataBlock off s.cfg.tokenStop s = .ok true (sentStop d rest s) := by
  unfold sendDataBlock
  rw [waitReady_ready h]
  simp only [Res.bind_ok, Bool.not_true, Bool.false_eq_true, if_false]
  rw [send_answered (s := foundReady _ s) rfl]
  rw [if_pos (by rfl)]
  rfl

end Sys2Proof.Machine
end

