-- ==== Sys2Proof/Laws/Bodies.lean ====
section
/-! SUPPORT. What the card commands and the bodies of the operations can do: their frames, and that they keep the data part
of the invariant, the lock and the place of the sequencer. -/

namespace Sys2Proof.Machine

set_option Elab.async false

open Sys2Proof

/-! ### Working registers -/

theorem setOcr_step (v : Vector Byte 4) (s : State) : trailingStep s { s with ocr := v } := ⟨⟨rfl, heard.same rfl⟩, rfl, rfl, id, id, id⟩
theorem setBlock_out (o : Nat) (r : U32) (s : State) : outStep s { s with off := o, remaining := r } :=
  ⟨⟨rfl, heard.same rfl⟩, rfl, rfl, id, id, id⟩
theorem setSector_io (o : Nat) (a r : U32) (s : State) : ioStep s { s with off := o, addr := a, remaining := r } :=
  ⟨⟨rfl, heard.same rfl⟩, rfl, rfl, id, id, id⟩

/-! ### Commands -/

theorem readOcr_step (i k : Nat) (s : State) : trailingStep s (readOcr i k s) := by
  induction k generalizing i s with
  | zero => exact trailingStep.refl s
  | succ j ih =>
    exact ((xchg_step s.cfg.dummy s).command.trailing.trans (setOcr_step _ _)).trans (ih _ _)

theorem command_step (idx : Byte) (arg : U32) (tag : DiskTag) (s : State) :
    (command idx arg tag s).All (commandStep s) := by
  refine Res.all_seq (R := commandStep) commandStep.trans (sendCommand_step _ _ s) (fun r t => ?_)
  split
  · exact commandStep.refl t
  · exact (raise_step _ t).command

theorem cmd0_step (arg : U32) (s : State) : (cmd0 arg s).All (commandStep s) := by
  refine Res.all_seq (R := commandStep) commandStep.trans (sendCommand_step _ _ s) (fun r t => ?_)
  split
  · exact commandStep.refl t
  · exact (raise_step _ t).command

theorem cmd1_step (arg : U32) (s : State) : (cmd1 arg s).All (commandStep s) :=
  Res.all_seq (R := commandStep) commandStep.trans (sendCommand_step _ _ s) (fun _ t => commandStep.refl t)

theorem cmd12_step (arg : U32) (s : State) : (cmd12 arg s).All (commandStep s) :=
  Res.all_seq (R := commandStep) commandStep.trans (sendCommand_step _ _ s) (fun _ t => commandStep.refl t)

theorem acmd23_step (arg : U32) (s : State) : (acmd23 arg s).All (commandStep s) :=
  Res.all_seq (R := commandStep) commandStep.trans (sendCommand_step _ _ s) (fun _ t => commandStep.refl t)

theorem acmd41_step (arg : U32) (s : State) : (acmd41 arg s).All (commandStep s) :=
  Res.all_seq (R := commandStep) commandStep.trans (sendCommand_step _ _ s) (fun _ t => commandStep.refl t)

theorem cmd55_step (arg : U32) (s : State) : (cmd55 arg s).All (commandStep s) :=
  Res.all_seq (R := commandStep) commandStep.trans (sendCommand_step _ _ s) (fun _ t => commandStep.refl t)

theorem cmd16_step (arg : U32) (s : State) : (cmd16 arg s).All (commandStep s) := command_step _ _ _ s
theorem cmd32_step (arg : U32) (s : State) : (cmd32 arg s).All (commandStep s) := command_step _ _ _ s
theorem cmd33_step (arg : U32) (s : State) : (cmd33 arg s).All (commandStep s) := command_step _ _ _ s

theorem cmd38_step (arg : U32) (s : State) : (cmd38 arg s).All (commandStep s) := by
  refine Res.all_seq (R := commandStep) commandStep.trans (command_step _ _ _ s) (fun r t => ?_)
  split
  · exact Res.all_mono (waitReady_step _ t) (fun _ h => h.command)
  · exact commandStep.refl t

theorem cmd8_step (arg : U32) (s : State) : (cmd8 false arg s).All (trailingStep s) := by
  refine Res.all_seq (R := trailingStep) trailingStep.trans
    (Res.all_mono (sendCommand_step _ _ s) (fun _ h => h.trailing)) (fun r t => ?_)
  split
  · exact readOcr_step 0 4 t
  · exact trailingStep.refl t

theorem cmd58_step (arg : U32) (s : State) : (cmd58 false arg s).All (trailingStep s) := by
  refine Res.all_seq (R := trailingStep) trailingStep.trans
    (Res.all_mono (command_step _ _ _ s) (fun _ h => h.trailing)) (fun r t => ?_)
  split
  · exact readOcr_step 0 4 t
  · exact trailingStep.refl t

theorem cmd8_body (b : Bool) (arg : U32) (s : State) : (cmd8 b arg s).All (bodyStep s) := by
  refine Res.all_seq (R := bodyStep) bodyStep.trans
    (Res.all_mono (sendCommand_step _ _ s) (fun _ h => h.body)) (fun r t => ?_)
  split
  · exact (visit_step b (q := .pR7) (by decide) t).trans (readOcr_step 0 4 _).body
  · exact bodyStep.refl t

theorem cmd58_body (b : Bool) (arg : U32) (s : State) : (cmd58 b arg s).All (bodyStep s) := by
  refine Res.all_seq (R := bodyStep) bodyStep.trans
    (Res.all_mono (command_step _ _ _ s) (fun _ h => h.body)) (fun r t => ?_)
  split
  · exact (visit_step b (q := .pOcr) (by decide) t).trans (readOcr_step 0 4 _).body
  · exact bodyStep.refl t

theorem cmd9_step (arg : U32) (s : State) : (cmd9 arg s).All (inpStep s) := by
  refine Res.all_seq (R := inpStep) inpStep.trans
    (Res.all_mono (command_step _ _ _ s) (fun _ h => h.inp)) (fun r t => ?_)
  split
  · exact receiveDataBlock_step _ _ t
  · exact inpStep.refl t

theorem acmd13_step (arg : U32) (s : State) : (acmd13 arg s).All (inpStep s) := by
  refine Res.all_seq (R := inpStep) inpStep.trans
    (Res.all_mono (command_step _ _ _ s) (fun _ h => h.inp)) (fun r t => ?_)
  split
  · exact inpStep.refl t
  · refine Res.all_bind (Res.all_mono (receiveDataBlock_step _ _ _)
      (fun _ h => (sendDummies_step 1 t).command.inp.trans h)) (fun a u h => ?_) (fun _ h => h)
    split
    · exact h.trans (sendDummies_step _ u).command.inp
    · exact h

theorem cmd17_step (arg : U32) (s : State) : (cmd17 false arg s).All (inpStep s) := by
  refine Res.all_seq (R := inpStep) inpStep.trans
    (Res.all_mono (command_step _ _ _ s) (fun _ h => h.inp)) (fun r t => ?_)
  split
  · exact receiveDataBlock_step _ _ t
  · exact inpStep.refl t

theorem cmd17_io (b : Bool) (arg : U32) (s : State) : (cmd17 b arg s).All (ioStep s) := by
  refine Res.all_seq (R := ioStep) ioStep.trans
    (Res.all_mono (command_step _ _ _ s) (fun _ h => h.io)) (fun r t => ?_)
  split
  · exact Res.all_mono (receiveDataBlock_step _ _ _)
      (fun _ h => (visit_io b (q := .rData) (by decide) t).trans h.io)
  · exact ioStep.refl t

theorem cmd24_step (arg : U32) (s : State) : (cmd24 false arg s).All (outStep s) := by
  refine Res.all_seq (R := outStep) outStep.trans
    (Res.all_mono (command_step _ _ _ s) (fun _ h => h.out)) (fun r t => ?_)
  split
  · exact sendDataBlock_step _ _ t
  · exact outStep.refl t

theorem cmd24_io (b : Bool) (arg : U32) (s : State) : (cmd24 b arg s).All (ioStep s) := by
  refine Res.all_seq (R := ioStep) ioStep.trans
    (Res.all_mono (command_step _ _ _ s) (fun _ h => h.io)) (fun r t => ?_)
  split
  · exact Res.all_mono (sendDataBlock_step _ _ _)
      (fun _ h => (visit_io b (q := .wSingle) (by decide) t).trans h.io)
  · exact ioStep.refl t

theorem blockLoop_step (k : Nat) (s : State) : (blockLoop false k s).All (outStep s) := by
  induction k generalizing s with
  | zero => exact outStep.refl s
  | succ j ih =>
    simp only [blockLoop]
    split
    · exact outStep.refl s
    · refine Res.all_seq (R := outStep) outStep.trans (sendDataBlock_step s.off s.cfg.tokenMulti s) (fun a t => ?_)
      split
      · exact Res.all_mono (ih _) (fun _ h => (setBlock_out _ _ t).trans h)
      · exact outStep.refl t

theorem blockLoop_io (b : Bool) (k : Nat) (s : State) : (blockLoop b k s).All (ioStep s) := by
  induction k generalizing s with
  | zero => exact ioStep.refl s
  | succ j ih =>
    simp only [blockLoop]
    split
    · exact ioStep.refl s
    · refine Res.all_seq (R := ioStep) ioStep.trans
        (Res.all_mono (sendDataBlock_step s.off s.cfg.tokenMulti (visit b .wBlock s))
          (fun _ h => (visit_io b (q := .wBlock) (by decide) s).trans h.io)) (fun a t => ?_)
      split
      · exact Res.all_mono (ih _) (fun _ h => (setBlock_out _ _ t).io.trans h)
      · exact ioStep.refl t

theorem stream_step (s : State) : (stream false s).All (outStep s) := by
  refine Res.all_seq (R := outStep) outStep.trans
    (Res.all_mono (blockLoop_step s.remaining.toNat { s with off := 0 })
      (fun _ h => (setBlock_out 0 s.remaining s).trans h)) (fun _ t => ?_)
  refine Res.all_seq (R := outStep) outStep.trans (sendDataBlock_step 0 t.cfg.tokenStop t) (fun a u => ?_)
  split
  · exact outStep.refl u
  · exact ⟨⟨rfl, heard.same rfl⟩, rfl, rfl, id, id, id⟩

theorem stream_io (b : Bool) (s : State) : (stream b s).All (ioStep s) := by
  refine Res.all_seq (R := ioStep) ioStep.trans
    (Res.all_mono (blockLoop_io b s.remaining.toNat { s with off := 0 })
      (fun _ h => (setBlock_out 0 s.remaining s).io.trans h)) (fun _ t => ?_)
  refine Res.all_seq (R := ioStep) ioStep.trans
    (Res.all_mono (sendDataBlock_step 0 t.cfg.tokenStop (visit b .wStop t))
      (fun _ h => (visit_io b (q := .wStop) (by decide) t).trans h.io)) (fun a u => ?_)
  split
  · exact ioStep.refl u
  · exact ⟨⟨rfl, heard.same rfl⟩, rfl, rfl, id, id, id⟩

theorem cmd25_step (arg : U32) (s : State) : (cmd25 false arg s).All (outStep s) := by
  refine Res.all_seq (R := outStep) outStep.trans
    (Res.all_mono (command_step _ _ _ s) (fun _ h => h.out)) (fun r t => ?_)
  split
  · exact Res.all_seq (R := outStep) outStep.trans (stream_step t) (fun _ u => outStep.refl u)
  · exact outStep.refl t

theorem cmd25_io (b : Bool) (arg : U32) (s : State) : (cmd25 b arg s).All (ioStep s) := by
  refine Res.all_seq (R := ioStep) ioStep.trans
    (Res.all_mono (command_step _ _ _ s) (fun _ h => h.io)) (fun r t => ?_)
  split
  · exact Res.all_seq (R := ioStep) ioStep.trans (stream_io b t) (fun _ u => ioStep.refl u)
  · exact ioStep.refl t

/-! ### The bodies of read and write, up to the exit -/

theorem readLoop_step (k : Nat) (s : State) : (readLoop k s).All (ioStep s) := by
  induction k generalizing s with
  | zero => exact ioStep.refl s
  | succ j ih =>
    simp only [readLoop]
    split
    · exact ioStep.refl s
    · refine Res.all_seq (R := ioStep) ioStep.trans
        (Res.all_mono (cmd17_io true s.addr (enter .rCmd17 s))
          (fun _ h => (enter_io (q := .rCmd17) (by decide) s).trans h)) (fun a t => ?_)
      split
      · exact Res.all_mono (ih _)
          (fun _ h => (setSector_io _ _ _ t).trans h)
      · exact ioStep.refl t

theorem writeSingle_step (s : State) : (writeSingle s).All (ioStep s) := by
  refine Res.all_seq (R := ioStep) ioStep.trans
    (Res.all_mono (cmd24_io true s.addr (enter .wCmd24 s))
      (fun _ h => (enter_io (q := .wCmd24) (by decide) s).trans h)) (fun a t => ?_)
  split
  · exact ⟨⟨rfl, heard.same rfl⟩, rfl, rfl, id, id, id⟩
  · exact ioStep.refl t

theorem hint_step (count : U32) (s : State) : (hint count s).All (ioStep s) := by
  unfold hint; split
  · exact Res.all_seq (R := ioStep) ioStep.trans
      (Res.all_mono (acmd23_step count (enter .wHint s))
        (fun _ h => (enter_io (q := .wHint) (by decide) s).trans h.io)) (fun _ t => ioStep.refl t)
  · exact ioStep.refl s

theorem writeMulti_step (count : U32) (s : State) : (writeMulti count s).All (ioStep s) :=
  Res.all_seq (R := ioStep) ioStep.trans (hint_step count s) (fun _ t =>
    Res.all_seq (R := ioStep) ioStep.trans
      (Res.all_mono (cmd25_io true t.addr (enter .wCmd25 t))
        (fun _ h => (enter_io (q := .wCmd25) (by decide) t).trans h)) (fun _ u => ioStep.refl u))

/-! ### The probe, up to the recording of its outcome -/

theorem preCmd0_step (k : Nat) (s : State) : (preCmd0 k s).All (commandStep s) := by
  induction k generalizing s with
  | zero => exact commandStep.refl s
  | succ j ih =>
    exact Res.all_seq (R := commandStep) commandStep.trans
      (Res.all_mono (sendCommand_step 0x00#8 0#32 (delay s.cfg.cmd0PreDelayMs s))
        (fun _ h => (delay_step s.cfg.cmd0PreDelayMs s).command.trans h)) (fun _ t => ih t)

theorem pollLoop_step (k : Nat) (w : Window) {q : Seq} (hq : q ≠ .idle) (idx : Byte) (arg : U32) (s : State) :
    (pollLoop k w q idx arg s).All (bodyStep s) := by
  induction k generalizing s with
  | zero => exact bodyStep.refl s
  | succ j ih =>
    have h1 := (enter_step hq s).trans (expired_step w (enter q s)).body
    simp only [pollLoop]
    split
    · exact h1.trans (raise_step _ _).body
    · refine Res.all_bind (Res.all_mono (sendCommand_step idx arg _) (fun _ h => h1.trans h.body))
        (fun r t h => ?_) (fun _ h => h)
      split
      · exact h
      · have h2 := h.trans (delay_step t.cfg.pollDelayMs t).body
        split
        · exact h2
        · exact Res.all_mono (ih _) (fun _ k => h2.trans k)

theorem poll_step (w : Window) {q : Seq} (hq : q ≠ .idle) (idx : Byte) (arg : U32) (s : State) :
    (poll w q idx arg s).All (bodyStep s) := pollLoop_step _ w hq idx arg s

theorem probeSd2_step (w : Window) (s : State) : (probeSd2 w s).All (bodyStep s) := by
  unfold probeSd2; split
  · exact (raise_step _ s).body
  · refine Res.all_seq (R := bodyStep) bodyStep.trans (poll_step w (by decide) _ _ s) (fun r t => ?_)
    split
    · exact bodyStep.refl t
    · refine Res.all_seq (R := bodyStep) bodyStep.trans
        (Res.all_mono (cmd58_body true 0#32 (enter .pCmd58 t))
          (fun _ h => (enter_step (q := .pCmd58) (by decide) t).trans h)) (fun r u => ?_)
      split <;> exact bodyStep.refl u

theorem probeV1_step (w : Window) (s : State) : (probeV1 w s).All (bodyStep s) := by
  refine Res.all_seq (R := bodyStep) bodyStep.trans
    (Res.all_mono (sendCommand_step _ _ (enter .pTypeTest s))
      (fun _ h => (enter_step (q := .pTypeTest) (by decide) s).trans h.body)) (fun r t => ?_)
  refine Res.all_seq (R := bodyStep) bodyStep.trans (poll_step w (by decide) _ _ t) (fun r t => ?_)
  split
  · exact bodyStep.refl t
  · refine Res.all_seq (R := bodyStep) bodyStep.trans
      (Res.all_mono (cmd16_step _ (enter .pCmd16 t))
        (fun _ h => (enter_step (q := .pCmd16) (by decide) t).trans h.body)) (fun r u => ?_)
    split <;> exact bodyStep.refl u

theorem probeCard_step (s : State) : (probeCard s).All (bodyStep s) := by
  refine Res.all_seq (R := bodyStep) bodyStep.trans
    (Res.all_mono (cmd0_step _ (enter .pCmd0 s))
      (fun _ h => (enter_step (q := .pCmd0) (by decide) s).trans h.body)) (fun r t => ?_)
  split
  · exact bodyStep.refl t
  · refine Res.all_seq (R := bodyStep) bodyStep.trans
      (Res.all_mono (cmd8_body true cmd8Arg (enter .pCmd8 (startWindow tInitMs t).2))
        (fun _ h => ((startWindow_step tInitMs t).body.trans (enter_step (q := .pCmd8) (by decide) _)).trans h))
      (fun r u => ?_)
    refine Res.all_seq (R := bodyStep) bodyStep.trans (?_ : Res.All (bodyStep u) _)
      (fun c v => (closeWindow_step v).body)
    split
    · exact probeSd2_step _ u
    · exact probeV1_step _ u

end Sys2Proof.Machine
end

