-- ==== Sys2Proof/Laws/Calls.lean ====
section
/-! SUPPORT. What a host call can do: the exit sequence, the bodies with their lock, and how a call with the lock granted
ends. -/

namespace Sys2Proof.Machine

set_option Elab.async false

open Sys2Proof

/-! ### Postconditions -/

/-- `x` returns a value and state with `P`, or waits for ever in a state with `H`. -/
def Res.Post {α : Type} (P : α → State → Prop) (H : State → Prop) (x : Res α) : Prop :=
  match x with
  | .ok a s => P a s
  | .hang _ s => H s
  | .fault _ => True
  | .refuse _ => True

theorem Res.post_bind {α β : Type} {P : α → State → Prop} {H : State → Prop} {P' : β → State → Prop} {H' : State → Prop}
    {x : Res α} {f : α → State → Res β} (hx : x.Post P H) (hf : ∀ a t, P a t → (f a t).Post P' H') (hh : ∀ t, H t → H' t) :
    (x.bind f).Post P' H' := by
  cases x with
  | ok a s => exact hf a s hx
  | hang w s => exact hh s hx
  | fault e => trivial
  | refuse r => trivial

theorem Res.post_mono {α : Type} {P P' : α → State → Prop} {H H' : State → Prop} {x : Res α} (hx : x.Post P H)
    (hp : ∀ a t, P a t → P' a t) (hh : ∀ t, H t → H' t) : x.Post P' H' := by
  cases x with
  | ok a s => exact hp a s hx
  | hang w s => exact hh s hx
  | fault e => trivial
  | refuse r => trivial

theorem Res.All.post {α : Type} {Q : State → Prop} {x : Res α} (h : x.All Q) : x.Post (fun _ => Q) Q := by
  cases x <;> exact h

/-! ### Frames of calls -/

theorem moreWaiters {s t u : State} (h : ∃ new, t.waiters = s.waiters ++ new) (k : ∃ new, u.waiters = t.waiters ++ new) :
    ∃ new, u.waiters = s.waiters ++ new := by
  obtain ⟨x, hx⟩ := h
  obtain ⟨y, hy⟩ := k
  exact ⟨x ++ y, by rw [hy, hx, List.append_assoc]⟩

theorem sameWaiters {s t : State} (h : t.waiters = s.waiters) : ∃ new, t.waiters = s.waiters ++ new := ⟨[], by simp [h]⟩

theorem hostFrame.trans {s t u : State} (h : hostFrame s t) (k : hostFrame t u) : hostFrame s u :=
  ⟨by obtain ⟨h, -⟩ := h; obtain ⟨k, -⟩ := k; rw [k, h], moreWaiters h.2 k.2⟩

theorem initFrame.trans {s t u : State} (h : initFrame s t) (k : initFrame t u) : initFrame s u :=
  ⟨by obtain ⟨h, -⟩ := h; obtain ⟨k, -⟩ := k; rw [k, h], moreWaiters h.2 k.2⟩

/-- The frame of a data call together with what is steady. -/
def callStep (s t : State) : Prop := hostFrame s t ∧ steady s t
/-- The frame of `initialize` together with what is steady. -/
def initStep (s t : State) : Prop := initFrame s t ∧ steady s t

theorem callStep.trans {s t u : State} (h : callStep s t) (k : callStep t u) : callStep s u := ⟨h.1.trans k.1, h.2.trans k.2⟩
theorem initStep.trans {s t u : State} (h : initStep s t) (k : initStep t u) : initStep s u := ⟨h.1.trans k.1, h.2.trans k.2⟩
theorem callStep.refl (s : State) : callStep s s := ⟨⟨rfl, sameWaiters rfl⟩, steady.refl s⟩
theorem initStep.refl (s : State) : initStep s s := ⟨⟨rfl, sameWaiters rfl⟩, steady.refl s⟩

theorem ioStep.call {s t : State} (h : ioStep s t) : callStep s t := by
  refine ⟨⟨?_, h.1.2.1⟩, h.2⟩
  have hr : t.ret = s.ret := h.2.1
  obtain ⟨⟨h, -⟩, -⟩ := h
  rw [h]
  simp only [hr]

theorem bodyStep.init {s t : State} (h : bodyStep s t) : initStep s t := by
  refine ⟨⟨?_, h.1.2.1⟩, h.2⟩
  have hr : t.ret = s.ret := h.2.1
  obtain ⟨⟨h, -⟩, -⟩ := h
  rw [h]
  simp only [hr]

theorem ioFrame.lock {s t : State} (h : ioFrame s t) : t.lock = s.lock := by rw [h.1]
theorem ioFrame.me {s t : State} (h : ioFrame s t) : t.me = s.me := by rw [h.1]
theorem bodyFrame.lock {s t : State} (h : bodyFrame s t) : t.lock = s.lock := by rw [h.1]
theorem bodyFrame.me {s t : State} (h : bodyFrame s t) : t.me = s.me := by rw [h.1]
theorem hostFrame.me {s t : State} (h : hostFrame s t) : t.me = s.me := by rw [h.1]
theorem initFrame.me {s t : State} (h : initFrame s t) : t.me = s.me := by rw [h.1]

/-! ### Inputs, lock and exit -/

/-- A step whose frame both calls allow, with the lock as it was. -/
def bothStep (s t : State) : Prop := callStep s t ∧ initStep s t ∧ t.lock = s.lock

theorem bothStep.trans {s t u : State} (h : bothStep s t) (k : bothStep t u) : bothStep s u :=
  ⟨h.1.trans k.1, h.2.1.trans k.2.1, k.2.2.trans h.2.2⟩

theorem linkStep.both {s t : State} (h : linkStep s t) : bothStep s t :=
  ⟨h.command.io.call, h.body.init, by rw [h.1.1]⟩

/-- An update of fields that both calls may write. -/
theorem bothStep.of {s t : State} (hc : hostFrame s t) (hi : initFrame s t) (hs : steady s t) (hl : t.lock = s.lock) :
    bothStep s t := ⟨⟨hc, hs⟩, ⟨hi, hs⟩, hl⟩

theorem readCd_both (s : State) : bothStep s (readCd s) := by
  unfold readCd
  split
  · exact .of ⟨rfl, sameWaiters rfl⟩ ⟨rfl, sameWaiters rfl⟩ ⟨rfl, rfl, id, id, id⟩ rfl
  · exact .of ⟨rfl, sameWaiters rfl⟩ ⟨rfl, sameWaiters rfl⟩ ⟨rfl, rfl, id, id, id⟩ rfl

theorem readWp_both (s : State) : bothStep s (readWp s) := by
  unfold readWp
  split
  · exact .of ⟨rfl, sameWaiters rfl⟩ ⟨rfl, sameWaiters rfl⟩ ⟨rfl, rfl, id, id, id⟩ rfl
  · exact .of ⟨rfl, sameWaiters rfl⟩ ⟨rfl, sameWaiters rfl⟩ ⟨rfl, rfl, id, id, id⟩ rfl

theorem cardPresent_both (s : State) : bothStep s (cardPresent s).2 := (meanwhile_step s).both.trans (readCd_both _)
theorem wpActive_both (s : State) : bothStep s (wpActive s).2 := (meanwhile_step s).both.trans (readWp_both _)

theorem setInputs_both (d w : Bool) (s : State) :
    bothStep s { s with status := { s.status with noDisk := d, writeProtected := w } } :=
  .of ⟨rfl, sameWaiters rfl⟩ ⟨rfl, sameWaiters rfl⟩ ⟨rfl, rfl, id, id, id⟩ rfl

theorem refreshInputs_both (s : State) : bothStep s (refreshInputs s).2 :=
  (((cardPresent_both s).trans (setInputs_both _ _ _)).trans (wpActive_both _)).trans (setInputs_both _ _ _)

/-- The lock is granted: the frames allow it, and it belongs to the caller, one deeper. -/
theorem grantLock_call (s : State) : callStep s (grantLock s) :=
  (meanwhile_step s).both.1.trans
    ((show callStep (meanwhile s) { record (.lock s.me) { meanwhile s with lock := lockTaken s } with spiCfg := lockConfig s }
      from ⟨⟨rfl, sameWaiters rfl⟩, rfl, rfl, id, id, id⟩).trans (emit_step _ _).both.1)
theorem grantLock_init (s : State) : initStep s (grantLock s) :=
  (meanwhile_step s).both.2.1.trans
    ((show initStep (meanwhile s) { record (.lock s.me) { meanwhile s with lock := lockTaken s } with spiCfg := lockConfig s }
      from ⟨⟨rfl, sameWaiters rfl⟩, rfl, rfl, id, id, id⟩).trans (emit_step _ _).both.2.1)

/-- The state after `Unlock()` by the lock's owner. -/
def unlocked (s : State) : State := record (.unlock s.me) { meanwhile s with lock := lockReleased s }

/-- The state after the exit sequence of the lock's owner. -/
def left (s : State) : State := unlocked (deselect s)

theorem unlock_eq {s : State} (h : s.lock.owner = some s.me) (hd : 1 ≤ s.lock.depth) : unlock s = .ok () (unlocked s) := by
  simp [unlock, unlocked, h, hd]

/-- The exit sequence cannot fail (60_exceptions.md R324). -/
theorem exitSequence_eq {s : State} (h : s.lock.owner = some s.me) (hd : 1 ≤ s.lock.depth) :
    exitSequence s = .ok () (left s) := unlock_eq (s := deselect s) h hd

theorem unlocked_call (s : State) : callStep s (unlocked s) :=
  (meanwhile_step s).both.1.trans ⟨⟨rfl, sameWaiters rfl⟩, rfl, rfl, id, id, id⟩
theorem unlocked_init (s : State) : initStep s (unlocked s) :=
  (meanwhile_step s).both.2.1.trans ⟨⟨rfl, sameWaiters rfl⟩, rfl, rfl, id, id, id⟩

theorem left_call (s : State) : callStep s (left s) := (deselect_step s).both.1.trans (unlocked_call _)

theorem leave_eq {s : State} (q : Seq) (f : State → HostReturn) (h : s.lock.owner = some s.me) (hd : 1 ≤ s.lock.depth) :
    leave q f s = .ok (f (left (enter q s))) (left (enter q s)) := by
  unfold leave
  rw [exitSequence_eq (s := enter q s) h hd]; rfl

/-! ### Bodies that keep the lock -/

/-- The lock still belongs to whoever had it, no less deep. -/
def lockHeld (s t : State) : Prop := t.lock.owner = s.lock.owner ∧ s.lock.depth ≤ t.lock.depth

theorem lockHeld_of_eq {s t : State} (h : t.lock = s.lock) : lockHeld s t := by simp [lockHeld, h]

theorem lockHeld.trans {s t u : State} (h : lockHeld s t) (k : lockHeld t u) : lockHeld s u :=
  ⟨k.1.trans h.1, h.2.trans k.2⟩

/-- A body that keeps the lock when it returns, and still holds it when it never does. -/
def lockKept {α : Type} (s : State) (x : Res α) : Prop :=
  x.Post (fun _ t => callStep s t ∧ t.lock = s.lock) (fun t => callStep s t ∧ lockHeld s t)

theorem lockKept_ok {α : Type} {s t : State} (a : α) (h : callStep s t) (hl : t.lock = s.lock) :
    lockKept s (Res.ok a t) := ⟨h, hl⟩

theorem lockKept_io {α : Type} {s : State} {x : Res α} (h : x.All (ioStep s)) : lockKept s x :=
  Res.post_mono h.post (fun _ _ k => ⟨k.call, k.1.lock⟩) (fun _ k => ⟨k.call, lockHeld_of_eq k.1.lock⟩)

theorem lockKept_bind {α β : Type} {s : State} {x : Res α} {f : α → State → Res β} (hx : lockKept s x)
    (hf : ∀ a t, callStep s t → t.lock = s.lock → lockKept t (f a t)) : lockKept s (x.bind f) :=
  Res.post_bind hx
    (fun a t h => Res.post_mono (hf a t h.1 h.2) (fun _ _ k => ⟨h.1.trans k.1, k.2.trans h.2⟩)
      (fun _ k => ⟨h.1.trans k.1, (lockHeld_of_eq h.2).trans k.2⟩))
    (fun _ h => h)

theorem lockKept_from {α : Type} {s t : State} {x : Res α} (h : callStep s t) (hl : t.lock = s.lock) (hx : lockKept t x) :
    lockKept s x :=
  Res.post_mono hx (fun _ _ k => ⟨h.trans k.1, k.2.trans hl⟩) (fun _ k => ⟨h.trans k.1, (lockHeld_of_eq hl).trans k.2⟩)

/-- The nested call of ERASE_SECTOR (44_ioctl.md R274): depth one more, and back. -/
theorem innerReadCsd_kept {s : State} (h : s.lock.owner = some s.me) (hd : 1 ≤ s.lock.depth) :
    lockKept s (innerReadCsd s) := by
  have hb := refreshInputs_both (enter .iNested s)
  have h0 : callStep s (refreshInputs (enter .iNested s)).2 := (enter_io (q := .iNested) (by decide) s).call.trans hb.1
  have hl0 : (refreshInputs (enter .iNested s)).2.lock = s.lock := hb.2.2
  refine lockKept_from h0 hl0 ?_
  have hm0 : (refreshInputs (enter .iNested s)).2.me = s.me := h0.1.me
  show lockKept _ (if _ then _ else _)
  generalize (refreshInputs (enter .iNested s)).2 = u at h0 hl0 hm0 ⊢
  split
  · exact lockKept_ok _ (callStep.refl u) rfl
  · have ho : u.lock.owner = some u.me := by rw [hl0, hm0, h]
    have hg : (grantLock u).lock = ⟨u.lock.owner, u.lock.depth + 1⟩ := by simp [lockTaken, ho]
    refine Res.post_bind (Res.All.post (cmd9_step 0#32 (grantLock u))) (fun ok t k => ?_) (fun t k => ?_)
    · have kt : t.lock = ⟨u.lock.owner, u.lock.depth + 1⟩ := k.io.1.lock.trans hg
      have km : t.me = u.me := k.io.1.me
      rw [exitSequence_eq (by rw [kt, km]; exact ho) (by rw [kt]; simp)]
      refine ⟨((grantLock_call u).trans k.io.call).trans (left_call t), ?_⟩
      show lockReleased t = u.lock
      have : 1 ≤ u.lock.depth := by rw [hl0]; exact hd
      simp only [lockReleased, kt]
      rw [if_neg (by simp; omega)]
      rfl
    · exact ⟨(grantLock_call u).trans k.io.call, by rw [lockHeld, k.io.1.lock, hg]; simp⟩

theorem setOut_call (v : U32) (s : State) : callStep s { s with out := v } :=
  ⟨⟨rfl, sameWaiters rfl⟩, rfl, rfl, id, id, id⟩

theorem drawU32_call (s : State) : callStep s (drawU32 s).2 ∧ (drawU32 s).2.lock = s.lock :=
  ⟨⟨⟨rfl, sameWaiters rfl⟩, rfl, rfl, id, id, id⟩, rfl⟩

theorem valueOrDraw_call (v : Option U32) (s : State) : callStep s (valueOrDraw v s).2 ∧ (valueOrDraw v s).2.lock = s.lock := by
  cases v with
  | some x => exact ⟨callStep.refl s, rfl⟩
  | none => exact drawU32_call s

theorem sectorCountValue_call (s : State) :
    callStep s (sectorCountValue s).2 ∧ (sectorCountValue s).2.lock = s.lock := by
  unfold sectorCountValue; split
  · exact valueOrDraw_call _ s
  · exact ⟨callStep.refl s, rfl⟩

theorem blockSizeValue_call (s : State) : callStep s (blockSizeValue s).2 ∧ (blockSizeValue s).2.lock = s.lock := by
  unfold blockSizeValue; split
  · exact valueOrDraw_call _ s
  · split
    · exact drawU32_call s
    · exact ⟨callStep.refl s, rfl⟩

theorem syncBody_kept (s : State) : lockKept s (syncBody s) :=
  lockKept_bind (lockKept_io (Res.all_mono (select_step s) (fun _ h => h.command.io)))
    (fun _ t _ _ => lockKept_ok _ (callStep.refl t) rfl)

theorem sectorCountBody_kept (s : State) : lockKept s (sectorCountBody s) := by
  refine lockKept_bind (lockKept_io (Res.all_mono (cmd9_step 0#32 s) (fun _ h => h.io))) (fun ok t _ _ => ?_)
  split
  · have h := sectorCountValue_call t
    exact lockKept_ok _ (h.1.trans (setOut_call _ _)) h.2
  · exact lockKept_ok _ (callStep.refl t) rfl

theorem blockSizeBody_kept (s : State) : lockKept s (blockSizeBody s) := by
  unfold blockSizeBody
  split
  · refine lockKept_bind (lockKept_io (Res.all_mono (acmd13_step 0#32 s) (fun _ h => h.io))) (fun ok t _ _ => ?_)
    split
    · exact lockKept_ok _ (setOut_call _ t) rfl
    · exact lockKept_ok _ (callStep.refl t) rfl
  · refine lockKept_bind (lockKept_io (Res.all_mono (cmd9_step 0#32 s) (fun _ h => h.io))) (fun ok t _ _ => ?_)
    split
    · have h := blockSizeValue_call t
      exact lockKept_ok _ (h.1.trans (setOut_call _ _)) h.2
    · exact lockKept_ok _ (callStep.refl t) rfl

theorem eraseSequence_kept (st ed : U32) (s : State) : lockKept s (eraseSequence st ed s) := by
  refine lockKept_bind (lockKept_io (Res.all_mono (cmd32_step st s) (fun _ h => h.io))) (fun ok t _ _ => ?_)
  split
  · exact lockKept_ok _ (callStep.refl t) rfl
  · refine lockKept_bind (lockKept_io (Res.all_mono (cmd33_step ed t) (fun _ h => h.io))) (fun ok u _ _ => ?_)
    split
    · exact lockKept_ok _ (callStep.refl u) rfl
    · exact lockKept_bind (lockKept_io (Res.all_mono (cmd38_step 0#32 u) (fun _ h => h.io)))
        (fun _ v _ _ => lockKept_ok _ (callStep.refl v) rfl)

theorem raise_call (c : Cause) (s : State) : callStep s (raise c s) := (raise_step c s).command.io.call

theorem eraseBody_kept {s : State} (start stop : U32) (h : s.lock.owner = some s.me) (hd : 1 ≤ s.lock.depth) :
    lockKept s (eraseBody start stop s) := by
  unfold eraseBody
  split
  · refine lockKept_bind (innerReadCsd_kept h hd) (fun ok t _ _ => ?_)
    refine lockKept_from (enter_io (q := .iBody) (by decide) t).call rfl ?_
    show lockKept _ (if _ then _ else _)
    split
    · split
      · exact lockKept_ok _ (raise_call _ _) rfl
      · exact lockKept_ok _ (callStep.refl _) rfl
    · split
      · exact eraseSequence_kept _ _ _
      · exact lockKept_ok _ (raise_call _ _) rfl
  · exact lockKept_ok _ (raise_call _ s) rfl

theorem codeBody_kept {s : State} (code : Byte) (start stop : U32) (h : s.lock.owner = some s.me) (hd : 1 ≤ s.lock.depth) :
    lockKept s (codeBody code start stop s) := by
  unfold codeBody
  split
  · exact syncBody_kept s
  · exact sectorCountBody_kept s
  · exact blockSizeBody_kept s
  · exact eraseBody_kept start stop h hd
  · exact lockKept_ok _ (callStep.refl s) rfl

/-! ### How a call ends that has the lock -/

/-- The end of a data call: through the exit sequence, or never, with the lock and a place in the operation kept. -/
def callEnds (s : State) (x : Res HostReturn) : Prop :=
  x.Post (fun _ t => callStep s t ∧ t.cs = .deasserted ∧ t.lock = lockReleased s)
    (fun t => callStep s t ∧ lockHeld s t ∧ t.seq ≠ .idle)

theorem lockReleased_congr {s t : State} (h : t.lock = s.lock) : lockReleased t = lockReleased s := by
  simp [lockReleased, h]

theorem callEnds_leave {α : Type} {s : State} {x : Res α} (q : Seq) (g : α → State → HostReturn) (h : s.lock.owner = some s.me)
    (hd : 1 ≤ s.lock.depth) (hs : s.seq ≠ .idle) (hq : q ≠ .idle) (hx : lockKept s x) :
    callEnds s (x.bind fun a t => leave q (g a) t) := by
  refine Res.post_bind hx (fun a t k => ?_) (fun t k => ⟨k.1, k.2, k.1.2.seq hs⟩)
  have hm : t.me = s.me := k.1.1.me
  rw [leave_eq q (g a) (by rw [k.2, hm]; exact h) (by rw [k.2]; exact hd)]
  exact ⟨(k.1.trans (enter_io hq t).call).trans (left_call _), rfl, lockReleased_congr k.2⟩

theorem callEnds_from {s t : State} {x : Res HostReturn} (h : callStep s t) (hl : t.lock = s.lock) (hx : callEnds t x) :
    callEnds s x :=
  Res.post_mono hx (fun _ _ k => ⟨h.trans k.1, k.2.1, k.2.2.trans (lockReleased_congr hl)⟩)
    (fun _ k => ⟨h.trans k.1, (lockHeld_of_eq hl).trans k.2.1, k.2.2⟩)

theorem setUp_io (b : Nat) (a r : U32) (o : Nat) (s : State) :
    ioStep s { s with bufBase := b, addr := a, remaining := r, off := o } := ⟨⟨rfl, heard.same rfl⟩, rfl, rfl, id, id, id⟩

theorem readBody_ends {s : State} (buf sector count : U32) (h : s.lock.owner = some s.me) (hd : 1 ≤ s.lock.depth) :
    callEnds s (readBody buf sector count s) :=
  callEnds_from ((enter_io (q := .rLock) (by decide) s).call.trans (setUp_io _ _ _ _ _).call) rfl
    (callEnds_leave (s := { enter .rLock s with bufBase := _, addr := _, remaining := _, off := _ }) .rExit
      (fun _ => transferResult) h hd (by simp) (by decide) (lockKept_io (readLoop_step _ _)))

theorem writeBody_ends {s : State} (buf sector count : U32) (h : s.lock.owner = some s.me) (hd : 1 ≤ s.lock.depth) :
    callEnds s (writeBody buf sector count s) :=
  callEnds_from ((enter_io (q := .wLock) (by decide) s).call.trans (setUp_io _ _ _ _ _).call) rfl
    (callEnds_leave (s := { enter .wLock s with bufBase := _, addr := _, remaining := _, off := _ }) .wExit
      (fun _ => transferResult) h hd (by simp) (by decide) (by
        split
        · exact lockKept_io (writeSingle_step _)
        · exact lockKept_io (writeMulti_step _ _)))

theorem ioctlBody_ends {s : State} (code : Byte) (start stop : U32) (h : s.lock.owner = some s.me) (hd : 1 ≤ s.lock.depth) :
    callEnds s (ioctlBody code start stop s) :=
  callEnds_from (enter_io (q := .iBody) (by decide) s).call rfl
    (callEnds_leave (s := enter .iBody s) .iExit (fun r _ => .result r) h hd (by simp) (by decide)
      (codeBody_kept (s := enter .iBody s) code start stop h hd))

/-! ### The probe -/

/-- `blockAddressed` only with SD2 (10_state.md R21). -/
def Card.legal (c : Card) : Prop := c.blockAddressed = true → c.type = .sd2

theorem probeSd2_legal (w : Window) (s : State) : (probeSd2 w s).Post (fun c _ => c.legal) (fun _ => True) := by
  unfold probeSd2; split
  · exact fun h => by cases h
  · refine Res.post_bind (P := fun _ _ => True) (H := fun _ => True) ?_ (fun r t _ => ?_) (fun _ h => h)
    · generalize poll w .pPollSd2 0xA9#8 s.cfg.acmd41HcsArg s = x
      cases x <;> trivial
    · split
      · exact fun h => by cases h
      · refine Res.post_bind (P := fun _ _ => True) (H := fun _ => True) ?_ (fun r u _ => ?_) (fun _ h => h)
        · generalize cmd58 true 0#32 (enter .pCmd58 t) = x
          cases x <;> trivial
        · split
          · exact fun _ => rfl
          · exact fun h => by cases h

theorem probeV1_legal (w : Window) (s : State) : (probeV1 w s).Post (fun c _ => c.legal) (fun _ => True) := by
  have any : ∀ {α : Type} (x : Res α), x.Post (fun _ _ => True) (fun _ => True) := by
    intro α x; cases x <;> trivial
  refine Res.post_bind (any _) (fun r t _ => ?_) (fun _ h => h)
  refine Res.post_bind (any _) (fun r' t _ => ?_) (fun _ h => h)
  split
  · exact fun h => by cases h
  · refine Res.post_bind (any _) (fun r u _ => ?_) (fun _ h => h)
    split
    · exact fun h => by cases h
    · exact fun h => by cases h

theorem probeCard_legal (s : State) : (probeCard s).Post (fun c _ => c.legal) (fun _ => True) := by
  have any : ∀ {α : Type} (x : Res α), x.Post (fun _ _ => True) (fun _ => True) := by
    intro α x; cases x <;> trivial
  refine Res.post_bind (any _) (fun r t _ => ?_) (fun _ h => h)
  split
  · exact fun h => by cases h
  · refine Res.post_bind (any _) (fun r u _ => ?_) (fun _ h => h)
    refine Res.post_bind (P := fun c _ => c.legal) (H := fun _ => True) ?_ (fun c v k => k) (fun _ h => h)
    split
    · exact probeSd2_legal _ u
    · exact probeV1_legal _ u

/-- What the probe leaves: the card legal, `NotInitialized` exactly with Unknown. -/
def cardSettled (t : State) : Prop :=
  t.card.legal ∧ t.status.notInitialized = (t.card.type == .unknown)

theorem recordCard_step (c : Card) (s : State) : initStep s (recordCard c s) := by
  have h1 : initStep s { enter .pRecord s with card := c } :=
    ⟨⟨rfl, sameWaiters rfl⟩, rfl, rfl, id, fun _ => (show Seq.pRecord ≠ Seq.idle by decide), id⟩
  have h3 : ∀ u : State, ∀ d : DriveStatus, initStep u { u with status := d } := fun u d =>
    ⟨⟨rfl, sameWaiters rfl⟩, rfl, rfl, id, id, id⟩
  unfold recordCard
  generalize hu : meanwhile (deselect { enter .pRecord s with card := c }) = u
  have h2 : initStep s u := by
    rw [← hu]
    exact (h1.trans (deselect_step _).body.init).trans (meanwhile_step _).body.init
  exact ((h2.trans (h3 _ _)).trans (wpActive_both _).2.1).trans (h3 _ _)

theorem recordCard_spec (c : Card) (s : State) : (recordCard c s).card = c ∧ (recordCard c s).cs = .deasserted ∧
    (recordCard c s).lock = s.lock ∧ (recordCard c s).status.notInitialized = (c.type == .unknown) := by
  unfold recordCard wpActive readWp
  dsimp only
  split <;> exact ⟨rfl, rfl, rfl, rfl⟩

/-- The end of `initialize` with the lock: through the exit, the card settled, or never. -/
def initEnds (s : State) (x : Res HostReturn) : Prop :=
  x.Post (fun _ t => initStep s t ∧ t.cs = .deasserted ∧ t.lock = lockReleased s ∧ cardSettled t)
    (fun t => initStep s t ∧ lockHeld s t ∧ t.seq ≠ .idle ∧ t.card = s.card ∧
      t.status.notInitialized = s.status.notInitialized)

/-- The state after the last statements of `initialize`. -/
def probeLeft (s : State) : State := meanwhile (unlocked (setSpeed .high (enter .pDone s)))

theorem probeDone_eq {s : State} (h : s.lock.owner = some s.me) (hd : 1 ≤ s.lock.depth) :
    probeDone s = .ok (.drive (probeLeft s).status) (probeLeft s) := by
  unfold probeDone
  rw [unlock_eq (s := setSpeed .high (enter .pDone s)) h hd]; rfl

theorem setSpeed_init (sp : Speed) (s : State) : initStep s (setSpeed sp s) :=
  (show initStep s { s with speedSel := sp, spiCfg := { s.spiCfg with speed := speedOf s.cfg sp } } from
    ⟨⟨rfl, sameWaiters rfl⟩, rfl, rfl, id, id, id⟩).trans (emit_step _ _).body.init

theorem probeLeft_init (s : State) : initStep s (probeLeft s) :=
  (((enter_step (q := .pDone) (by decide) s).init.trans (setSpeed_init _ _)).trans (unlocked_init _)).trans
    (meanwhile_step _).body.init

/-- What the last statements of `initialize` leave: the lock released, the card record and NotInitialized as they stood. -/
theorem probeLeft_spec (s : State) : (probeLeft s).cs = s.cs ∧ (probeLeft s).lock = lockReleased s ∧
    (probeLeft s).card = s.card ∧ (probeLeft s).status.notInitialized = s.status.notInitialized :=
  ⟨rfl, rfl, rfl, rfl⟩

/-- The start of `initialize` (R201, R202), up to P_PRE. -/
def probeEntry (s : State) : State := enter .pPre (sendDummies s.cfg.initIdleBytes (setSpeed .low (enter .pClocks s)))

theorem probeEntry_init (s : State) : initStep s (probeEntry s) :=
  (((enter_step (q := .pClocks) (by decide) s).init.trans (setSpeed_init _ _)).trans
    (sendDummies_step s.cfg.initIdleBytes (setSpeed .low (enter .pClocks s))).body.init).trans
    (enter_step (q := .pPre) (by decide) _).init

theorem probeEntry_spec (s : State) : (probeEntry s).lock = s.lock ∧ (probeEntry s).card = s.card ∧
    (probeEntry s).status.notInitialized = s.status.notInitialized ∧ (probeEntry s).seq ≠ .idle := by
  have hf := sendDummies_step s.cfg.initIdleBytes (setSpeed .low (enter .pClocks s))
  unfold probeEntry
  refine ⟨?_, ?_, ?_, by simp⟩ <;> · rw [hf.1.1]; rfl

theorem probeBody_entry (s : State) : probeBody s = (preCmd0 (probeEntry s).cfg.nCmd0Pre (probeEntry s)).bind fun _ s =>
    (probeCard s).bind fun c s => probeDone (recordCard c s) := rfl

/-- How the probe settles the card and leaves, from a state that holds the lock. -/
theorem probeRecord_ends {u v : State} (c : Card) (h : v.lock.owner = some v.me) (hd : 1 ≤ v.lock.depth)
    (hl : v.lock = u.lock) (hi : initStep u v) (hc : c.legal) : initEnds u (probeDone (recordCard c v)) := by
  have rs := recordCard_spec c v
  have ri := recordCard_step c v
  have rm : (recordCard c v).me = v.me := ri.1.me
  generalize recordCard c v = r at rs ri rm ⊢
  have rl : r.lock = v.lock := rs.2.2.1
  have ls := probeLeft_spec r
  have li := probeLeft_init r
  rw [probeDone_eq (by rw [rl, rm]; exact h) (by rw [rl]; exact hd)]
  generalize probeLeft r = w at ls li ⊢
  refine ⟨(hi.trans ri).trans li, ls.1.trans rs.2.1, ls.2.1.trans (lockReleased_congr (rl.trans hl)), ?_⟩
  refine ⟨by rw [ls.2.2.1, rs.1]; exact hc, ?_⟩
  rw [ls.2.2.2, ls.2.2.1, rs.1]; exact rs.2.2.2

theorem bodyFrame.card {s t : State} (h : bodyFrame s t) : t.card = s.card := by rw [h.1]
theorem bodyFrame.notInitialized {s t : State} (h : bodyFrame s t) : t.status.notInitialized = s.status.notInitialized := by
  rw [h.1]

theorem probeBody_ends {s : State} (h : s.lock.owner = some s.me) (hd : 1 ≤ s.lock.depth) :
    initEnds s (probeBody s) := by
  have h0 := probeEntry_init s
  obtain ⟨h1, h2, h3, h4⟩ := probeEntry_spec s
  rw [probeBody_entry]
  generalize probeEntry s = u at h0 h1 h2 h3 h4 ⊢
  have hang : ∀ t, bodyStep u t →
      initStep s t ∧ lockHeld s t ∧ t.seq ≠ .idle ∧ t.card = s.card ∧
        t.status.notInitialized = s.status.notInitialized := fun t k =>
    ⟨h0.trans k.init, lockHeld_of_eq (by rw [k.1.lock, h1]), k.2.seq h4, k.1.card.trans h2,
      k.1.notInitialized.trans h3⟩
  refine Res.post_bind (Res.All.post (Res.all_mono (preCmd0_step _ u) (fun _ k => k.body))) (fun _ t k => ?_) hang
  have hb : (probeCard t).Post (fun c v => bodyStep u v ∧ c.legal) (bodyStep u) := by
    have p1 := Res.all_mono (probeCard_step t) (fun v q => k.trans q)
    have p2 := probeCard_legal t
    generalize probeCard t = x at p1 p2
    cases x with
    | ok c v => exact ⟨p1, p2⟩
    | hang w v => exact p1
    | fault e => trivial
    | refuse r => trivial
  refine Res.post_bind hb (fun c v q => ?_) hang
  have hm : v.me = s.me := by rw [q.1.1.me, h0.1.me]
  have hl : v.lock = s.lock := by rw [q.1.1.lock, h1]
  exact probeRecord_ends c (by rw [hl, hm]; exact h) (by rw [hl]; exact hd) hl (h0.trans q.1.init) q.2

end Sys2Proof.Machine
end

