-- ==== Sys2Proof/Laws/Time.lean ====
section
/-! SUPPORT. Windows and polls: elapsed time across a wrap of the counter, polls through busy bytes, and that polls end when
the tick counter advances (70_reset_and_hazards.md R363, R367). -/

namespace Sys2Proof.Machine

set_option Elab.async false

open Sys2Proof

/-! ### Elapsed time -/

/-- An advance by `a` adds `a` to the elapsed time, as long as the counter does not lap the window (R367). -/
theorem elapsed_advance {c : Config} {start t a : Nat} (hs : start < tickModulus c) (ht : t < tickModulus c)
    (h : elapsed c start t + a < tickModulus c) :
    elapsed c start ((t + a) % tickModulus c) = elapsed c start t + a := by
  have hM := tickModulus_pos c
  unfold elapsed at *
  generalize tickModulus c = M at *
  rcases Nat.lt_or_ge t start with h1 | h1
  · rw [Nat.mod_eq_of_lt (show t + M - start < M by omega)] at h ⊢
    rw [Nat.mod_eq_of_lt (show t + a < M by omega)]
    rw [Nat.mod_eq_of_lt (by omega)]
    omega
  · rw [show t + M - start = (t - start) + M by omega, Nat.add_mod_right,
      Nat.mod_eq_of_lt (show t - start < M by omega)] at h ⊢
    rcases Nat.lt_or_ge (t + a) M with h2 | h2
    · rw [Nat.mod_eq_of_lt h2, show t + a + M - start = (t - start + a) + M by omega, Nat.add_mod_right,
        Nat.mod_eq_of_lt h]
    · rw [Nat.mod_eq_sub_mod h2, Nat.mod_eq_of_lt (show t + a - M < M by omega)]
      rw [Nat.mod_eq_of_lt (by omega)]
      omega

theorem elapsed_self (c : Config) (t : Nat) : elapsed c t t = 0 := by
  unfold elapsed
  rw [Nat.add_sub_cancel_left, Nat.mod_self]

theorem elapsed_lt (c : Config) (a t : Nat) : elapsed c a t < tickModulus c := Nat.mod_lt _ (tickModulus_pos c)

/-- The reading at which that much has elapsed. -/
theorem tick_of_elapsed {c : Config} {start t k : Nat} (hs : start < tickModulus c) (ht : t < tickModulus c)
    (h : elapsed c start t = k) : t = (start + k) % tickModulus c := by
  have hM := tickModulus_pos c
  subst h
  unfold elapsed
  rw [Nat.add_mod_mod, show start + (t + tickModulus c - start) = t + tickModulus c by omega, Nat.add_mod_right,
    Nat.mod_eq_of_lt ht]

/-- The tick reading when `j` advances have passed since a window was set with the reading after `s`. -/
theorem windowTick (ms : U32) {s : State} {a j t : Nat} (ha : s.tickAdv = ⟨[], a⟩) (ht : t < tickModulus s.cfg)
    (h : elapsed s.cfg (startWindow ms s).1.start t = j * a) : t = (s.tick + (j + 1) * a) % tickModulus s.cfg := by
  have hst : (startWindow ms s).1.start = (s.tick + a) % tickModulus s.cfg := by
    show (s.tick + s.tickAdv.pop.1) % _ = _
    rw [ha]; rfl
  rw [hst] at h
  rw [tick_of_elapsed (Nat.mod_lt _ (tickModulus_pos _)) ht h, Nat.mod_add_mod, Nat.add_mul]
  congr 1; omega

/-! ### A poll through busy bytes -/

/-- `waitReady`'s loop skips bytes that are not 0xFF while its window is open; each costs one reading of a tick counter that
advances by `a`. -/
theorem waitReadyLoop_busy {bs rest : List Byte} {w : Window} {a : Nat} (hb : ∀ b ∈ bs, b ≠ readyByte) (hr : rest ≠ [])
    (k : Nat) {s : State} (ha : s.tickAdv = ⟨[], a⟩) (h : s.rx.next = bs ++ rest) (hq : quiet s := by assumption) (hw : w.start < tickModulus s.cfg)
    (ht : s.tick < tickModulus s.cfg)
    (hT : bs = [] ∨ elapsed s.cfg w.start s.tick + bs.length * a < w.durationMs.toNat)
    (hM : elapsed s.cfg w.start s.tick + bs.length * a < tickModulus s.cfg) :
    ∃ t, waitReadyLoop (bs.length + k) w s = waitReadyLoop k w t ∧
      t = { s with rx := { s.rx with next := rest }, tick := t.tick, events := t.events } ∧
      t.tick < tickModulus s.cfg ∧ elapsed s.cfg w.start t.tick = elapsed s.cfg w.start s.tick + bs.length * a ∧
      t.sent = s.sent ++ List.replicate bs.length s.cfg.dummy := by
  induction bs generalizing s with
  | nil =>
    simp only [List.nil_append] at h
    exact ⟨s, by simp, by rw [← h], ht, by simp, by simp⟩
  | cons b u ih =>
    have hT : elapsed s.cfg w.start s.tick + (b :: u).length * a < w.durationMs.toNat := by simpa using hT
    simp only [List.length_cons, Nat.add_mul, Nat.one_mul] at hT hM
    have hx : xchg s.cfg.dummy s = (b, exchanged [s.cfg.dummy] [b] (u ++ rest) s) := xchg_answered h
    have hbne : b ≠ readyByte := hb b (by simp)
    have hpop : s.tickAdv.pop = (a, s.tickAdv) := by rw [ha]; rfl
    have he1 : elapsed s.cfg w.start ((s.tick + a) % tickModulus s.cfg) = elapsed s.cfg w.start s.tick + a :=
      elapsed_advance hw ht (by omega)
    generalize hy : exchanged [s.cfg.dummy] [b] (u ++ rest) s = y at hx
    have hcfg : y.cfg = s.cfg := by rw [← hy]; rfl
    have hadv : y.tickAdv = s.tickAdv := by rw [← hy]; rfl
    have hn : (now y).1 = (s.tick + a) % tickModulus s.cfg := by
      show (y.tick + y.tickAdv.pop.1) % tickModulus y.cfg = _
      rw [hcfg, hadv, hpop, ← hy]; rfl
    have hexp : (expired w y).1 = false := by
      show decide (w.durationMs.toNat ≤ elapsed y.cfg w.start (now y).1) = false
      rw [hcfg, hn, he1, decide_eq_false (by omega)]
    let v := delay y.cfg.pollDelayMs (now y).2
    have hvt : v.tick = (s.tick + a) % tickModulus s.cfg := hn
    have hvc : v.cfg = s.cfg := hcfg
    have hva : v.tickAdv = s.tickAdv := by show y.tickAdv.pop.2 = _; rw [hadv, hpop]
    have hvr : v.rx = { s.rx with next := u ++ rest } := by show y.rx = _; rw [← hy]; rfl
    have hnf : readyNever v = false := by simp [readyNever, frozen, hvr, hr]
    have hyq : quiet y := by rw [← hy]; exact hq
    have hve : v = { y with
        tick := v.tick, tickAdv := v.tickAdv, events := .delay y.cfg.pollDelayMs :: .now (now y).1 :: y.events } :=
      delay_now_quiet _ hyq
    have hv : v = { s with rx := v.rx, tick := v.tick, events := v.events } := by
      rw [hve, hva, ← hy]; rfl
    have hvs : v.sent = s.sent ++ [s.cfg.dummy] := by rw [hve]; simp [State.sent, ← hy, exchanged, Event.sent]
    obtain ⟨t, h1, h2, h3, h4, h5⟩ := ih (s := v) (fun c hc => hb c (by simp [hc])) (by rw [hva, ha]) (by rw [hvr])
      (by rw [hv]; exact hq) (by rw [hvc]; exact hw) (by rw [hvc, hvt]; exact Nat.mod_lt _ (tickModulus_pos _))
      (by right; rw [hvc, hvt, he1]; omega) (by rw [hvc, hvt, he1]; omega)
    refine ⟨t, ?_, ?_, ?_, ?_, ?_⟩
    · rw [show (b :: u).length + k = (u.length + k) + 1 by simp; omega, waitReadyLoop, hx]
      simp only [hbne, if_false, hexp, Bool.false_eq_true]
      rw [show s.cfg.pollDelayMs = y.cfg.pollDelayMs by rw [hcfg], show (expired w y).2 = (now y).2 from rfl]
      show (if readyNever v = true then _ else waitReadyLoop (u.length + k) w v) = _
      rw [hnf]; exact h1
    · rw [hvr] at h2; rw [h2, hv]
    · rw [hvc] at h3; exact h3
    · rw [hvc, hvt, he1] at h4; rw [h4]; simp [Nat.add_mul]; omega
    · rw [h5, hvc, hvs]; simp [List.replicate_succ]

/-- The start of a window and the polls of its first busy bytes. -/
theorem startWindow_busy {ms : U32} {bs rest : List Byte} {a : Nat} {s : State} (hb : busyFor bs ms.toNat a s)
    (hr : rest ≠ []) (h : s.rx.next = bs ++ rest) (hq : quiet s := by assumption) :
    ∃ j t, waitReady ms s = (waitReadyLoop (j + 1) (startWindow ms s).1 t).bind (fun ok s => .ok ok (closeWindow s)) ∧
      t = { s with
        rx := { s.rx with next := rest }, tick := t.tick, events := t.events, wins := (startWindow ms s).1 :: s.wins } ∧
      t.tick < tickModulus s.cfg ∧ elapsed s.cfg (startWindow ms s).1.start t.tick = bs.length * a ∧
      t.sent = s.sent ++ List.replicate bs.length s.cfg.dummy := by
  obtain ⟨ha, hne, hT, hM⟩ := hb
  rw [Nat.add_mul] at hM
  have hpop : s.tickAdv.pop = (a, s.tickAdv) := by rw [ha]; rfl
  have hel : elapsed s.cfg (startWindow ms s).1.start (startWindow ms s).2.tick = 0 := elapsed_self _ _
  have hw := startWindow_quiet ms hq
  have hsw : (startWindow ms s).2.sent = s.sent := by rw [hw]; simp [State.sent, Event.sent]
  have hadv : (startWindow ms s).2.tickAdv = s.tickAdv := by show s.tickAdv.pop.2 = _; rw [hpop]
  have hlen : (startWindow ms s).2.rx.next.length = bs.length + rest.length := by
    show s.rx.next.length = _; rw [h]; simp
  obtain ⟨j, hj⟩ : ∃ j, pollFuel (startWindow ms s).2 = bs.length + (j + 1) :=
    ⟨rest.length + (startWindow ms s).2.tickAdv.next.length + tickModulus (startWindow ms s).2.cfg, by
      unfold pollFuel; rw [hlen]; omega⟩
  obtain ⟨t, h1, h2, h3, h4, h5⟩ := waitReadyLoop_busy (w := (startWindow ms s).1) (a := a) hne hr (j + 1)
    (s := (startWindow ms s).2) (by rw [hadv, ha]) h ((startWindow_step ms s).quiet hq) (Nat.mod_lt _ (tickModulus_pos _)) (Nat.mod_lt _ (tickModulus_pos _))
    (hT.imp_right fun h => by
      show elapsed s.cfg _ _ + _ < ms.toNat
      rw [hel]; omega)
    (by show elapsed s.cfg _ _ + _ < tickModulus s.cfg; rw [hel]; omega)
  refine ⟨j, t, ?_, ?_, h3, ?_, ?_⟩
  · unfold waitReady; dsimp only; rw [hj, h1]
  · rw [h2]
    have : (startWindow ms s).2 = { s with
        tick := (startWindow ms s).2.tick, tickAdv := (startWindow ms s).2.tickAdv
        events := (startWindow ms s).2.events, wins := (startWindow ms s).1 :: s.wins } := by rw [hw]; rfl
    rw [this, hadv]
  · rw [show elapsed s.cfg (startWindow ms s).1.start t.tick = _ from h4]
    show elapsed s.cfg _ _ + _ = _
    rw [hel]; omega
  · rw [h5, hsw]; rfl

/-- `waitReady` finds the card ready after the busy bytes. -/
theorem waitReady_afterBusy {ms : U32} {bs rest : List Byte} {a : Nat} {s : State} (hb : busyFor bs ms.toNat a s)
    (h : s.rx.next = bs ++ 0xFF#8 :: rest) (hq : quiet s := by assumption) :
    ∃ t, waitReady ms s = .ok true t ∧
      t = { s with rx := { s.rx with next := rest }, tick := t.tick, events := t.events } ∧
      t.sent = s.sent ++ List.replicate (bs.length + 1) s.cfg.dummy ∧
      t.tick = (s.tick + (bs.length + 1) * a) % tickModulus s.cfg := by
  obtain ⟨j, t, h1, h2, h3, h4, h5⟩ := startWindow_busy hb (by simp) h
  have hcfg : t.cfg = s.cfg := by rw [h2]
  have htq : quiet t := by rw [h2]; exact hq
  refine ⟨closeWindow (exchanged [t.cfg.dummy] [0xFF#8] rest t), ?_, ?_, ?_, ?_⟩
  · rw [h1, waitReadyLoop_ready (j := j) (rest := rest) (s := t) (by rw [h2])]; rfl
  · have : ∀ e, closeWindow (exchanged [e] [0xFF#8] rest t) = { t with
        rx := { t.rx with next := rest }, events := .xchg e 0xFF#8 :: t.events, wins := t.wins.tail } := fun _ => rfl
    rw [this, h2]; rfl
  · have : (closeWindow (exchanged [t.cfg.dummy] [0xFF#8] rest t)).sent = t.sent ++ [s.cfg.dummy] := by
      simp [State.sent, exchanged, Event.sent, hcfg]
    rw [this, h5]; simp [List.replicate_succ']
  · exact windowTick ms hb.1 h3 h4

/-- `waitReady` gives up when its window is over at a poll that found the card busy. -/
theorem waitReady_expires {ms : U32} {bs rest : List Byte} {a : Nat} {b : Byte} {s : State} (hb : busyFor bs ms.toNat a s)
    (hne : b ≠ 0xFF#8) (hms : ms.toNat ≤ (bs.length + 1) * a) (h : s.rx.next = bs ++ b :: rest) (hq : quiet s := by assumption) :
    ∃ t, waitReady ms s = .ok false t ∧
      t = { s with
        rx := { s.rx with next := rest }, tick := t.tick, events := t.events, cause := .timeout .waitReady } ∧
      t.sent = s.sent ++ List.replicate (bs.length + 1) s.cfg.dummy ∧
      t.tick = (s.tick + (bs.length + 2) * a) % tickModulus s.cfg := by
  obtain ⟨j, t, h1, h2, h3, h4, h5⟩ := startWindow_busy hb (by simp) h
  obtain ⟨ha, -, -, hM⟩ := hb
  rw [Nat.add_mul, Nat.one_mul] at hM hms
  have hcfg : t.cfg = s.cfg := by rw [h2]
  have htq : quiet t := by rw [h2]; exact hq
  have hadv : t.tickAdv = s.tickAdv := by rw [h2]
  have hpop : s.tickAdv.pop = (a, s.tickAdv) := by rw [ha]; rfl
  have hx : xchg t.cfg.dummy t = (b, exchanged [t.cfg.dummy] [b] rest t) := xchg_answered (by rw [h2])
  generalize hy : exchanged [t.cfg.dummy] [b] rest t = y at hx
  have hyc : y.cfg = s.cfg := by rw [← hy]; exact hcfg
  have hyq : quiet y := by rw [← hy]; exact htq
  have hn : (now y).1 = (t.tick + a) % tickModulus s.cfg := by
    show (y.tick + y.tickAdv.pop.1) % tickModulus y.cfg = _
    rw [hyc, show y.tickAdv = t.tickAdv by rw [← hy]; rfl, hadv, hpop, show y.tick = t.tick by rw [← hy]; rfl]
  have he : elapsed s.cfg (startWindow ms s).1.start ((t.tick + a) % tickModulus s.cfg) = bs.length * a + a := by
    have hst : (startWindow ms s).1.start < tickModulus s.cfg := Nat.mod_lt _ (tickModulus_pos _)
    rw [elapsed_advance hst h3 (by rw [h4]; omega), h4]
  have hexp : (expired (startWindow ms s).1 y).1 = true := by
    show decide (ms.toNat ≤ elapsed y.cfg (startWindow ms s).1.start (now y).1) = true
    rw [hyc, hn, he, decide_eq_true (by omega)]
  refine ⟨closeWindow (raise (.timeout .waitReady) (now y).2), ?_, ?_, ?_, ?_⟩
  · rw [h1, waitReadyLoop, hx]
    simp only [show b ≠ readyByte from hne, if_false, hexp, if_true]
    rfl
  · have : closeWindow (raise (.timeout .waitReady) (now y).2) = { y with
        tick := (now y).1, tickAdv := y.tickAdv.pop.2, events := .now (now y).1 :: y.events, wins := y.wins.tail
        cause := .timeout .waitReady } := by rw [now_quiet hyq]; rfl
    rw [this, show y.tickAdv = t.tickAdv by rw [← hy]; rfl, hadv, hpop, ← hy]
    simp only [exchanged]
    rw [h2]; rfl
  · have : (closeWindow (raise (.timeout .waitReady) (now y).2)).sent = t.sent ++ [s.cfg.dummy] := by
      rw [now_quiet hyq]; simp [State.sent, ← hy, exchanged, Event.sent, hcfg]
    rw [this, h5]; simp [List.replicate_succ']
  · show (now y).1 = _
    rw [hn, windowTick ms ha h3 h4, Nat.mod_add_mod]
    congr 1; rw [Nat.add_mul (bs.length) 2, Nat.add_mul]; omega

/-- The token poll goes on through bytes 0xFF while its window is open. -/
theorem tokenLoop_idle {j : Nat} {rest : List Byte} {w : Window} {a : Nat} (hr : rest ≠ []) (k : Nat) {s : State}
    (ha : s.tickAdv = ⟨[], a⟩) (h : s.rx.next = List.replicate j 0xFF#8 ++ rest) (hq : quiet s := by assumption) (hw : w.start < tickModulus s.cfg)
    (ht : s.tick < tickModulus s.cfg) (hT : j = 0 ∨ elapsed s.cfg w.start s.tick + j * a < w.durationMs.toNat)
    (hM : elapsed s.cfg w.start s.tick + j * a < tickModulus s.cfg) :
    ∃ t, tokenLoop (j + k) w s = tokenLoop k w t ∧ t.rx = { s.rx with next := rest } ∧ t.tick < tickModulus s.cfg ∧
      elapsed s.cfg w.start t.tick = elapsed s.cfg w.start s.tick + j * a ∧ t.wins = s.wins ∧
      t.sent = s.sent ++ List.replicate j s.cfg.dummy ∧
      t = { s with rx := t.rx, tick := t.tick, tok := t.tok, events := t.events } := by
  induction j generalizing s with
  | zero =>
    simp only [List.replicate_zero, List.nil_append] at h
    exact ⟨s, by simp, by rw [← h], ht, by simp, rfl, by simp, rfl⟩
  | succ i ih =>
    have hT : elapsed s.cfg w.start s.tick + (i + 1) * a < w.durationMs.toNat := by simpa using hT
    simp only [Nat.add_mul, Nat.one_mul] at hT hM
    rw [List.replicate_succ, List.cons_append] at h
    have hx := xchg_answered (b := s.cfg.dummy) h
    have hpop : s.tickAdv.pop = (a, s.tickAdv) := by rw [ha]; rfl
    have he1 : elapsed s.cfg w.start ((s.tick + a) % tickModulus s.cfg) = elapsed s.cfg w.start s.tick + a :=
      elapsed_advance hw ht (by omega)
    generalize hu : ({ exchanged [s.cfg.dummy] [0xFF#8] (List.replicate i 0xFF#8 ++ rest) s with tok := 0xFF#8 } : State) = u
    have hcfg : u.cfg = s.cfg := by rw [← hu]; rfl
    have hadv : u.tickAdv = s.tickAdv := by rw [← hu]; rfl
    have htick : u.tick = s.tick := by rw [← hu]; rfl
    have hn : (now u).1 = (s.tick + a) % tickModulus s.cfg := by
      show (u.tick + u.tickAdv.pop.1) % tickModulus u.cfg = _
      rw [hcfg, hadv, htick, hpop]
    have hexp : (expired w u).1 = false := by
      show decide (w.durationMs.toNat ≤ elapsed u.cfg w.start (now u).1) = false
      rw [hcfg, hn, he1, decide_eq_false (by omega)]
    let v := delay u.cfg.pollDelayMs (now u).2
    have hvt : v.tick = (s.tick + a) % tickModulus s.cfg := hn
    have hvc : v.cfg = s.cfg := hcfg
    have hva : v.tickAdv = s.tickAdv := by show u.tickAdv.pop.2 = _; rw [hadv, hpop]
    have hvr : v.rx = { s.rx with next := List.replicate i 0xFF#8 ++ rest } := by
      show u.rx = _; rw [← hu]; rfl
    have huq : quiet u := by rw [← hu]; exact hq
    have hve : v = { u with
        tick := v.tick, tickAdv := v.tickAdv, events := .delay u.cfg.pollDelayMs :: .now (now u).1 :: u.events } :=
      delay_now_quiet _ huq
    have hnf : tokenNever v = false := by simp [tokenNever, frozen, hvr, hr]
    obtain ⟨t, h1, h2, h3, h4, h5, h6, h7⟩ := ih (s := v) (by rw [hva, ha]) (by rw [hvr]) (by rw [hve]; exact huq) (by rw [hvc]; exact hw)
      (by rw [hvc, hvt]; exact Nat.mod_lt _ (tickModulus_pos _)) (by right; rw [hvc, hvt, he1]; omega)
      (by rw [hvc, hvt, he1]; omega)
    refine ⟨t, ?_, ?_, ?_, ?_, ?_, ?_, ?_⟩
    · rw [show i + 1 + k = (i + k) + 1 by omega, tokenLoop, hx]
      simp only [ne_eq, not_true_eq_false, if_false]
      rw [hu, hexp]
      simp only [Bool.false_eq_true, if_false]
      have hd : (exchanged [s.cfg.dummy] [0xFF#8] (List.replicate i 0xFF#8 ++ rest) s).cfg.pollDelayMs = u.cfg.pollDelayMs := by
        rw [hcfg]; rfl
      rw [hd, show (expired w u).2 = (now u).2 from rfl]
      show (if tokenNever v = true then _ else tokenLoop (i + k) w v) = _
      rw [hnf]; exact h1
    · rw [h2, hvr]
    · rw [hvc] at h3; exact h3
    · rw [hvc, hvt, he1] at h4; rw [h4]; simp [Nat.add_mul]; omega
    · rw [h5]; show u.wins = _; rw [← hu]; rfl
    · rw [h6, hvc]
      have : v.sent = s.sent ++ [s.cfg.dummy] := by
        rw [hve]; simp [State.sent, ← hu, exchanged, Event.sent]
      rw [this]; simp [List.replicate_succ]
    · have h8 : v = { s with rx := v.rx, tick := v.tick, tok := v.tok, events := v.events } := by
        rw [hve, hva, ← hu]; rfl
      rw [h7]; rw [h8]

/-! ### Bytes sent -/

theorem sent_exchanged_one (b d : Byte) (rest : List Byte) (s : State) : (exchanged [b] [d] rest s).sent = s.sent ++ [b] := by
  simp [State.sent, exchanged, Event.sent]

theorem sent_driven (l : ChipSelect) (s : State) : (driven l s).sent = s.sent := by
  simp [State.sent, driven, Event.sent]

/-! ### select and the token poll -/

theorem select_driven {s : State} (d : Byte) {rest : List Byte} (h : s.rx.next = d :: rest) (hq : quiet s := by assumption) :
    select s = (waitReady tSelectMs (exchanged [s.cfg.dummy] [d] rest (driven .asserted s))).bind fun ready s =>
      if ready then .ok true s else .ok false (deselect s) := by
  unfold select
  rw [driveCs_driven, send_answered (s := driven .asserted s) h]

/-- `select` finds the card ready after the busy bytes. -/
theorem select_afterBusy {bs rest : List Byte} {d : Byte} {a : Nat} {s : State} (hb : busyFor bs 100 a s)
    (h : s.rx.next = d :: (bs ++ 0xFF#8 :: rest)) (hq : quiet s := by assumption) :
    ∃ t, select s = .ok true t ∧
      t = { s with cs := .asserted, rx := { s.rx with next := rest }, tick := t.tick, events := t.events } ∧
      t.sent = s.sent ++ List.replicate (bs.length + 2) s.cfg.dummy ∧
      t.tick = (s.tick + (bs.length + 1) * a) % tickModulus s.cfg := by
  obtain ⟨t, h2, h3, h4, h5⟩ := waitReady_afterBusy (ms := tSelectMs)
    (s := exchanged [s.cfg.dummy] [d] (bs ++ 0xFF#8 :: rest) (driven .asserted s)) hb rfl
  refine ⟨t, ?_, ?_, ?_, h5⟩
  · rw [select_driven d h, h2]; rfl
  · rw [h3]; rfl
  · rw [h4, sent_exchanged_one, sent_driven]
    show _ ++ List.replicate _ s.cfg.dummy = _
    simp [List.replicate_succ]

/-- `select` gives up on a card that stays busy, and deselects it. -/
theorem select_expires {bs rest : List Byte} {d b e : Byte} {a : Nat} {s : State} (hb : busyFor bs 100 a s)
    (hne : b ≠ 0xFF#8) (hT : 100 ≤ (bs.length + 1) * a) (h : s.rx.next = d :: (bs ++ b :: e :: rest)) (hq : quiet s := by assumption) :
    ∃ t, select s = .ok false t ∧
      t = { s with
        cs := .deasserted, rx := { s.rx with next := rest }, tick := t.tick, events := t.events
        cause := .timeout .waitReady } ∧
      t.sent = s.sent ++ List.replicate (bs.length + 3) s.cfg.dummy ∧
      t.tick = (s.tick + (bs.length + 2) * a) % tickModulus s.cfg := by
  obtain ⟨t, h2, h3, h4, h5⟩ := waitReady_expires (ms := tSelectMs)
    (s := exchanged [s.cfg.dummy] [d] (bs ++ b :: e :: rest) (driven .asserted s)) hb hne hT rfl
  have hc : t.cfg = s.cfg := by rw [h3]; rfl
  have htq : quiet t := by rw [h3]; exact hq
  have hd : deselect t = exchanged [t.cfg.dummy] [e] rest (driven .deasserted t) :=
    deselect_answered (by rw [h3])
  refine ⟨deselect t, ?_, ?_, ?_, ?_⟩
  · rw [select_driven d h, h2]; rfl
  · rw [hd]; simp only [exchanged, driven]; rw [h3]; rfl
  · rw [hd, sent_exchanged_one, sent_driven, h4, sent_exchanged_one, sent_driven, hc]
    show _ ++ List.replicate _ s.cfg.dummy ++ _ = _
    simp only [List.append_assoc, ← List.replicate_succ', List.singleton_append, ← List.replicate_succ]
  · rw [hd]; exact h5

/-- The token poll after `j` idle bytes: what is left of `receiveDataBlock`. -/
theorem receiveDataBlock_afterIdle {j a : Nat} {dest : Place} {len : Nat} {rest : List Byte} {s : State}
    (hb : idleFor j a s) (hr : rest ≠ []) (h : s.rx.next = List.replicate j 0xFF#8 ++ rest) (hq : quiet s := by assumption) :
    ∃ t, t = { s with
        rx := { s.rx with next := rest }, tick := t.tick, events := t.events, tok := t.tok
        wins := (startWindow tTokenMs s).1 :: s.wins } ∧
      t.tick < tickModulus s.cfg ∧ elapsed s.cfg (startWindow tTokenMs s).1.start t.tick = j * a ∧
      t.sent = s.sent ++ List.replicate j s.cfg.dummy ∧
      ∃ k, receiveDataBlock dest len s = (tokenLoop (k + 1) (startWindow tTokenMs s).1 t).bind fun found s =>
        if !found then .ok false (closeWindow s)
        else if (closeWindow s).tok ≠ dataStartToken then .ok false (raise (.diskError .wrongToken) (closeWindow s))
        else (transferPayload .inp dest len (closeWindow s)).bind fun _ s => .ok true (sendDummies 2 s) := by
  obtain ⟨ha, hT, hM⟩ := hb
  rw [Nat.add_mul] at hM
  have hpop : s.tickAdv.pop = (a, s.tickAdv) := by rw [ha]; rfl
  have hel : elapsed s.cfg (startWindow tTokenMs s).1.start (startWindow tTokenMs s).2.tick = 0 := elapsed_self _ _
  have hw := startWindow_quiet tTokenMs hq
  have hsw : (startWindow tTokenMs s).2.sent = s.sent := by rw [hw]; simp [State.sent, Event.sent]
  have hadv : (startWindow tTokenMs s).2.tickAdv = s.tickAdv := by show s.tickAdv.pop.2 = _; rw [hpop]
  have hlen : (startWindow tTokenMs s).2.rx.next.length = j + rest.length := by show s.rx.next.length = _; rw [h]; simp
  obtain ⟨k, hk⟩ : ∃ k, pollFuel (startWindow tTokenMs s).2 = j + (k + 1) :=
    ⟨rest.length + (startWindow tTokenMs s).2.tickAdv.next.length + tickModulus (startWindow tTokenMs s).2.cfg, by
      unfold pollFuel; rw [hlen]; omega⟩
  obtain ⟨t, h1, h2, h3, h4, h5, h6, h7⟩ := tokenLoop_idle (w := (startWindow tTokenMs s).1) (a := a) hr (k + 1)
    (s := (startWindow tTokenMs s).2) (by rw [hadv, ha]) h ((startWindow_step tTokenMs s).quiet hq) (Nat.mod_lt _ (tickModulus_pos _))
    (Nat.mod_lt _ (tickModulus_pos _))
    (hT.imp_right fun h => by
      show elapsed s.cfg _ _ + _ < 200
      rw [hel]; omega)
    (by show elapsed s.cfg _ _ + _ < tickModulus s.cfg; rw [hel]; omega)
  refine ⟨t, ?_, h3, ?_, ?_, k, ?_⟩
  · rw [h7, h2]
    have : (startWindow tTokenMs s).2 = { s with
        tick := (startWindow tTokenMs s).2.tick, tickAdv := (startWindow tTokenMs s).2.tickAdv
        events := (startWindow tTokenMs s).2.events, wins := (startWindow tTokenMs s).1 :: s.wins } := by rw [hw]; rfl
    rw [this, hadv]
  · rw [show elapsed s.cfg (startWindow tTokenMs s).1.start t.tick = _ from h4]
    show elapsed s.cfg _ _ + _ = _
    rw [hel]; omega
  · rw [h6, hsw]; rfl
  · unfold receiveDataBlock; dsimp only; rw [hk, h1]

/-! ### Polls end -/

theorem ticking_not_frozen {s : State} (h : ticking s) : frozen s = false := by
  have : s.tickAdv.rest % tickModulus s.cfg ≠ 0 := by
    rw [Nat.mod_eq_of_lt (by have := h.2; omega)]; have := h.1; omega
  simp [frozen, ticksFrozen, this]

/-- A bound on the readings that are left before a window is over. -/
def readingsLeft (w : Window) (s : State) : Nat :=
  if s.tickAdv.next = [] then w.durationMs.toNat - elapsed s.cfg w.start s.tick
  else s.tickAdv.next.length + w.durationMs.toNat

/-- The window was set with a counter in range, is not longer than the longest of the block, and is not over. -/
def openWindow (w : Window) (s : State) : Prop :=
  w.start < tickModulus s.cfg ∧ s.tick < tickModulus s.cfg ∧ w.durationMs.toNat ≤ 30000 ∧
    (w.durationMs.toNat = 0 ∨ elapsed s.cfg w.start s.tick < w.durationMs.toNat)

theorem pop_rest {α : Type} (f : Feed α) : f.pop.2.rest = f.rest := by unfold Feed.pop; split <;> rfl

theorem pop_next_length {α : Type} (f : Feed α) : f.pop.2.next.length = f.next.length - 1 := by
  unfold Feed.pop; split <;> simp_all

/-- A reading of an advancing counter that leaves the window open leaves fewer readings. -/
theorem expired_progress {w : Window} {s : State} (h : ticking s) (ho : openWindow w s) (hx : (expired w s).1 = false) :
    ticking (expired w s).2 ∧ openWindow w (expired w s).2 ∧ readingsLeft w (expired w s).2 < readingsLeft w s := by
  obtain ⟨hw, ht, hd, he⟩ := ho
  have hlt : elapsed s.cfg w.start (expired w s).2.tick < w.durationMs.toNat := by
    simp only [expired, decide_eq_false_iff_not, not_le] at hx
    exact hx
  have hlen : (expired w s).2.tickAdv.next.length = s.tickAdv.next.length - 1 := pop_next_length s.tickAdv
  refine ⟨⟨?_, ?_⟩, ⟨hw, Nat.mod_lt _ (tickModulus_pos _), hd, .inr hlt⟩, ?_⟩
  · show 1 ≤ s.tickAdv.pop.2.rest; rw [pop_rest]; exact h.1
  · show s.tickAdv.pop.2.rest + 30000 ≤ tickModulus s.cfg; rw [pop_rest]; exact h.2
  · unfold readingsLeft
    by_cases hn : s.tickAdv.next = []
    · have hn' : (expired w s).2.tickAdv.next = [] := List.length_eq_zero_iff.1 (by rw [hlen, hn]; rfl)
      rw [if_pos hn, if_pos hn']
      have hp : s.tickAdv.pop.1 = s.tickAdv.rest := by unfold Feed.pop; rw [hn]
      have ha := elapsed_advance (a := s.tickAdv.rest) hw ht (by have := h.2; omega)
      have h1 : elapsed (expired w s).2.cfg w.start (expired w s).2.tick = elapsed s.cfg w.start s.tick + s.tickAdv.rest := by
        rw [← ha, ← hp]; rfl
      rw [h1]
      have h2 : elapsed s.cfg w.start (expired w s).2.tick = elapsed s.cfg w.start s.tick + s.tickAdv.rest := h1
      have := h.1
      omega
    · have hpos : 0 < s.tickAdv.next.length := List.length_pos_iff.2 hn
      rw [if_neg hn, hlen]
      split <;> omega

theorem ticking_congr {s t : State} (hc : t.cfg = s.cfg) (ha : t.tickAdv = s.tickAdv) (h : ticking s) : ticking t := by
  unfold ticking at *; rw [hc, ha]; exact h

theorem waitReadyLoop_returns {k : Nat} {w : Window} {s : State} (h : ticking s) (ho : openWindow w s)
    (hk : readingsLeft w s < k) : ∃ b t, waitReadyLoop k w s = .ok b t ∧ ticking t := by
  induction k generalizing s with
  | zero => omega
  | succ j ih =>
    have h1 : ticking (xchg s.cfg.dummy s).2 := h
    have ho1 : openWindow w (xchg s.cfg.dummy s).2 := ho
    rw [waitReadyLoop]
    dsimp only
    split
    · exact ⟨true, _, rfl, h1⟩
    · cases hx : (expired w (xchg s.cfg.dummy s).2).1 with
      | true =>
        simp only [if_true]
        refine ⟨false, _, rfl, ?_⟩
        refine ticking_congr (s := { (xchg s.cfg.dummy s).2 with tickAdv := s.tickAdv.pop.2 }) rfl rfl ⟨?_, ?_⟩
        · show 1 ≤ s.tickAdv.pop.2.rest; rw [pop_rest]; exact h.1
        · show s.tickAdv.pop.2.rest + 30000 ≤ tickModulus s.cfg; rw [pop_rest]; exact h.2
      | false =>
        obtain ⟨h2, ho2, hl⟩ := expired_progress h1 ho1 hx
        have h3 : ticking (delay s.cfg.pollDelayMs (expired w (xchg s.cfg.dummy s).2).2) := h2
        have hnf : readyNever (delay s.cfg.pollDelayMs (expired w (xchg s.cfg.dummy s).2).2) = false := by
          unfold readyNever; rw [ticking_not_frozen h3]; rfl
        simp only [Bool.false_eq_true, if_false]
        rw [hnf]
        exact ih h3 ho2 (lt_of_lt_of_le hl (by show readingsLeft w s ≤ j; omega))

theorem tokenLoop_returns {k : Nat} {w : Window} {s : State} (h : ticking s) (ho : openWindow w s)
    (hk : readingsLeft w s < k) : ∃ b t, tokenLoop k w s = .ok b t ∧ ticking t := by
  induction k generalizing s with
  | zero => omega
  | succ j ih =>
    have h1 : ticking { (xchg s.cfg.dummy s).2 with tok := (xchg s.cfg.dummy s).1 } := h
    have ho1 : openWindow w { (xchg s.cfg.dummy s).2 with tok := (xchg s.cfg.dummy s).1 } := ho
    rw [tokenLoop]
    dsimp only
    split
    · exact ⟨true, _, rfl, h1⟩
    · generalize hu : ({ (xchg s.cfg.dummy s).2 with tok := (xchg s.cfg.dummy s).1 } : State) = u at h1 ho1
      have hlu : readingsLeft w u = readingsLeft w s := by rw [← hu]; rfl
      cases hx : (expired w u).1 with
      | true =>
        simp only [if_true]
        refine ⟨false, _, rfl, ?_⟩
        refine ticking_congr (s := { u with tickAdv := u.tickAdv.pop.2 }) rfl rfl ⟨?_, ?_⟩
        · show 1 ≤ u.tickAdv.pop.2.rest; rw [pop_rest]; exact h1.1
        · show u.tickAdv.pop.2.rest + 30000 ≤ tickModulus u.cfg; rw [pop_rest]; exact h1.2
      | false =>
        obtain ⟨h2, ho2, hl⟩ := expired_progress h1 ho1 hx
        have h3 : ∀ d, ticking (delay d (expired w u).2) := fun _ => h2
        have hnf : ∀ d, tokenNever (delay d (expired w u).2) = false := by
          intro d; unfold tokenNever; rw [ticking_not_frozen (h3 d)]; rfl
        simp only [Bool.false_eq_true, if_false]
        rw [hnf]
        exact ih (h3 _) ho2 (lt_of_lt_of_le hl (by omega))

theorem startWindow_open {d : U32} {s : State} (hd : d.toNat ≤ 30000) :
    openWindow (startWindow d s).1 (startWindow d s).2 := by
  refine ⟨Nat.mod_lt _ (tickModulus_pos _), Nat.mod_lt _ (tickModulus_pos _), hd, ?_⟩
  have : elapsed (startWindow d s).2.cfg (startWindow d s).1.start (startWindow d s).2.tick = 0 := elapsed_self _ _
  rw [this]
  show d.toNat = 0 ∨ 0 < d.toNat
  omega

theorem startWindow_ticking {d : U32} {s : State} (h : ticking s) : ticking (startWindow d s).2 := by
  refine ⟨?_, ?_⟩
  · show 1 ≤ s.tickAdv.pop.2.rest; rw [pop_rest]; exact h.1
  · show s.tickAdv.pop.2.rest + 30000 ≤ tickModulus s.cfg; rw [pop_rest]; exact h.2

theorem readingsLeft_fuel {w : Window} {s : State} (h : ticking s) (hd : w.durationMs.toNat ≤ 30000) :
    readingsLeft w s < pollFuel s := by
  have := h.2
  unfold readingsLeft pollFuel
  split <;> omega

/-- When the tick counter advances, `waitReady` returns, whatever the card does (R363). -/
theorem waitReady_returns {ms : U32} {s : State} (hd : ms.toNat ≤ 30000) (h : ticking s) :
    ∃ b t, waitReady ms s = .ok b t ∧ ticking t := by
  obtain ⟨b, t, h1, h2⟩ := waitReadyLoop_returns (startWindow_ticking (d := ms) h) (startWindow_open hd)
    (readingsLeft_fuel (startWindow_ticking (d := ms) h) hd)
  exact ⟨b, closeWindow t, by unfold waitReady; dsimp only; rw [h1]; rfl, h2⟩

end Sys2Proof.Machine
end

