-- ==== Sys2Proof/Laws/Sent.lean ====
section
/-! SUPPORT. The bytes on the link after each shared operation, and the card commands to a card that answers: what the
statements about commands and host operations are composed from. -/

namespace Sys2Proof.Machine

set_option Elab.async false

open Sys2Proof

/-! ### Bytes sent -/

theorem sent_zipWith (l m : List Byte) (h : l.length = m.length) :
    (List.zipWith Event.xchg l m).filterMap Event.sent = l := by
  induction l generalizing m with
  | nil => rfl
  | cons x t ih =>
    cases m with
    | nil => simp at h
    | cons y u =>
      have hu := ih u (by simpa using h)
      rw [List.zipWith_cons_cons, List.filterMap_cons]
      exact congrArg _ hu

theorem sent_of_events {s t : State} {es : List Event} (h : t.events = es.reverse ++ s.events) :
    t.sent = s.sent ++ es.filterMap Event.sent := by
  unfold State.sent
  rw [h, List.reverse_append, List.reverse_reverse, List.filterMap_append]

theorem sent_exchanged {l m : List Byte} (r : List Byte) (s : State) (h : l.length = m.length) :
    (exchanged l m r s).sent = s.sent ++ l := by
  rw [sent_of_events (s := s) (es := List.zipWith Event.xchg l m) rfl, sent_zipWith _ _ h]

theorem sent_reads (c : Config) (bs : List Byte) :
    (reads c bs).filterMap Event.sent = List.replicate bs.length c.dummy := by
  rw [reads_eq, sent_zipWith _ _ (by simp)]

theorem sent_readOn (bs rest : List Byte) (s : State) :
    (readOn bs rest s).sent = s.sent ++ List.replicate bs.length s.cfg.dummy := by
  rw [sent_of_events (s := s) (es := reads s.cfg bs) rfl, sent_reads]

theorem sent_answered (idx : Byte) (arg : U32) {a : Answer} (rest : List Byte) (s : State) (ha : a.wf = true) :
    (answered idx arg a rest s).sent = s.sent ++ commandSent s.cfg idx arg a := by
  obtain ⟨he, -, -, -⟩ := a.wf_iff.1 ha
  rw [sent_of_events (s := s) (es := commandTrace s.cfg idx arg a (nextTick s)) rfl]
  unfold commandTrace commandSent
  rw [reads_eq, List.filterMap_append, List.filterMap_append, sent_zipWith _ _ (by simp [frameBytes_length, he]),
    sent_zipWith _ _ (by simp), show (a.gap ++ [a.r]).length = a.gap.length + 1 by simp]
  rfl

theorem sent_received (p : Place) (k : Packet) (rest : List Byte) (s : State) :
    (received p k rest s).sent = s.sent ++ List.replicate (1 + k.payload.length + 2) s.cfg.dummy := by
  rw [sent_of_events (s := s) (es := receiveTrace s.cfg p k (nextTick s)) rfl]
  unfold receiveTrace
  simp only [List.filterMap_append, sent_reads]
  rw [Nat.add_assoc, ← List.replicate_append_replicate, ← List.replicate_append_replicate]
  simp only [List.append_assoc]
  rfl

theorem sent_sentBlock (off : Nat) (token : Byte) {k : Sink} (rest : List Byte) (s : State) (hk : k.echo.length = sectorSize) :
    (sentBlock off token k rest s).sent =
      s.sent ++ packetSent s.cfg token (memBytes s.mem (s.bufBase + off) sectorSize) := by
  have hl := (memBytes_length s.mem (s.bufBase + off) sectorSize).trans hk.symm
  have h : (sentBlock off token k rest s).events =
      (sendTrace s.cfg off token (memBytes s.mem (s.bufBase + off) sectorSize) k (nextTick s)).reverse ++ s.events := rfl
  generalize memBytes s.mem (s.bufBase + off) sectorSize = p at hl h ⊢
  rw [sent_of_events h]
  unfold sendTrace packetSent
  simp only [List.filterMap_append]
  rw [sent_zipWith _ _ hl]
  simp [List.filterMap_cons, Event.sent]

theorem sent_sentStop (d : Byte) (rest : List Byte) (s : State) :
    (sentStop d rest s).sent = s.sent ++ [s.cfg.dummy, s.cfg.tokenStop] := by
  rw [sent_of_events (s := s) (es := [.now (nextTick s), .xchg s.cfg.dummy 0xFF#8, .xchg s.cfg.tokenStop d]) rfl]
  rfl

/-! ### Commands and data blocks that the card answers -/

/-- A command whose test is 0x00. -/
theorem command_answered {idx : Byte} {arg : U32} {tag : DiskTag} {a : Answer} {rest : List Byte} {s : State}
    (ha : a.wf = true) (h6 : idx.getLsbD 6 = false) (h7 : idx.getLsbD 7 = false) (hi : idx ≠ s.cfg.stopCmdIndex)
    (h : s.rx.next = a.bytes ++ rest) (hq : quiet s := by assumption) :
    command idx arg tag s =
      if a.r = 0x00#8 then .ok true (answered idx arg a rest s)
      else .ok false { answered idx arg a rest s with cause := .diskError tag } := by
  unfold command
  rw [sendCommand_answered ha h6 h7 hi h]
  simp [acceptedReady, raise]

/-- An application command behind a CMD55 that passed, with the default stop index. -/
theorem application_answered {idx : Byte} {arg : U32} {a b : Answer} {rest : List Byte} {s : State} (ha : a.wf = true)
    (hb : b.wf = true) (h6 : idx.getLsbD 6 = false) (h7 : idx.getLsbD 7 = true) (h12 : s.cfg.stopCmdIndex = 12#8)
    (hi : idx &&& 0x7F#8 ≠ 12#8) (hr : a.r.toNat ≤ 1) (h : s.rx.next = a.bytes ++ (b.bytes ++ rest)) (hq : quiet s := by assumption) :
    sendCommand idx arg s =
      .ok b.r (answered (idx &&& 0x7F#8) arg b rest (answered 55#8 0#32 a (b.bytes ++ rest) s)) :=
  sendCommand_application ha hb h6 h7 (by rw [h12]; decide) (by rw [h12]; exact hi) (by simpa [idleOrReady] using hr) h

/-- An application command behind a CMD55 that did not pass. -/
theorem application_fails {idx : Byte} {arg : U32} {a : Answer} {rest : List Byte} {s : State} (ha : a.wf = true)
    (h6 : idx.getLsbD 6 = false) (h7 : idx.getLsbD 7 = true) (h12 : s.cfg.stopCmdIndex = 12#8) (hr : 1 < a.r.toNat)
    (h : s.rx.next = a.bytes ++ rest) (hq : quiet s := by assumption) : sendCommand idx arg s = .ok a.r (answered 55#8 0#32 a rest s) :=
  sendCommand_prefixFails ha h6 h7 (by rw [h12]; decide) (by simp [idleOrReady]; omega) h

/-- A register's sixteen bytes into the scratch array. -/
theorem receiveDataBlock_csd {k : Packet} {rest : List Byte} {s : State} (hp : pendingHere s = false)
    (hk : k.payload.length = 16) (hf : s.fires.pop.1 = true) (h : s.rx.next = k.bytes ++ rest) (hq : quiet s := by assumption) :
    receiveDataBlock .csd csdLen s = .ok true (received .csd k rest s) := by
  have := receiveDataBlock_received (p := .csd) hp (by simp [placeHolds, hk]) hf h
  rw [hk] at this; exact this

theorem dataAccepted_iff (d : Byte) : dataAccepted d = true ↔ d.toNat % 32 = 5 := by
  simp only [dataAccepted, dataAcceptMask, dataAcceptValue, beq_iff_eq]
  rw [← BitVec.toNat_inj, BitVec.toNat_and]
  show d.toNat &&& 31 = 5 ↔ _
  rw [show (31 : Nat) = 2 ^ 5 - 1 from rfl, Nat.and_two_pow_sub_one_eq_mod]

/-- A data packet to a ready card, by the low five bits of its data response (R143). -/
theorem sendDataBlock_response {off : Nat} {token : Byte} {k : Sink} {rest : List Byte} {s : State}
    (hp : pendingHere s = false) (hf : s.fires.pop.1 = true) (ht : token ≠ s.cfg.tokenStop)
    (hl : k.echo.length = sectorSize) (h : s.rx.next = k.bytes ++ rest) (hq : quiet s := by assumption) :
    sendDataBlock off token s =
      if k.response.toNat % 32 = 5 then .ok true (sentBlock off token k rest s)
      else .ok false { sentBlock off token k rest s with cause := .diskError .dataResponse } := by
  rw [sendDataBlock_sent hp hf ht hl h]
  by_cases hh : k.response.toNat % 32 = 5
  · rw [if_pos hh, if_pos ((dataAccepted_iff _).2 hh)]
  · rw [if_neg hh, if_neg (fun q => hh ((dataAccepted_iff _).1 q))]; rfl

end Sys2Proof.Machine
end

