-- ==== Sys2Proof/Laws/Steps.lean ====
section
/-! SUPPORT. How the meanings of host calls and the turns of the agents come to a next state: one inversion lemma each. -/

namespace Sys2Proof.Machine

set_option Elab.async false

open Sys2Proof

/-- A host call either returns at once, or goes to the lock. -/
theorem hostCall_next {c : Call} {s t : State} (h : hostCall c s = .next t) :
    (∃ v, earlyReturn c (refreshInputs s).1 = some v ∧
        t = returnToHost v (enterOwn (checkPlace c) (refreshInputs s).2)) ∨
      (earlyReturn c (refreshInputs s).1 = none ∧ lockThen c (refreshInputs s).2 = .next t) := by
  unfold hostCall at h
  dsimp only at h
  generalize refreshInputs s = u at h ⊢
  cases he : earlyReturn c u.1 with
  | some v => rw [he] at h; left; exact ⟨v, rfl, by simpa using h.symm⟩
  | none => rw [he] at h; right; exact ⟨rfl, h⟩

/-- At the lock a call either waits, or has its body executed. -/
theorem lockThen_next {c : Call} {s t : State} (h : lockThen c s = .next t) :
    ((lockRace s).1 = false ∧ t = addWaiter ⟨s.me, c⟩ (lockRace s).2) ∨
      ((lockRace s).1 = true ∧ lockedBody c (takeLock c (lockRace s).2) = .next t) := by
  unfold lockThen at h
  dsimp only at h
  split at h
  · right; exact ⟨‹_›, h⟩
  · left; rename_i hr; exact ⟨by simpa using hr, by simpa using h.symm⟩

theorem lockRace_both (s : State) : bothStep s (lockRace s).2 := by
  unfold lockRace
  split
  · exact ⟨callStep.refl s, initStep.refl s, rfl⟩
  · split
    · exact .of ⟨rfl, sameWaiters rfl⟩ ⟨rfl, sameWaiters rfl⟩ ⟨rfl, rfl, id, id, id⟩ rfl
    · exact ⟨callStep.refl s, initStep.refl s, rfl⟩

theorem checkPlace_ne {c : Call} (hc : c ≠ .bareLock) : checkPlace c ≠ .idle := by
  cases c <;> simp [checkPlace] at *

/-- What granting the lock to a host call does. -/
theorem takeLock_call {c : Call} (hc : c ≠ .bareLock) (s : State) : callStep s (takeLock c s) := by
  unfold takeLock; rw [if_neg hc]
  exact (enter_io (checkPlace_ne hc) s).call.trans (grantLock_call _)
theorem takeLock_init {c : Call} (hc : c ≠ .bareLock) (s : State) : initStep s (takeLock c s) := by
  unfold takeLock; rw [if_neg hc]
  exact (enter_step (checkPlace_ne hc) s).init.trans (grantLock_init _)

/-- The lock after a grant belongs to the caller, at depth at least 1. -/
theorem grantLock_owner (s : State) : (grantLock s).lock.owner = some (grantLock s).me ∧ 1 ≤ (grantLock s).lock.depth := by
  simp only [grantLock_lock, grantLock_me, lockTaken]
  split
  · exact ⟨‹_›, by simp⟩
  · exact ⟨rfl, by simp⟩

/-- The same through `takeLock`, which changes the lock as `grantLock` does. -/
theorem takeLock_owner (c : Call) (s : State) :
    (takeLock c s).lock.owner = some (takeLock c s).me ∧ 1 ≤ (takeLock c s).lock.depth := grantLock_owner _

theorem takeLock_lock (c : Call) (s : State) : (takeLock c s).lock = lockTaken s := by
  unfold takeLock; split <;> rfl

/-- How a host call with the lock ends: it returns through the exit sequence, or never returns. For a data call the frame is
`callStep`; for `initialize` it is `initStep` and the card is settled. -/
def bodyEnds (c : Call) (s t : State) : Prop :=
  (∃ v u, t = returnToHost v u ∧ u.cs = .deasserted ∧ u.lock = lockReleased s ∧
      ((c ≠ .initCard ∧ callStep s u) ∨ (c = .initCard ∧ initStep s u ∧ cardSettled u))) ∨
    (∃ w u, t = { u with hung := some ⟨w, u.me, some c⟩ } ∧ lockHeld s u ∧ u.seq ≠ .idle ∧
      ((c ≠ .initCard ∧ callStep s u) ∨ (c = .initCard ∧ initStep s u ∧ u.card = s.card ∧
        u.status.notInitialized = s.status.notInitialized)))

theorem dataBody_next {c : Call} {s t : State} {x : Res HostReturn} (hn : c ≠ .initCard)
    (he : callEnds (raise .none s) x) (hx : x.callOutcome c = .next t) : bodyEnds c s t := by
  rcases Res.callOutcome_next hx with ⟨v, u, rfl, rfl⟩ | ⟨w, u, rfl, rfl⟩
  · exact .inl ⟨v, u, rfl, he.2.1, he.2.2, .inl ⟨hn, (raise_call .none s).trans he.1⟩⟩
  · exact .inr ⟨w, u, rfl, he.2.1, he.2.2, .inl ⟨hn, (raise_call .none s).trans he.1⟩⟩

theorem lockedBody_next {c : Call} {s t : State} (hc : c ≠ .bareLock) (hl : s.lock.owner = some s.me)
    (hd : 1 ≤ s.lock.depth) (h : lockedBody c s = .next t) : bodyEnds c s t := by
  cases c with
  | initCard =>
    have he := probeBody_ends (s := raise .none s) hl hd
    have hi : initStep s (raise .none s) := (raise_step _ s).body.init
    rcases Res.callOutcome_next (show (probeBody (raise .none s)).callOutcome .initCard = .next t from h) with
      ⟨v, u, hx, rfl⟩ | ⟨w, u, hx, rfl⟩
    · rw [hx] at he
      exact .inl ⟨v, u, rfl, he.2.1, he.2.2.1, .inr ⟨rfl, hi.trans he.1, he.2.2.2⟩⟩
    · rw [hx] at he
      exact .inr ⟨w, u, rfl, he.2.1, he.2.2.1, .inr ⟨rfl, hi.trans he.1, he.2.2.2⟩⟩
  | read b n k => exact dataBody_next (by simp) (readBody_ends (s := raise .none s) b n k hl hd) h
  | write b n k => exact dataBody_next (by simp) (writeBody_ends (s := raise .none s) b n k hl hd) h
  | ioctl k a b => exact dataBody_next (by simp) (ioctlBody_ends (s := raise .none s) k a b hl hd) h
  | bareLock => exact absurd rfl hc

/-! ### The host's stores (20_memory.md R64) -/

/-- A store of the host changes memory alone. -/
theorem hostStore_frame (a : Nat) (bs : List Byte) (s : State) : hostStore a bs s = { s with mem := (hostStore a bs s).mem } := by
  induction bs generalizing a s with
  | nil => rfl
  | cons b t ih => rw [hostStore, ih]; split <;> rfl

theorem hostStore_wf {s : State} (a : Nat) (bs : List Byte) (h : s.mem.wf = true) : (hostStore a bs s).mem.wf = true := by
  induction bs generalizing a s with
  | nil => exact h
  | cons b t ih =>
    refine ih _ ?_
    split
    · exact h
    · exact Memory.write_wf _ _ h

/-- What every byte reads as after a store of the host: the byte stored there, unless a call or a transfer owns it or it lies
outside the store. -/
theorem hostStore_read {s : State} (a : Nat) (bs : List Byte) (x : Nat) (h : s.mem.wf = true) :
    (hostStore a bs s).mem.read x =
      if a ≤ x ∧ bufferOwned s x = false then bs[x - a]?.getD (s.mem.read x) else s.mem.read x := by
  induction bs generalizing a s with
  | nil => simp [hostStore]
  | cons b t ih =>
    have hw : ∀ c, bufferOwned { s with mem := s.mem.write a b } c = bufferOwned s c := fun _ => rfl
    rw [hostStore]
    by_cases ho : bufferOwned s a = true
    · rw [if_pos ho, ih _ h]
      rcases Nat.lt_trichotomy x a with hx | rfl | hx
      · rw [if_neg (by omega), if_neg (by omega)]
      · rw [if_neg (by omega), if_neg (by simp [ho])]
      · obtain ⟨k, rfl⟩ : ∃ k, x = a + 1 + k := ⟨x - (a + 1), by omega⟩
        have e1 : a + 1 + k - (a + 1) = k := by omega
        have e2 : a + 1 + k - a = k + 1 := by omega
        simp [e1, e2, show a ≤ a + 1 + k by omega]
    · rw [if_neg ho, ih _ (Memory.write_wf _ _ h), hw, Memory.read_write h]
      rcases Nat.lt_trichotomy x a with hx | rfl | hx
      · rw [if_neg (by omega), if_neg (by omega), if_neg (by omega)]
      · rw [if_neg (by omega), if_pos rfl, if_pos ⟨Nat.le_refl _, by simpa using ho⟩]; simp
      · obtain ⟨k, rfl⟩ : ∃ k, x = a + 1 + k := ⟨x - (a + 1), by omega⟩
        have e1 : a + 1 + k - (a + 1) = k := by omega
        have e2 : a + 1 + k - a = k + 1 := by omega
        simp [e1, e2, show a ≤ a + 1 + k by omega, show a + 1 + k ≠ a by omega]

end Sys2Proof.Machine
end

