-- ==== Sys2Proof/Laws/Host.lean ====
section
/-! SUPPORT. A host call from a usable state: the state in which its body starts, and the state in which it has returned. -/

namespace Sys2Proof.Machine

set_option Elab.async false

open Sys2Proof

theorem refreshInputs_eq {s : State} (hq : quiet s) : refreshInputs s = (sampledStatus s, sampled s) := by
  unfold refreshInputs cardPresent wpActive sampled inputEvents sampledStatus readCd readWp
  cases h1 : s.cfg.cdEnabled <;> cases h2 : s.cfg.wpEnabled <;>
    simp [meanwhile_quiet, hq, h1, h2, inputPresent, inputProtected, record]

theorem grantLock_eq {s : State} (hq : quiet s) : grantLock s = { s with
    lock := lockTaken s
    spiCfg := lockConfig s
    events := .configure (lockConfig s) :: .lock s.me :: s.events } := by
  unfold grantLock
  rw [meanwhile_quiet hq, emit_quiet _ (by exact hq)]
  rfl

theorem returnToHost_eq {s : State} (v : HostReturn) (hq : quiet s) :
    returnToHost v s = enterOwn .idle { s with hostOut := v, events := .ret s.me v :: s.events } := by
  unfold returnToHost
  rw [meanwhile_quiet hq]
  rfl

/-- A return before the lock leaves what `turnedAway` says. -/
theorem turnedAway_return (q : Seq) (v : HostReturn) {s : State} (hq : quiet s) :
    turnedAway s v (returnToHost v (enterOwn q (sampled s))) := by
  have hu : enterOwn q (sampled s) = if lockOpen s then enter q (sampled s) else sampled s := rfl
  have hqu : quiet (enterOwn q (sampled s)) := by rw [hu]; split <;> exact hq
  rw [returnToHost_eq v hqu, hu]
  unfold turnedAway
  cases ho : lockOpen s
  · have h1 : ∀ w e, enterOwn .idle { sampled s with hostOut := w, events := e } =
        { sampled s with hostOut := w, events := e } := fun w e =>
      if_neg (by show ¬lockOpen s = true; simp [ho])
    rw [if_neg (by simp), h1]
    rfl
  · have h1 : ∀ w e, enterOwn .idle { enter q (sampled s) with hostOut := w, events := e } =
        enter .idle { enter q (sampled s) with hostOut := w, events := e } := fun w e => if_pos ho
    rw [if_pos rfl, h1]
    rfl

/-- A call that an early check turns away (60_exceptions.md R313). -/
theorem hostCall_turnedAway {c : Call} {s : State} {v : HostReturn} (hq : quiet s)
    (he : earlyReturn c (sampledStatus s) = some v) : ∃ t, hostCall c s = .next t ∧ turnedAway s v t := by
  unfold hostCall
  rw [refreshInputs_eq hq]
  simp only [he]
  exact ⟨_, rfl, turnedAway_return _ _ hq⟩

/-- The state after the early checks, `Lock()` at once and `cause <- None`. -/
def opened (q : Seq) (s : State) : State :=
  { sampled s with
    lock := ⟨some s.me, 1⟩
    contend := s.contend.pop.2
    spiCfg := lockConfig s
    cause := .none
    seq := q
    path := q :: s.path
    events := .configure (lockConfig s) :: .lock s.me :: (inputEvents s ++ s.events) }

/-- A host call that gets the lock at once starts its body in the state `opened`. -/
theorem hostCall_opened {c : Call} {s : State} (hl : lockFree s) (hq : quiet s) (hc : c ≠ .bareLock)
    (he : earlyReturn c (sampledStatus s) = none) :
    hostCall c s = lockedBody c (takeLock c (lockRace (sampled s)).2)
      ∧ raise .none (takeLock c (lockRace (sampled s)).2) = opened (checkPlace c) s := by
  obtain ⟨h1, h2⟩ := hl
  have hr : lockRace (sampled s) = (true, { sampled s with contend := s.contend.pop.2 }) := by
    simp [lockRace, sampled, h1, h2]
  refine ⟨?_, ?_⟩
  · unfold hostCall lockThen
    rw [refreshInputs_eq hq]
    simp only [he, hr, if_true]
  · rw [hr]
    unfold takeLock
    rw [if_neg hc, grantLock_eq (by exact hq)]
    simp [raise, lockTaken, sampled, enter, h1, opened, lockConfig]

/-- The state after the exit sequence and the return, when the lock was taken once; `d` comes back during the dummy byte. -/
def finished (q : Seq) (v : HostReturn) (d : Byte) (rest : List Byte) (u : State) : State :=
  { u with
    cs := .deasserted
    rx := { u.rx with next := rest }
    lock := ⟨none, 0⟩
    seq := .idle
    path := .idle :: q :: u.path
    hostOut := v
    events := .ret u.me v :: .unlock u.me :: .xchg u.cfg.dummy d :: .cs .deasserted :: u.events }

/-- The exit sequence of a lock taken once, when `d` comes back during its dummy byte. -/
theorem left_eq {u : State} {d : Byte} {rest : List Byte} (hl : u.lock = ⟨some u.me, 1⟩) (h : u.rx.next = d :: rest)
    (hq : quiet u) : left u = { u with
      cs := .deasserted
      rx := { u.rx with next := rest }
      lock := ⟨none, 0⟩
      events := .unlock u.me :: .xchg u.cfg.dummy d :: .cs .deasserted :: u.events } := by
  unfold left unlocked
  rw [deselect_answered h, meanwhile_quiet (by exact hq)]
  simp [record, exchanged, driven, lockReleased, hl]

theorem leave_finished {c : Call} {q : Seq} {f : State → HostReturn} {u : State} {d : Byte} {rest : List Byte}
    (hl : u.lock = ⟨some u.me, 1⟩) (h : u.rx.next = d :: rest) (hq : quiet u) :
    (leave q f u).callOutcome c = .next (finished q (f (left (enter q u))) d rest u) := by
  rw [leave_eq q f (by rw [hl]) (by rw [hl])]
  show Host.Outcome.next (returnToHost _ _) = _
  have h1 := left_eq (u := enter q u) (d := d) (rest := rest) hl h hq
  rw [returnToHost_eq _ (by rw [h1]; exact hq)]
  generalize f (left (enter q u)) = v
  rw [h1]
  rfl

/-- The same with whatever byte comes back. -/
theorem leave_finished_any {c : Call} {q : Seq} {f : State → HostReturn} {u : State} (hl : u.lock = ⟨some u.me, 1⟩) (hq : quiet u) :
    (leave q f u).callOutcome c = .next (finished q (f (left (enter q u))) u.rx.pop.1 u.rx.pop.2.next u) := by
  rw [leave_eq q f (by rw [hl]) (by rw [hl])]
  have hp : ({ u.rx with next := u.rx.pop.2.next } : Feed Byte) = u.rx.pop.2 := by
    rcases u.rx with ⟨_ | ⟨b, t⟩, r⟩ <;> rfl
  have h1 : left (enter q u) = { enter q u with
      cs := .deasserted
      rx := { u.rx with next := u.rx.pop.2.next }
      lock := ⟨none, 0⟩
      events := .unlock u.me :: .xchg u.cfg.dummy u.rx.pop.1 :: .cs .deasserted :: u.events } := by
    rw [hp]
    unfold left unlocked
    rw [deselect_quiet (by exact hq), meanwhile_quiet (by exact hq)]
    simp [record, lockReleased, hl]
  show Host.Outcome.next (returnToHost _ _) = _
  rw [returnToHost_eq _ (by rw [h1]; exact hq)]
  generalize f (left (enter q u)) = v
  rw [h1]
  rfl

theorem sent_finished (q : Seq) (v : HostReturn) (d : Byte) (rest : List Byte) (u : State) :
    (finished q v d rest u).sent = u.sent ++ [u.cfg.dummy] := by
  rw [sent_of_events (s := u) (es := [.cs .deasserted, .xchg u.cfg.dummy d, .unlock u.me, .ret u.me v]) rfl]
  rfl

theorem finished_returned (q : Seq) (v : HostReturn) (d : Byte) (rest : List Byte) (u : State) :
    returned v (finished q v d rest u) := ⟨rfl, rfl, rfl, rfl⟩

theorem finished_frame (q : Seq) (v : HostReturn) (d : Byte) (rest : List Byte) (u : State) :
    hostFrame u (finished q v d rest u) := ⟨rfl, [], by simp [finished]⟩

theorem opened_frame (q : Seq) (s : State) : hostFrame s (opened q s) := ⟨rfl, [], by simp [opened, sampled]⟩

theorem sent_opened (q : Seq) (s : State) : (opened q s).sent = s.sent := by
  rw [sent_of_events (s := s) (es := (inputEvents s).reverse ++ [.lock s.me, .configure (lockConfig s)]) (by simp [opened])]
  unfold inputEvents
  split <;> split <;> simp [Event.sent]

end Sys2Proof.Machine
end

