-- ==== Sys2Proof/Laws/PerInstr.lean ====
section
/-! SUPPORT. Facts made per instruction. Family `Encoding`: how many bytes an instruction's word has (30_encoding.md R91, R92,
R96, R114), and that the slot it is read in accepts words of that length. -/

namespace Sys2Proof.Laws

set_option Elab.async false

open Sys2Proof

/-- The bytes of a location: a tag, for a buffer the offset's eight bytes. -/
def locBytes (l : Loc) : Nat :=
  match l with
  | .buffer _ => 9
  | .csd => 1

/-- How many bytes an instruction's word has: 6 for a command frame, 7 for the stop-transmission frame (R114), 1 for a token, a
response or a clocking byte, and what the model's layout gives host calls and primitives (log 11). -/
def wordBytes (i : Instr) : Nat :=
  match i with
  | .cmd12 _ => 7
  | .cmd0 _ | .cmd1 _ | .cmd8 _ | .cmd9 _ | .acmd13 _ | .cmd16 _ | .cmd17 _ | .acmd23 _ | .cmd24 _ | .cmd25 _ | .cmd32 _
  | .cmd33 _ | .cmd38 _ | .acmd41 _ | .cmd55 _ | .cmd58 _ => 6
  | .tokenSingle | .tokenMulti | .tokenStop | .dataStart | .dummy | .crcPlaceholder | .r1 _ | .noResponse _
  | .dataResponseAccepted _ | .ready => 1
  | .initCard | .status => 1
  | .read _ _ _ | .write _ _ _ => 13
  | .ioctl _ _ _ | .ioctlEraseSector _ _ => 10
  | .ioctlSync | .ioctlGetSectorCount | .ioctlGetBlockSize | .ioctlUnknown _ => 2
  | .xchg _ => 2
  | .select | .deselect | .lock | .unlock | .waitForTransfer | .refreshInputs => 1
  | .waitReady _ => 5
  | .sendCommand _ _ => 6
  | .sendDataBlock _ _ => 10
  | .receiveDataBlock dest _ => 3 + locBytes dest
  | .startTransfer _ loc _ => 4 + locBytes loc

/-- The word of an instruction has the length of its element. -/
def Encoding.Statement (i : Instr) : Prop := (encode i).length = wordBytes i

theorem Encoding.cmd0 (arg : U32) : Encoding.Statement (.cmd0 arg) := rfl
theorem Encoding.cmd1 (arg : U32) : Encoding.Statement (.cmd1 arg) := rfl
theorem Encoding.cmd8 (arg : U32) : Encoding.Statement (.cmd8 arg) := rfl
theorem Encoding.cmd9 (arg : U32) : Encoding.Statement (.cmd9 arg) := rfl
theorem Encoding.cmd12 (arg : U32) : Encoding.Statement (.cmd12 arg) := rfl
theorem Encoding.acmd13 (arg : U32) : Encoding.Statement (.acmd13 arg) := rfl
theorem Encoding.cmd16 (arg : U32) : Encoding.Statement (.cmd16 arg) := rfl
theorem Encoding.cmd17 (arg : U32) : Encoding.Statement (.cmd17 arg) := rfl
theorem Encoding.acmd23 (arg : U32) : Encoding.Statement (.acmd23 arg) := rfl
theorem Encoding.cmd24 (arg : U32) : Encoding.Statement (.cmd24 arg) := rfl
theorem Encoding.cmd25 (arg : U32) : Encoding.Statement (.cmd25 arg) := rfl
theorem Encoding.cmd32 (arg : U32) : Encoding.Statement (.cmd32 arg) := rfl
theorem Encoding.cmd33 (arg : U32) : Encoding.Statement (.cmd33 arg) := rfl
theorem Encoding.cmd38 (arg : U32) : Encoding.Statement (.cmd38 arg) := rfl
theorem Encoding.acmd41 (arg : U32) : Encoding.Statement (.acmd41 arg) := rfl
theorem Encoding.cmd55 (arg : U32) : Encoding.Statement (.cmd55 arg) := rfl
theorem Encoding.cmd58 (arg : U32) : Encoding.Statement (.cmd58 arg) := rfl
theorem Encoding.tokenSingle : Encoding.Statement .tokenSingle := rfl
theorem Encoding.tokenMulti : Encoding.Statement .tokenMulti := rfl
theorem Encoding.tokenStop : Encoding.Statement .tokenStop := rfl
theorem Encoding.dataStart : Encoding.Statement .dataStart := rfl
theorem Encoding.dummy : Encoding.Statement .dummy := rfl
theorem Encoding.crcPlaceholder : Encoding.Statement .crcPlaceholder := rfl
theorem Encoding.r1 (r : BitVec 7) : Encoding.Statement (.r1 r) := rfl
theorem Encoding.noResponse (x : BitVec 7) : Encoding.Statement (.noResponse x) := rfl
theorem Encoding.dataResponseAccepted (x : BitVec 3) : Encoding.Statement (.dataResponseAccepted x) := rfl
theorem Encoding.ready : Encoding.Statement .ready := rfl
theorem Encoding.initCard : Encoding.Statement .initCard := rfl
theorem Encoding.status : Encoding.Statement .status := rfl
theorem Encoding.read (buf sector count : U32) : Encoding.Statement (.read buf sector count) := rfl
theorem Encoding.write (buf sector count : U32) : Encoding.Statement (.write buf sector count) := rfl
theorem Encoding.ioctl (code : Byte) (start stop : U32) : Encoding.Statement (.ioctl code start stop) := rfl
theorem Encoding.ioctlSync : Encoding.Statement .ioctlSync := rfl
theorem Encoding.ioctlGetSectorCount : Encoding.Statement .ioctlGetSectorCount := rfl
theorem Encoding.ioctlGetBlockSize : Encoding.Statement .ioctlGetBlockSize := rfl
theorem Encoding.ioctlEraseSector (start stop : U32) : Encoding.Statement (.ioctlEraseSector start stop) := rfl
theorem Encoding.ioctlUnknown (code : Byte) : Encoding.Statement (.ioctlUnknown code) := rfl
theorem Encoding.xchg (tx : Byte) : Encoding.Statement (.xchg tx) := rfl
theorem Encoding.select : Encoding.Statement .select := rfl
theorem Encoding.deselect : Encoding.Statement .deselect := rfl
theorem Encoding.waitReady (ms : U32) : Encoding.Statement (.waitReady ms) := rfl
theorem Encoding.sendCommand (index : Byte) (arg : U32) : Encoding.Statement (.sendCommand index arg) := rfl
theorem Encoding.sendDataBlock (off : U64) (token : Byte) : Encoding.Statement (.sendDataBlock off token) := rfl
theorem Encoding.receiveDataBlock (dest : Loc) (len : BitVec 16) : Encoding.Statement (.receiveDataBlock dest len) := by cases dest <;> rfl
theorem Encoding.lock : Encoding.Statement .lock := rfl
theorem Encoding.unlock : Encoding.Statement .unlock := rfl
theorem Encoding.startTransfer (dir : Dir) (loc : Loc) (len : BitVec 16) : Encoding.Statement (.startTransfer dir loc len) := by cases loc <;> rfl
theorem Encoding.waitForTransfer : Encoding.Statement .waitForTransfer := rfl
theorem Encoding.refreshInputs : Encoding.Statement .refreshInputs := rfl

end Sys2Proof.Laws
end

