-- ==== Sys2Proof/Laws/Turns.lean ====
section
/-! SUPPORT. What `sendCommand` and the init poll do when each command frame meets a turn: a ready card, or one that stays busy
for the whole of `select`. -/

namespace Sys2Proof.Machine

set_option Elab.async false

open Sys2Proof

/-! ### Turns that have been met -/

/-- The state after commands that met turns: the link, the command's registers, the place; `sent` on the
link, `rest` still to come, cause `c`; `k` readings of the tick counter, by which it has advanced if it goes by `adv`. -/
def went (adv k : Nat) (sent rest : List Byte) (c : Cause) (s t : State) : Prop :=
  t = { s with
    cs := t.cs, fr := t.fr, r1 := t.r1, n := t.n, ocr := t.ocr, rx := { s.rx with next := rest }
    tick := t.tick, tickAdv := t.tickAdv, events := t.events, cause := c, seq := t.seq, path := t.path }
  ∧ t.sent = s.sent ++ sent
  ∧ (s.tickAdv = ⟨[], adv⟩ →
    t.tickAdv = ⟨[], adv⟩ ∧ t.tick % tickModulus s.cfg = (s.tick + k * adv) % tickModulus s.cfg)

theorem went.trans {adv k l : Nat} {p q r r' : List Byte} {c c' : Cause} {s t u : State} (h : went adv k p r c s t)
    (h' : went adv l q r' c' t u) : went adv (k + l) (p ++ q) r' c' s u := by
  obtain ⟨e, hs, ht⟩ := h
  obtain ⟨e', hs', ht'⟩ := h'
  have hc : t.cfg = s.cfg := by rw [e]
  rw [hc] at ht'
  refine ⟨?_, ?_, ?_⟩
  · rw [e', e]
  · rw [hs', hs, List.append_assoc]
  · intro ha
    obtain ⟨ha', h1⟩ := ht ha
    obtain ⟨ha'', h2⟩ := ht' ha'
    exact ⟨ha'', by rw [h2, Nat.add_mod, h1, ← Nat.add_mod, Nat.add_mul, Nat.add_assoc]⟩

theorem went.cfg {adv k : Nat} {p r : List Byte} {c : Cause} {s t : State} (h : went adv k p r c s t) : t.cfg = s.cfg := by
  rw [h.1]
theorem went.adv {adv k : Nat} {p r : List Byte} {c : Cause} {s t : State} (h : went adv k p r c s t)
    (ha : s.tickAdv = ⟨[], adv⟩) : t.tickAdv = ⟨[], adv⟩ := (h.2.2 ha).1
theorem went.tick {adv k : Nat} {p r : List Byte} {c : Cause} {s t : State} (h : went adv k p r c s t)
    (ha : s.tickAdv = ⟨[], adv⟩) : t.tick % tickModulus s.cfg = (s.tick + k * adv) % tickModulus s.cfg := (h.2.2 ha).2
theorem went.next {adv k : Nat} {p r : List Byte} {c : Cause} {s t : State} (h : went adv k p r c s t) : t.rx.next = r := by
  rw [h.1]
theorem went.cause {adv k : Nat} {p r : List Byte} {c : Cause} {s t : State} (h : went adv k p r c s t) : t.cause = c := by
  rw [h.1]
theorem went.quiet {adv k : Nat} {p r : List Byte} {c : Cause} {s t : State} (h : went adv k p r c s t) (hq : quiet s) :
    quiet t := by rw [h.1]; exact hq

/-- The place in the operation does not matter. -/
theorem went.enter {adv : Nat} (q : Seq) (s : State) : went adv 0 [] s.rx.next s.cause s (enter q s) :=
  ⟨rfl, by simp [State.sent, Machine.enter], fun ha => ⟨ha, by simp [Machine.enter]⟩⟩

theorem went.cast {adv k k' : Nat} {p p' r r' : List Byte} {c c' : Cause} {s t : State} (h : went adv k p r c s t) (hk : k = k')
    (hp : p = p') (hr : r = r') (hc : c = c') : went adv k' p' r' c' s t := by subst hk hp hr hc; exact h

/-! ### One frame -/

theorem turn_wf_congr {adv : Nat} {s t : State} {x : Turn} (hc : t.cfg = s.cfg)
    (ha : s.tickAdv = ⟨[], adv⟩ → t.tickAdv = ⟨[], adv⟩)
    (h : x.wf adv s) : x.wf adv t := by
  cases x with
  | ready => exact h
  | busy d0 d1 bs b e =>
    refine ⟨?_, h.2⟩
    obtain ⟨h1, h2⟩ := h.1
    exact ⟨ha h1, by rw [hc]; exact h2⟩

theorem turnsWf_congr {adv : Nat} {s t : State} {xs : List Turn} (hc : t.cfg = s.cfg)
    (ha : s.tickAdv = ⟨[], adv⟩ → t.tickAdv = ⟨[], adv⟩) (h : turnsWf adv s xs) : turnsWf adv t xs := fun x hx => turn_wf_congr hc ha (h x hx)

/-- The cause one turn leaves. -/
def turnCause (x : Turn) (c : Cause) : Cause := if x.isBusy then .timeout .waitReady else c

theorem turnsCause_one (x : Turn) (c : Cause) : turnsCause [x] c = turnCause x c := by simp [turnsCause, turnCause]

theorem turnsCause_append (xs ys : List Turn) (c : Cause) :
    turnsCause (xs ++ ys) c = turnsCause ys (turnsCause xs c) := by
  simp only [turnsCause, List.any_append]
  cases xs.any Turn.isBusy <;> cases ys.any Turn.isBusy <;> rfl

/-- One command frame and the turn it meets. -/
theorem sendPlain_turn {adv : Nat} {idx : Byte} {arg : U32} {x : Turn} {rest : List Byte} {s : State} (hx : x.isOf idx arg)
    (hwf : x.wf adv s) (hi : idx ≠ s.cfg.stopCmdIndex) (h : s.rx.next = x.bytes ++ rest)
    (hq : quiet s := by assumption) :
    ∃ t, sendPlain idx arg s = .ok x.value t ∧ went adv x.readings (x.sent s.cfg) rest (turnCause x s.cause) s t ∧
      t.r1 = x.value := by
  cases x with
  | ready i v a =>
    obtain ⟨rfl, rfl⟩ := hx
    refine ⟨_, sendPlain_answered hwf hi h, ⟨?_, sent_answered _ _ _ _ hwf, ?_⟩, rfl⟩
    · simp [answered, turnCause, Turn.isBusy]
    · intro ha
      simp [answered, Turn.readings, nextTick, ha, Feed.pop]
  | busy d0 d1 bs b e =>
    obtain ⟨hb, hne, hT⟩ := hwf
    have h0 : s.rx.next = d0 :: (d1 :: (bs ++ b :: e :: rest)) := by rw [h]; simp [Turn.bytes]
    obtain ⟨t, h1, h2, h3, h4⟩ := select_expires (rest := rest)
      (s := exchanged [s.cfg.dummy] [d0] (d1 :: (bs ++ b :: e :: rest)) (driven .deasserted s)) hb hne hT rfl (by exact hq)
    refine ⟨{ t with r1 := 0xFF#8 }, ?_, ⟨?_, ?_, ?_⟩, rfl⟩
    · unfold sendPlain
      rw [if_neg hi, deselect_answered h0, h1]
      rfl
    · rw [h2]; rfl
    · show t.sent = _
      rw [h3, sent_exchanged_one, sent_driven]
      show _ ++ List.replicate _ s.cfg.dummy = _
      simp [Turn.sent, List.replicate_succ]
    · intro ha
      refine ⟨by rw [h2]; exact ha, ?_⟩
      show t.tick % _ = _
      rw [h4]
      exact Nat.mod_mod _ _

/-- `sendCommand` and what it meets. -/
theorem sendCommand_turns {adv : Nat} {idx : Byte} {arg : U32} {xs : List Turn} {r : Byte} {rest : List Byte} {s : State}
    (hm : meets idx arg xs r) (hwf : turnsWf adv s xs) (h6 : idx.getLsbD 6 = false)
    (h55 : 55#8 ≠ s.cfg.stopCmdIndex) (hi : idx &&& 0x7F#8 ≠ s.cfg.stopCmdIndex) (h : s.rx.next = turnsBytes xs ++ rest)
    (hq : quiet s := by assumption) :
    ∃ t, sendCommand idx arg s = .ok r t ∧ went adv (turnsReadings xs) (turnsSent s.cfg xs) rest (turnsCause xs s.cause) s t
      ∧ t.r1 = r := by
  unfold sendCommand
  rw [h6]
  simp only [Bool.false_eq_true, if_false]
  cases h7 : idx.getLsbD 7 with
  | false =>
    have hid : idx &&& 0x7F#8 = idx := by
      apply BitVec.eq_of_getLsbD_eq
      intro i hi
      rcases i with _ | _ | _ | _ | _ | _ | _ | _ | i <;> first | omega | simp_all
    rw [hid] at hi
    simp only [meets, h7, Bool.false_eq_true, if_false] at hm
    obtain ⟨x, rfl, hx, rfl⟩ := hm
    obtain ⟨t, h1, h2, h3⟩ := sendPlain_turn (rest := rest) hx (hwf x (by simp)) hi (by rw [h]; simp [turnsBytes])
    refine ⟨t, h1, ?_, h3⟩
    rw [turnsCause_one]
    simpa [turnsReadings, turnsSent] using h2
  | true =>
    simp only [meets, h7, if_true] at hm
    simp only [if_true]
    rcases hm with ⟨x, rfl, hx, hr, rfl⟩ | ⟨x, y, rfl, hx, hr, hy, rfl⟩
    · obtain ⟨t, h1, h2, h3⟩ := sendPlain_turn (rest := rest) hx (hwf x (by simp)) h55 (by rw [h]; simp [turnsBytes])
      refine ⟨t, ?_, ?_, h3⟩
      · rw [h1]
        have : idleOrReady x.value = false := by simp [idleOrReady]; omega
        simp [this]
      · rw [turnsCause_one]
        simpa [turnsReadings, turnsSent] using h2
    · obtain ⟨t, h1, h2, -⟩ := sendPlain_turn (rest := y.bytes ++ rest) hx (hwf x (by simp)) h55
        (by rw [h]; simp [turnsBytes])
      obtain ⟨u, h4, h5, h6⟩ := sendPlain_turn (rest := rest) (s := t) hy
        (turn_wf_congr h2.cfg h2.adv (hwf y (by simp))) (by rw [h2.cfg]; exact hi) h2.next (h2.quiet hq)
      refine ⟨u, ?_, ?_, h6⟩
      · rw [h1]
        have : idleOrReady x.value = true := by simp [idleOrReady]; omega
        simp [this, h4]
      · have := h2.trans h5
        rw [h2.cfg, h2.cause] at this
        rw [show [x, y] = [x] ++ [y] from rfl, turnsCause_append, turnsCause_one, turnsCause_one]
        simpa [turnsReadings, turnsSent] using this

/-! ### The init poll -/

theorem readings_pos (x : Turn) : 1 ≤ x.readings := by
  cases x <;> simp [Turn.readings]

theorem meets_ne_nil {idx r : Byte} {arg : U32} {xs : List Turn} (h : meets idx arg xs r) : xs ≠ [] := by
  unfold meets at h
  split at h
  · rcases h with ⟨x, rfl, -⟩ | ⟨x, y, rfl, -⟩ <;> simp
  · obtain ⟨x, rfl, -⟩ := h; simp

theorem turnsBytes_ne_nil {xs : List Turn} (h : xs ≠ []) : turnsBytes xs ≠ [] := by
  cases xs with
  | nil => exact absurd rfl h
  | cons x t => cases x <;> simp [turnsBytes, Turn.bytes, Answer.bytes]

theorem turnsBytes_append (xs ys : List Turn) : turnsBytes (xs ++ ys) = turnsBytes xs ++ turnsBytes ys := by
  simp [turnsBytes]

theorem turnsSent_append (c : Config) (xs ys : List Turn) : turnsSent c (xs ++ ys) = turnsSent c xs ++ turnsSent c ys := by
  simp [turnsSent]

theorem turnsReadings_append (xs ys : List Turn) : turnsReadings (xs ++ ys) = turnsReadings xs + turnsReadings ys := by
  simp [turnsReadings]

/-- The elapsed time after `k` readings since the window was set, short of a lap of the counter. -/
theorem elapsed_readings {c : Config} {start t k adv : Nat} (hs : start < tickModulus c)
    (ht : t % tickModulus c = (start + k * adv) % tickModulus c) (hk : k * adv < tickModulus c) (hl : t < tickModulus c) :
    elapsed c start t = k * adv := by
  rw [Nat.mod_eq_of_lt hl] at ht
  rw [ht, elapsed_advance hs hs (by rw [elapsed_self]; omega), elapsed_self, Nat.zero_add]

/-- A test of the window: one reading, nothing on the link. -/
theorem expired_went {adv : Nat} (w : Window) {s : State} (hq : quiet s := by assumption) :
    went adv 1 [] s.rx.next s.cause s (expired w s).2 ∧ (expired w s).2.tick < tickModulus s.cfg := by
  have h := now_quiet hq
  refine ⟨⟨?_, ?_, ?_⟩, Nat.mod_lt _ (tickModulus_pos _)⟩
  · rw [show (expired w s).2 = _ from h]
  · show (now s).2.sent = _
    rw [h]; simp [State.sent, Event.sent]
  · intro ha
    refine ⟨by show s.tickAdv.pop.2 = _; rw [ha]; rfl, ?_⟩
    show (s.tick + s.tickAdv.pop.1) % tickModulus s.cfg % tickModulus s.cfg = _
    rw [ha, Nat.mod_mod, Nat.one_mul]
    rfl

theorem delay_went {adv : Nat} (ms : Nat) (s : State) (hq : quiet s := by assumption) :
    went adv 0 [] s.rx.next s.cause s (delay ms s) := by
  rw [delay_quiet ms hq]
  exact ⟨rfl, by simp [State.sent, Event.sent], fun ha => ⟨ha, by simp⟩⟩

/-- The result of a test `k` readings after the window was set. -/
theorem expired_at {adv k : Nat} {w : Window} {s : State} (ha : s.tickAdv = ⟨[], adv⟩) (hw : w.start < tickModulus s.cfg)
    (ht : s.tick % tickModulus s.cfg = (w.start + k * adv) % tickModulus s.cfg) (hk : (k + 1) * adv < tickModulus s.cfg) :
    (expired w s).1 = decide (w.durationMs.toNat ≤ (k + 1) * adv) := by
  have h1 : (now s).1 = (s.tick + adv) % tickModulus s.cfg := by
    show (s.tick + s.tickAdv.pop.1) % _ = _
    rw [ha]; rfl
  have h2 : elapsed s.cfg w.start (now s).1 = (k + 1) * adv := by
    refine elapsed_readings hw ?_ hk (by rw [h1]; exact Nat.mod_lt _ (tickModulus_pos _))
    rw [h1, Nat.mod_mod, Nat.add_mod, ht, ← Nat.add_mod, Nat.add_mul, Nat.one_mul, Nat.add_assoc]
  show decide (_ ≤ elapsed s.cfg w.start (now s).1) = _
  rw [h2]

/-- A poll that goes on: one iteration of R211. -/
theorem pollLoop_goesOn {adv : Nat} {w : Window} {q : Seq} {idx r : Byte} {arg : U32} {xs : List Turn} {rest : List Byte}
    {s : State} (hm : meets idx arg xs r) (hr : r ≠ 0x00#8) (hwf : turnsWf adv s xs)
    (h6 : idx.getLsbD 6 = false) (h55 : 55#8 ≠ s.cfg.stopCmdIndex) (hi : idx &&& 0x7F#8 ≠ s.cfg.stopCmdIndex)
    (h : s.rx.next = turnsBytes xs ++ rest) (hopen : (expired w (enter q s)).1 = false) (j : Nat) (hq : quiet s := by assumption) :
    ∃ t, pollLoop (j + 1) w q idx arg s = pollLoop j w q idx arg t ∧
      went adv (1 + turnsReadings xs) (turnsSent s.cfg xs) rest (turnsCause xs s.cause) s t := by
  obtain ⟨he, -⟩ := expired_went (adv := adv) w (s := enter q s) (by exact hq)
  obtain ⟨t, h1, h2, -⟩ := sendCommand_turns (s := (expired w (enter q s)).2) hm
    (turnsWf_congr he.cfg he.adv hwf) h6 (by rw [he.cfg]; exact h55) (by rw [he.cfg]; exact hi)
    (by rw [he.next]; exact h) (he.quiet hq)
  have hd := delay_went (adv := adv) t.cfg.pollDelayMs t (h2.quiet (he.quiet hq))
  have hf : frozen (enter q s) = false := by
    have : s.rx.next ≠ [] := by
      rw [h]; intro hh; exact turnsBytes_ne_nil (meets_ne_nil hm) (List.append_eq_nil_iff.1 hh).1
    simp [frozen, enter, this]
  refine ⟨_, ?_, ((went.enter (adv := adv) q s).trans (he.trans (h2.trans hd))).cast ?_ ?_ h2.next ?_⟩
  · rw [pollLoop]
    simp only [hopen, h1, Bool.false_eq_true, if_false, Res.bind_ok]
    have : acceptedReady r = false := by simpa [acceptedReady] using hr
    simp only [this, hf, Bool.false_eq_true, if_false]
  · omega
  · rw [he.cfg]; simp [enter]
  · rw [h2.cause, he.cause]; rfl

theorem pollReadings_cons (xs : List Turn) (ps : List (List Turn)) :
    pollReadings (xs :: ps) = 1 + turnsReadings xs + pollReadings ps := by
  simp [pollReadings, turnsReadings_append]; omega

/-- The window of 1000 ms, read `before` times so far, is open at each of these polls. -/
def openAt (adv before : Nat) (ps : List (List Turn)) : Prop :=
  ∀ init xs, ps = init ++ [xs] → (before + pollReadings init + 1) * adv < 1000

theorem openAt.tail {adv before : Nat} {xs : List Turn} {ps : List (List Turn)} (h : openAt adv before (xs :: ps)) :
    openAt adv (before + 1 + turnsReadings xs) ps := fun init ys he => by
  have := h (xs :: init) ys (by rw [he]; rfl)
  rw [pollReadings_cons] at this
  rwa [show before + 1 + turnsReadings xs + pollReadings init + 1 = before + (1 + turnsReadings xs + pollReadings init) + 1 by
    omega]

theorem openAt.head {adv before : Nat} {xs : List Turn} {ps : List (List Turn)} (h : openAt adv before (xs :: ps)) :
    (before + 1) * adv < 1000 := by
  obtain ⟨init, ys, he⟩ : ∃ init ys, xs :: ps = init ++ [ys] :=
    ⟨_, _, (List.dropLast_append_getLast (List.cons_ne_nil xs ps)).symm⟩
  exact lt_of_le_of_lt (Nat.mul_le_mul_right _ (by omega)) (h init ys he)

theorem pollReadings_append_one (ps : List (List Turn)) (xs : List Turn) :
    pollReadings (ps ++ [xs]) = pollReadings ps + 1 + turnsReadings xs := by
  simp [pollReadings, turnsReadings_append]; omega

theorem openAt_of_lt {adv before : Nat} {ps : List (List Turn)} (h : (before + pollReadings ps + 1) * adv < 1000) :
    openAt adv before ps := fun init xs he => by
  refine lt_of_le_of_lt (Nat.mul_le_mul_right _ ?_) h
  rw [he, pollReadings_append_one]; omega

/-- The polls that go on, one after another. -/
theorem pollLoop_through {adv before : Nat} {w : Window} {q : Seq} {idx : Byte} {arg : U32} {ps : List (List Turn)}
    {rest : List Byte} {s : State} (hps : pollsGoOn idx arg ps) (hwf : turnsWf adv s ps.flatten) (ha : s.tickAdv = ⟨[], adv⟩)
    (h6 : idx.getLsbD 6 = false) (h55 : 55#8 ≠ s.cfg.stopCmdIndex) (hi : idx &&& 0x7F#8 ≠ s.cfg.stopCmdIndex)
    (h : s.rx.next = turnsBytes ps.flatten ++ rest) (hw : w.start < tickModulus s.cfg) (hd : w.durationMs = tInitMs)
    (hM : 1000 ≤ tickModulus s.cfg) (ht : s.tick % tickModulus s.cfg = (w.start + before * adv) % tickModulus s.cfg)
    (ho : openAt adv before ps) (j : Nat) (hq : quiet s := by assumption) :
    ∃ t, pollLoop (ps.length + j) w q idx arg s = pollLoop j w q idx arg t ∧
      went adv (pollReadings ps) (turnsSent s.cfg ps.flatten) rest (turnsCause ps.flatten s.cause) s t := by
  induction ps generalizing s before with
  | nil =>
    simp only [List.flatten_nil, turnsBytes, List.flatMap_nil, List.nil_append] at h
    subst h
    exact ⟨s, by simp, ⟨by simp [turnsCause], by simp [turnsSent], fun ha => ⟨ha, by simp [pollReadings, turnsReadings]⟩⟩⟩
  | cons xs ps ih =>
    obtain ⟨r, hm, hr⟩ := hps xs (by simp)
    have h0 := ho.head
    have hopen : (expired w (enter q s)).1 = false := by
      rw [expired_at (k := before) (s := enter q s) ha hw ht (by exact lt_of_lt_of_le h0 hM), hd]
      exact decide_eq_false (by show ¬1000 ≤ _; omega)
    obtain ⟨t, h1, h2⟩ := pollLoop_goesOn (rest := turnsBytes ps.flatten ++ rest) hm hr
      (fun x hx => hwf x (by simp [hx])) h6 h55 hi (by rw [h, List.flatten_cons, turnsBytes_append, List.append_assoc])
      hopen (ps.length + j)
    have hc := h2.cfg
    obtain ⟨u, h3, h4⟩ := ih (s := t) (before := before + 1 + turnsReadings xs) (fun ys hy => hps ys (by simp [hy]))
      (turnsWf_congr hc h2.adv fun x hx => hwf x (by rw [List.flatten_cons]; exact List.mem_append_right _ hx)) (h2.adv ha) (by rw [hc]; exact h55)
      (by rw [hc]; exact hi) h2.next (by rw [hc]; exact hw) (by rw [hc]; exact hM)
      (by
        rw [hc, h2.tick ha, Nat.add_mod, ht, ← Nat.add_mod, Nat.add_assoc, ← Nat.add_mul]
        congr 3; omega)
      ho.tail (h2.quiet hq)
    refine ⟨u, ?_, (h2.trans h4).cast ?_ ?_ rfl ?_⟩
    · rw [show (xs :: ps).length + j = ps.length + j + 1 by simp; omega, h1, h3]
    · rw [pollReadings_cons]
    · rw [hc, List.flatten_cons, turnsSent_append]
    · rw [h2.cause, List.flatten_cons, turnsCause_append]

theorem length_turnsBytes {ps : List (List Turn)} {idx : Byte} {arg : U32} (h : pollsGoOn idx arg ps) :
    ps.length ≤ (turnsBytes ps.flatten).length := by
  induction ps with
  | nil => simp
  | cons xs ps ih =>
    have := ih fun ys hy => h ys (by simp [hy])
    obtain ⟨r, hm, -⟩ := h xs (by simp)
    have := List.length_pos_iff.2 (turnsBytes_ne_nil (meets_ne_nil hm))
    rw [List.flatten_cons, turnsBytes_append, List.length_append, List.length_cons]
    omega

/-- The poll that ends on 0x00. -/
theorem poll_accepts {adv before : Nat} {w : Window} {q : Seq} {idx : Byte} {arg : U32} {ps : List (List Turn)}
    {xs : List Turn} {rest : List Byte} {s : State} (hps : pollsGoOn idx arg ps) (hxs : meets idx arg xs 0x00#8)
    (hwf : turnsWf adv s (ps.flatten ++ xs)) (ha : s.tickAdv = ⟨[], adv⟩)
    (h6 : idx.getLsbD 6 = false) (h55 : 55#8 ≠ s.cfg.stopCmdIndex) (hi : idx &&& 0x7F#8 ≠ s.cfg.stopCmdIndex)
    (h : s.rx.next = turnsBytes (ps.flatten ++ xs) ++ rest) (hw : w.start < tickModulus s.cfg) (hd : w.durationMs = tInitMs)
    (hM : 1000 ≤ tickModulus s.cfg) (ht : s.tick % tickModulus s.cfg = (w.start + before * adv) % tickModulus s.cfg)
    (ho : (before + pollReadings ps + 1) * adv < 1000) (hq : quiet s := by assumption) :
    ∃ t, poll w q idx arg s = .ok true t ∧
      went adv (pollReadings ps + 1 + turnsReadings xs) (turnsSent s.cfg (ps.flatten ++ xs)) rest
        (turnsCause (ps.flatten ++ xs) s.cause) s t := by
  have h' : s.rx.next = turnsBytes ps.flatten ++ (turnsBytes xs ++ rest) := by
    rw [h, turnsBytes_append, List.append_assoc]
  obtain ⟨j, hj⟩ : ∃ j, pollFuel s = ps.length + (j + 1) := by
    have := length_turnsBytes hps
    refine ⟨pollFuel s - ps.length - 1, ?_⟩
    unfold pollFuel
    rw [h', List.length_append]
    omega
  obtain ⟨t, h1, h2⟩ := pollLoop_through (q := q) hps (fun x hx => hwf x (List.mem_append_left _ hx)) ha h6 h55 hi h' hw hd hM ht
    (openAt_of_lt ho) (j + 1)
  have hc := h2.cfg
  have htq := h2.quiet hq
  have ht' : t.tick % tickModulus t.cfg = (w.start + (before + pollReadings ps) * adv) % tickModulus t.cfg := by
    rw [hc, h2.tick ha, Nat.add_mod, ht, ← Nat.add_mod, Nat.add_mul before, Nat.add_assoc]
  have hopen : (expired w (enter q t)).1 = false := by
    rw [expired_at (k := before + pollReadings ps) (s := enter q t) (by exact h2.adv ha) (by rw [← hc] at hw; exact hw) ht'
      (by rw [← hc] at hM; exact lt_of_lt_of_le ho hM), hd]
    exact decide_eq_false (by show ¬1000 ≤ _; omega)
  obtain ⟨he, -⟩ := expired_went (adv := adv) w (s := enter q t) (by exact htq)
  obtain ⟨u, h3, h4, -⟩ := sendCommand_turns (rest := rest) (s := (expired w (enter q t)).2) hxs
    (turnsWf_congr (he.cfg.trans hc) (fun a => he.adv (h2.adv a)) fun x hx => hwf x (List.mem_append_right _ hx))
    h6 (by rw [he.cfg]; show _ ≠ t.cfg.stopCmdIndex; rw [hc]; exact h55)
    (by rw [he.cfg]; show _ ≠ t.cfg.stopCmdIndex; rw [hc]; exact hi) (by rw [he.next]; exact h2.next) (he.quiet htq)
  refine ⟨u, ?_, (h2.trans ((went.enter (adv := adv) q t).trans (he.trans h4))).cast ?_ ?_ rfl ?_⟩
  · unfold poll
    rw [hj, h1, pollLoop]
    simp only [hopen, h3, Bool.false_eq_true, if_false, Res.bind_ok]
    rfl
  · omega
  · rw [he.cfg, show (enter q t).cfg = s.cfg from hc, turnsSent_append]; simp
  · rw [he.cause, show (enter q t).cause = t.cause from rfl, h2.cause, turnsCause_append]

/-- The poll whose window runs out. -/
theorem poll_expires {adv before : Nat} {w : Window} {q : Seq} {idx : Byte} {arg : U32} {ps : List (List Turn)}
    {rest : List Byte} {s : State} (hps : pollsGoOn idx arg ps) (hwf : turnsWf adv s ps.flatten) (ha : s.tickAdv = ⟨[], adv⟩)
    (h6 : idx.getLsbD 6 = false) (h55 : 55#8 ≠ s.cfg.stopCmdIndex) (hi : idx &&& 0x7F#8 ≠ s.cfg.stopCmdIndex)
    (h : s.rx.next = turnsBytes ps.flatten ++ rest) (hw : w.start < tickModulus s.cfg) (hd : w.durationMs = tInitMs)
    (hM : 1000 ≤ tickModulus s.cfg) (ht : s.tick % tickModulus s.cfg = (w.start + before * adv) % tickModulus s.cfg)
    (ho : pollsExpire adv before ps s) (hq : quiet s := by assumption) :
    ∃ t, poll w q idx arg s = .ok false t ∧
      went adv (pollReadings ps + 1) (turnsSent s.cfg ps.flatten) rest (.timeout .initPoll) s t := by
  obtain ⟨j, hj⟩ : ∃ j, pollFuel s = ps.length + (j + 1) := by
    have := length_turnsBytes hps
    refine ⟨pollFuel s - ps.length - 1, ?_⟩
    unfold pollFuel
    rw [h, List.length_append]
    omega
  obtain ⟨t, h1, h2⟩ := pollLoop_through (q := q) hps hwf ha h6 h55 hi h hw hd hM ht ho.1 (j + 1)
  have hc := h2.cfg
  have htq := h2.quiet hq
  have ht' : t.tick % tickModulus t.cfg = (w.start + (before + pollReadings ps) * adv) % tickModulus t.cfg := by
    rw [hc, h2.tick ha, Nat.add_mod, ht, ← Nat.add_mod, Nat.add_mul before, Nat.add_assoc]
  have hover : (expired w (enter q t)).1 = true := by
    rw [expired_at (k := before + pollReadings ps) (s := enter q t) (by exact h2.adv ha) (by rw [← hc] at hw; exact hw) ht'
      (by show _ < tickModulus t.cfg; rw [hc]; exact ho.2.2), hd]
    exact decide_eq_true ho.2.1
  obtain ⟨he, -⟩ := expired_went (adv := adv) w (s := enter q t) (by exact htq)
  have hr : went adv 0 [] (expired w (enter q t)).2.rx.next (.timeout .initPoll) (expired w (enter q t)).2
      (raise (.timeout .initPoll) (expired w (enter q t)).2) := ⟨rfl, by simp [State.sent, raise], fun ha => ⟨ha, by simp [raise]⟩⟩
  refine ⟨_, ?_, (h2.trans ((went.enter (adv := adv) q t).trans (he.trans hr))).cast ?_ ?_ ?_ rfl⟩
  · unfold poll
    rw [hj, h1, pollLoop]
    simp only [hover, if_true]
  · omega
  · simp
  · rw [he.next]; exact h2.next

end Sys2Proof.Machine
end

