-- ==== Sys2Proof/Laws/Probe.lean ====
section
/-! SUPPORT. `initialize` step by step, each command meeting a turn: the unchecked CMD0 iterations, the window of 1000 ms, the two
branches of the probe, and what the end of the probe leaves. -/

namespace Sys2Proof.Machine

set_option Elab.async false

open Sys2Proof

theorem setSpeed_quiet {s : State} (sp : Speed) (hq : quiet s) : setSpeed sp s = { s with
    speedSel := sp, spiCfg := { s.spiCfg with speed := speedOf s.cfg sp }, events := .speed sp :: s.events } :=
  emit_quiet (s := { s with speedSel := sp, spiCfg := { s.spiCfg with speed := speedOf s.cfg sp } }) _ hq

theorem went.refl (adv : Nat) (s : State) : went adv 0 [] s.rx.next s.cause s s :=
  ⟨rfl, by simp, fun ha => ⟨ha, by simp⟩⟩

theorem went.wins {adv k : Nat} {p r : List Byte} {c : Cause} {s t : State} (h : went adv k p r c s t) : t.wins = s.wins := by
  rw [h.1]

/-- A command without the application flag meets one turn. -/
theorem meets_one {idx : Byte} {arg : U32} {x : Turn} (h7 : idx.getLsbD 7 = false) (hx : x.isOf idx arg) :
    meets idx arg [x] x.value := by
  simp only [meets, h7, Bool.false_eq_true, if_false]
  exact ⟨x, rfl, hx, rfl⟩

/-- One command without the application flag. -/
theorem sendCommand_turn {adv : Nat} {idx : Byte} {arg : U32} {x : Turn} {rest : List Byte} {s : State} (hx : x.isOf idx arg)
    (hwf : x.wf adv s) (h6 : idx.getLsbD 6 = false) (h7 : idx.getLsbD 7 = false) (hs : s.cfg.stopCmdIndex = 12#8)
    (hi : idx ≠ 12#8) (h : s.rx.next = x.bytes ++ rest) (hq : quiet s := by assumption) :
    ∃ t, sendCommand idx arg s = .ok x.value t ∧ went adv x.readings (x.sent s.cfg) rest (turnCause x s.cause) s t
      ∧ t.r1 = x.value := by
  have h1 : sendCommand idx arg s = sendPlain idx arg s := by unfold sendCommand; rw [h6, h7]; rfl
  rw [h1]
  exact sendPlain_turn hx hwf (by rw [hs]; exact hi) h

theorem preCmd0_went {adv : Nat} {pre : List Turn} {rest : List Byte} {s : State} (h0 : ∀ x ∈ pre, x.isOf 0#8 0#32)
    (hwf : turnsWf adv s pre) (hi : s.cfg.stopCmdIndex = 12#8) (h : s.rx.next = turnsBytes pre ++ rest) (hq : quiet s) :
    ∃ t k, preCmd0 pre.length s = .ok () t ∧ went adv k (turnsSent s.cfg pre) rest (turnsCause pre s.cause) s t := by
  induction pre generalizing s with
  | nil =>
    simp only [turnsBytes, List.flatMap_nil, List.nil_append] at h
    subst h
    exact ⟨s, 0, rfl, (went.refl adv s).cast rfl (by simp [turnsSent]) rfl (by simp [turnsCause])⟩
  | cons x pre ih =>
    have hd := delay_went (adv := adv) s.cfg.cmd0PreDelayMs s
    obtain ⟨t, h1, h2, -⟩ := sendCommand_turn (idx := 0#8) (arg := 0#32) (x := x)
      (rest := turnsBytes pre ++ rest) (s := delay s.cfg.cmd0PreDelayMs s)
      (h0 x (by simp)) (turn_wf_congr hd.cfg hd.adv (hwf x (by simp))) (by decide) (by decide) (by rw [hd.cfg, hi])
      (by decide) (by rw [hd.next, h]; simp [turnsBytes]) (hd.quiet hq)
    have hst := hd.trans h2
    obtain ⟨u, k, h3, h4⟩ := ih (s := t) (fun y hy => h0 y (by simp [hy]))
      (turnsWf_congr hst.cfg hst.adv fun y hy => hwf y (by simp [hy])) (by rw [hst.cfg]; exact hi) h2.next (hst.quiet hq)
    refine ⟨u, _, ?_, (hst.trans h4).cast rfl ?_ rfl ?_⟩
    · rw [List.length_cons, preCmd0, h1]; exact h3
    · rw [hst.cfg, hd.cfg]; simp [turnsSent]
    · rw [hst.cause, ← turnsCause_one, ← turnsCause_append, hd.cause]; rfl

theorem wpActive_eq {s : State} (hq : quiet s) : wpActive s = (inputProtected s, readWp s) := by
  unfold wpActive; rw [meanwhile_quiet hq]

/-- The end of the probe, once its card is known. -/
theorem probe_tail {c : Card} {a u : State} {d : Byte} {rest : List Byte} (hq : quiet a) (hl : a.lock = ⟨some a.me, 1⟩)
    (hu : u = { a with
      cs := u.cs, fr := u.fr, r1 := u.r1, n := u.n, ocr := u.ocr, rx := { a.rx with next := d :: rest }
      tick := u.tick, tickAdv := u.tickAdv, events := u.events, cause := u.cause, seq := u.seq, path := u.path }) :
    ∃ t, (probeDone (recordCard c u)).callOutcome .initCard = .next t ∧
      t = { u with
        card := c, cs := .deasserted, rx := { u.rx with next := rest }, lock := ⟨none, 0⟩, seq := .idle, path := t.path
        status := ⟨c.type == .unknown, a.status.noDisk, inputProtected a⟩, wp := t.wp, speedSel := .high, spiCfg := t.spiCfg
        hostOut := .drive t.status, events := t.events } ∧
      t.sent = u.sent ++ [u.cfg.dummy] := by
  have huq : quiet u := by rw [hu]; exact hq
  have hul : u.lock = ⟨some u.me, 1⟩ := by rw [hu]; exact hl
  have hun : u.rx.next = d :: rest := by rw [hu]
  have hnd : a.status.noDisk = u.status.noDisk := by rw [hu]
  have hip : inputProtected a = inputProtected u := by rw [hu]; rfl
  rw [hnd, hip]
  have h1 : recordCard c u = readWp { exchanged [u.cfg.dummy] [d] rest (driven .deasserted { enter .pRecord u with card := c }) with
      status := ⟨c.type == .unknown, u.status.noDisk, inputProtected u⟩ } := by
    unfold recordCard
    rw [deselect_answered (s := { enter .pRecord u with card := c }) (d := d) (rest := rest) hun (by exact huq),
      meanwhile_quiet (by exact huq)]
    dsimp only
    rw [wpActive_eq (by exact huq)]
    unfold readWp
    by_cases hw : u.cfg.wpEnabled = true
    · simp [exchanged, driven, enter, hw, record, inputProtected]
    · simp [exchanged, driven, enter, hw, inputProtected]
  generalize hv : recordCard c u = v at *
  have hvq : quiet v := by rw [h1]; unfold readWp; split <;> exact huq
  have hvl : v.lock = ⟨some v.me, 1⟩ := by rw [h1]; unfold readWp; split <;> exact hul
  have h2 : (probeDone v).callOutcome .initCard = .next (returnToHost (.drive v.status) { setSpeed .high (enter .pDone v) with
      lock := ⟨none, 0⟩, events := .unlock v.me :: (setSpeed .high (enter .pDone v)).events }) := by
    unfold probeDone unlock
    rw [setSpeed_quiet _ (by exact hvq)]
    simp only [enter, hvl]
    rw [if_pos (by simp), meanwhile_quiet (by exact hvq)]
    rw [Res.bind_ok, meanwhile_quiet (by exact hvq)]
    simp [record, lockReleased, Res.callOutcome]
  refine ⟨_, h2, ?_, ?_⟩
  · rw [setSpeed_quiet _ (by exact hvq), returnToHost_eq _ (by exact hvq)]
    rw [h1]
    unfold readWp
    split <;> rfl
  · rw [setSpeed_quiet _ (by exact hvq), returnToHost_eq _ (by exact hvq)]
    have he : ∀ q x, (enterOwn q x).events = x.events := by intro q x; unfold enterOwn; split <;> rfl
    have hw : ∀ x : State, (readWp x).sent = x.sent := by
      intro x; unfold readWp; split <;> simp [State.sent, record, Event.sent]
    have hv' : v.sent = u.sent ++ [u.cfg.dummy] := by
      rw [h1, hw]; simp [State.sent, exchanged, driven, enter]; rfl
    rw [← hv']
    unfold State.sent
    rw [he]
    simp [enter, Event.sent]

theorem sent_sampled (s : State) : (sampled s).sent = s.sent := by
  rw [sent_of_events (s := s) (es := (inputEvents s).reverse) (by simp [sampled])]
  unfold inputEvents
  split <;> split <;> simp [Event.sent]

/-- `initialize`, once it is known what the probe of the card does. -/
theorem probe_of_card {adv : Nat} {idle : List Byte} {pre : List Turn} {s : State} {c : Card} {mid sent rest : List Byte}
    {d : Byte} {cause : Cause} (hs : probeStarts adv idle pre s)
    (h : s.rx.next = idle ++ (turnsBytes pre ++ (mid ++ d :: rest)))
    (hcard : ∀ a : State, quiet a → a.cfg = s.cfg → a.cause = turnsCause pre .none →
      (s.tickAdv = ⟨[], adv⟩ → a.tickAdv = ⟨[], adv⟩) → a.rx.next = mid ++ d :: rest →
      ∃ u k, probeCard a = .ok c u ∧ went adv k sent (d :: rest) cause a u) :
    ∃ t, exec .initCard s = .next t ∧ probeEnds c cause (turnsSent s.cfg pre ++ sent) rest s t := by
  obtain ⟨hp, hl, hq, h12, hlen, hpl, h0, hwf⟩ := hs
  obtain ⟨h1, h2⟩ := hostCall_opened (c := .initCard) hl hq (by simp) (by simp [earlyReturn, sampledStatus, hp])
  have h3 : exec .initCard s = (probeBody (opened .pCheck s)).callOutcome .initCard := by
    show hostCall .initCard s = _
    rw [h1]
    show (probeBody _).callOutcome .initCard = _
    rw [h2]
    rfl
  have hoq : quiet (opened .pCheck s) := hq
  generalize ho : opened .pCheck s = o at *
  have hb : sendDummies o.cfg.initIdleBytes (setSpeed .low (enter .pClocks o)) =
      exchanged (List.replicate o.cfg.initIdleBytes o.cfg.dummy) idle (turnsBytes pre ++ (mid ++ d :: rest))
        (setSpeed .low (enter .pClocks o)) := by
    rw [setSpeed_quiet _ (by exact hoq)]
    exact sendDummies_answered (by rw [hlen, ← ho]; rfl) (by rw [← ho]; exact h) (by exact hoq)
  generalize hb' : exchanged (List.replicate o.cfg.initIdleBytes o.cfg.dummy) idle (turnsBytes pre ++ (mid ++ d :: rest))
        (setSpeed .low (enter .pClocks o)) = b at hb
  have hbe : b = { o with
      speedSel := .low, spiCfg := b.spiCfg, seq := b.seq, path := b.path, events := b.events
      rx := { o.rx with next := turnsBytes pre ++ (mid ++ d :: rest) } } := by
    rw [← hb', setSpeed_quiet _ (by exact hoq)]; rfl
  have hbs : b.sent = s.sent ++ List.replicate s.cfg.initIdleBytes s.cfg.dummy := by
    rw [← hb', sent_exchanged _ _ (by rw [hlen, ← ho]; simp; rfl), setSpeed_quiet _ (by exact hoq)]
    have : (opened .pCheck s).sent = s.sent := sent_opened _ _
    rw [ho] at this
    have hoc : o.cfg = s.cfg := by rw [← ho]; rfl
    rw [hoc, ← this]
    simp [State.sent, enter, Event.sent]
  have hbc : b.cfg = s.cfg := by rw [hbe, ← ho]; rfl
  have hbq : quiet b := by rw [hbe]; exact hoq
  have hba : b.tickAdv = s.tickAdv := by rw [hbe, ← ho]; rfl
  have hpe := went.enter (adv := adv) .pPre b
  obtain ⟨t, k, h4, h5⟩ := preCmd0_went (adv := adv) (pre := pre) (rest := mid ++ d :: rest) (s := enter .pPre b) h0
    (turnsWf_congr hbc (fun ha => by show b.tickAdv = _; rw [hba, ha]) hwf) (by show b.cfg.stopCmdIndex = _; rw [hbc, h12])
    (by show b.rx.next = _; rw [hbe]) (by exact hbq)
  have hbt := hpe.trans h5
  have hbca : b.cause = .none := by rw [hbe, ← ho]; rfl
  obtain ⟨u, l, h6, h7⟩ := hcard t (hbt.quiet hbq) (by rw [hbt.cfg, hbc])
    (by rw [hbt.cause]; show turnsCause pre b.cause = _; rw [hbca])
    (fun ha => hbt.adv (by rw [hba, ha])) h5.next
  have hbu := hbt.trans h7
  have hub : u = { b with
      cs := u.cs, fr := u.fr, r1 := u.r1, n := u.n, ocr := u.ocr, rx := { b.rx with next := d :: rest }
      tick := u.tick, tickAdv := u.tickAdv, events := u.events, cause := u.cause, seq := u.seq, path := u.path } := by
    rw [hbu.cause]; exact hbu.1
  obtain ⟨w, h8, h9, h10⟩ := probe_tail (c := c) hbq (by rw [hbe, ← ho]; rfl) hub
  refine ⟨w, ?_, ⟨?_, ?_⟩, ?_, ?_, ?_, ⟨?_, ?_, ?_, ?_⟩, ?_, ?_, ?_, ?_⟩
  · rw [h3]
    unfold probeBody
    dsimp only
    rw [hb]
    rw [show b.cfg.nCmd0Pre = pre.length by rw [hbc, hpl], h4]
    simp only [Res.bind_ok, h6]
    exact h8
  · rw [h9, hub, hbe, ← ho]; rfl
  · refine ⟨[], ?_⟩
    rw [h9, hub, hbe, ← ho]; simp [opened, sampled]
  · rw [h9]
  · rw [h9, hbe, ← ho]
    simp [opened, sampled, sampledStatus, hp, inputProtected]
  · rw [h9]
  · rw [h9]
  · rw [h9]
  · rw [h9]
  · exact congrArg State.hostOut h9
  · rw [h9]; exact h7.cause
  · rw [h9, hub, hbe, ← ho]; rfl
  · rw [h9, hub, hbe, ← ho]; rfl
  · rw [h10, hbu.2.1, hbs, hbu.cfg, hbc]
    have : t.cfg = s.cfg := by rw [hbt.cfg, hbc]
    simp [enter, hbc]

/-! ### The probe of the card -/

/-- A command with a test on its value, inside the probe. -/
theorem turn_answered {adv : Nat} {s : State} {idx : Byte} {arg : U32} {a : Answer} (h : a.wf = true) :
    (Turn.ready idx arg a).wf adv s ∧ (Turn.ready idx arg a).isOf idx arg := ⟨h, rfl, rfl⟩

theorem raise_went {adv : Nat} (c : Cause) (s : State) : went adv 0 [] s.rx.next c s (raise c s) :=
  ⟨rfl, by simp [State.sent, raise], fun ha => ⟨ha, by simp [raise]⟩⟩

theorem readOcr_went {adv : Nat} {b0 b1 b2 b3 : Byte} {rest : List Byte} {s : State}
    (h : s.rx.next = b0 :: b1 :: b2 :: b3 :: rest) (hq : quiet s := by assumption) :
    went adv 0 (List.replicate 4 s.cfg.dummy) rest s.cause s (readOcr 0 4 s) ∧ (readOcr 0 4 s).ocr = #v[b0, b1, b2, b3] := by
  rw [readOcr_answered h]
  refine ⟨⟨rfl, ?_, fun ha => ⟨ha, by simp [readOn]⟩⟩, rfl⟩
  exact sent_readOn [b0, b1, b2, b3] rest s

/-- CMD0 that is not answered by 0x01 ends the probe. -/
theorem probeCard_cmd0 {adv : Nat} {x : Turn} {rest : List Byte} {a : State} (hx : x.isOf 0#8 0#32) (hwf : x.wf adv a)
    (hv : x.value ≠ 0x01#8) (h12 : a.cfg.stopCmdIndex = 12#8) (h : a.rx.next = x.bytes ++ rest) (hq : quiet a) :
    ∃ u k, probeCard a = .ok Card.none u ∧ went adv k (x.sent a.cfg) rest (.diskError .cmd0) a u := by
  have he := went.enter (adv := adv) .pCmd0 a
  obtain ⟨t, h1, h2, -⟩ := sendCommand_turn (rest := rest) (s := enter .pCmd0 a) hx (turn_wf_congr he.cfg he.adv hwf) (by decide)
    (by decide) (by exact h12) (by decide) (by exact h) (by exact hq)
  refine ⟨_, _, ?_, ((he.trans h2).trans (raise_went (.diskError .cmd0) t)).cast rfl (by simp [enter]) h2.next rfl⟩
  have hacc : acceptedIdle x.value = false := by simpa [acceptedIdle] using hv
  simp [probeCard, cmd0, h1, hacc]

/-- What follows an accepted CMD0 stands in the window of 1000 ms. -/
theorem probeCard_window {adv : Nat} {c0 : Answer} {mid sent rest : List Byte} {c : Card} {cause : Cause} {a : State}
    (hw0 : c0.wf = true) (hr0 : c0.r = 0x01#8) (h12 : a.cfg.stopCmdIndex = 12#8) (h : a.rx.next = c0.bytes ++ mid) (hq : quiet a)
    (hmid : ∀ b : State, quiet b → b.cfg = a.cfg → b.cause = a.cause → (a.tickAdv = ⟨[], adv⟩ → b.tickAdv = ⟨[], adv⟩) →
      b.rx.next = mid → ∀ w : Window, w.start = b.tick → b.tick < tickModulus b.cfg → w.durationMs = tInitMs →
      ∃ u k, ((cmd8 true cmd8Arg (enter .pCmd8 b)).bind fun accepted s =>
          if accepted then probeSd2 w s else probeV1 w s) = .ok c u ∧ went adv k sent rest cause b u) :
    ∃ u l, probeCard a = .ok c u ∧ went adv l (commandSent a.cfg 0#8 0#32 c0 ++ sent) rest cause a u := by
  have he := went.enter (adv := adv) .pCmd0 a
  obtain ⟨hwf, hof⟩ := turn_answered (adv := adv) (s := enter .pCmd0 a) (idx := 0#8) (arg := 0#32) hw0
  obtain ⟨t, h1, h2, -⟩ := sendCommand_turn (rest := mid) (s := enter .pCmd0 a) hof hwf (by decide)
    (by decide) (by exact h12) (by decide) (by exact h) (by exact hq)
  have hat := he.trans h2
  have htq := hat.quiet hq
  have hsw := startWindow_quiet tInitMs htq
  have hacc : acceptedIdle c0.r = true := by simp [acceptedIdle, hr0]
  have h1' : sendCommand 0#8 0#32 (enter .pCmd0 a) = .ok c0.r t := h1
  obtain ⟨u, k, h3, h4⟩ := hmid (startWindow tInitMs t).2 ((startWindow_step tInitMs t).quiet htq) (by rw [hsw]; exact hat.cfg)
    (by rw [hsw]; exact hat.cause) (fun ha => by rw [hsw]; show t.tickAdv.pop.2 = _; rw [hat.adv ha]; rfl)
    (by rw [hsw]; exact h2.next) (startWindow tInitMs t).1 rfl (Nat.mod_lt _ (tickModulus_pos _)) rfl
  have hcl : went adv (1 + k) sent rest cause t (closeWindow u) := by
    obtain ⟨e, hs, htk⟩ := h4
    have hsws : (startWindow tInitMs t).2.sent = t.sent := by rw [hsw]; simp [State.sent, Event.sent]
    refine ⟨?_, ?_, ?_⟩
    · unfold closeWindow
      rw [e, hsw]
      rfl
    · show u.sent = _
      rw [hs, hsws]
    · intro ha
      have ha' : (startWindow tInitMs t).2.tickAdv = ⟨[], adv⟩ := by
        rw [hsw]; show t.tickAdv.pop.2 = _; rw [ha]; rfl
      refine ⟨(htk ha').1, ?_⟩
      have := (htk ha').2
      have hst : (startWindow tInitMs t).2.tick = (t.tick + adv) % tickModulus t.cfg := by
        rw [hsw]; show (t.tick + t.tickAdv.pop.1) % _ = _; rw [ha]; rfl
      have hsc : (startWindow tInitMs t).2.cfg = t.cfg := by rw [hsw]
      rw [hst, hsc] at this
      show u.tick % _ = _
      rw [this, Nat.mod_add_mod, Nat.add_mul, Nat.one_mul, Nat.add_assoc]
  refine ⟨closeWindow u, _, ?_, (hat.trans hcl).cast rfl (by simp [enter, Turn.sent]) rfl rfl⟩
  unfold probeCard
  simp only [cmd0, h1', Res.bind_ok, hacc, if_true, Bool.not_true, Bool.false_eq_true, if_false]
  cases hc8 : cmd8 true cmd8Arg (enter .pCmd8 (startWindow tInitMs t).2) with
  | ok acc v =>
    rw [hc8] at h3
    simp only [Res.bind_ok] at h3 ⊢
    rw [h3]
    rfl
  | _ => rw [hc8] at h3; simp [Res.bind] at h3

/-! ### The SD2 branch -/

/-- CMD8 accepted, with its payload. -/
theorem cmd8_accepted {adv : Nat} {c8 : Answer} {e0 e1 e2 e3 : Byte} {rest : List Byte} {b : State} (hw : c8.wf = true)
    (hr : c8.r = 0x01#8) (h12 : b.cfg.stopCmdIndex = 12#8) (h : b.rx.next = c8.bytes ++ ([e0, e1, e2, e3] ++ rest)) (hq : quiet b) :
    ∃ v, cmd8 true cmd8Arg (enter .pCmd8 b) = .ok true v ∧ v.ocr = #v[e0, e1, e2, e3] ∧
      went adv 1 (commandSent b.cfg 8#8 0x1AA#32 c8 ++ List.replicate 4 b.cfg.dummy) rest b.cause b v := by
  have he := went.enter (adv := adv) .pCmd8 b
  obtain ⟨hwf, hof⟩ := turn_answered (adv := adv) (s := enter .pCmd8 b) (idx := 8#8) (arg := 0x1AA#32) hw
  obtain ⟨t, h1, h2, -⟩ := sendCommand_turn (rest := [e0, e1, e2, e3] ++ rest) (s := enter .pCmd8 b) hof hwf (by decide)
    (by decide) (by exact h12) (by decide) (by exact h) (by exact hq)
  have hbt := he.trans h2
  have hv := went.enter (adv := adv) .pR7 t
  obtain ⟨h3, h4⟩ := readOcr_went (adv := adv) (s := enter .pR7 t) (rest := rest) (b0 := e0) (b1 := e1) (b2 := e2) (b3 := e3)
    (by exact h2.next) (by exact hbt.quiet hq)
  refine ⟨_, ?_, h4, (hbt.trans (hv.trans h3)).cast rfl ?_ rfl ?_⟩
  · have h1' : sendCommand 8#8 cmd8Arg (enter .pCmd8 b) = .ok c8.r t := h1
    have hacc : acceptedIdle c8.r = true := by simp [acceptedIdle, hr]
    simp [cmd8, h1', hacc, visit]
  · have : t.cfg = b.cfg := hbt.cfg
    simp [enter, Turn.sent, this]
  · have : t.cause = b.cause := hbt.cause
    simp [enter, this]

/-- A wrong echo. -/
theorem probeSd2_echo {adv : Nat} {w : Window} {e0 e1 e2 e3 : Byte} {v : State} (ho : v.ocr = #v[e0, e1, e2, e3])
    (he : e2 ≠ 0x01#8 ∨ e3 ≠ 0xAA#8) :
    ∃ u, probeSd2 w v = .ok Card.none u ∧ went adv 0 [] v.rx.next (.diskError .cmd8Echo) v u := by
  refine ⟨_, ?_, raise_went _ v⟩
  have : echoMatches v.ocr = false := by
    simp only [echoMatches, ho]
    rcases he with h | h
    · simp [h]
    · simp [h]
  simp [probeSd2, this]

theorem echo_ok {e0 e1 : Byte} {v : State} (ho : v.ocr = #v[e0, e1, 0x01#8, 0xAA#8]) : echoMatches v.ocr = true := by
  simp [echoMatches, ho]

/-- The poll of the SD2 branch runs out. -/
theorem probeSd2_expires {adv : Nat} {w : Window} {e0 e1 : Byte} {ps : List (List Turn)} {rest : List Byte} {v : State}
    (ho : v.ocr = #v[e0, e1, 0x01#8, 0xAA#8]) (hps : pollsGoOn 0xA9#8 v.cfg.acmd41HcsArg ps) (hwf : turnsWf adv v ps.flatten)
    (ha : v.tickAdv = ⟨[], adv⟩) (h12 : v.cfg.stopCmdIndex = 12#8) (h : v.rx.next = turnsBytes ps.flatten ++ rest)
    (hw : w.start < tickModulus v.cfg) (hd : w.durationMs = tInitMs) (hM : 1000 ≤ tickModulus v.cfg)
    (ht : v.tick % tickModulus v.cfg = (w.start + 1 * adv) % tickModulus v.cfg) (hx : pollsExpire adv 1 ps v) (hq : quiet v) :
    ∃ u k, probeSd2 w v = .ok Card.none u ∧ went adv k (turnsSent v.cfg ps.flatten) rest (.timeout .initPoll) v u := by
  obtain ⟨t, h1, h2⟩ := poll_expires (q := .pPollSd2) hps hwf ha (by decide) (by rw [h12]; decide) (by rw [h12]; decide) h hw hd hM
    ht hx
  refine ⟨t, _, ?_, h2⟩
  simp [probeSd2, echo_ok ho, h1]

/-- The poll of the SD2 branch ends, then CMD58. -/
theorem probeSd2_polled {adv : Nat} {w : Window} {e0 e1 : Byte} {ps : List (List Turn)} {xs : List Turn} {rest : List Byte}
    {v : State} (ho : v.ocr = #v[e0, e1, 0x01#8, 0xAA#8]) (hps : pollsGoOn 0xA9#8 v.cfg.acmd41HcsArg ps)
    (hxs : meets 0xA9#8 v.cfg.acmd41HcsArg xs 0x00#8) (hwf : turnsWf adv v (ps.flatten ++ xs))
    (ha : v.tickAdv = ⟨[], adv⟩) (h12 : v.cfg.stopCmdIndex = 12#8) (h : v.rx.next = turnsBytes (ps.flatten ++ xs) ++ rest)
    (hw : w.start < tickModulus v.cfg) (hd : w.durationMs = tInitMs) (hM : 1000 ≤ tickModulus v.cfg)
    (ht : v.tick % tickModulus v.cfg = (w.start + 1 * adv) % tickModulus v.cfg) (hx : (1 + pollReadings ps + 1) * adv < 1000)
    (hq : quiet v) :
    ∃ t k, went adv k (turnsSent v.cfg (ps.flatten ++ xs)) rest (turnsCause (ps.flatten ++ xs) v.cause) v t ∧
      probeSd2 w v = (cmd58 true 0#32 (enter .pCmd58 t)).bind fun ok s =>
        if ok then .ok ⟨.sd2, ccsBit s.ocr⟩ s else .ok Card.none s := by
  obtain ⟨t, h1, h2⟩ := poll_accepts (q := .pPollSd2) hps hxs hwf ha (by decide) (by rw [h12]; decide) (by rw [h12]; decide) h hw hd
    hM ht hx
  refine ⟨t, _, h2, ?_⟩
  simp [probeSd2, echo_ok ho, h1]

theorem cmd58_rejected {adv : Nat} {x : Turn} {rest : List Byte} {t : State} (hof : x.isOf 58#8 0#32) (hwf : x.wf adv t)
    (hv : x.value ≠ 0x00#8) (h12 : t.cfg.stopCmdIndex = 12#8) (h : t.rx.next = x.bytes ++ rest) (hq : quiet t) :
    ∃ u k, cmd58 true 0#32 (enter .pCmd58 t) = .ok false u ∧ went adv k (x.sent t.cfg) rest (.diskError .cmd58) t u := by
  have he := went.enter (adv := adv) .pCmd58 t
  obtain ⟨u, h1, h2, -⟩ := sendCommand_turn (rest := rest) (s := enter .pCmd58 t) hof (turn_wf_congr he.cfg he.adv hwf) (by decide)
    (by decide) (by exact h12) (by decide) (by exact h) (by exact hq)
  refine ⟨_, _, ?_, ((he.trans h2).trans (raise_went (.diskError .cmd58) u)).cast rfl (by simp [enter]) h2.next rfl⟩
  have hacc : acceptedReady x.value = false := by simpa [acceptedReady] using hv
  simp [cmd58, command, h1, hacc]

theorem cmd16_rejected {adv : Nat} {x : Turn} {arg : U32} {rest : List Byte} {t : State} (hof : x.isOf 16#8 arg) (hwf : x.wf adv t)
    (hv : x.value ≠ 0x00#8) (h12 : t.cfg.stopCmdIndex = 12#8) (h : t.rx.next = x.bytes ++ rest) (hq : quiet t) :
    ∃ u k, cmd16 arg (enter .pCmd16 t) = .ok false u ∧ went adv k (x.sent t.cfg) rest (.diskError .cmd16) t u := by
  have he := went.enter (adv := adv) .pCmd16 t
  obtain ⟨u, h1, h2, -⟩ := sendCommand_turn (rest := rest) (s := enter .pCmd16 t) hof (turn_wf_congr he.cfg he.adv hwf) (by decide)
    (by decide) (by exact h12) (by decide) (by exact h) (by exact hq)
  refine ⟨_, _, ?_, ((he.trans h2).trans (raise_went (.diskError .cmd16) u)).cast rfl (by simp [enter]) h2.next rfl⟩
  have hacc : acceptedReady x.value = false := by simpa [acceptedReady] using hv
  simp [cmd16, command, h1, hacc]

theorem cmd16_accepted {adv : Nat} {c : Answer} {arg : U32} {rest : List Byte} {t : State} (hw : c.wf = true)
    (hv : c.r = 0x00#8) (h12 : t.cfg.stopCmdIndex = 12#8) (h : t.rx.next = c.bytes ++ rest) (hq : quiet t) :
    ∃ u k, cmd16 arg (enter .pCmd16 t) = .ok true u ∧ went adv k (commandSent t.cfg 16#8 arg c) rest t.cause t u := by
  have he := went.enter (adv := adv) .pCmd16 t
  obtain ⟨hwf, hof⟩ := turn_answered (adv := adv) (s := enter .pCmd16 t) (idx := 16#8) (arg := arg) hw
  obtain ⟨u, h1, h2, -⟩ := sendCommand_turn (rest := rest) (s := enter .pCmd16 t) hof hwf (by decide)
    (by decide) (by exact h12) (by decide) (by exact h) (by exact hq)
  refine ⟨u, _, ?_, (he.trans h2).cast rfl (by simp [enter, Turn.sent]) rfl rfl⟩
  have h1' : sendCommand 16#8 arg (enter .pCmd16 t) = .ok c.r u := h1
  have hacc : acceptedReady c.r = true := by simp [acceptedReady, hv]
  simp [cmd16, command, h1', hacc]

theorem cmd58_accepted {adv : Nat} {c : Answer} {o0 o1 o2 o3 : Byte} {rest : List Byte} {t : State} (hw : c.wf = true)
    (hv : c.r = 0x00#8) (h12 : t.cfg.stopCmdIndex = 12#8) (h : t.rx.next = c.bytes ++ ([o0, o1, o2, o3] ++ rest)) (hq : quiet t) :
    ∃ u k, cmd58 true 0#32 (enter .pCmd58 t) = .ok true u ∧ u.ocr = #v[o0, o1, o2, o3] ∧
      went adv k (commandSent t.cfg 58#8 0#32 c ++ List.replicate 4 t.cfg.dummy) rest t.cause t u := by
  have he := went.enter (adv := adv) .pCmd58 t
  obtain ⟨hwf, hof⟩ := turn_answered (adv := adv) (s := enter .pCmd58 t) (idx := 58#8) (arg := 0#32) hw
  obtain ⟨u, h1, h2, -⟩ := sendCommand_turn (rest := [o0, o1, o2, o3] ++ rest) (s := enter .pCmd58 t) hof hwf (by decide)
    (by decide) (by exact h12) (by decide) (by exact h) (by exact hq)
  have htu := he.trans h2
  have hv' := went.enter (adv := adv) .pOcr u
  obtain ⟨h3, h4⟩ := readOcr_went (adv := adv) (s := enter .pOcr u) (rest := rest) (b0 := o0) (b1 := o1) (b2 := o2) (b3 := o3)
    (by exact h2.next) (by exact htu.quiet hq)
  refine ⟨_, _, ?_, h4, (htu.trans (hv'.trans h3)).cast rfl ?_ rfl ?_⟩
  · have h1' : sendCommand 58#8 0#32 (enter .pCmd58 t) = .ok c.r u := h1
    have hacc : acceptedReady c.r = true := by simp [acceptedReady, hv]
    simp [cmd58, command, h1', hacc, visit]
  · have : u.cfg = t.cfg := htu.cfg
    simp [enter, Turn.sent, this]
  · have : u.cause = t.cause := htu.cause
    simp [enter, this]

/-! ### The version 1 branch -/

theorem cmd8_rejected {adv : Nat} {x : Turn} {rest : List Byte} {b : State} (hof : x.isOf 8#8 0x1AA#32) (hwf : x.wf adv b)
    (hv : x.value ≠ 0x01#8) (h12 : b.cfg.stopCmdIndex = 12#8) (h : b.rx.next = x.bytes ++ rest) (hq : quiet b) :
    ∃ v, cmd8 true cmd8Arg (enter .pCmd8 b) = .ok false v ∧ went adv x.readings (x.sent b.cfg) rest (turnCause x b.cause) b v := by
  have he := went.enter (adv := adv) .pCmd8 b
  obtain ⟨u, h1, h2, -⟩ := sendCommand_turn (rest := rest) (s := enter .pCmd8 b) hof (turn_wf_congr he.cfg he.adv hwf) (by decide)
    (by decide) (by exact h12) (by decide) (by exact h) (by exact hq)
  refine ⟨u, ?_, (he.trans h2).cast (by omega) (by simp [enter]) rfl rfl⟩
  have h1' : sendCommand 8#8 cmd8Arg (enter .pCmd8 b) = .ok x.value u := h1
  have hacc : acceptedIdle x.value = false := by simpa [acceptedIdle] using hv
  simp [cmd8, h1', hacc]

/-- The type test, and the poll it selects. -/
theorem probeV1_test {adv : Nat} {w : Window} {tt : List Turn} {r index : Byte} {rest : List Byte} {v : State}
    (hm : meets 0xA9#8 0#32 tt r) (hwf : turnsWf adv v tt) (h12 : v.cfg.stopCmdIndex = 12#8)
    (hi : index = if r.toNat ≤ 1 then 0xA9#8 else 0x01#8) (h : v.rx.next = turnsBytes tt ++ rest) (hq : quiet v) :
    ∃ t, went adv (turnsReadings tt) (turnsSent v.cfg tt) rest (turnsCause tt v.cause) v t ∧
      probeV1 w v = (poll w .pPollV1 index 0#32 t).bind fun ready s =>
        if !ready then .ok Card.none s
        else (cmd16 s.cfg.cmd16Arg (enter .pCmd16 s)).bind fun ok s =>
          if ok then .ok ⟨if r.toNat ≤ 1 then .sd1 else .mmc, false⟩ s else .ok Card.none s := by
  have he := went.enter (adv := adv) .pTypeTest v
  obtain ⟨t, h1, h2, -⟩ := sendCommand_turns (rest := rest) (s := enter .pTypeTest v) hm (turnsWf_congr he.cfg he.adv hwf) (by decide)
    (by rw [he.cfg, h12]; decide) (by rw [he.cfg, h12]; decide) (by exact h) (by exact hq)
  refine ⟨t, (he.trans h2).cast (by omega) (by simp [enter]) rfl rfl, ?_⟩
  unfold probeV1
  rw [h1]
  simp only [Res.bind_ok, idleOrReady, hi]
  by_cases hr : r.toNat ≤ 1 <;> simp [hr]

theorem pollsExpire_congr {adv n : Nat} {ps : List (List Turn)} {s t : State} (hc : t.cfg = s.cfg) (h : pollsExpire adv n ps s) :
    pollsExpire adv n ps t := by
  unfold pollsExpire at *
  rw [hc]; exact h

/-- `initialize` when CMD0 is accepted, once it is known what follows in the window. -/
theorem probe_of_window {adv : Nat} {idle : List Byte} {pre : List Turn} {s : State} {c : Card} {c0 : Answer}
    {mid sent rest : List Byte} {d : Byte} {cause : Cause} (hs : probeStarts adv idle pre s) (hw0 : c0.wf = true) (hr0 : c0.r = 0x01#8)
    (h : s.rx.next = idle ++ (turnsBytes pre ++ (c0.bytes ++ (mid ++ d :: rest))))
    (hmid : ∀ b : State, quiet b → b.cfg = s.cfg → b.cause = turnsCause pre .none →
      (s.tickAdv = ⟨[], adv⟩ → b.tickAdv = ⟨[], adv⟩) → b.rx.next = mid ++ d :: rest →
      ∀ w : Window, w.start = b.tick → b.tick < tickModulus b.cfg → w.durationMs = tInitMs →
      ∃ u k, ((cmd8 true cmd8Arg (enter .pCmd8 b)).bind fun accepted s =>
          if accepted then probeSd2 w s else probeV1 w s) = .ok c u ∧ went adv k sent (d :: rest) cause b u) :
    ∃ t, exec .initCard s = .next t ∧
      probeEnds c cause (turnsSent s.cfg pre ++ (commandSent s.cfg 0#8 0#32 c0 ++ sent)) rest s t := by
  have h12 := hs.2.2.2.1
  refine probe_of_card (d := d) hs (mid := c0.bytes ++ mid) (by rw [h]; simp) ?_
  intro a haq hac hacause hadva han
  obtain ⟨u, l, h1, h2⟩ := probeCard_window (adv := adv) (c := c) (rest := d :: rest) (cause := cause) (sent := sent) hw0 hr0
    (by rw [hac, h12]) (by rw [han, List.append_assoc]) haq
    fun b h1 h2 h3 h4 => hmid b h1 (h2.trans hac) (h3.trans hacause) (fun ha => h4 (hadva ha))
  exact ⟨u, l, h1, h2.cast rfl (by rw [hac]) rfl rfl⟩

end Sys2Proof.Machine
end

