-- ==== Sys2Proof/Laws/Words.lean ====
section
/-! SUPPORT. The bytes of a number, most significant first, and the number of its bytes (20_memory.md R60): each undoes the
other. -/

namespace Sys2Proof

set_option Elab.async false

theorem extract8_toNat {n : Nat} (v : BitVec n) (k : Nat) : (v.extractLsb' k 8).toNat = v.toNat / 2 ^ k % 256 := by
  rw [BitVec.extractLsb'_toNat, Nat.shiftRight_eq_div_pow]

theorem extract32_toNat {n : Nat} (v : BitVec n) (k : Nat) : (v.extractLsb' k 32).toNat = v.toNat / 2 ^ k % 2 ^ 32 := by
  rw [BitVec.extractLsb'_toNat, Nat.shiftRight_eq_div_pow]

theorem extract8_of_toNat {n : Nat} {v : BitVec n} {k : Nat} {x : Byte} (h : v.toNat / 2 ^ k % 256 = x.toNat) :
    v.extractLsb' k 8 = x := by
  apply BitVec.eq_of_toNat_eq; rw [extract8_toNat, h]

theorem u32Of_toNat (a b c d : Byte) :
    (u32Of a b c d).toNat = ((a.toNat * 256 + b.toNat) * 256 + c.toNat) * 256 + d.toNat := by
  have := a.isLt; have := b.isLt; have := c.isLt; have := d.isLt
  show (a ++ b ++ c ++ d : BitVec (8 + 8 + 8 + 8)).toNat = _
  rw [BitVec.toNat_append, BitVec.toNat_append, BitVec.toNat_append, ← Nat.shiftLeft_add_eq_or_of_lt (by omega),
    ← Nat.shiftLeft_add_eq_or_of_lt (by omega), ← Nat.shiftLeft_add_eq_or_of_lt (by omega)]
  simp only [Nat.shiftLeft_eq]

theorem u32Of_u32Bytes (v : U32) :
    u32Of (v.extractLsb' 24 8) (v.extractLsb' 16 8) (v.extractLsb' 8 8) (v.extractLsb' 0 8) = v := by
  apply BitVec.eq_of_toNat_eq
  have := v.isLt
  rw [u32Of_toNat]; simp only [extract8_toNat]; omega

theorem u32Bytes_u32Of (a b c d : Byte) : u32Bytes (u32Of a b c d) = [a, b, c, d] := by
  have := a.isLt; have := b.isLt; have := c.isLt; have := d.isLt
  unfold u32Bytes
  rw [extract8_of_toNat (x := a) (k := 24) (by rw [u32Of_toNat]; omega),
    extract8_of_toNat (x := b) (k := 16) (by rw [u32Of_toNat]; omega),
    extract8_of_toNat (x := c) (k := 8) (by rw [u32Of_toNat]; omega),
    extract8_of_toNat (x := d) (k := 0) (by rw [u32Of_toNat]; omega)]

theorem u16Of_toNat (a b : Byte) : (u16Of a b).toNat = a.toNat * 256 + b.toNat := by
  have := b.isLt
  show (a ++ b : BitVec (8 + 8)).toNat = _
  rw [BitVec.toNat_append, ← Nat.shiftLeft_add_eq_or_of_lt (by omega), Nat.shiftLeft_eq]

theorem u16Of_u16Bytes (v : BitVec 16) : u16Of (v.extractLsb' 8 8) (v.extractLsb' 0 8) = v := by
  apply BitVec.eq_of_toNat_eq
  have := v.isLt
  rw [u16Of_toNat]; simp only [extract8_toNat]; omega

theorem u16Bytes_u16Of (a b : Byte) : u16Bytes (u16Of a b) = [a, b] := by
  have := a.isLt; have := b.isLt
  unfold u16Bytes
  rw [extract8_of_toNat (x := a) (k := 8) (by rw [u16Of_toNat]; omega),
    extract8_of_toNat (x := b) (k := 0) (by rw [u16Of_toNat]; omega)]

theorem u64Of_toNat (a b : U32) : (u64Of a b).toNat = a.toNat * 2 ^ 32 + b.toNat := by
  have := b.isLt
  show (a ++ b : BitVec (32 + 32)).toNat = _
  rw [BitVec.toNat_append, ← Nat.shiftLeft_add_eq_or_of_lt (by omega), Nat.shiftLeft_eq]

theorem u64Of_halves (v : U64) : u64Of (v.extractLsb' 32 32) (v.extractLsb' 0 32) = v := by
  apply BitVec.eq_of_toNat_eq
  have := v.isLt
  rw [u64Of_toNat]; simp only [extract32_toNat]; omega

theorem u64Bytes_u64Of (a b : U32) : u64Bytes (u64Of a b) = u32Bytes a ++ u32Bytes b := by
  have := a.isLt; have := b.isLt
  have h : ∀ (x : U32) (k : Nat), (u64Of a b).toNat / 2 ^ k % 2 ^ 32 = x.toNat → (u64Of a b).extractLsb' k 32 = x := by
    intro x k h; apply BitVec.eq_of_toNat_eq; rw [extract32_toNat, h]
  unfold u64Bytes
  rw [h a 32 (by rw [u64Of_toNat]; omega), h b 0 (by rw [u64Of_toNat]; omega)]

/-- A location's bytes are read back. -/
theorem decodeLoc_encodeLoc (l : Loc) (rest : List Byte) : decodeLoc (encodeLoc l ++ rest) = .ok (l, rest) := by
  cases l with
  | csd => rfl
  | buffer off =>
    simp only [encodeLoc, u64Bytes, u32Bytes, List.cons_append, List.nil_append, decodeLoc, u32Of_u32Bytes, u64Of_halves]
    rfl

/-- Two bytes make the number and the number gives them back, whatever stands behind them. -/
theorem decodeDir_encodeDir (d : Dir) : decodeDir (encodeDir d) = .ok d := by cases d <;> rfl

end Sys2Proof
end

