-- ==== Sys2Proof/Tests/Slice0.lean ====
section
/-! SUPPORT. The model's own tests. Expected values come from spec/95_test_vectors.md (ids T1 to P5) and from the encodings of
30_encoding.md written out by hand; then, for every statement with hypotheses, concrete values that meet them. -/

namespace Sys2Proof.Tests

set_option Elab.async false

open Sys2Proof Sys2Proof.Machine

/-! ### Helpers -/

/-- What `f` gives in the next state, if there is one. -/
def after {α : Type} (x : Host.Outcome State Fault Refusal) (f : State → α) : Option α :=
  match x with
  | .next t => some (f t)
  | _ => none

/-- The reset state with the bytes the card is going to return. -/
def fed (bytes : List Byte) : State := { State.reset with rx := ⟨bytes, 0xFF#8⟩ }

/-- A state after a successful probe, with the bytes the card is going to return. -/
def probed (c : Card) (bytes : List Byte) : State :=
  { fed bytes with card := c, status := ⟨false, false, false⟩, speedSel := .high }

/-- A card that answers on its second poll, like the reference card of 95_test_vectors.md section 3. -/
def reply (r : Byte) : Answer := ⟨0x5A#8, 0x5A#8, List.replicate 6 0x5A#8, [0xFF#8], r⟩

/-- A card that answers on the tenth poll. -/
def lateReply (r : Byte) : Answer := ⟨0x5A#8, 0x5A#8, List.replicate 6 0x5A#8, List.replicate 9 0xFF#8, r⟩

/-- The CSD of V1. -/
def csdV1 : List Byte :=
  [0x40#8, 0x0E#8, 0x00#8, 0x32#8, 0x5B#8, 0x59#8, 0x00#8, 0x00#8, 0x0F#8, 0xFF#8, 0x7F#8, 0x80#8, 0x0A#8, 0x40#8, 0x00#8, 0x01#8]

/-- The CSD of D-IO10: structure version 0, no erase support. -/
def csdPlain : List Byte :=
  [0x00#8, 0x00#8, 0x00#8, 0x00#8, 0x00#8, 0x59#8, 0x03#8, 0xFF#8, 0xC0#8, 0x03#8, 0xBF#8, 0x00#8, 0x00#8, 0x00#8, 0x00#8, 0x00#8]

/-- A data packet that the card sends. -/
def packet (payload : List Byte) : Packet := ⟨payload, 0xCC#8, 0xDD#8⟩

/-- What comes back during a written packet, with its data response. -/
def sink (response : Byte) : Sink := ⟨0x5A#8, List.replicate 512 0x5A#8, 0x5A#8, 0x5A#8, response⟩

/-- A sector with the first two and the last byte of P2's sector 1, zero in between. -/
def sectorP2 : List Byte := 0x01#8 :: 0x04#8 :: (List.replicate 509 0x00#8 ++ [0xFE#8])

/-- The bytes of one frame in one chip-select window, answered on the second poll. -/
def framed (b0 a b c d t : Byte) : List Byte := [0xFF#8, 0xFF#8, 0xFF#8, b0, a, b, c, d, t, 0xFF#8, 0xFF#8]

/-! ### WellFormed: an ill-formed term for each check, which the check refuses -/

theorem test_wellFormed_index : (Instr.sendCommand 0x40#8 0#32).wellFormed = false := by decide
theorem test_wellFormed_receive : (Instr.receiveDataBlock .csd 17#16).wellFormed = false := by decide
theorem test_wellFormed_transfer : (Instr.startTransfer .inp .csd 17#16).wellFormed = false := by decide
theorem test_wellFormed_code : (Instr.ioctlUnknown 3#8).wellFormed = false := by decide
theorem test_wellFormed_accepts : (Instr.receiveDataBlock .csd 16#16).wellFormed = true := by decide

/-! ### Decode: words written out from the spec's encodings (95_test_vectors.md F1 to F17, 30_encoding.md R102, R104, R112,
R116) -/

theorem test_decode_cmd0 : decode .frame [0x40#8, 0#8, 0#8, 0#8, 0#8, 0x95#8] = .ok (.cmd0 0#32, []) := by decide
theorem test_decode_cmd1 : decode .frame [0x41#8, 0#8, 0#8, 0#8, 0#8, 0x01#8] = .ok (.cmd1 0#32, []) := by decide
theorem test_decode_cmd8 : decode .frame [0x48#8, 0#8, 0#8, 0x01#8, 0xAA#8, 0x87#8] = .ok (.cmd8 0x1AA#32, []) := by decide
theorem test_decode_cmd9 : decode .frame [0x49#8, 0#8, 0#8, 0#8, 0#8, 0x01#8] = .ok (.cmd9 0#32, []) := by decide
theorem test_decode_cmd12 : decode .frame [0x4C#8, 0#8, 0#8, 0#8, 0#8, 0x01#8, 0xFF#8] = .ok (.cmd12 0#32, []) := by decide
theorem test_decode_acmd13 : decode .frame [0x4D#8, 0#8, 0#8, 0#8, 0#8, 0x01#8] = .ok (.acmd13 0#32, []) := by decide
theorem test_decode_cmd16 : decode .frame [0x50#8, 0#8, 0#8, 0x02#8, 0#8, 0x01#8] = .ok (.cmd16 0x200#32, []) := by decide
theorem test_decode_cmd17 :
    decode .frame [0x51#8, 0xFF#8, 0xFE#8, 0x12#8, 0x34#8, 0x01#8] = .ok (.cmd17 0xFFFE1234#32, []) := by decide
theorem test_decode_acmd23 : decode .frame [0x57#8, 0#8, 0#8, 0#8, 0x04#8, 0x01#8] = .ok (.acmd23 4#32, []) := by decide
theorem test_decode_cmd24 : decode .frame [0x58#8, 0#8, 0#8, 0#8, 0x05#8, 0x01#8] = .ok (.cmd24 5#32, []) := by decide
theorem test_decode_cmd25 : decode .frame [0x59#8, 0#8, 0#8, 0#8, 0x64#8, 0x01#8] = .ok (.cmd25 100#32, []) := by decide
theorem test_decode_cmd32 : decode .frame [0x60#8, 0#8, 0#8, 0#8, 0x08#8, 0x01#8] = .ok (.cmd32 8#32, []) := by decide
theorem test_decode_cmd33 : decode .frame [0x61#8, 0#8, 0#8, 0#8, 0x0F#8, 0x01#8] = .ok (.cmd33 15#32, []) := by decide
theorem test_decode_cmd38 : decode .frame [0x66#8, 0#8, 0#8, 0#8, 0#8, 0x01#8] = .ok (.cmd38 0#32, []) := by decide
theorem test_decode_acmd41 : decode .frame [0x69#8, 0x40#8, 0#8, 0#8, 0#8, 0x01#8] = .ok (.acmd41 0x40000000#32, []) := by
  decide
theorem test_decode_cmd55 : decode .frame [0x77#8, 0#8, 0#8, 0#8, 0#8, 0x01#8] = .ok (.cmd55 0#32, []) := by decide
theorem test_decode_cmd58 : decode .frame [0x7A#8, 0#8, 0#8, 0#8, 0#8, 0x01#8] = .ok (.cmd58 0#32, []) := by decide
theorem test_decode_trailer : decode .frame [0x40#8, 0#8, 0#8, 0#8, 0#8, 0x01#8] = .error .badTrailer := by decide
theorem test_decode_reserved : decode .frame [0x42#8, 0#8, 0#8, 0#8, 0#8, 0x01#8] = .error .unknownIndex := by decide
theorem test_decode_tokens : decode .token [0b11111110#8] = .ok (.tokenSingle, [])
    ∧ decode .token [0b11111100#8] = .ok (.tokenMulti, []) ∧ decode .token [0b11111101#8] = .ok (.tokenStop, [])
    ∧ decode .tokenPoll [0b11111110#8] = .ok (.dataStart, []) := by decide
theorem test_decode_fillers : decode .filler [0xFF#8] = .ok (.dummy, []) ∧ decode .crcField [0xFF#8] = .ok (.crcPlaceholder, [])
    ∧ decode .readyPoll [0xFF#8] = .ok (.ready, []) ∧ decode .readyPoll [0x00#8] = .error .busy := by decide
theorem test_decode_responses : decode .responsePoll [0b00000101#8] = .ok (.r1 0b0000101#7, [])
    ∧ decode .responsePoll [0b10000101#8] = .ok (.noResponse 0b0000101#7, [])
    ∧ decode .dataResponse [0b11100101#8] = .ok (.dataResponseAccepted 0b111#3, [])
    ∧ decode .dataResponse [0x0B#8] = .error .notAccepted := by decide
theorem test_decode_host : decode .host [0#8] = .ok (.initCard, []) ∧ decode .host [1#8] = .ok (.status, [])
    ∧ decode .host [2#8, 0#8, 0#8, 0x10#8, 0#8, 0#8, 0#8, 0#8, 1#8, 0#8, 0#8, 0#8, 2#8] = .ok (.read 0x1000#32 1#32 2#32, [])
    ∧ decode .host [3#8, 0#8, 0#8, 0x10#8, 0#8, 0#8, 0#8, 0#8, 5#8, 0#8, 0#8, 0#8, 1#8] = .ok (.write 0x1000#32 5#32 1#32, []) := by
  decide
theorem test_decode_ioctls : decode .host [4#8, 0#8] = .ok (.ioctlSync, [])
  ∧ decode .host [4#8, 1#8] = .ok (.ioctlGetSectorCount, [])
    ∧ decode .host [4#8, 3#8] = .ok (.ioctlGetBlockSize, []) ∧ decode .host [4#8, 2#8] = .ok (.ioctlUnknown 2#8, [])
    ∧ decode .host [4#8, 4#8, 0#8, 0#8, 0#8, 8#8, 0#8, 0#8, 0#8, 15#8] = .ok (.ioctlEraseSector 8#32 15#32, [])
    ∧ decode .ioctlEntry [4#8, 4#8, 0#8, 0#8, 0#8, 8#8, 0#8, 0#8, 0#8, 15#8] = .ok (.ioctl 4#8 8#32 15#32, []) := by decide
theorem test_decode_primitives : decode .primitive [0#8, 0xA5#8] = .ok (.xchg 0xA5#8, [])
  ∧ decode .primitive [1#8] = .ok (.select, [])
    ∧ decode .primitive [2#8] = .ok (.deselect, []) ∧ decode .primitive [3#8, 0#8, 0#8, 0#8, 100#8] = .ok (.waitReady 100#32, [])
    ∧ decode .primitive [4#8, 0xA9#8, 0x40#8, 0#8, 0#8, 0#8] = .ok (.sendCommand 0xA9#8 0x40000000#32, [])
    ∧ decode .primitive [5#8, 0#8, 0#8, 0#8, 0#8, 0#8, 0#8, 2#8, 0#8, 0xFC#8] = .ok (.sendDataBlock 512#64 0xFC#8, []) := by
  decide
theorem test_decode_primitives_guard : decode .primitive [6#8, 1#8, 0#8, 16#8] = .ok (.receiveDataBlock .csd 16#16, [])
    ∧ decode .primitive [7#8] = .ok (.lock, []) ∧ decode .primitive [8#8] = .ok (.unlock, [])
    ∧ decode .primitive [9#8, 1#8, 1#8, 0#8, 16#8] = .ok (.startTransfer .inp .csd 16#16, [])
    ∧ decode .primitive [10#8] = .ok (.waitForTransfer, []) ∧ decode .primitive [11#8] = .ok (.refreshInputs, []) := by decide

/-! ### One step: primitives (T1 to T21) -/

theorem test_xchg : after (exec (.xchg 0xFF#8) (fed [0x01#8])) (fun t => (t.ret, t.sent)) = some (.byte 0x01#8, [0xFF#8]) := by decide
theorem test_deselect_T1 :
    after (exec .deselect { fed [0x5A#8] with cs := .asserted }) (fun t => (t.cs, t.events)) =
      some (.deasserted, [.xchg 0xFF#8 0x5A#8, .cs .deasserted]) := by decide
theorem test_select_T3 :
    after (exec .select (fed [0x5A#8, 0#8, 0#8, 0xFF#8])) (fun t => (t.ret, t.cs, t.sent.length)) =
      some (.bool true, .asserted, 4) := by decide +kernel
theorem test_waitReady_T5 : after (exec (.waitReady 0#32) (fed [0xFF#8])) (fun t => (t.ret, t.sent)) =
    some (.bool true, [0xFF#8]) := by decide
theorem test_waitReady_T6 : after (exec (.waitReady 0#32) (fed [0x00#8])) (fun t => (t.ret, t.cause, t.sent)) =
    some (.bool false, .timeout .waitReady, [0xFF#8]) := by decide
theorem test_sendCommand_T9 :
    after (exec (.sendCommand 0x11#8 0x200#32)
      (fed ([0x5A#8, 0x5A#8, 0xFF#8] ++ List.replicate 6 0x5A#8 ++ List.replicate 9 0xFF#8 ++ [0x80#8, 0x00#8])))
      (fun t => (t.ret, t.sent.length, t.rx.next)) = some (.byte 0x80#8, 19, [0x00#8]) := by decide +kernel
theorem test_sendCommand_T12 :
    after (exec (.sendCommand 0xA9#8 0#32) (fed (reply 0x05#8).bytes)) (fun t => (t.ret, t.sent)) =
      some (.byte 0x05#8, framed 0x77#8 0#8 0#8 0#8 0#8 0x01#8) := by decide +kernel
theorem test_sendDataBlock_T14 :
    after (exec (.sendDataBlock 0#64 0xFE#8)
      { fed (0x00#8 :: (sink 0xE5#8).bytes) with cs := .asserted, mem := [(2, 7#8)] })
      (fun t => (t.ret, t.cs, t.sent.length, (t.sent.drop 2).take 4, t.sent.drop 515)) =
      some (.bool true, .asserted, 518, [0xFE#8, 0#8, 0#8, 7#8], [0xFF#8, 0xFF#8, 0xFF#8]) := by decide +kernel
theorem test_sendDataBlock_T17 :
    after (exec (.sendDataBlock 0#64 0xFD#8) (fed [0x00#8, 0xFF#8, 0x5A#8])) (fun t => (t.ret, t.sent)) =
      some (.bool true, [0xFF#8, 0xFF#8, 0xFD#8]) := by decide +kernel
theorem test_receiveDataBlock_T18 :
    after (exec (.receiveDataBlock .csd 16#16) (fed (0xFF#8 :: 0xFF#8 :: (packet csdV1).bytes)))
      (fun t => (t.ret, t.csd.toList, t.sent.length)) = some (.bool true, csdV1, 21) := by decide +kernel
theorem test_receiveDataBlock_T19 :
    after (exec (.receiveDataBlock (.buffer 0#64) 512#16) (fed [0xFF#8, 0x09#8]))
      (fun t => (t.ret, t.cause, t.mem, t.sent.length)) = some (.bool false, .diskError .wrongToken, [], 2) := by decide +kernel
theorem test_lock_nested :
    after (exec .lock { State.reset with lock := ⟨some 0, 1⟩ }) (fun t => t.lock) = some ⟨some 0, 2⟩ := by decide
theorem test_unlock_last :
    after (exec .unlock { State.reset with lock := ⟨some 0, 1⟩ }) (fun t => t.lock) = some ⟨none, 0⟩ := by decide
theorem test_startTransfer :
    after (exec (.startTransfer .out (.buffer 3#64) 512#16) State.reset) (fun t => (t.pending, t.engine, t.sent)) =
      some (⟨true, false⟩, some ⟨.out, .buffer 3, 512, false⟩, []) := by decide
theorem test_waitForTransfer_in :
    after (exec .waitForTransfer
      { fed [1#8, 2#8] with pending := ⟨true, false⟩, engine := some ⟨.inp, .buffer 4, 2, false⟩, bufBase := 16 })
      (fun t => (t.mem, t.pending, t.sent)) = some ([(20, 1#8), (21, 2#8)], ⟨false, false⟩, [0xFF#8, 0xFF#8]) := by decide
/-- A whole `status()` call of a thread: the call, its two readings, its return. -/
def wholeStatus (thread : Nat) : List OtherMove := [.call thread none, .go thread, .go thread, .go thread]

theorem test_status_inside_operation :
    after (exec (.xchg 0x37#8) { State.reset with lock := ⟨some 0, 1⟩, cd := ⟨[], false⟩, others := [wholeStatus 7] })
      (fun t => (t.hostOut, t.sent, t.lock, t.others)) = some (.drive ⟨true, true, false⟩, [0x37#8], ⟨some 0, 1⟩, []) := by decide
theorem test_early_check_inside_operation :
    after (exec (.xchg 0x37#8)
      { State.reset with lock := ⟨some 0, 1⟩, others := [[.call 7 (some (.read 0#32 0#32 1#32)), .call 8 (some .initCard), .go 7, .go 8,
        .go 7, .go 8, .go 8, .go 7]] })
      (fun t => (t.hostOut, t.waiters.map (fun w => w.thread), t.sent)) = some (.result .notReady, [8], [0x37#8]) := by decide
theorem test_call_split_by_events :
    after (exec .deselect { State.reset with others := [[.call 7 none, .go 7], [.go 7, .go 7]] }) (fun t => (t.events, t.early)) =
      some ([.xchg 0xFF#8 0xFF#8, .ret 7 (.drive ⟨true, false, false⟩), .writeProtect false, .cs .deasserted, .cardDetect true], [])
    := by decide
/-- Between the exit byte of a probe that failed and the store of NotInitialized `status()` still returns the old bit. -/
theorem test_status_before_NotInitialized :
    (fun t : State => (t.hostOut, t.status.notInitialized))
      (recordCard Card.none { State.reset with status := ⟨false, false, false⟩, others := [[], [], wholeStatus 7] }) =
      (.drive ⟨false, false, false⟩, true) := by decide
theorem test_early_part_without_instruction :
    after (step { State.reset with turns := ⟨[.threads], .sequencer⟩, others := [[.call 7 none, .go 7]], cd := ⟨[], false⟩ })
      (fun t => (t.status.noDisk, t.early)) = some (true, [⟨7, none, some true, none⟩]) := by decide
theorem test_host_store :
    after (step { State.reset with turns := ⟨[.host 5 [1#8, 2#8]], .sequencer⟩ }) (fun t => t.mem) = some [(5, 1#8), (6, 2#8)] := by
  decide
/-- Of three bytes the one in the buffer of a waiting call stays as it is (20_memory.md R64). -/
theorem test_host_store_in_buffer :
    after (step { State.reset with
        turns := ⟨[.host 511 [1#8, 2#8, 3#8]], .sequencer⟩, waiters := [⟨7, .write 0#32 0#32 1#32⟩] }) (fun t => t.mem) =
      some [(512, 2#8), (513, 3#8)] := by decide
/-- So do the bytes of a transfer that runs (45_guard_status.md R295) and of an operation that never ends. -/
theorem test_host_store_in_transfer :
    after (step { State.reset with
        turns := ⟨[.host 9 [1#8, 2#8, 3#8, 4#8]], .sequencer⟩, bufBase := 4, engine := some ⟨.out, .buffer 6, 2, false⟩ })
      (fun t => t.mem) = some [(9, 1#8), (12, 4#8)] := by decide
theorem test_host_store_while_hung :
    after (step { State.reset with
        turns := ⟨[.host 511 [1#8, 2#8]], .sequencer⟩, hung := some ⟨.waitReady, 3, some (.read 0#32 5#32 1#32)⟩ })
      (fun t => t.mem) = some [(512, 2#8)] := by decide
theorem test_refreshInputs :
    after (exec .refreshInputs { State.reset with cd := ⟨[], false⟩, wp := ⟨[], true⟩ }) (fun t => t.status) =
      some ⟨true, true, true⟩ := by decide

/-! ### One step: single bytes on the link -/

theorem test_tokenSingle : after (exec .tokenSingle (fed [])) State.sent = some [0xFE#8] := by decide
theorem test_tokenMulti : after (exec .tokenMulti (fed [])) State.sent = some [0xFC#8] := by decide
theorem test_tokenStop : after (exec .tokenStop (fed [])) State.sent = some [0xFD#8] := by decide
theorem test_dummy : after (exec .dummy (fed [0x37#8])) (fun t => (t.ret, t.sent)) = some (.byte 0x37#8, [0xFF#8]) := by decide
theorem test_crcPlaceholder : after (exec .crcPlaceholder (fed [])) State.sent = some [0xFF#8] := by decide
theorem test_dataStart : after (exec .dataStart (fed [])) (fun t => (t.tok, t.events)) = some (0xFE#8, [.xchg 0xFF#8 0xFE#8]) := by
  decide
theorem test_r1 : after (exec (.r1 5#7) { fed [] with n := 3#4 }) (fun t => (t.r1, t.n, t.ret)) = some (0x05#8, 2#4, .bool true) := by
  decide
theorem test_noResponse : after (exec (.noResponse 0#7) { fed [] with n := 3#4 }) (fun t => (t.r1, t.n, t.ret)) =
    some (0x80#8, 2#4, .bool false) := by decide
theorem test_noResponse_tenth : after (exec (.noResponse 0#7) { fed [] with n := 1#4 }) (fun t => t.ret) = some (.bool true) := by
  decide
theorem test_dataResponse : after (exec (.dataResponseAccepted 7#3) (fed [])) (fun t => (t.ret, t.events)) =
    some (.bool true, [.xchg 0xFF#8 0xE5#8]) := by decide
theorem test_ready : after (exec .ready (fed [])) (fun t => t.events) = some [.xchg 0xFF#8 0xFF#8] := by decide

/-! ### One step: commands (F1 to F17) -/

theorem test_cmd0 : after (exec (.cmd0 0#32) (fed (reply 0x01#8).bytes)) (fun t => (t.ret, t.sent)) =
    some (.bool true, framed 0x40#8 0#8 0#8 0#8 0#8 0x95#8) := by decide +kernel
theorem test_cmd0_fails : after (exec (.cmd0 0#32) (fed (reply 0x00#8).bytes)) (fun t => (t.ret, t.cause)) =
    some (.bool false, .diskError .cmd0) := by decide +kernel
theorem test_cmd1 : after (exec (.cmd1 0#32) (fed (reply 0x00#8).bytes)) (fun t => (t.ret, t.sent)) =
    some (.bool true, framed 0x41#8 0#8 0#8 0#8 0#8 0x01#8) := by decide +kernel
theorem test_cmd8 : after (exec (.cmd8 0x1AA#32) (fed ((reply 0x01#8).bytes ++ [0#8, 0#8, 0x01#8, 0xAA#8])))
    (fun t => (t.ret, t.ocr.toList, t.sent)) =
      some (.bool true, [0#8, 0#8, 0x01#8, 0xAA#8], framed 0x48#8 0#8 0#8 0x01#8 0xAA#8 0x87#8 ++ List.replicate 4 0xFF#8) := by
  decide +kernel
theorem test_cmd9 : after (exec (.cmd9 0#32) (fed ((reply 0x00#8).bytes ++ (packet csdV1).bytes)))
    (fun t => (t.ret, t.csd.toList, t.sent.take 11)) =
      some (.bool true, csdV1, framed 0x49#8 0#8 0#8 0#8 0#8 0x01#8) := by decide +kernel
theorem test_cmd12_T13 :
    after (exec (.cmd12 0#32) { fed (List.replicate 7 0x5A#8 ++ [0xFF#8, 0x00#8]) with cs := .asserted })
      (fun t => (t.ret, t.r1, t.sent)) =
      some (.bool true, 0x00#8, [0x4C#8, 0#8, 0#8, 0#8, 0#8, 0x01#8, 0xFF#8, 0xFF#8, 0xFF#8]) := by decide +kernel
theorem test_acmd13 :
    after (exec (.acmd13 0#32)
      (fed ((reply 0x00#8).bytes ++ (reply 0x00#8).bytes ++ [0x00#8] ++ (packet csdV1).bytes ++ List.replicate 48 0x11#8)))
      (fun t => (t.ret, t.csd.toList, t.sent.length, (t.sent.drop 11).take 11)) =
      some (.bool true, csdV1, 90, framed 0x4D#8 0#8 0#8 0#8 0#8 0x01#8) := by decide +kernel
theorem test_cmd16 : after (exec (.cmd16 0x200#32) (fed (reply 0x00#8).bytes)) (fun t => (t.ret, t.sent)) =
    some (.bool true, framed 0x50#8 0#8 0#8 0x02#8 0#8 0x01#8) := by decide +kernel
theorem test_cmd17 : after (exec (.cmd17 0x200#32) (fed ((reply 0x00#8).bytes ++ (packet sectorP2).bytes)))
    (fun t => (t.ret, t.mem.read 0, t.mem.read 511, t.mem.read 512, t.sent.length)) =
      some (.bool true, 0x01#8, 0xFE#8, 0#8, 526) := by decide +kernel
theorem test_acmd23 : after (exec (.acmd23 4#32) (fed ((reply 0x00#8).bytes ++ (reply 0x05#8).bytes)))
    (fun t => (t.ret, t.sent.drop 11)) = some (.bool true, framed 0x57#8 0#8 0#8 0#8 4#8 0x01#8) := by decide +kernel
theorem test_cmd24 : after (exec (.cmd24 5#32) { fed ((reply 0x00#8).bytes ++ (sink 0xE5#8).bytes) with mem := [(511, 9#8)] })
    (fun t => (t.ret, (t.sent.drop 12).head?, t.sent.drop 524)) =
      some (.bool true, some 0xFE#8, [9#8, 0xFF#8, 0xFF#8, 0xFF#8]) := by decide +kernel
theorem test_cmd25 :
    after (exec (.cmd25 100#32) { fed ((reply 0x00#8).bytes ++ (sink 0xE5#8).bytes ++ (sink 0x05#8).bytes ++ [0xFF#8, 0x5A#8]) with
      remaining := 2#32, mem := [(512, 9#8)] })
      (fun t => (t.ret, t.remaining, t.off, (t.sent.drop 529).take 2, t.sent.drop 1045)) =
      some (.bool true, 0#32, 1024, [0xFC#8, 9#8], [0xFF#8, 0xFD#8]) := by decide +kernel
theorem test_cmd32 : after (exec (.cmd32 8#32) (fed (reply 0x00#8).bytes)) (fun t => (t.ret, t.sent)) =
    some (.bool true, framed 0x60#8 0#8 0#8 0#8 8#8 0x01#8) := by decide +kernel
theorem test_cmd33 : after (exec (.cmd33 15#32) (fed (reply 0x04#8).bytes)) (fun t => (t.ret, t.cause, t.sent)) =
    some (.bool false, .diskError .cmd33, framed 0x61#8 0#8 0#8 0#8 15#8 0x01#8) := by decide +kernel
theorem test_cmd38 : after (exec (.cmd38 0#32) (fed ((reply 0x00#8).bytes ++ [0#8, 0#8, 0#8, 0xFF#8]))) (fun t => (t.ret, t.sent)) =
    some (.bool true, framed 0x66#8 0#8 0#8 0#8 0#8 0x01#8 ++ List.replicate 4 0xFF#8) := by decide +kernel
theorem test_acmd41_T11 : after (exec (.acmd41 0x40000000#32) (fed ((reply 0x01#8).bytes ++ (reply 0x00#8).bytes)))
    (fun t => (t.ret, t.sent)) =
      some (.bool true, framed 0x77#8 0#8 0#8 0#8 0#8 0x01#8 ++ framed 0x69#8 0x40#8 0#8 0#8 0#8 0x01#8) := by decide +kernel
theorem test_cmd55 : after (exec (.cmd55 0#32) (fed (reply 0x01#8).bytes)) (fun t => (t.ret, t.sent)) =
    some (.bool true, framed 0x77#8 0#8 0#8 0#8 0#8 0x01#8) := by decide +kernel
theorem test_cmd58 : after (exec (.cmd58 0#32) (fed ((reply 0x00#8).bytes ++ [0xC0#8, 0xFF#8, 0x80#8, 0x00#8])))
    (fun t => (t.ret, t.ocr.toList, t.sent)) =
      some (.bool true, [0xC0#8, 0xFF#8, 0x80#8, 0x00#8], framed 0x7A#8 0#8 0#8 0#8 0#8 0x01#8 ++ List.replicate 4 0xFF#8) := by
  decide +kernel

/-! ### One step: host calls (P1 to P5, D-ST1, D-IO10, D-IO12, V1, S3, S4) -/

/-- What the reference card returns during P1. -/
def bytesP1 : List Byte :=
  List.replicate 10 0x5A#8 ++ (reply 0x01#8).bytes ++ (reply 0x01#8).bytes ++ [0x00#8, 0x00#8, 0x01#8, 0xAA#8]
    ++ (reply 0x01#8).bytes ++ (reply 0x01#8).bytes ++ (reply 0x01#8).bytes ++ (reply 0x00#8).bytes ++ (reply 0x00#8).bytes
    ++ [0xC0#8, 0xFF#8, 0x80#8, 0x00#8] ++ [0x5A#8]

theorem test_initialize_P1 :
    after (exec .initCard (fed bytesP1)) (fun t => (driveStatusByte t.status, t.card, t.speedSel, t.cs, t.sent.length)) =
      some (0x00#8, ⟨.sd2, true⟩, .high, .deasserted, 96) := by decide +kernel
theorem test_initialize_frames :
    after (exec .initCard (fed bytesP1)) (fun t => (t.sent.drop 10).take 37) =
      some (framed 0x40#8 0#8 0#8 0#8 0#8 0x95#8 ++ framed 0x48#8 0#8 0#8 0x01#8 0xAA#8 0x87#8 ++ List.replicate 4 0xFF#8
        ++ framed 0x77#8 0#8 0#8 0#8 0#8 0x01#8) := by decide +kernel
theorem test_status_after_reset : after (exec .status State.reset) (fun t => (driveStatusByte t.status, t.sent)) =
    some (0x01#8, []) := by decide
theorem test_status_no_card : after (exec .status { State.reset with cd := ⟨[], false⟩, wp := ⟨[], true⟩ })
    (fun t => driveStatusByte t.status) = some 0x07#8 := by decide
theorem test_read_P2 :
    after (exec (.read 0x1000#32 1#32 1#32) (probed ⟨.sd2, false⟩ ((reply 0x00#8).bytes ++ (packet sectorP2).bytes ++ [0x5A#8])))
      (fun t => (t.hostOut, t.sent.take 11, t.sent.length, t.mem.read 0x1000, t.mem.read 0x11FF, t.mem.read 0x1200)) =
      some (.result .ok, framed 0x51#8 0#8 0#8 0x02#8 0#8 0x01#8, 527, 0x01#8, 0xFE#8, 0#8) := by decide +kernel
theorem test_read_S3 : after (exec (.read 0#32 0#32 1#32) State.reset) (fun t => (t.hostOut, t.sent, t.lock)) =
    some (.result .notReady, [], ⟨none, 0⟩) := by decide
theorem test_write_P3 :
    after (exec (.write 0#32 5#32 1#32) { probed ⟨.sd2, true⟩ ((reply 0x00#8).bytes ++ (sink 0xE5#8).bytes ++ [0x5A#8]) with
      mem := [(1, 1#8)] })
      (fun t => (t.hostOut, t.sent.take 11, (t.sent.drop 12).take 3, t.sent.length, t.cs)) =
      some (.result .ok, framed 0x58#8 0#8 0#8 0#8 5#8 0x01#8, [0xFE#8, 0#8, 1#8], 529, .deasserted) := by decide +kernel
theorem test_write_S4 :
    after (exec (.write 0#32 5#32 1#32) { probed ⟨.sd2, true⟩ [] with wp := ⟨[], true⟩ }) (fun t => (t.hostOut, t.sent)) =
      some (.result .writeProtected, []) := by decide
theorem test_ioctl_operand :
    after (exec (.ioctl 2#8 0#32 0#32) (probed ⟨.sd2, true⟩ [])) (fun t => (t.hostOut, t.sent)) =
      some (.result .paramError, [0xFF#8]) := by decide +kernel
theorem test_sync : after (exec .ioctlSync (probed ⟨.mmc, false⟩ [0x5A#8, 0xFF#8, 0x5A#8])) (fun t => (t.hostOut, t.sent.length)) =
    some (.result .ok, 3) := by decide +kernel
theorem test_getSectorCount_V1 :
    after (exec .ioctlGetSectorCount (probed ⟨.sd2, true⟩ ((reply 0x00#8).bytes ++ (packet csdV1).bytes ++ [0x5A#8])))
      (fun t => (t.hostOut, t.out)) = some (.result .ok, 4194304#32) := by decide +kernel
theorem test_getBlockSize_mmc :
    after (exec .ioctlGetBlockSize (probed ⟨.mmc, false⟩ ((reply 0x00#8).bytes ++ (packet csdV1).bytes ++ [0x5A#8])))
      (fun t => (t.hostOut, t.out)) = some (.result .ok, 928#32) := by decide +kernel
theorem test_erase_P5 :
    after (exec (.ioctlEraseSector 8#32 15#32) (probed ⟨.sd2, true⟩ ((reply 0x00#8).bytes ++ (packet csdV1).bytes ++ [0x5A#8]
      ++ (reply 0x00#8).bytes ++ (reply 0x00#8).bytes ++ (reply 0x00#8).bytes ++ [0#8, 0#8, 0#8, 0xFF#8, 0x5A#8])))
      (fun t => (t.hostOut, t.lock, (t.sent.drop 31).take 33)) =
      some (.result .ok, ⟨none, 0⟩, framed 0x60#8 0#8 0#8 0#8 8#8 0x01#8 ++ framed 0x61#8 0#8 0#8 0#8 15#8 0x01#8
        ++ framed 0x66#8 0#8 0#8 0#8 0#8 0x01#8) := by decide +kernel
theorem test_erase_D_IO10 :
    after (exec (.ioctlEraseSector 8#32 15#32) (probed ⟨.sd1, false⟩ ((reply 0x00#8).bytes ++ (packet csdPlain).bytes
      ++ [0x5A#8, 0x5A#8]))) (fun t => (t.hostOut, t.cause, t.sent.length)) =
      some (.result .error, .diskError .eraseNotValid, 32) := by decide +kernel
theorem test_unknown_D_IO12 :
    after (exec (.ioctlUnknown 2#8) (probed ⟨.sd2, true⟩ [])) (fun t => (t.hostOut, t.cause, t.sent)) =
      some (.result .paramError, .none, [0xFF#8]) := by decide +kernel

/-! ### Every statement with hypotheses has values that meet them all

One theorem per statement, one part per clause, at a boundary value where the clause has a range. -/

/-- The reset state with the lock held by a thread. -/
def held (thread depth : Nat) : State := { State.reset with lock := ⟨some thread, depth⟩ }

/-- A state in which thread 1 waits for the lock with a call. -/
def queued (turn : Agent) : State := { State.reset with waiters := [⟨1, .ioctl 0#8 0#32 0#32⟩], turns := ⟨[turn], .sequencer⟩ }

/-- Two requests, of a thread that waits for the lock and of one that does not. -/
def twoRequests (bytes : List Byte) : State :=
  { queued .sequencer with requests := [⟨1, .host, [1#8]⟩, ⟨0, .host, bytes⟩] }

theorem witness_EncodeThenDecode :
    (Instr.sendCommand 0xBF#8 7#32).wellFormed = true ∧ (Instr.startTransfer .out .csd 16#16).wellFormed = true
      ∧ (Instr.ioctlUnknown 2#8).wellFormed = true := by decide

theorem witness_DecodedWordIsEncoding :
    decode .frame [0x4C#8, 0#8, 0#8, 0#8, 1#8, 0x01#8, 0x33#8, 9#8] = .ok (.cmd12 1#32, [9#8])
      ∧ decode .frame [0x51#8, 0#8, 0#8, 2#8, 0#8, 0x01#8, 9#8] = .ok (.cmd17 0x200#32, [9#8]) := by decide

theorem witness_ReservedWordsRejected :
    0xC0#8 ∉ [0x40#8, 0x41#8, 0x48#8, 0x49#8, 0x4C#8, 0x4D#8, 0x50#8, 0x51#8, 0x57#8, 0x58#8, 0x59#8, 0x60#8, 0x61#8, 0x66#8,
        0x69#8, 0x77#8, 0x7A#8]
      ∧ 0x87#8 ≠ (if 0x40#8 = 0x40#8 then 0x95#8 else if 0x40#8 = 0x48#8 then 0x87#8 else 0x01#8)
      ∧ 4 < (5#8).toNat ∧ 11 < (12#8).toNat ∧ 0xFB#8 ∉ [0xFC#8, 0xFD#8, 0xFE#8] := by decide

theorem witness_StepRunsNextRequest :
    (twoRequests [1#8]).turns.pop.1 = .sequencer
      ∧ (twoRequests [1#8]).requests = [⟨1, .host, [1#8]⟩] ++ ⟨0, .host, [1#8]⟩ :: []
      ∧ (∀ q ∈ [(⟨1, .host, [1#8]⟩ : Request)], takeable (twoRequests [1#8]) q = false)
      ∧ takeable (twoRequests [1#8]) ⟨0, .host, [1#8]⟩ = true ∧ decode .host [1#8] = .ok (.status, [])
      ∧ decode .host [5#8] = .error .badHostSelector := by decide

theorem witness_TableWordRunsFirst : decodeTableWord 48 0x510000020001 = some (.cmd17 0x200#32)
    ∧ decodeTableWord 8 0xFE = some .tokenSingle := by decide

theorem witness_StepKeepsInvariant :
    Machine.Inv State.reset
      ∧ after (step (State.reset.withFetchWord 3 1)) (fun t => t.hostOut) = some (.drive ⟨true, false, false⟩)
      ∧ Machine.Inv (State.reset.withFetchWord 3 1) := by
  refine ⟨?_, by decide, ?_⟩ <;> unfold Machine.Inv <;> decide +kernel

theorem witness_StepKeepsRestingBus :
    Resting (State.reset.withFetchWord 3 0) ∧ Resting { held 3 1 with hung := some ⟨.initPoll, 3, some .initCard⟩, seq := .pPollSd2 }
      ∧ after (step (State.reset.withFetchWord 3 0)) (fun t => t.seq) = some .idle := by
  refine ⟨⟨by unfold HostOnly HostCalls; decide, by decide, by intro h e; exact absurd e (by simp [State.withFetchWord])⟩,
    ⟨by unfold HostOnly HostCalls; decide, by decide, ?_⟩, by decide +kernel⟩
  rintro h e
  cases e
  decide

theorem witness_OnlyInitializeWritesCard :
    (after (exec .initCard (fed bytesP1)) State.card).isSome = true
      ∧ (after (exec .ioctlSync (probed ⟨.mmc, false⟩ [])) State.card).isSome = true
      ∧ Instr.ioctlSync ≠ .initCard := by decide +kernel

theorem witness_MemoryIsCanonical : Memory.wf [(0, 1#8), (7, 0xFF#8)] = true
  ∧ Memory.wf (Memory.write [(7, 1#8)] 7 0#8) = true := by
  decide

theorem witness_EarlyChecksTurnAway :
    quiet { State.reset with cd := ⟨[], false⟩ } ∧ quiet { State.reset with wp := ⟨[], true⟩ } ∧ inputPresent { State.reset with cd := ⟨[], false⟩ } = false ∧ State.reset.status.notInitialized = true
      ∧ inputPresent (probed ⟨.sd2, true⟩ []) = true ∧ (probed ⟨.sd2, true⟩ []).status.notInitialized = false
      ∧ inputProtected { State.reset with wp := ⟨[], true⟩ } = true ∧ inputProtected (probed ⟨.sd2, true⟩ []) = false
      ∧ usable (probed ⟨.sd2, true⟩ []) ∧ 2#8 ∉ [0#8, 1#8, 3#8, 4#8] := by
  unfold usable lockFree
  decide

/-- A state in which thread 7 calls `status()` before the next event of the running instruction. -/
def overheard (s : State) : State := { s with others := [wholeStatus 7, []] }

/-- A state in which it does so on either side of the next event. -/
def split (s : State) : State := { s with others := [[.call 7 none, .go 7], [.go 7, .go 7], []] }

theorem witness_StatusSamplesInputs :
    quiet (held 3 1)
      ∧ ((overheard (held 0 1)).others = [.call 7 none, .go 7, .go 7, .go 7] :: [[]] ∧ canCall (overheard (held 0 1)) 7 = true)
      ∧ ((split (held 0 1)).others = [.call 7 none, .go 7] :: [.go 7, .go 7] :: [[]] ∧ canCall (split (held 0 1)) 7 = true
        ∧ (held 0 1).cfg.cdEnabled = true ∧ (held 0 1).cfg.wpEnabled = true) := by decide

theorem witness_LockAcquires :
    quiet (held 0 1) ∧ quiet State.reset ∧ (held 0 1).lock.owner = some (held 0 1).me ∧ State.reset.lock.owner = none ∧ State.reset.contend.pop.1 = false
      ∧ ((held 3 1).lock.owner = some 3 ∧ 3 ≠ (held 3 1).me)
      ∧ ({ State.reset with contend := ⟨[true], false⟩ } : State).contend.pop.1 = true := by decide

theorem witness_UnlockReleases :
    quiet (held 0 1) ∧ ((held 0 1).lock.owner = some (held 0 1).me ∧ 1 ≤ (held 0 1).lock.depth) ∧ (held 3 1).lock.owner ≠ some (held 3 1).me
      ∧ (held 0 0).lock.depth = 0 := by decide

theorem witness_WaitingThreadGetsLock :
    (queued .grant).lock.owner = none ∧ (queued .grant).waiters ≠ [] ∧ (queued .grant).turns.pop.1 = .grant
      ∧ (queued .sequencer).turns.pop.1 = .sequencer
      ∧ ∀ q ∈ (queued .sequencer).requests, takeable (queued .sequencer) q = false := by decide

theorem witness_LockExcludesOtherThreads :
    (isHostSlot (slotOf (.read 0#32 0#32 1#32)) = true ∧ (held 3 1).lock.owner = some 3 ∧ 3 ≠ (held 3 1).me)
      ∧ (held 3 1).lock.owner = some 3
      ∧ after (step { held 3 1 with requests := [⟨0, .primitive, [0#8, 1#8]⟩, ⟨3, .primitive, [0#8, 2#8]⟩] }) (fun t => (t.me, t.sent)) =
        some (3, [2#8]) := by decide

theorem witness_StartTransferRegisters :
    quiet State.reset ∧ State.reset.pending.get State.reset.cfg.peripheralId = false ∧ (16#16).toNat ≤ 16 ∧ 16 < (17#16).toNat := by decide

/-- A state whose engine holds a transfer of two bytes. -/
def engineHolds (dir : Dir) (place : Place) (fires : Bool) : State :=
  { fed [1#8, 2#8, 3#8] with
    pending := ⟨true, false⟩, engine := some ⟨dir, place, 2, false⟩, fires := ⟨[fires], true⟩ }

theorem witness_TransferMovesBytes :
    quiet (engineHolds .out (.buffer 7) true) ∧ quiet (engineHolds .inp .csd true) ∧ (engineHolds .out (.buffer 7) true).fires.pop.1 = true ∧ (engineHolds .inp .csd true).rx.next = [1#8, 2#8] ++ [3#8]
      ∧ (engineHolds .out (.buffer 7) true).pending.get false = true
      ∧ (engineHolds .out (.buffer 7) true).engine = some ⟨.out, .buffer 7, [1#8, 2#8].length, false⟩
      ∧ (engineHolds .inp .csd true).engine = some ⟨.inp, .csd, [1#8, 2#8].length, false⟩ := by decide

theorem witness_BridgePreconditionsRefused :
    (engineHolds .out .csd true).pending.get false = true
      ∧ (queued (.peer true false)).turns.pop.1 = .peer true false ∧ State.reset.pending.get true = false
      ∧ ({ engineHolds .out .csd true with turns := ⟨[.peer false true], .engine⟩ } : State).turns.pop.1 = .peer false true
      ∧ (({ held 0 1 with turns := ⟨[.busUser ⟨0, 0, .msbFirst⟩], .engine⟩ } : State).turns.pop.1 = .busUser ⟨0, 0, .msbFirst⟩
        ∧ (held 0 1).lock.owner ≠ none)
      ∧ (({ held 0 1 with turns := ⟨[.peer false true], .engine⟩ } : State).turns.pop.1 = .peer (held 0 1).cfg.peripheralId true
        ∧ (held 0 1).pending.get (held 0 1).cfg.peripheralId = false)
      ∧ (queued .engine).turns.pop.1 = .engine ∧ (queued .engine).engine = none := by decide

theorem witness_WaitsNeverEnd :
    ((engineHolds .out .csd false).fires.pop.1 = false ∧ (engineHolds .out .csd false).pending.get false = true)
      ∧ (0x00#8 ≠ 0xFF#8 ∧ 0 % tickModulus State.reset.cfg = 0 ∧ tickModulus State.reset.cfg % tickModulus State.reset.cfg = 0
        ∧ 1#32 ≠ 0#32)
      ∧ ({ fed [] with tickAdv := ⟨[], 0⟩ } : State).rx = ⟨[], 0xFF#8⟩ := by
  unfold tickModulus
  decide

/-- A state whose tick counter advances by `a` at each reading. -/
def ticked (a : Nat) (bytes : List Byte) : State := { fed bytes with tickAdv := ⟨[], a⟩, cs := .asserted }

theorem witness_ExchangeAndDeselect : quiet (fed [0x01#8]) := rfl

theorem witness_WaitReadyOutcome :
    quiet (ticked 1 [0x00#8, 0xFF#8]) ∧ quiet (ticked 5 [0x00#8]) ∧ quiet (ticked 1 [0x00#8, 0x00#8])
      ∧ (busyFor [0x00#8] 2 1 (ticked 1 [0x00#8, 0xFF#8]) ∧ (ticked 1 [0x00#8, 0xFF#8]).rx.next = [0x00#8] ++ 0xFF#8 :: [])
      ∧ (busyFor [] 0 5 (ticked 5 [0x00#8]) ∧ 0 ≤ (0 + 1) * 5 ∧ (ticked 5 [0x00#8]).rx.next = [] ++ 0x00#8 :: [])
      ∧ (busyFor [0x00#8] 2 1 (ticked 1 [0x00#8, 0x00#8]) ∧ 2 ≤ (1 + 1) * 1) := by
  unfold busyFor tickModulus
  decide

theorem witness_SelectOutcome :
    (∃ (s : State) (bs rest : List Byte) (d : Byte) (a : Nat), quiet s ∧ busyFor bs 100 a s ∧ s.rx.next = d :: (bs ++ 0xFF#8 :: rest))
      ∧ (∃ (s : State) (bs rest : List Byte) (d : Byte) (a : Nat) (b e : Byte), quiet s ∧ busyFor bs 100 a s ∧ b ≠ 0xFF#8
      ∧ 100 ≤ (bs.length + 1) * a ∧ s.rx.next = d :: (bs ++ b :: e :: rest))
      ∧ (∃ (s : State) (bs rest : List Byte) (d : Byte) (a : Nat) (b c e index : Byte), quiet s ∧ busyFor bs 100 a s ∧ b ≠ 0xFF#8
      ∧ 100 ≤ (bs.length + 1) * a
        ∧ s.rx.next = c :: d :: (bs ++ b :: e :: rest) ∧ index.getLsbD 6 = false ∧ index.getLsbD 7 = false
        ∧ index ≠ s.cfg.stopCmdIndex) := by
  unfold busyFor tickModulus
  refine ⟨⟨ticked 99 [1#8, 0#8, 0xFF#8], [0#8], [], 1#8, 99, ?_⟩, ⟨ticked 50 [1#8, 0#8, 0#8, 2#8], [0#8], [], 1#8, 50, 0#8, 2#8, ?_⟩,
    ⟨ticked 100 [1#8, 2#8, 0#8, 3#8], [], [], 2#8, 100, 0#8, 1#8, 3#8, 0x3F#8, ?_⟩⟩ <;> decide +kernel

theorem witness_PrimitivesReturn :
    ticking (ticked 1 []) ∧ fair (ticked 1 []) ∧ (ticked 1 []).pending.get false = false ∧ (30000#32).toNat ≤ 30000
      ∧ (0xA9#8).getLsbD 6 = false ∧ 55#8 ≠ (ticked 1 []).cfg.stopCmdIndex ∧ 0xA9#8 &&& 0x7F#8 ≠ (ticked 1 []).cfg.stopCmdIndex
      ∧ (16#16).toNat ≤ 16 := by
  unfold ticking fair tickModulus
  decide

theorem witness_SendCommandAnswered :
    quiet (fed ((lateReply 0x00#8).bytes ++ [7#8])) ∧ (lateReply 0x00#8).wf = true ∧ (0x11#8).getLsbD 6 = false ∧ (0x11#8).getLsbD 7 = false ∧ 0x11#8 ≠ State.reset.cfg.stopCmdIndex
      ∧ (fed ((lateReply 0x00#8).bytes ++ [7#8])).rx.next = (lateReply 0x00#8).bytes ++ [7#8] := by decide

theorem witness_ResponsePollTenBytes :
    quiet (fed (1#8 :: 2#8 :: 0xFF#8 :: (List.replicate 6 0x5A#8 ++ (List.replicate 9 0xFF#8 ++ 0x80#8 :: [0x00#8]))))
      ∧ (List.replicate 6 0x5A#8).length = 6 ∧ (List.replicate 9 0xFF#8).length ≤ 9
      ∧ (∀ b ∈ List.replicate 9 0xFF#8, b.getLsbD 7 = true)
      ∧ (fed (1#8 :: 2#8 :: 0xFF#8 :: (List.replicate 6 0x5A#8 ++ (List.replicate 9 0xFF#8 ++ 0x80#8 :: [0x00#8])))).rx.next =
        1#8 :: 2#8 :: 0xFF#8 :: (List.replicate 6 0x5A#8 ++ (List.replicate 9 0xFF#8 ++ 0x80#8 :: [0x00#8]))
      ∧ (List.replicate 9 0xFF#8).length = 9 ∧ (0x80#8).getLsbD 7 = true ∧ (0x00#8).getLsbD 7 = false := by decide

theorem witness_ApplicationCommandPrefix :
    (∃ (s : State), ∃ index : Byte, ∃ (a b : Answer) (rest : List Byte), quiet s ∧ a.wf = true ∧ b.wf = true ∧ index.getLsbD 6 = false
      ∧ index.getLsbD 7 = true
        ∧ 55#8 ≠ s.cfg.stopCmdIndex ∧ index &&& 0x7F#8 ≠ s.cfg.stopCmdIndex ∧ a.r.toNat ≤ 1
        ∧ s.rx.next = a.bytes ++ (b.bytes ++ rest))
      ∧ (∃ (s : State), ∃ index : Byte, ∃ (a b : Answer) (rest : List Byte), quiet s ∧ a.wf = true ∧ b.wf = true
      ∧ index.getLsbD 6 = false ∧ index.getLsbD 7 = true
        ∧ 55#8 ≠ s.cfg.stopCmdIndex ∧ index &&& 0x7F#8 ≠ s.cfg.stopCmdIndex ∧ 1 < a.r.toNat ∧ s.rx.next = a.bytes ++ rest
        ∧ b = a) := by
  refine ⟨⟨fed ((reply 0x01#8).bytes ++ ((reply 0x00#8).bytes ++ [7#8])), 0xA9#8, reply 0x01#8, reply 0x00#8, [7#8], ?_⟩,
    ⟨fed ((reply 0x02#8).bytes ++ [7#8]), 0x80#8, reply 0x02#8, reply 0x02#8, [7#8], ?_⟩⟩ <;> decide +kernel

theorem witness_StopTransmissionCommand :
    ∃ (s : State), ∃ echo gap : List Byte, ∃ (d r : Byte) (rest : List Byte), quiet s ∧ s.cfg.stopCmdIndex = 12#8 ∧ s.cs = .asserted
      ∧ echo.length = 6 ∧ gap.length ≤ 9
      ∧ (∀ b ∈ gap, b.getLsbD 7 = true) ∧ r.getLsbD 7 = false ∧ s.rx.next = echo ++ d :: (gap ++ r :: rest) := by
  refine ⟨ticked 1 (List.replicate 6 0x5A#8 ++ 2#8 :: (List.replicate 9 0xFF#8 ++ 0x7F#8 :: [7#8])), List.replicate 6 0x5A#8,
    List.replicate 9 0xFF#8, 2#8, 0x7F#8, [7#8], ?_⟩
  decide +kernel

theorem witness_CommandPreconditionsRefused :
    State.reset.cfg.stopCmdIndex = 12#8 ∧ State.reset.cs = .deasserted ∧ (0x40#8).getLsbD 6 = true
      ∧ (0xC0#8).getLsbD 6 = true := by
  decide

theorem witness_SendDataBlockOutcome :
    (∃ (s : State), ∃ token : Byte, ∃ (k : Sink) (rest : List Byte), quiet s ∧ s.pending.get s.cfg.peripheralId = false
      ∧ s.fires.pop.1 = true ∧ token ≠ s.cfg.tokenStop
        ∧ k.echo.length = 512 ∧ s.rx.next = k.bytes ++ rest ∧ k.response.toNat % 32 = 5)
      ∧ (∃ (s : State), ∃ token : Byte, ∃ (k : Sink) (rest : List Byte), quiet s ∧ s.pending.get s.cfg.peripheralId = false
      ∧ s.fires.pop.1 = true ∧ token ≠ s.cfg.tokenStop
        ∧ k.echo.length = 512 ∧ s.rx.next = k.bytes ++ rest ∧ k.response.toNat % 32 ≠ 5)
      ∧ (∃ (s : State) (bs : List Byte) (b : Byte) (a : Nat) (rest : List Byte), quiet s ∧ busyFor bs 100 a s ∧ b ≠ 0xFF#8
      ∧ 100 ≤ (bs.length + 1) * a ∧ s.rx.next = bs ++ b :: rest) := by
  unfold busyFor tickModulus
  refine ⟨⟨fed ((sink 0xE5#8).bytes ++ [7#8]), 0xFE#8, sink 0xE5#8, [7#8], ?_⟩, ⟨fed ((sink 0x0B#8).bytes ++ [7#8]), 0xFC#8, sink 0x0B#8,
    [7#8], ?_⟩, ⟨ticked 100 [0#8], [], 0#8, 100, [], ?_⟩⟩ <;> decide +kernel

theorem witness_ReceiveDataBlockStores :
    (∃ (s : State) (k : Packet) (rest : List Byte), quiet s ∧ k.payload.length = (512#16).toNat
      ∧ s.pending.get s.cfg.peripheralId = false ∧ s.fires.pop.1 = true
        ∧ s.mem.wf = true ∧ s.rx.next = k.bytes ++ rest)
      ∧ (∃ (s : State) (k : Packet) (rest : List Byte), quiet s ∧ k.payload.length = (16#16).toNat
      ∧ s.pending.get s.cfg.peripheralId = false ∧ s.fires.pop.1 = true
        ∧ (Loc.csd = .csd → (16#16).toNat ≤ 16) ∧ s.mem.wf = true ∧ s.rx.next = k.bytes ++ rest) := by
  refine ⟨⟨fed ((packet sectorP2).bytes ++ [7#8]), packet sectorP2, [7#8], ?_⟩,
    ⟨fed ((packet csdV1).bytes ++ [7#8]), packet csdV1, [7#8], ?_⟩⟩ <;> decide +kernel

theorem witness_TokenPollOutcome :
    (∃ (s : State) (j a : Nat) (d : Byte) (rest : List Byte), quiet s ∧ idleFor j a s ∧ d ≠ 0xFF#8 ∧ d ≠ 0xFE#8
      ∧ s.rx.next = List.replicate j 0xFF#8 ++ d :: rest)
      ∧ (∃ (s : State) (j a : Nat) (rest : List Byte), quiet s ∧ idleFor j a s ∧ 200 ≤ (j + 1) * a
      ∧ s.rx.next = List.replicate (j + 1) 0xFF#8 ++ rest)
      ∧ (∃ (s : State) (j a : Nat) (k : Packet) (rest : List Byte), quiet s ∧ idleFor j a s ∧ k.payload.length = (16#16).toNat
      ∧ s.pending.get s.cfg.peripheralId = false
        ∧ s.fires.pop.1 = true ∧ s.rx.next = List.replicate j 0xFF#8 ++ (k.bytes ++ rest)) := by
  unfold idleFor tickModulus
  refine ⟨⟨ticked 1 [0xFF#8, 0x09#8], 1, 1, 0x09#8, [], ?_⟩, ⟨ticked 199 [0xFF#8, 0xFF#8, 7#8], 1, 199, [7#8], ?_⟩,
    ⟨ticked 200 ((packet csdV1).bytes ++ [7#8]), 0, 200, packet csdV1, [7#8], ?_⟩⟩ <;> decide +kernel

theorem witness_WireBytes : quiet (fed [0x37#8]) ∧ quiet { fed [] with n := 3#4 } := by decide

theorem witness_PlainCommandsAnswered :
    ∃ (s : State) (a : Answer) (rest : List Byte), quiet s ∧ a.wf = true ∧ s.cfg.stopCmdIndex = 12#8 ∧ s.rx.next = a.bytes ++ rest := by
  refine ⟨fed ((lateReply 0x01#8).bytes ++ [7#8]), lateReply 0x01#8, [7#8], ?_⟩
  decide +kernel

theorem witness_TrailingByteCommands :
    (∃ (s : State) (a : Answer), ∃ b0 b1 b2 b3 : Byte, ∃ (rest : List Byte), quiet s ∧ a.wf = true ∧ s.cfg.stopCmdIndex = 12#8
        ∧ s.rx.next = a.bytes ++ (b0 :: b1 :: b2 :: b3 :: rest) ∧ a.r = 0x01#8)
      ∧ (∃ (s : State) (a : Answer), ∃ b0 b1 b2 b3 : Byte, ∃ (rest : List Byte), quiet s ∧ a.wf = true ∧ s.cfg.stopCmdIndex = 12#8
        ∧ s.rx.next = a.bytes ++ (b0 :: b1 :: b2 :: b3 :: rest) ∧ a.r = 0x00#8)
      ∧ (∃ (s : State) (a : Answer) (rest : List Byte), quiet s ∧ a.wf = true ∧ s.cfg.stopCmdIndex = 12#8 ∧ s.rx.next = a.bytes ++ rest
      ∧ a.r ≠ 0x01#8 ∧ a.r ≠ 0x00#8) := by
  refine ⟨⟨fed ((reply 0x01#8).bytes ++ [0#8, 0#8, 1#8, 0xAA#8]), reply 0x01#8, 0#8, 0#8, 1#8, 0xAA#8, [], ?_⟩,
    ⟨fed ((reply 0x00#8).bytes ++ [0xC0#8, 0#8, 0#8, 0#8]), reply 0x00#8, 0xC0#8, 0#8, 0#8, 0#8, [], ?_⟩,
    ⟨fed ((reply 0x05#8).bytes ++ [7#8]), reply 0x05#8, [7#8], ?_⟩⟩ <;> decide +kernel

theorem witness_ApplicationCommandsAnswered :
    (∃ (s : State) (a b : Answer) (rest : List Byte), quiet s ∧ a.wf = true ∧ b.wf = true ∧ s.cfg.stopCmdIndex = 12#8 ∧ a.r.toNat ≤ 1
      ∧ s.rx.next = a.bytes ++ (b.bytes ++ rest))
      ∧ (∃ (s : State) (a : Answer) (rest : List Byte), quiet s ∧ a.wf = true ∧ s.cfg.stopCmdIndex = 12#8 ∧ 1 < a.r.toNat
      ∧ s.rx.next = a.bytes ++ rest) := by
  refine ⟨⟨fed ((reply 0x01#8).bytes ++ ((reply 0x00#8).bytes ++ [7#8])), reply 0x01#8, reply 0x00#8, [7#8], ?_⟩,
    ⟨fed ((reply 0x02#8).bytes ++ [7#8]), reply 0x02#8, [7#8], ?_⟩⟩ <;> decide +kernel

theorem witness_RegisterReadCommands :
    (∃ (s : State) (a : Answer) (k : Packet) (rest : List Byte), quiet s ∧ a.wf = true ∧ s.cfg.stopCmdIndex = 12#8
      ∧ s.pending.get s.cfg.peripheralId = false ∧ s.fires.pop.1 = true
        ∧ k.payload.length = 16 ∧ a.r = 0x00#8 ∧ s.rx.next = a.bytes ++ (k.bytes ++ rest))
      ∧ (∃ (s : State) (a b : Answer) (x : Byte) (k : Packet), ∃ tail : List Byte, ∃ (rest : List Byte), quiet s ∧ a.wf = true
      ∧ b.wf = true ∧ s.cfg.stopCmdIndex = 12#8
        ∧ s.pending.get s.cfg.peripheralId = false ∧ s.fires.pop.1 = true ∧ k.payload.length = 16 ∧ a.r.toNat ≤ 1 ∧ b.r = 0x00#8
        ∧ tail.length = 48 ∧ s.rx.next = a.bytes ++ (b.bytes ++ (x :: (k.bytes ++ (tail ++ rest))))) := by
  refine ⟨⟨fed ((reply 0x00#8).bytes ++ ((packet csdV1).bytes ++ [7#8])), reply 0x00#8, packet csdV1, [7#8], ?_⟩,
    ⟨fed ((reply 0x01#8).bytes ++ ((reply 0x00#8).bytes ++ (0#8 :: ((packet csdV1).bytes ++ (List.replicate 48 1#8 ++ [7#8]))))),
      reply 0x01#8, reply 0x00#8, 0#8, packet csdV1, List.replicate 48 1#8, [7#8], ?_⟩⟩ <;> decide +kernel

theorem witness_SingleBlockCommands :
    (∃ (s : State) (a : Answer) (k : Packet) (rest : List Byte), quiet s ∧ a.wf = true ∧ a.r = 0x00#8 ∧ s.cfg.stopCmdIndex = 12#8
      ∧ s.pending.get s.cfg.peripheralId = false
        ∧ s.fires.pop.1 = true ∧ k.payload.length = 512 ∧ s.rx.next = a.bytes ++ (k.bytes ++ rest))
      ∧ (∃ (s : State) (a : Answer) (k : Sink) (rest : List Byte), quiet s ∧ a.wf = true ∧ a.r = 0x00#8 ∧ s.cfg.stopCmdIndex = 12#8
      ∧ s.pending.get s.cfg.peripheralId = false
        ∧ s.fires.pop.1 = true ∧ k.echo.length = 512 ∧ s.cfg.tokenSingle ≠ s.cfg.tokenStop
        ∧ s.rx.next = a.bytes ++ (k.bytes ++ rest) ∧ k.response.toNat % 32 = 5)
      ∧ (sink 0x0D#8).response.toNat % 32 ≠ 5 := by
  refine ⟨⟨fed ((reply 0x00#8).bytes ++ ((packet sectorP2).bytes ++ [7#8])), reply 0x00#8, packet sectorP2, [7#8], ?_⟩,
    ⟨fed ((reply 0x00#8).bytes ++ ((sink 0x25#8).bytes ++ [7#8])), reply 0x00#8, sink 0x25#8, [7#8], ?_⟩, ?_⟩ <;> decide +kernel

theorem witness_StreamCommandSends :
    ∃ (s : State) (a : Answer), ∃ ks : List Sink, ∃ (d : Byte) (rest : List Byte), quiet s ∧ a.wf = true ∧ a.r = 0x00#8
      ∧ s.cfg.stopCmdIndex = 12#8 ∧ s.cfg.tokenMulti ≠ s.cfg.tokenStop
      ∧ bridgeReady s ∧ s.remaining.toNat = ks.length ∧ (∀ k ∈ ks, k.echo.length = 512 ∧ k.response.toNat % 32 = 5)
      ∧ s.rx.next = a.bytes ++ (ks.flatMap Sink.bytes ++ (0xFF#8 :: d :: rest)) := by
  unfold bridgeReady fair
  refine ⟨{ fed ((reply 0x00#8).bytes ++ ([sink 0xE5#8, sink 0x05#8].flatMap Sink.bytes ++ [0xFF#8, 1#8, 7#8])) with remaining := 2#32 },
    reply 0x00#8, [sink 0xE5#8, sink 0x05#8], 1#8, [7#8], ?_⟩
  decide +kernel

theorem witness_EraseCommandWaits :
    (∃ (s : State) (a : Answer) (bs rest : List Byte) (adv : Nat), quiet s ∧ a.wf = true ∧ s.cfg.stopCmdIndex = 12#8
      ∧ busyFor bs 30000 adv s ∧ a.r = 0x00#8
        ∧ s.rx.next = a.bytes ++ (bs ++ 0xFF#8 :: rest))
      ∧ (∃ (s : State) (a : Answer) (bs rest : List Byte) (adv : Nat) (b : Byte), quiet s ∧ a.wf = true ∧ s.cfg.stopCmdIndex = 12#8
      ∧ busyFor bs 30000 adv s ∧ a.r = 0x00#8 ∧ b ≠ 0xFF#8
        ∧ 30000 ≤ (bs.length + 1) * adv ∧ s.rx.next = a.bytes ++ (bs ++ b :: rest))
      ∧ (∃ (s : State) (a : Answer) (rest : List Byte), quiet s ∧ a.wf = true ∧ s.cfg.stopCmdIndex = 12#8 ∧ busyFor [] 30000 1 s
      ∧ a.r ≠ 0x00#8 ∧ s.rx.next = a.bytes ++ rest) := by
  unfold busyFor tickModulus
  refine ⟨⟨ticked 29999 ((reply 0x00#8).bytes ++ [0#8, 0xFF#8, 7#8]), reply 0x00#8, [0#8], [7#8], 29999, ?_⟩,
    ⟨ticked 29999 ((reply 0x00#8).bytes ++ [0#8, 0#8, 7#8]), reply 0x00#8, [0#8], [7#8], 29999, 0#8, ?_⟩,
    ⟨ticked 1 ((reply 0x04#8).bytes ++ [7#8]), reply 0x04#8, [7#8], ?_⟩⟩ <;> decide +kernel

/-- What a card gives that stays busy for the 100 ms of `select` when the counter advances by 50 at each reading. -/
def busyTurn : Turn := .busy 1#8 2#8 [0#8] 0#8 3#8

theorem witness_NoDataWithoutAcceptance :
    (∃ (s : State) (a : Answer) (rest : List Byte), quiet s ∧ a.wf = true ∧ s.cfg.stopCmdIndex = 12#8 ∧ s.rx.next = a.bytes ++ rest
      ∧ a.r = 0x84#8 ∧ a.r ≠ 0x00#8 ∧ 1 < a.r.toNat)
      ∧ (∃ (s : State) (a b : Answer) (rest : List Byte), quiet s ∧ a.wf = true ∧ b.wf = true ∧ s.cfg.stopCmdIndex = 12#8
      ∧ s.rx.next = a.bytes ++ (b.bytes ++ rest)
        ∧ a.r.toNat ≤ 1 ∧ b.r ≠ 0x00#8)
      ∧ (∃ (s : State) (xs : List Turn) (rest : List Byte), quiet s ∧ s.cfg.stopCmdIndex = 12#8 ∧ meets 0x8D#8 7#32 xs 0xFF#8
        ∧ turnsWf 50 s xs ∧ s.rx.next = turnsBytes xs ++ rest) := by
  unfold meets turnsWf
  refine ⟨⟨fed ((lateReply 0x84#8).bytes ++ [7#8]), lateReply 0x84#8, [7#8], by decide +kernel⟩,
    ⟨fed ((reply 0x00#8).bytes ++ ((reply 0x01#8).bytes ++ [7#8])), reply 0x00#8, reply 0x01#8, [7#8], by decide +kernel⟩,
    ⟨ticked 50 (turnsBytes [.ready 55#8 0#32 (reply 0x00#8), busyTurn] ++ [7#8]), [.ready 55#8 0#32 (reply 0x00#8), busyTurn], [7#8],
      rfl, rfl, ?_, ?_, rfl⟩⟩
  · exact .inr ⟨_, _, rfl, ⟨rfl, rfl⟩, by decide, trivial, rfl⟩
  · intro x hx
    simp only [List.mem_cons, List.not_mem_nil, or_false] at hx
    rcases hx with rfl | rfl
    · exact (by decide : (reply 0x00#8).wf = true)
    · unfold busyTurn Turn.wf busyFor tickModulus; decide +kernel

/-! How a command, a token poll and a block on its way out fail, for the witnesses below. -/

theorem busyTurn_wf (s : State) (ht : s.tickAdv = ⟨[], 50⟩) (hc : s.cfg = Config.default) : busyTurn.wf 50 s := by
  unfold busyTurn Turn.wf busyFor tickModulus
  rw [ht, hc]
  decide

/-- The card stays busy for the 100 ms of `select`. -/
theorem busy_fails (index : Byte) (arg : U32) (tag : DiskTag) (s : State) (ht : s.tickAdv = ⟨[], 50⟩) (hc : s.cfg = Config.default) :
    commandFails 50 index arg tag busyTurn.bytes (busyTurn.sent Config.default) (.diskError tag) s :=
  ⟨busyTurn, trivial, busyTurn_wf s ht hc, by decide, rfl, by rw [hc], rfl⟩

/-- The response is not 0x00. -/
theorem rejected_fails (adv : Nat) (index : Byte) (arg : U32) (tag : DiskTag) (s : State) :
    commandFails adv index arg tag (reply 0x04#8).bytes (commandSent s.cfg index arg (reply 0x04#8)) (.diskError tag) s :=
  ⟨.ready index arg (reply 0x04#8), ⟨rfl, rfl⟩, (by decide : (reply 0x04#8).wf = true), (by decide : 0x04#8 ≠ 0x00#8), rfl, rfl, rfl⟩

/-- One idle byte, then a byte that is no token. -/
theorem wrong_token_fails (s : State) (ht : s.tickAdv = ⟨[], 1⟩) (hc : s.cfg = Config.default) :
    tokenFails 1 [0xFF#8, 0x09#8] [0xFF#8, 0xFF#8] (.diskError .wrongToken) s :=
  ⟨1, by unfold idleFor tickModulus; rw [ht, hc]; decide, by rw [hc]; rfl, .inl ⟨0x09#8, by decide, by decide, rfl, rfl⟩⟩

/-- No token within 200 ms. -/
theorem late_token_fails (s : State) (ht : s.tickAdv = ⟨[], 100⟩) (hc : s.cfg = Config.default) :
    tokenFails 100 [0xFF#8, 0xFF#8] [0xFF#8, 0xFF#8] (.timeout .dataToken) s :=
  ⟨1, by unfold idleFor tickModulus; rw [ht, hc]; decide, by rw [hc]; rfl, .inr ⟨by decide, rfl, rfl⟩⟩

/-- The card is busy at both polls before the token. -/
theorem held_back (s : State) (ht : s.tickAdv = ⟨[], 50⟩) (hc : s.cfg = Config.default) :
    tokenHeldBack 50 [0#8, 0#8] [0xFF#8, 0xFF#8] (.timeout .waitReady) s :=
  ⟨[0#8], 0#8, by unfold busyFor tickModulus; rw [ht, hc]; decide, by decide, by decide, rfl, by rw [hc]; rfl, rfl⟩

theorem witness_ReadTransfersSectors :
    (∃ (s : State), ∃ as : List (Answer × Packet), ∃ (d : Byte) (rest : List Byte), usable s ∧ bridgeReady s
      ∧ s.cfg.stopCmdIndex = 12#8 ∧ s.mem.wf = true
        ∧ (∀ p ∈ as, p.1.wf = true ∧ p.1.r = 0x00#8 ∧ p.2.payload.length = 512) ∧ as.length = (1#32).toNat
        ∧ s.rx.next = as.flatMap (fun p => p.1.bytes ++ p.2.bytes) ++ d :: rest)
      ∧ (∃ (s : State), ∃ as : List (Answer × Packet), ∃ (failing sent : List Byte) (d : Byte) (rest : List Byte), usable s
        ∧ bridgeReady s ∧ s.cfg.stopCmdIndex = 12#8 ∧ s.mem.wf = true
        ∧ (∀ p ∈ as, p.1.wf = true ∧ p.1.r = 0x00#8 ∧ p.2.payload.length = 512) ∧ as.length < (2#32).toNat
        ∧ blockReadFails 50 17#8 (toAddr s.card (7#32 + BitVec.ofNat 32 as.length)) .cmd17 failing sent (.diskError .cmd17) s
        ∧ s.rx.next = as.flatMap (fun p => p.1.bytes ++ p.2.bytes) ++ (failing ++ d :: rest)) := by
  refine ⟨⟨probed ⟨.sd2, false⟩ ((reply 0x00#8).bytes ++ (packet sectorP2).bytes ++ [7#8]), [(reply 0x00#8, packet sectorP2)], 7#8, [], ?_⟩,
    ⟨{ probed ⟨.mmc, false⟩ ((reply 0x00#8).bytes ++ (packet sectorP2).bytes ++ (busyTurn.bytes ++ [7#8])) with tickAdv := ⟨[], 50⟩ },
      [(reply 0x00#8, packet sectorP2)], busyTurn.bytes, busyTurn.sent Config.default, 7#8, [], ?_, ?_, by decide +kernel,
      by decide +kernel, by decide +kernel, by decide +kernel, .inl (busy_fails _ _ _ _ rfl rfl), by decide +kernel⟩⟩
  · unfold usable lockFree bridgeReady fair; decide +kernel
  · unfold usable lockFree; decide +kernel
  · unfold bridgeReady fair; decide +kernel

theorem witness_ReadTransfersSectors_token :
    (∃ (s : State) (failing sent : List Byte), blockReadFails 1 17#8 9#32 .cmd17 failing sent (.diskError .wrongToken) s)
      ∧ (∃ (s : State) (failing sent : List Byte), blockReadFails 100 17#8 9#32 .cmd17 failing sent (.timeout .dataToken) s) :=
  ⟨⟨ticked 1 [], _, _, .inr ⟨reply 0x00#8, _, _, by decide, rfl, wrong_token_fails _ rfl rfl, rfl, rfl⟩⟩,
    ⟨ticked 100 [], _, _, .inr ⟨reply 0x00#8, _, _, by decide, rfl, late_token_fails _ rfl rfl, rfl, rfl⟩⟩⟩

theorem witness_WriteSingleSector :
    ∃ (s : State) (a : Answer) (k : Sink) (d : Byte) (rest : List Byte), usable s ∧ inputProtected s = false ∧ bridgeReady s
      ∧ s.cfg.stopCmdIndex = 12#8
      ∧ s.cfg.tokenSingle ≠ s.cfg.tokenStop ∧ a.wf = true ∧ a.r = 0x00#8 ∧ k.echo.length = 512
      ∧ s.rx.next = a.bytes ++ (k.bytes ++ d :: rest) ∧ k.response.toNat % 32 = 5 := by
  unfold usable lockFree bridgeReady fair
  refine ⟨probed ⟨.mmc, false⟩ ((reply 0x00#8).bytes ++ ((sink 0xA5#8).bytes ++ [7#8])), reply 0x00#8, sink 0xA5#8, 7#8, [], ?_⟩
  decide +kernel

/-- A state in which a data call runs, with the counter of `busyTurn`. -/
def slow (c : Card) (bytes : List Byte) : State := { probed c bytes with tickAdv := ⟨[], 50⟩ }

theorem slow_usable (c : Card) (bytes : List Byte) :
    usable (slow c bytes) ∧ inputProtected (slow c bytes) = false ∧ bridgeReady (slow c bytes) ∧ (slow c bytes).cfg.stopCmdIndex = 12#8
      ∧ (slow c bytes).cfg.tokenSingle ≠ (slow c bytes).cfg.tokenStop ∧ (slow c bytes).cfg.tokenMulti ≠ (slow c bytes).cfg.tokenStop :=
  ⟨⟨rfl, rfl, ⟨rfl, rfl⟩, rfl⟩, rfl, ⟨rfl, rfl, fun b hb => absurd hb (by simp [slow, probed, fed, State.reset])⟩, rfl, (by decide : 0xFE#8 ≠ 0xFD#8),
    (by decide : 0xFC#8 ≠ 0xFD#8)⟩

/-- The block rejected; the token held back; CMD24 rejected; CMD24 to a busy card. -/
theorem witness_WriteSingleSector_fails :
    (∃ (s : State) (a : Answer) (failing sent : List Byte) (cause : Cause) (d : Byte), (usable s ∧ inputProtected s = false
        ∧ bridgeReady s ∧ s.cfg.stopCmdIndex = 12#8 ∧ s.cfg.tokenSingle ≠ s.cfg.tokenStop ∧ s.cfg.tokenMulti ≠ s.cfg.tokenStop)
        ∧ a.wf = true ∧ a.r = 0x00#8 ∧ blockFails 50 s.cfg.tokenSingle (memBytes s.mem 0 512) failing sent cause s
        ∧ cause = .diskError .dataResponse ∧ s.rx.next = a.bytes ++ (failing ++ [d]))
      ∧ (∃ (s : State) (a : Answer) (failing sent : List Byte) (cause : Cause) (d : Byte), (usable s ∧ inputProtected s = false
        ∧ bridgeReady s ∧ s.cfg.stopCmdIndex = 12#8 ∧ s.cfg.tokenSingle ≠ s.cfg.tokenStop ∧ s.cfg.tokenMulti ≠ s.cfg.tokenStop)
        ∧ a.wf = true ∧ a.r = 0x00#8 ∧ blockFails 50 s.cfg.tokenSingle (memBytes s.mem 0 512) failing sent cause s
        ∧ cause = .timeout .waitReady ∧ s.rx.next = a.bytes ++ (failing ++ [d]))
      ∧ (∃ (s : State) (failing sent : List Byte) (cause : Cause) (d : Byte), usable s
        ∧ commandFails 50 24#8 (toAddr s.card 7#32) .cmd24 failing sent cause s ∧ s.rx.next = failing ++ [d])
      ∧ (∃ (s : State) (failing sent : List Byte) (cause : Cause) (d : Byte), usable s
        ∧ commandFails 50 24#8 (toAddr s.card 7#32) .cmd24 failing sent cause s ∧ s.rx.next = failing ++ [d]) :=
  ⟨⟨slow ⟨.mmc, false⟩ ((reply 0x00#8).bytes ++ ((sink 0xEB#8).bytes ++ [7#8])), reply 0x00#8, _, _, _, 7#8, slow_usable _ _, by decide, rfl,
      .inl ⟨sink 0xEB#8, by decide +kernel, by decide, rfl, rfl, rfl⟩, rfl, rfl⟩,
    ⟨slow ⟨.mmc, false⟩ ((reply 0x00#8).bytes ++ [0#8, 0#8, 7#8]), reply 0x00#8, _, _, _, 7#8, slow_usable _ _, by decide, rfl,
      .inr (held_back _ rfl rfl), rfl, rfl⟩,
    ⟨slow ⟨.sd2, true⟩ ((reply 0x04#8).bytes ++ [7#8]), _, _, _, 7#8, (slow_usable _ _).1, rejected_fails _ _ _ _ _, rfl⟩,
    ⟨slow ⟨.sd2, true⟩ (busyTurn.bytes ++ [7#8]), _, _, _, 7#8, (slow_usable _ _).1, busy_fails _ _ _ _ rfl rfl, rfl⟩⟩

/-- The turns of an answered hint. -/
def hinted : List Turn := [.ready 55#8 0#32 (reply 0x01#8), .ready 23#8 2#32 (reply 0x05#8)]

theorem hint_sd (bytes : List Byte) (adv : Nat) :
    hintMeets 2#32 hinted (probed ⟨.sd2, true⟩ bytes) ∧ turnsWf adv (probed ⟨.sd2, true⟩ bytes) hinted := by
  refine ⟨?_, ?_⟩
  · unfold hintMeets
    rw [if_pos (.inr rfl)]
    exact ⟨0x05#8, .inr ⟨_, _, rfl, ⟨rfl, rfl⟩, by decide, ⟨rfl, rfl⟩, rfl⟩⟩
  · intro x hx
    simp only [hinted, List.mem_cons, List.not_mem_nil, or_false] at hx
    rcases hx with rfl | rfl
    · exact (by decide : (reply 0x01#8).wf = true)
    · exact (by decide : (reply 0x05#8).wf = true)

theorem hint_mmc (adv : Nat) (s : State) (h : s.card = ⟨.mmc, false⟩) : hintMeets 2#32 [] s ∧ turnsWf adv s [] := by
  refine ⟨?_, fun x hx => absurd hx (by simp)⟩
  unfold hintMeets
  rw [h, if_neg (by decide)]

theorem witness_WriteStreamsSectors :
    ∃ (s : State) (hint : List Turn) (a : Answer), ∃ ks : List Sink, ∃ (d e : Byte) (rest : List Byte), usable s
      ∧ inputProtected s = false ∧ bridgeReady s ∧ s.cfg.stopCmdIndex = 12#8
        ∧ s.cfg.tokenMulti ≠ s.cfg.tokenStop ∧ (hintMeets 2#32 hint s ∧ turnsWf 1 s hint) ∧ a.wf = true ∧ a.r = 0x00#8
        ∧ (∀ k ∈ ks, k.echo.length = 512 ∧ k.response.toNat % 32 = 5) ∧ ks.length = (2#32).toNat ∧ 1 < (2#32).toNat
        ∧ s.rx.next = turnsBytes hint ++ (a.bytes ++ (ks.flatMap Sink.bytes ++ (0xFF#8 :: d :: e :: rest))) := by
  refine ⟨probed ⟨.sd2, true⟩ (turnsBytes hinted ++ ((reply 0x00#8).bytes
        ++ ([sink 0xE5#8, sink 0x05#8].flatMap Sink.bytes ++ [0xFF#8, 1#8, 2#8, 7#8]))), hinted, reply 0x00#8,
      [sink 0xE5#8, sink 0x05#8], 1#8, 2#8, [7#8], ?_, by decide +kernel, ?_, by decide +kernel, by decide +kernel, hint_sd _ _, by decide +kernel⟩
  all_goals first | unfold usable lockFree; decide +kernel | unfold bridgeReady fair; decide +kernel

/-- A block rejected and the stop token sent; a block and the stop token both held back. -/
theorem witness_WriteStreamsSectors_fails :
    (∃ (s : State) (a : Answer) (ks : List Sink) (failing sent stopping stopSent : List Byte) (cause cause' : Cause) (e : Byte),
        (usable s ∧ inputProtected s = false
        ∧ bridgeReady s ∧ s.cfg.stopCmdIndex = 12#8 ∧ s.cfg.tokenSingle ≠ s.cfg.tokenStop ∧ s.cfg.tokenMulti ≠ s.cfg.tokenStop)
        ∧ (hintMeets 2#32 [] s ∧ turnsWf 50 s []) ∧ a.wf = true ∧ a.r = 0x00#8
        ∧ (∀ k ∈ ks, k.echo.length = 512 ∧ k.response.toNat % 32 = 5) ∧ ks.length = 1
        ∧ blockFails 50 s.cfg.tokenMulti (memBytes s.mem (0 + 512 * ks.length) 512) failing sent cause s
        ∧ stopMeets 50 cause stopping stopSent cause' s ∧ cause' = .diskError .dataResponse
        ∧ s.rx.next = turnsBytes [] ++ (a.bytes ++ (ks.flatMap Sink.bytes ++ (failing ++ (stopping ++ [e])))))
      ∧ (∃ (s : State) (a : Answer) (failing sent stopping stopSent : List Byte) (cause cause' : Cause) (e : Byte),
        (usable s ∧ inputProtected s = false
        ∧ bridgeReady s ∧ s.cfg.stopCmdIndex = 12#8 ∧ s.cfg.tokenSingle ≠ s.cfg.tokenStop ∧ s.cfg.tokenMulti ≠ s.cfg.tokenStop)
        ∧ (hintMeets 2#32 [] s ∧ turnsWf 50 s []) ∧ a.wf = true ∧ a.r = 0x00#8
        ∧ blockFails 50 s.cfg.tokenMulti (memBytes s.mem (0 + 512 * 0) 512) failing sent cause s
        ∧ stopMeets 50 cause stopping stopSent cause' s ∧ stopSent = [0xFF#8, 0xFF#8]
        ∧ s.rx.next = turnsBytes [] ++ (a.bytes ++ ([].flatMap Sink.bytes ++ (failing ++ (stopping ++ [e]))))) :=
  ⟨⟨slow ⟨.mmc, false⟩ ((reply 0x00#8).bytes ++ ([sink 0x05#8].flatMap Sink.bytes ++ ((sink 0x0B#8).bytes ++ [0xFF#8, 1#8, 7#8]))),
      reply 0x00#8, [sink 0x05#8], _, _, _, _, _, _, 7#8, slow_usable _ _, hint_mmc _ _ rfl, by decide, rfl,
      fun k hk => by rw [List.mem_singleton.1 hk]; decide +kernel, rfl, .inl ⟨sink 0x0B#8, by decide +kernel, by decide, rfl, rfl, rfl⟩,
      .inl ⟨1#8, rfl, rfl, rfl⟩, rfl, rfl⟩,
    ⟨slow ⟨.mmc, false⟩ ((reply 0x00#8).bytes ++ [0#8, 0#8, 0#8, 0#8, 7#8]), reply 0x00#8, _, _, _, _, _, _, 7#8, slow_usable _ _,
      hint_mmc _ _ rfl, by decide, rfl, .inr (held_back _ rfl rfl), .inr (held_back _ rfl rfl), rfl, rfl⟩⟩

theorem witness_WriteStreamsSectors_rejected :
    ∃ (s : State) (failing sent : List Byte) (cause : Cause) (e : Byte), (usable s ∧ inputProtected s = false
      ∧ bridgeReady s ∧ s.cfg.stopCmdIndex = 12#8 ∧ s.cfg.tokenSingle ≠ s.cfg.tokenStop ∧ s.cfg.tokenMulti ≠ s.cfg.tokenStop)
      ∧ (hintMeets 2#32 [] s ∧ turnsWf 50 s []) ∧ commandFails 50 25#8 (toAddr s.card 7#32) .cmd25 failing sent cause s
      ∧ s.rx.next = turnsBytes [] ++ (failing ++ [e]) :=
  ⟨slow ⟨.mmc, false⟩ (busyTurn.bytes ++ [7#8]), _, _, _, 7#8, slow_usable _ _, hint_mmc _ _ rfl, busy_fails _ _ _ _ rfl rfl, rfl⟩

theorem witness_StopTokenNotTaken :
    ∃ (s : State) (hint : List Turn) (a : Answer), ∃ ks : List Sink,
      ∃ (bs rest : List Byte) (b d : Byte) (adv : Nat), usable s ∧ inputProtected s = false ∧ bridgeReady s ∧ busyFor bs 100 adv s
      ∧ s.cfg.stopCmdIndex = 12#8 ∧ s.cfg.tokenMulti ≠ s.cfg.tokenStop ∧ (hintMeets 2#32 hint s ∧ turnsWf adv s hint) ∧ a.wf = true
      ∧ a.r = 0x00#8
      ∧ (∀ k ∈ ks, k.echo.length = 512 ∧ k.response.toNat % 32 = 5) ∧ 1 < (2#32).toNat ∧ ks.length = (2#32).toNat ∧ b ≠ 0xFF#8
      ∧ 100 ≤ (bs.length + 1) * adv
      ∧ s.rx.next = turnsBytes hint ++ (a.bytes ++ (ks.flatMap Sink.bytes ++ (bs ++ b :: d :: rest))) := by
  refine ⟨{ probed ⟨.mmc, false⟩ ((reply 0x00#8).bytes ++ ([sink 0xE5#8, sink 0x05#8].flatMap Sink.bytes ++ [0#8, 0#8, 1#8, 7#8])) with
      tickAdv := ⟨[], 50⟩ }, [], reply 0x00#8, [sink 0xE5#8, sink 0x05#8], [0#8], [7#8], 0#8, 1#8, 50, ?_, by decide +kernel, ?_, ?_, by decide +kernel,
    by decide +kernel, hint_mmc _ _ rfl, by decide +kernel⟩
  all_goals first | unfold usable lockFree; decide +kernel | unfold bridgeReady fair; decide +kernel | unfold busyFor tickModulus; decide +kernel

theorem witness_SyncAndUnknownCode :
    (∃ (s : State) (bs rest : List Byte) (d : Byte) (adv : Nat) (e : Byte), usable s ∧ busyFor bs 100 adv s
      ∧ s.rx.next = d :: (bs ++ 0xFF#8 :: e :: rest))
      ∧ (∃ (s : State) (bs rest : List Byte) (d : Byte) (adv : Nat) (b e f : Byte), usable s ∧ busyFor bs 100 adv s
      ∧ b ≠ 0xFF#8 ∧ 100 ≤ (bs.length + 1) * adv
        ∧ s.rx.next = d :: (bs ++ b :: e :: f :: rest))
      ∧ usable (probed ⟨.sd1, false⟩ []) ∧ 5#8 ∉ [0#8, 1#8, 3#8, 4#8] := by
  unfold usable lockFree busyFor tickModulus
  refine ⟨⟨{ probed ⟨.sd1, false⟩ [1#8, 0#8, 0xFF#8, 2#8] with tickAdv := ⟨[], 99⟩ }, [0#8], [], 1#8, 99, 2#8, ?_⟩,
    ⟨{ probed ⟨.sd1, false⟩ [1#8, 0#8, 0#8, 2#8, 3#8] with tickAdv := ⟨[], 50⟩ }, [0#8], [], 1#8, 50, 0#8, 2#8, 3#8, ?_⟩, ?_⟩ <;> decide +kernel

theorem witness_RegisterIoctls :
    (∃ (s : State) (a : Answer) (k : Packet) (d : Byte) (rest : List Byte), usable s ∧ bridgeReady s
      ∧ s.cfg.stopCmdIndex = 12#8 ∧ a.wf = true ∧ k.payload.length = 16 ∧ a.r = 0x00#8
        ∧ s.card.type ≠ .sd2 ∧ s.cfg.csdDecode = .standard ∧ s.rx.next = a.bytes ++ (k.bytes ++ d :: rest))
      ∧ (∃ (s : State) (a : Answer) (d : Byte) (rest : List Byte), usable s ∧ bridgeReady s ∧ s.cfg.stopCmdIndex = 12#8
      ∧ a.wf = true ∧ a.r ≠ 0x00#8
        ∧ s.rx.next = a.bytes ++ d :: rest)
      ∧ (∃ (s : State) (a b : Answer) (k : Packet) (x : Byte), ∃ tail : List Byte, ∃ (d : Byte) (rest : List Byte), usable s
      ∧ bridgeReady s ∧ s.cfg.stopCmdIndex = 12#8 ∧ a.wf = true ∧ b.wf = true
        ∧ k.payload.length = 16 ∧ s.card.type = .sd2 ∧ a.r.toNat ≤ 1 ∧ b.r = 0x00#8 ∧ tail.length = 48
        ∧ s.cfg.csdDecode = .platform
        ∧ s.rx.next = a.bytes ++ (b.bytes ++ (x :: (k.bytes ++ (tail ++ d :: rest))))) := by
  unfold usable lockFree bridgeReady fair
  refine ⟨⟨probed ⟨.sd1, false⟩ ((reply 0x00#8).bytes ++ ((packet csdV1).bytes ++ [7#8])), reply 0x00#8, packet csdV1, 7#8, [], ?_⟩,
    ⟨probed ⟨.sd1, false⟩ ((reply 0x04#8).bytes ++ [7#8]), reply 0x04#8, 7#8, [], ?_⟩,
    ⟨{ probed ⟨.sd2, false⟩
        ((reply 0x01#8).bytes ++ ((reply 0x00#8).bytes ++ (0#8 :: ((packet csdV1).bytes ++ (List.replicate 48 1#8 ++ [7#8]))))) with
        cfg := { Config.default with csdDecode := .platform } },
      reply 0x01#8, reply 0x00#8, packet csdV1, 0#8, List.replicate 48 1#8, 7#8, [], ?_⟩⟩ <;> decide +kernel

theorem witness_RegisterIoctls_rejected :
    ∃ (s : State) (xs : List Turn) (d : Byte) (rest : List Byte), usable s ∧ bridgeReady s ∧ s.cfg.stopCmdIndex = 12#8
      ∧ Instr.ioctlGetBlockSize ∈ [.ioctlGetBlockSize, .ioctl 3#8 0#32 0#32]
      ∧ (0x8D#8, DiskTag.acmd13) = (if s.card.type = .sd2 then (0x8D#8, .acmd13) else (9#8, .cmd9))
      ∧ meets 0x8D#8 0#32 xs 0x85#8 ∧ turnsWf 1 s xs ∧ s.rx.next = turnsBytes xs ++ d :: rest := by
  refine ⟨probed ⟨.sd2, false⟩ (turnsBytes [.ready 55#8 0#32 (lateReply 0x85#8)] ++ [7#8]), [.ready 55#8 0#32 (lateReply 0x85#8)], 7#8, [],
    ?_, ?_, rfl, by decide, by decide, .inl ⟨_, rfl, ⟨rfl, rfl⟩, by decide, rfl⟩, ?_, rfl⟩
  · unfold usable lockFree; decide +kernel
  · unfold bridgeReady fair; decide +kernel
  · intro x hx
    rw [List.mem_singleton.1 hx]
    exact (by decide : (lateReply 0x85#8).wf = true)

/-- The data token of CMD9 wrong; that of ACMD13 late. -/
theorem witness_RegisterIoctls_token :
    (∃ (s : State) (a : Answer) (failing sent : List Byte) (cause : Cause) (d : Byte), usable s ∧ bridgeReady s
        ∧ s.cfg.stopCmdIndex = 12#8 ∧ a.wf = true ∧ a.r = 0x00#8 ∧ s.card.type ≠ .sd2 ∧ tokenFails 1 failing sent cause s
        ∧ s.rx.next = a.bytes ++ (failing ++ [d]))
      ∧ (∃ (s : State) (a b : Answer) (x : Byte) (failing sent : List Byte) (cause : Cause) (d : Byte), usable s ∧ bridgeReady s
        ∧ s.cfg.stopCmdIndex = 12#8 ∧ a.wf = true ∧ b.wf = true ∧ a.r.toNat ≤ 1 ∧ b.r = 0x00#8 ∧ s.card.type = .sd2
        ∧ tokenFails 100 failing sent cause s ∧ s.rx.next = a.bytes ++ (b.bytes ++ (x :: (failing ++ [d]))))
      ∧ (packet csdV1).payload.length = 16 := by
  refine ⟨⟨probed ⟨.mmc, false⟩ ((reply 0x00#8).bytes ++ [0xFF#8, 0x09#8, 7#8]), reply 0x00#8, _, _, _, 7#8, ?_, ?_, rfl, by decide, rfl,
      by decide, wrong_token_fails _ rfl rfl, rfl⟩,
    ⟨{ probed ⟨.sd2, true⟩ ((reply 0x01#8).bytes ++ ((reply 0x00#8).bytes ++ [0#8, 0xFF#8, 0xFF#8, 7#8])) with tickAdv := ⟨[], 100⟩ },
      reply 0x01#8, reply 0x00#8, 0#8, _, _, _, 7#8, ?_, ?_, rfl, by decide, by decide, by decide, rfl, rfl, late_token_fails _ rfl rfl,
      rfl⟩, by decide⟩
  all_goals first | unfold usable lockFree; decide +kernel | unfold bridgeReady fair; decide +kernel

theorem witness_EraseIoctl :
    (∃ (s : State) (a c : Answer) (k : Packet) (d e : Byte) (rest : List Byte), usable s ∧ bridgeReady s
      ∧ s.cfg.stopCmdIndex = 12#8 ∧ a.wf = true ∧ a.r = 0x00#8 ∧ k.payload.length = 16
        ∧ inputPresent (sampled s) = true ∧ s.card.type = .sd1
        ∧ eraseSupportedHere { s with csd := csdAfter .csd k.payload s } = true ∧ c.wf = true ∧ c.r = 0x00#8
        ∧ s.rx.next = a.bytes ++ (k.bytes ++ (d :: (c.bytes ++ (c.bytes ++ (c.bytes ++ (0xFF#8 :: e :: rest)))))))
      ∧ (∃ (s : State) (a : Answer) (k : Packet) (d f : Byte) (rest : List Byte), usable s ∧ bridgeReady s
      ∧ s.cfg.stopCmdIndex = 12#8 ∧ a.wf = true ∧ a.r = 0x00#8 ∧ k.payload.length = 16
        ∧ inputPresent (sampled s) = true ∧ s.card.type = .sd2
        ∧ eraseSupportedHere { s with csd := csdAfter .csd k.payload s } = false
        ∧ s.rx.next = a.bytes ++ (k.bytes ++ (d :: f :: rest)))
      ∧ (∃ s : State, usable s ∧ bridgeReady s ∧ s.cfg.stopCmdIndex = 12#8 ∧ s.card.type ≠ .sd1 ∧ s.card.type ≠ .sd2)
      ∧ (∃ s : State, usable s ∧ bridgeReady s ∧ s.cfg.stopCmdIndex = 12#8 ∧ s.card.type = .sd1
        ∧ inputPresent (sampled s) = false) := by
  unfold usable lockFree bridgeReady fair
  refine ⟨⟨probed ⟨.sd1, false⟩ ((reply 0x00#8).bytes ++ ((packet csdV1).bytes ++ (1#8 :: ((reply 0x00#8).bytes ++ ((reply 0x00#8).bytes
      ++ ((reply 0x00#8).bytes ++ [0xFF#8, 2#8, 7#8])))))), reply 0x00#8, reply 0x00#8, packet csdV1, 1#8, 2#8, [7#8], ?_⟩,
    ⟨probed ⟨.sd2, false⟩ ((reply 0x00#8).bytes ++ ((packet csdPlain).bytes ++ [1#8, 2#8, 7#8])), reply 0x00#8, packet csdPlain, 1#8, 2#8,
      [7#8], ?_⟩, ⟨probed ⟨.mmc, false⟩ [], ?_⟩, ⟨{ probed ⟨.sd1, false⟩ [] with cd := ⟨[true], false⟩ }, ?_⟩⟩ <;> decide +kernel

/-- The ways the erase sequence and the nested CSD read fail: CMD32 and CMD33 rejected, CMD38 to a busy card, the wait run out, CMD9
rejected, its token wrong. -/
theorem witness_EraseIoctl_fails :
    (∃ (s : State) (failing sent : List Byte) (cause : Cause), eraseFails 50 8#32 15#32 failing sent cause s ∧ cause = .diskError .cmd32)
      ∧ (∃ (s : State) (failing sent : List Byte) (cause : Cause), eraseFails 50 8#32 15#32 failing sent cause s
        ∧ cause = .diskError .cmd33)
      ∧ (∃ (s : State) (failing sent : List Byte) (cause : Cause), eraseFails 50 8#32 15#32 failing sent cause s
        ∧ cause = .diskError .cmd38)
      ∧ (∃ (s : State) (a : Answer) (k : Packet) (failing sent : List Byte) (cause : Cause) (d e : Byte), usable s ∧ bridgeReady s
        ∧ s.cfg.stopCmdIndex = 12#8 ∧ s.card.type = .sd2 ∧ inputPresent (sampled s) = true ∧ a.wf = true ∧ a.r = 0x00#8
        ∧ k.payload.length = 16 ∧ eraseSupportedHere { s with csd := csdAfter .csd k.payload s } = true
        ∧ eraseFails 30000 (toAddr s.card 8#32) (toAddr s.card 15#32) failing sent cause s ∧ cause = .timeout .waitReady
        ∧ s.rx.next = a.bytes ++ (k.bytes ++ (d :: (failing ++ [e]))))
      ∧ (∃ (s : State) (failing sent : List Byte) (cause : Cause) (d e : Byte), usable s ∧ s.card.type = .sd2
        ∧ inputPresent (sampled s) = true ∧ blockReadFails 50 9#8 0#32 .cmd9 failing sent cause s ∧ s.rx.next = failing ++ [d, e])
      ∧ (∃ (s : State) (failing sent : List Byte) (cause : Cause), blockReadFails 1 9#8 0#32 .cmd9 failing sent cause s
        ∧ cause = .diskError .wrongToken) := by
  refine ⟨⟨slow ⟨.sd1, false⟩ [], _, _, _, .inl (rejected_fails _ _ _ _ _), rfl⟩,
    ⟨slow ⟨.sd1, false⟩ [], _, _, _, .inr ⟨reply 0x00#8, _, _, by decide, rfl, rfl, rfl, .inl (rejected_fails _ _ _ _ _)⟩, rfl⟩,
    ⟨slow ⟨.sd1, false⟩ [], _, _, _, .inr ⟨reply 0x00#8, _, _, by decide, rfl, rfl, rfl,
      .inr ⟨reply 0x00#8, _, _, by decide, rfl, rfl, rfl, .inl (busy_fails _ _ _ _ rfl rfl)⟩⟩, rfl⟩,
    ⟨{ probed ⟨.sd2, true⟩ ((reply 0x00#8).bytes ++ ((packet csdV1).bytes ++ (1#8 :: ((reply 0x00#8).bytes ++ ((reply 0x00#8).bytes
        ++ ((reply 0x00#8).bytes ++ [0#8, 7#8])))))) with tickAdv := ⟨[], 30000⟩ }, reply 0x00#8, packet csdV1, _, _, _, 1#8, 7#8, ?_, ?_, rfl,
      rfl, by decide +kernel, by decide, rfl, by decide, by decide +kernel, .inr ⟨reply 0x00#8, _, _, by decide, rfl, rfl, rfl,
      .inr ⟨reply 0x00#8, _, _, by decide, rfl, rfl, rfl, .inr ⟨reply 0x00#8, [], 0#8, by decide, rfl, ?_, by decide, by decide, rfl, rfl,
        rfl⟩⟩⟩, rfl, rfl⟩,
    ⟨slow ⟨.sd2, true⟩ ((reply 0x04#8).bytes ++ [1#8, 7#8]), _, _, _, 1#8, 7#8, (slow_usable _ _).1, rfl, rfl,
      .inl (rejected_fails _ _ _ _ _), rfl⟩,
    ⟨ticked 1 [], _, _, _, .inr ⟨reply 0x00#8, _, _, by decide, rfl, wrong_token_fails _ rfl rfl, rfl, rfl⟩, rfl⟩⟩
  · unfold usable lockFree; decide +kernel
  · unfold bridgeReady fair; decide +kernel
  · unfold busyFor tickModulus; decide +kernel

/-! For the probe: the turns of answered frames, and the states that follow. -/

/-- A poll of an application command that both frames answer. -/
def polled (index : Byte) (arg : U32) (r : Byte) : List Turn := [.ready 55#8 0#32 (reply 0x01#8), .ready index arg (reply r)]

theorem polled_meets (index : Byte) (arg : U32) (r : Byte) (h : index.getLsbD 7 = true) :
    meets index arg (polled (index &&& 0x7F#8) arg r) r := by
  unfold meets
  rw [h]
  exact .inr ⟨_, _, rfl, ⟨rfl, rfl⟩, by decide, ⟨rfl, rfl⟩, rfl⟩

/-- The reset state with the bytes of a probe to come, idle clocks first, and a counter that advances by `adv`. -/
def probing (adv : Nat) (bytes : List Byte) : State :=
  { fed (List.replicate 10 1#8 ++ bytes) with tickAdv := ⟨[], adv⟩ }

theorem probing_starts (adv : Nat) (bytes : List Byte) : probeStarts adv (List.replicate 10 1#8) [] (probing adv bytes) :=
  ⟨rfl, ⟨rfl, rfl⟩, rfl, rfl, rfl, rfl, fun x hx => absurd hx (by simp), fun x hx => absurd hx (by simp)⟩

theorem ready_wf (adv : Nat) (s : State) (xs : List Turn) (h : ∀ x ∈ xs, ∃ i v a, x = .ready i v a ∧ a.wf = true) :
    turnsWf adv s xs := fun x hx => by
  obtain ⟨i, v, a, rfl, ha⟩ := h x hx
  exact ha

theorem polled_wf (adv : Nat) (s : State) (index : Byte) (arg : U32) (r : Byte) (h : (reply r).wf = true) :
    turnsWf adv s (polled index arg r) := fun x hx => by
  simp only [polled, List.mem_cons, List.not_mem_nil, or_false] at hx
  rcases hx with rfl | rfl
  · exact (by decide : (reply 0x01#8).wf = true)
  · exact h

theorem witness_InitializeFindsSd2 :
    ∃ (s : State) (idle : List Byte) (pre xs : List Turn) (c0 c8 c58 : Answer) (ps : List (List Turn))
      (e0 e1 o0 o1 o2 o3 d : Byte) (rest : List Byte) (adv : Nat),
    probeStarts adv idle pre s ∧ s.tickAdv = ⟨[], adv⟩ ∧ 1000 ≤ tickModulus s.cfg ∧ c0.wf = true ∧ c0.r = 0x01#8 ∧ c8.wf = true
      ∧ c8.r = 0x01#8 ∧ pollsGoOn 0xA9#8 s.cfg.acmd41HcsArg ps ∧ meets 0xA9#8 s.cfg.acmd41HcsArg xs 0x00#8
      ∧ turnsWf adv s (ps.flatten ++ xs) ∧ (1 + pollReadings ps + 1) * adv < 1000 ∧ c58.wf = true ∧ c58.r = 0x00#8
      ∧ s.rx.next = idle ++ (turnsBytes pre ++ (c0.bytes ++ (c8.bytes ++ ([e0, e1, 0x01#8, 0xAA#8]
        ++ (turnsBytes (ps.flatten ++ xs) ++ (c58.bytes ++ ([o0, o1, o2, o3] ++ d :: rest))))))) := by
  refine ⟨probing 199 ((reply 0x01#8).bytes ++ ((reply 0x01#8).bytes ++ ([0#8, 0#8, 0x01#8, 0xAA#8]
      ++ (turnsBytes (polled 0x29#8 0x40000000#32 0x01#8 ++ polled 0x29#8 0x40000000#32 0x00#8) ++ ((reply 0x00#8).bytes
        ++ ([0xC0#8, 0xFF#8, 0x80#8, 0#8] ++ [7#8])))))), _, [], polled 0x29#8 0x40000000#32 0x00#8, reply 0x01#8, reply 0x01#8,
    reply 0x00#8, [polled 0x29#8 0x40000000#32 0x01#8], 0#8, 0#8, 0xC0#8, 0xFF#8, 0x80#8, 0#8, 7#8, [], 199,
    probing_starts _ _, rfl, by unfold tickModulus; decide, by decide, rfl, by decide, rfl, ?_, polled_meets 0xA9#8 _ _ (by decide), ?_,
    by decide, by decide, rfl, by decide +kernel⟩
  · intro xs hx
    rw [List.mem_singleton.1 hx]
    exact ⟨0x01#8, polled_meets 0xA9#8 _ _ (by decide), by decide⟩
  · intro x hx
    rcases List.mem_append.1 hx with h | h
    · exact polled_wf 199 _ 0x29#8 0x40000000#32 0x01#8 (by decide) x (by simpa using h)
    · exact polled_wf _ _ _ _ _ (by decide) x h

/-- CMD55 of the type test above 1 and a busy card at the first poll (MMC); then CMD1 is answered. -/
theorem witness_InitializeFindsSd1OrMmc :
    ∃ (s : State) (idle : List Byte) (pre tt xs : List Turn) (x8 : Turn) (c0 c16 : Answer) (ps : List (List Turn)) (r index d : Byte)
      (rest : List Byte) (adv : Nat),
    probeStarts adv idle pre s ∧ s.tickAdv = ⟨[], adv⟩ ∧ 1000 ≤ tickModulus s.cfg ∧ c0.wf = true ∧ c0.r = 0x01#8
      ∧ x8.isOf 8#8 0x1AA#32 ∧ x8.wf adv s ∧ x8.value ≠ 0x01#8 ∧ meets 0xA9#8 0#32 tt r ∧ turnsWf adv s tt
      ∧ index = (if r.toNat ≤ 1 then 0xA9#8 else 0x01#8) ∧ pollsGoOn index 0#32 ps ∧ meets index 0#32 xs 0x00#8
      ∧ turnsWf adv s (ps.flatten ++ xs) ∧ (x8.readings + turnsReadings tt + pollReadings ps + 1) * adv < 1000 ∧ c16.wf = true
      ∧ c16.r = 0x00#8
      ∧ s.rx.next = idle ++ (turnsBytes pre ++ (c0.bytes ++ (x8.bytes ++ (turnsBytes tt ++ (turnsBytes (ps.flatten ++ xs)
        ++ (c16.bytes ++ d :: rest)))))) := by
  refine ⟨probing 50 ((reply 0x01#8).bytes ++ ((Turn.ready 8#8 0x1AA#32 (reply 0x05#8)).bytes
      ++ (turnsBytes [.ready 55#8 0#32 (reply 0x05#8)] ++ (turnsBytes [busyTurn, .ready 1#8 0#32 (reply 0x00#8)]
        ++ ((reply 0x00#8).bytes ++ [7#8]))))), _, [], [.ready 55#8 0#32 (reply 0x05#8)], [.ready 1#8 0#32 (reply 0x00#8)],
    .ready 8#8 0x1AA#32 (reply 0x05#8), reply 0x01#8, reply 0x00#8, [[busyTurn]], 0x05#8, 0x01#8, 7#8, [], 50,
    probing_starts _ _, rfl, by unfold tickModulus; decide, by decide, rfl, ⟨rfl, rfl⟩, (by decide : (reply 0x05#8).wf = true), by decide,
    .inl ⟨_, rfl, ⟨rfl, rfl⟩, by decide, rfl⟩, ?_, by decide, ?_, ⟨_, rfl, ⟨rfl, rfl⟩, rfl⟩, ?_, by decide, by decide, rfl,
    by decide +kernel⟩
  · exact ready_wf _ _ _ fun x hx => ⟨55#8, 0#32, reply 0x05#8, List.mem_singleton.1 hx, by decide⟩
  · intro xs hx
    rw [List.mem_singleton.1 hx]
    exact ⟨0xFF#8, ⟨_, rfl, trivial, rfl⟩, by decide⟩
  · intro x hx
    simp only [List.flatten_cons, List.flatten_nil, List.append_nil, List.cons_append, List.nil_append, List.mem_cons,
      List.not_mem_nil, or_false] at hx
    rcases hx with rfl | rfl
    · unfold busyTurn Turn.wf busyFor tickModulus; decide +kernel
    · exact (by decide : (reply 0x00#8).wf = true)

/-- CMD0 unanswered; another echo. -/
theorem witness_InitializeFails :
    (∃ (s : State) (idle : List Byte) (x0 : Turn) (d : Byte) (rest : List Byte), probeStarts 1 idle [] s ∧ x0.isOf 0#8 0#32
      ∧ x0.wf 1 s ∧ x0.value ≠ 0x01#8 ∧ s.rx.next = idle ++ (turnsBytes [] ++ (x0.bytes ++ d :: rest)))
      ∧ (∃ (s : State) (idle : List Byte) (c0 c8 : Answer) (e0 e1 e2 e3 d : Byte) (rest : List Byte), probeStarts 1 idle [] s
      ∧ c0.wf = true ∧ c0.r = 0x01#8 ∧ c8.wf = true ∧ c8.r = 0x01#8 ∧ (e2 ≠ 0x01#8 ∨ e3 ≠ 0xAA#8)
      ∧ s.rx.next = idle ++ (turnsBytes [] ++ (c0.bytes ++ (c8.bytes ++ ([e0, e1, e2, e3] ++ d :: rest))))) := by
  exact ⟨⟨probing 1 ((lateReply 0xFF#8).bytes ++ [7#8]), _, .ready 0#8 0#32 (lateReply 0xFF#8), 7#8, [], probing_starts _ _, ⟨rfl, rfl⟩,
      (by decide : (lateReply 0xFF#8).wf = true), by decide, rfl⟩,
    ⟨probing 1 ((reply 0x01#8).bytes ++ ((reply 0x01#8).bytes ++ ([0#8, 0#8, 0x01#8, 0x55#8] ++ [7#8]))), _, reply 0x01#8, reply 0x01#8,
      0#8, 0#8, 0x01#8, 0x55#8, 7#8, [], probing_starts _ _, by decide, rfl, by decide, rfl, .inr (by decide), rfl⟩⟩

/-- The poll of the SD2 branch runs out: the window is open at the first test and over at the second. -/
theorem witness_InitializeFails_poll :
    ∃ (s : State) (idle : List Byte) (ps : List (List Turn)) (rest : List Byte), probeStarts 400 idle [] s ∧ s.tickAdv = ⟨[], 400⟩
      ∧ pollsGoOn 0xA9#8 s.cfg.acmd41HcsArg ps ∧ turnsWf 400 s ps.flatten ∧ pollsExpire 400 1 ps s
      ∧ s.rx.next = idle ++ (turnsBytes [] ++ ((reply 0x01#8).bytes ++ ((reply 0x01#8).bytes ++ ([0#8, 0#8, 0x01#8, 0xAA#8]
        ++ (turnsBytes ps.flatten ++ 7#8 :: rest))))) := by
  refine ⟨probing 400 ((reply 0x01#8).bytes ++ ((reply 0x01#8).bytes ++ ([0#8, 0#8, 0x01#8, 0xAA#8]
      ++ (turnsBytes [.ready 55#8 0#32 (reply 0x05#8)] ++ [7#8])))), _, [[.ready 55#8 0#32 (reply 0x05#8)]], [], probing_starts _ _, rfl,
    ?_, ?_, ⟨?_, by decide, by unfold tickModulus; decide⟩, rfl⟩
  · intro xs hx
    rw [List.mem_singleton.1 hx]
    exact ⟨0x05#8, .inl ⟨_, rfl, ⟨rfl, rfl⟩, by decide, rfl⟩, by decide⟩
  · exact ready_wf _ _ _ fun x hx => ⟨55#8, 0#32, reply 0x05#8, by simpa using hx, by decide⟩
  · intro init xs h
    cases init with
    | nil => decide
    | cons y t => exact absurd (congrArg List.length h) (by simp)

/-- CMD58 rejected after an accepted poll. -/
theorem witness_InitializeFails_cmd58 :
    ∃ (s : State) (idle : List Byte) (xs : List Turn) (x58 : Turn) (rest : List Byte), probeStarts 1 idle [] s ∧ s.tickAdv = ⟨[], 1⟩
      ∧ pollsGoOn 0xA9#8 s.cfg.acmd41HcsArg [] ∧ meets 0xA9#8 s.cfg.acmd41HcsArg xs 0x00#8 ∧ turnsWf 1 s ([].flatten ++ xs)
      ∧ (1 + pollReadings [] + 1) * 1 < 1000 ∧ x58.isOf 58#8 0#32 ∧ x58.wf 1 s ∧ x58.value ≠ 0x00#8
      ∧ s.rx.next = idle ++ (turnsBytes [] ++ ((reply 0x01#8).bytes ++ ((reply 0x01#8).bytes ++ ([0#8, 0#8, 0x01#8, 0xAA#8]
        ++ (turnsBytes ([].flatten ++ xs) ++ (x58.bytes ++ 7#8 :: rest)))))) :=
  ⟨probing 1 ((reply 0x01#8).bytes ++ ((reply 0x01#8).bytes ++ ([0#8, 0#8, 0x01#8, 0xAA#8]
      ++ (turnsBytes (polled 0x29#8 0x40000000#32 0x00#8) ++ ((reply 0x04#8).bytes ++ [7#8]))))), _, polled 0x29#8 0x40000000#32 0x00#8,
    .ready 58#8 0#32 (reply 0x04#8), [], probing_starts _ _, rfl, fun x hx => absurd hx (by simp), polled_meets 0xA9#8 _ _ (by decide),
    polled_wf _ _ _ _ _ (by decide), by decide, ⟨rfl, rfl⟩, (by decide : (reply 0x04#8).wf = true), by decide, by decide +kernel⟩

/-- The version 1 branch: a poll that runs out at once (the counter jumps), and CMD16 rejected. -/
theorem witness_InitializeFails_v1 :
    (∃ (s : State) (idle : List Byte) (x8 : Turn) (tt : List Turn) (rest : List Byte), probeStarts 600 idle [] s ∧ x8.isOf 8#8 0x1AA#32
      ∧ x8.wf 600 s ∧ x8.value ≠ 0x01#8 ∧ meets 0xA9#8 0#32 tt 0x01#8 ∧ turnsWf 600 s tt ∧ pollsGoOn 0xA9#8 0#32 []
      ∧ pollsExpire 600 (x8.readings + turnsReadings tt) [] s
      ∧ s.rx.next = idle ++ (turnsBytes [] ++ ((reply 0x01#8).bytes ++ (x8.bytes ++ (turnsBytes tt ++ (turnsBytes [].flatten
        ++ 7#8 :: rest))))))
      ∧ (∃ (s : State) (idle : List Byte) (x8 : Turn) (tt xs : List Turn) (x16 : Turn) (rest : List Byte), probeStarts 1 idle [] s
      ∧ x8.isOf 8#8 0x1AA#32 ∧ x8.wf 1 s ∧ x8.value ≠ 0x01#8 ∧ meets 0xA9#8 0#32 tt 0x01#8 ∧ turnsWf 1 s tt
      ∧ meets 0xA9#8 0#32 xs 0x00#8 ∧ turnsWf 1 s xs ∧ (x8.readings + turnsReadings tt + pollReadings [] + 1) * 1 < 1000
      ∧ x16.isOf 16#8 s.cfg.cmd16Arg ∧ x16.wf 1 s ∧ x16.value ≠ 0x00#8
      ∧ s.rx.next = idle ++ (turnsBytes [] ++ ((reply 0x01#8).bytes ++ (x8.bytes ++ (turnsBytes tt
        ++ (turnsBytes ([].flatten ++ xs) ++ (x16.bytes ++ 7#8 :: rest))))))) := by
  refine ⟨⟨probing 600 ((reply 0x01#8).bytes ++ ((reply 0x05#8).bytes ++ (turnsBytes (polled 0x29#8 0#32 0x01#8) ++ [7#8]))), _,
      .ready 8#8 0x1AA#32 (reply 0x05#8), polled 0x29#8 0#32 0x01#8, [], probing_starts _ _, ⟨rfl, rfl⟩,
      (by decide : (reply 0x05#8).wf = true), by decide, polled_meets 0xA9#8 _ _ (by decide), polled_wf _ _ _ _ _ (by decide),
      fun x hx => absurd hx (by simp), ⟨fun init xs h => absurd h (by simp), by decide, by unfold tickModulus; decide⟩, by decide +kernel⟩,
    ⟨probing 1 ((reply 0x01#8).bytes ++ ((reply 0x05#8).bytes ++ (turnsBytes (polled 0x29#8 0#32 0x01#8)
      ++ (turnsBytes (polled 0x29#8 0#32 0x00#8) ++ ((reply 0x04#8).bytes ++ [7#8]))))), _,
      .ready 8#8 0x1AA#32 (reply 0x05#8), polled 0x29#8 0#32 0x01#8, polled 0x29#8 0#32 0x00#8, .ready 16#8 512#32 (reply 0x04#8), [],
      probing_starts _ _, ⟨rfl, rfl⟩,
      (by decide : (reply 0x05#8).wf = true), by decide, polled_meets 0xA9#8 _ _ (by decide), polled_wf _ _ _ _ _ (by decide),
      polled_meets 0xA9#8 _ _ (by decide), polled_wf _ _ _ _ _ (by decide), by decide, ⟨rfl, rfl⟩, (by decide : (reply 0x04#8).wf = true),
      by decide, by decide +kernel⟩⟩

theorem witness_ExitSequenceEndsCalls :
    isHostSlot (slotOf .ioctlSync) = true ∧ (probed ⟨.mmc, false⟩ []).hung = none
      ∧ after (exec .ioctlSync (probed ⟨.mmc, false⟩ [])) (fun t => (t.hung, decide (.lock 0 ∈ t.events))) = some (none, true)
      ∧ after (exec .initCard (fed bytesP1)) (fun t => (t.hung, decide (.lock 0 ∈ t.events))) = some (none, true) := by decide +kernel

theorem witness_DataCallsReturn :
    isHostSlot (slotOf (.write 0#32 0#32 2#32)) = true ∧ Instr.write 0#32 0#32 2#32 ≠ .initCard
      ∧ lockFree (probed ⟨.sd2, true⟩ [])
      ∧ bridgeReady (probed ⟨.sd2, true⟩ []) ∧ ticking (probed ⟨.sd2, true⟩ []) ∧ (probed ⟨.sd2, true⟩ []).cfg.stopCmdIndex = 12#8
      ∧ (probed ⟨.sd2, true⟩ []).cs = .deasserted := by
  unfold lockFree bridgeReady fair ticking tickModulus
  decide

theorem witness_AddressesOfSectors : ∃ card : Card, card.blockAddressed = false := ⟨⟨.sd1, false⟩, rfl⟩

/-- A register with all bytes zero but for some. -/
def csdWith (b0 b5 b13 : Byte) : Vector Byte 16 := (((Vector.replicate 16 0#8).set 0 b0).set 5 b5).set 13 b13

theorem witness_RegisterFormulas :
    (csdWith 0x40#8 0#8 0#8)[0].toNat / 64 = 1 ∧ (csdWith 0#8 7#8 0x40#8)[0].toNat / 64 ≠ 1
      ∧ (csdWith 0#8 7#8 0x40#8)[5].toNat % 16 + 0 + 2 = 9 ∧ (csdWith 0#8 7#8 0x40#8)[13].toNat / 64 = 1 := by decide

theorem witness_CommandFrames :
    (after (exec .select (fed [])) State.cs).isSome = true ∧ (after (exec .dummy (fed [])) State.cs).isSome = true
      ∧ (after (exec (.cmd0 0#32) (fed [])) State.cs).isSome = true
      ∧ (after (exec (.cmd8 0#32) (fed (reply 0x01#8).bytes)) State.cs).isSome = true := by decide +kernel

theorem witness_DataBlockFrames :
    (after (exec (.startTransfer .out .csd 16#16) (fed [])) State.cs).isSome = true
      ∧ (after (exec (.cmd9 0#32) (fed ((reply 0x00#8).bytes ++ (packet csdV1).bytes))) State.cs).isSome = true
      ∧ (after (exec (.cmd17 0#32) (fed (reply 0x04#8).bytes)) State.cs).isSome = true
      ∧ (after (exec (.receiveDataBlock (.buffer 0#64) 512#16) (fed [0xFF#8, 0x09#8])) State.cs).isSome = true
      ∧ (after (exec .waitForTransfer (engineHolds .inp (.buffer 4) true)) State.cs).isSome = true := by decide +kernel

theorem witness_HostCallFrames :
    (after (exec (.read 0#32 0#32 1#32) State.reset) State.cs).isSome = true
      ∧ (after (exec .initCard (fed bytesP1)) State.cs).isSome = true
      ∧ (after (exec (.ioctlUnknown 2#8) (probed ⟨.sd2, true⟩ [])) State.cs).isSome = true := by decide +kernel

end Sys2Proof.Tests
end

section
/-! SUPPORT. The transport primitives (40_transport.md): one exchange and deselect, the response poll, the data block out. -/

namespace Sys2Proof.Machine

set_option Elab.async false

open Sys2Proof

/-! ### The instructions, when the primitive ends with a value -/

theorem exec_sendCommand_ok {index r : Byte} {arg : U32} {s t : State} (h : sendCommand index arg s = .ok r t) :
    exec (.sendCommand index arg) s = .next { t with ret := .byte r } :=
  congrArg (Res.outcome .byte) h

theorem exec_sendDataBlock_ok {off : U64} {token : Byte} {b : Bool} {s t : State}
    (h : sendDataBlock off.toNat token s = .ok b t) :
    exec (.sendDataBlock off token) s = .next { t with ret := .bool b } :=
  congrArg (Res.outcome .bool) h

/-! ### Exchange and deselect -/

theorem exec_xchg_quiet {s : State} (tx : Byte) (hq : quiet s) :
    exec (.xchg tx) s = .next { s with
      rx := s.rx.pop.2, events := .xchg tx s.rx.pop.1 :: s.events, ret := .byte s.rx.pop.1 } :=
  congrArg (fun x : Byte × State => Res.outcome .byte (.ok x.1 x.2)) (xchg_quiet tx hq)

theorem exec_deselect_quiet {s : State} (hq : quiet s) :
    exec .deselect s = .next { s with
      cs := .deasserted, rx := s.rx.pop.2
      events := .xchg s.cfg.dummy s.rx.pop.1 :: .cs .deasserted :: s.events, ret := .none } :=
  congrArg (fun t : State => Res.outcome (fun _ => .none) (.ok () t)) (deselect_quiet hq)

/-- Settles O23: `Xchg` and `deselect` are single exchanges, so with no call of another thread in between their next states are
those of `xchg_quiet` and `deselect_quiet`. -/
theorem exchangeAndDeselect : Obligations.ExchangeAndDeselect := by
  unfold Obligations.ExchangeAndDeselect
  exact fun _ tx hq => ⟨exec_xchg_quiet tx hq, exec_deselect_quiet hq⟩

/-! ### The response poll -/

/-- A response with bit 7 set is above 1, so no response test of 00_scope.md R14 passes on it (R138). -/
theorem tests_fail_of_bit7 {r : Byte} (h : r.getLsbD 7 = true) :
    acceptedReady r = false ∧ acceptedIdle r = false ∧ idleOrReady r = false := by
  have hr : 128 ≤ r.toNat := BitVec.toNat_ge_of_msb_true (by rw [BitVec.msb_eq_getLsbD_last]; exact h)
  refine ⟨?_, ?_, ?_⟩
  · exact beq_false_of_ne fun e => by subst e; contradiction
  · exact beq_false_of_ne fun e => by subst e; contradiction
  · exact decide_eq_false (by omega)

theorem commandSent_length (c : Config) (idx : Byte) (arg : U32) (a : Answer) :
    (commandSent c idx arg a).length = 9 + (a.gap.length + 1) := by
  simp [commandSent, frameBytes_length]
  omega

/-- Settles O28: the bytes of the premise are those of a well-formed `Answer`, so `sendCommand_answered` gives the state after
the poll, and `commandSent` counts the polls. -/
theorem responsePollTenBytes : Obligations.ResponsePollTenBytes := by
  unfold Obligations.ResponsePollTenBytes
  intro s index arg d0 d1 r echo gap rest hq he hgl hg h6 h7 hi hrx hr
  have ha : (Answer.mk d0 d1 echo gap r).wf = true := (Answer.wf_iff _).2 ⟨he, hgl, hg, hr⟩
  have hb : s.rx.next = (Answer.mk d0 d1 echo gap r).bytes ++ rest := by simp [hrx, Answer.bytes]
  refine ⟨_, exec_sendCommand_ok (sendCommand_answered ha h6 h7 hi hb), rfl, rfl, ?count, rfl, rfl, ?sent, tests_fail_of_bit7⟩
  case count =>
    show (BitVec.ofNat 4 (9 - gap.length)).toNat = _
    rw [BitVec.toNat_ofNat]
    omega
  case sent =>
    show (answered index arg ⟨d0, d1, echo, gap, r⟩ rest s).sent.length = _
    rw [sent_answered index arg rest s ha, List.length_append, commandSent_length, Nat.add_assoc]

/-! ### The data block out -/

/-- To a card that stays busy the block sends nothing of the packet: what is left is the failed `waitReady` (R141). -/
theorem sendDataBlock_notReady {off : Nat} {token : Byte} {s t : State} (h : waitReady tSendBlockMs s = .ok false t) :
    sendDataBlock off token s = .ok false t := by
  unfold sendDataBlock
  rw [h]
  rfl

/-- Settles O32: a ready card by the data response, the stop token, and the `waitReady` that expires. -/
theorem sendDataBlockOutcome : Obligations.SendDataBlockOutcome := by
  unfold Obligations.SendDataBlockOutcome
  intro s off token rest hq
  refine ⟨fun k hp hf ht hl hrx => ?_, fun d hrx => exec_sendDataBlock_ok (sendDataBlock_stop hrx), ?busy⟩
  · have hsent := sendDataBlock_response (off := off.toNat) hp hf ht hl hrx
    exact ⟨fun hr => exec_sendDataBlock_ok (hsent.trans (if_pos hr)),
      fun hr => exec_sendDataBlock_ok (hsent.trans (if_neg hr))⟩
  case busy =>
    intro bs b a hbusy hb hms hrx
    obtain ⟨t, hwait, ht, hsent, -⟩ := waitReady_expires (ms := tSendBlockMs) hbusy hb hms hrx
    refine ⟨{ t with ret := .bool false }, exec_sendDataBlock_ok (sendDataBlock_notReady hwait), ?frame, rfl, ?_, ?_, ?_, hsent⟩
    case frame => rw [ht]; exact ⟨rfl, heard.same rfl⟩
    all_goals rw [ht]

end Sys2Proof.Machine
end

section
/-! SUPPORT. The lock primitives (45_guard_status.md): `Unlock` by its owner and by any other thread. -/

namespace Sys2Proof.Machine

set_option Elab.async false

open Sys2Proof

/-- Only the owner, at depth 1 or more, may unlock (R291; log 14). -/
theorem unlock_refused {s : State} (h : s.lock.owner ≠ some s.me ∨ s.lock.depth = 0) :
    unlock s = .refuse .unlockByNonOwner := by
  refine if_neg fun ⟨howner, hdepth⟩ => ?_
  rcases h with hother | hzero
  · exact hother howner
  · omega

/-- The owner's lock after `Unlock`, with the owner named as the calling thread. -/
theorem lockReleased_owner {s : State} (h : s.lock.owner = some s.me) :
    lockReleased s = if s.lock.depth = 1 then ⟨none, 0⟩ else ⟨some s.me, s.lock.depth - 1⟩ := by
  rw [lockReleased, h]

theorem unlocked_quiet {s : State} (hq : quiet s) :
    unlocked s = { s with lock := lockReleased s, events := .unlock s.me :: s.events } := by
  rw [unlocked, meanwhile_quiet hq, record]

theorem exec_unlock_owner {s : State} (h : s.lock.owner = some s.me) (hd : 1 ≤ s.lock.depth) :
    exec .unlock s = .next { unlocked s with ret := .none } :=
  congrArg (Res.outcome fun _ => .none) (unlock_eq h hd)

theorem exec_unlock_refused {s : State} (h : s.lock.owner ≠ some s.me ∨ s.lock.depth = 0) :
    exec .unlock s = .refused .unlockByNonOwner :=
  congrArg (Res.outcome fun _ => .none) (unlock_refused h)

/-- Settles O16: the owner's `Unlock` is `unlocked`, which in a quiet state is one depth less and one event more; any other
`Unlock` is refused. -/
theorem unlockReleases : Obligations.UnlockReleases := by
  unfold Obligations.UnlockReleases
  refine fun s => ⟨fun hq howner hdepth => ?_, exec_unlock_refused⟩
  rw [exec_unlock_owner howner hdepth, unlocked_quiet hq, lockReleased_owner howner]

end Sys2Proof.Machine
end

section
/-! SUPPORT. The decoder and the encoder (30_encoding.md): what each reader gives on an encoded word, what it accepts, and what it
refuses. -/

namespace Sys2Proof

set_option Elab.async false

/-! ### Reading an encoded word -/

/-- A frame is read back once its first byte names its command and the bytes after it are told apart. -/
theorem decodeFrame_encodeFrame {b0 : Byte} {arg : U32} {i : Instr} {tail rest : List Byte}
    (hstart : b0.extractLsb' 6 2 = 0b01#2) (hi : frameInstr b0 arg = .ok i) (ha : afterFrame b0 tail = .ok rest) :
    decodeFrame (encodeFrame b0 arg ++ tail) = .ok (i, rest) := by
  simp only [encodeFrame, u32Bytes, List.cons_append, List.nil_append, decodeFrame, u32Of_u32Bytes]
  simp [hstart, hi, ha]

theorem decodeResponse_r1 (r : BitVec 7) : decodeResponse (0#1 ++ r) = .r1 r := by
  revert r
  decide

theorem decodeResponse_noResponse (x : BitVec 7) : decodeResponse (1#1 ++ x) = .noResponse x := by
  revert x
  decide

theorem decodeDataResponse_accepted (x : BitVec 3) :
    decodeDataResponse (x ++ 0b00101#5) = .ok (.dataResponseAccepted x) := by
  revert x
  decide

theorem decodeRange_u32Bytes (f : U32 → U32 → Instr) (a b : U32) (rest : List Byte) :
    decodeRange f (u32Bytes a ++ u32Bytes b ++ rest) = .ok (f a b, rest) := by
  simp [u32Bytes, decodeRange, u32Of_u32Bytes]

theorem decodeBlockCall_u32Bytes (f : U32 → U32 → U32 → Instr) (a b c : U32) (rest : List Byte) :
    decodeBlockCall f (u32Bytes a ++ u32Bytes b ++ u32Bytes c ++ rest) = .ok (f a b c, rest) := by
  simp [u32Bytes, decodeBlockCall, u32Of_u32Bytes]

theorem decodeLocLen_encode (f : Loc → BitVec 16 → Instr) (l : Loc) (len : BitVec 16) (rest : List Byte) :
    decodeLocLen f (encodeLoc l ++ u16Bytes len ++ rest) = .ok (f l len, rest) := by
  rw [List.append_assoc, decodeLocLen, decodeLoc_encodeLoc]
  simp [u16Bytes, u16Of_u16Bytes]

/-- A code that is none of the four known ones stays an operand (R113). -/
theorem decodeIoctl_unknown {code : Byte} (h : knownIoctlCode code = false) (rest : List Byte) :
    decodeIoctl code rest = .ok (.ioctlUnknown code, rest) := by
  have hne : code ≠ 0#8 ∧ code ≠ 1#8 ∧ code ≠ 3#8 ∧ code ≠ 4#8 := by simpa [knownIoctlCode, and_assoc] using h
  obtain ⟨h0, h1, h3, h4⟩ := hne
  unfold decodeIoctl
  split
  case h_1 e => exact absurd (BitVec.eq_of_toNat_eq e) h0
  case h_2 e => exact absurd (BitVec.eq_of_toNat_eq e) h1
  case h_3 e => exact absurd (BitVec.eq_of_toNat_eq e) h3
  case h_4 e => exact absurd (BitVec.eq_of_toNat_eq e) h4
  case h_5 => rfl

/-- Every instruction is read back from its word; only the unknown-code row needs its operand to be no known code. -/
theorem decodeRaw_encode (i : Instr) (rest : List Byte) (h : i.wellFormed = true) :
    decodeRaw (slotOf i) (encode i ++ rest) = .ok (i, rest) := by
  cases i with
  | cmd0 | cmd1 | cmd8 | cmd9 | acmd13 | cmd16 | cmd17 | acmd23 | cmd24 | cmd25 | cmd32 | cmd33 | cmd38 | acmd41 | cmd55
  | cmd58 =>
    simp only [slotOf, encode, decodeRaw]
    exact decodeFrame_encodeFrame (by decide) rfl rfl
  | cmd12 arg =>
    show decodeFrame (encodeFrame 0x4C#8 arg ++ [0xFF#8] ++ rest) = _
    rw [List.append_assoc]
    exact decodeFrame_encodeFrame (by decide) rfl rfl
  | r1 r => exact congrArg (fun j => Except.ok (j, rest)) (decodeResponse_r1 r)
  | noResponse x => exact congrArg (fun j => Except.ok (j, rest)) (decodeResponse_noResponse x)
  | dataResponseAccepted x =>
    simp only [encode, slotOf, decodeRaw, List.cons_append, List.nil_append, decodeByte, decodeDataResponse_accepted]
  | read buf sector count => exact decodeBlockCall_u32Bytes .read buf sector count rest
  | write buf sector count => exact decodeBlockCall_u32Bytes .write buf sector count rest
  | ioctl code start stop => exact decodeRange_u32Bytes (.ioctl code) start stop rest
  | ioctlEraseSector start stop => exact decodeRange_u32Bytes .ioctlEraseSector start stop rest
  | ioctlUnknown code => exact decodeIoctl_unknown (by simpa [Instr.wellFormed] using h) rest
  | waitReady ms => exact congrArg (fun v => Except.ok (Instr.waitReady v, rest)) (u32Of_u32Bytes ms)
  | sendCommand index arg => exact congrArg (fun v => Except.ok (Instr.sendCommand index v, rest)) (u32Of_u32Bytes arg)
  | sendDataBlock off token =>
    refine congrArg (fun v => Except.ok (Instr.sendDataBlock v token, rest)) ?_
    rw [u32Of_u32Bytes, u32Of_u32Bytes, u64Of_halves]
  | receiveDataBlock dest len => exact decodeLocLen_encode .receiveDataBlock dest len rest
  | startTransfer dir loc len =>
    cases dir with
    | out => exact decodeLocLen_encode (.startTransfer .out) loc len rest
    | inp => exact decodeLocLen_encode (.startTransfer .inp) loc len rest
  | tokenSingle | tokenMulti | tokenStop | dataStart | dummy | crcPlaceholder | ready | initCard | status | ioctlSync
  | ioctlGetSectorCount | ioctlGetBlockSize | xchg | select | deselect | lock | unlock | waitForTransfer | refreshInputs => rfl

/-- Settles O2: the raw reader gives the instruction back, and its well-formedness is the check that follows. -/
theorem encodeThenDecode : Obligations.EncodeThenDecode := by
  unfold Obligations.EncodeThenDecode
  intro i rest h
  rw [decode, decodeRaw_encode i rest h]
  exact if_pos h

/-! ### What a reader accepts -/

/-- The bytes begin with the word of `i`, which belongs to the slot, and go on with `rest`; of the stop-transmission frame only
the first six bytes are fixed (30_encoding.md R96; log 32). -/
def readsWord (slot : Slot) (bytes rest : List Byte) (i : Instr) : Prop :=
  slotOf i = slot ∧ ∃ word, bytes = word ++ rest ∧ word.length = (encode i).length ∧
    (word = encode i ∨ ((∃ arg, i = .cmd12 arg) ∧ word.take 6 = (encode i).take 6))

theorem readsWord_of_encode {slot : Slot} {bytes rest : List Byte} {i : Instr} (hs : slotOf i = slot)
    (h : bytes = encode i ++ rest) : readsWord slot bytes rest i := ⟨hs, encode i, h, rfl, .inl rfl⟩

theorem eq_ofNat_of_toNat {b : Byte} {n : Nat} (h : b.toNat = n) : b = BitVec.ofNat 8 n := by
  rw [← h, BitVec.ofNat_toNat, BitVec.setWidth_eq]

/-- A first byte of the command map names the command whose word begins with it. -/
theorem frameInstr_ok {b0 : Byte} {arg : U32} {i : Instr} (h : frameInstr b0 arg = .ok i) :
    slotOf i = .frame ∧ encode i = encodeFrame b0 arg ++ (if b0 = 0x4C#8 then [0xFF#8] else []) ∧
      (b0 = 0x4C#8 → i = .cmd12 arg) := by
  unfold frameInstr at h
  split at h <;> cases h
  all_goals
    rename_i e
    obtain rfl := eq_ofNat_of_toNat e
    exact ⟨rfl, rfl, by simp⟩

theorem afterFrame_ok {b0 : Byte} {tail rest : List Byte} (h : afterFrame b0 tail = .ok rest) :
    (b0 ≠ 0x4C#8 ∧ tail = rest) ∨ (b0 = 0x4C#8 ∧ ∃ x, tail = x :: rest) := by
  unfold afterFrame at h
  split at h
  next hb =>
    cases tail with
    | nil => cases h
    | cons x r => cases h; exact .inr ⟨hb, x, rfl⟩
  next hb => cases h; exact .inl ⟨hb, rfl⟩

theorem decodeFrame_reads {bytes rest : List Byte} {i : Instr} (h : decodeFrame bytes = .ok (i, rest)) :
    readsWord .frame bytes rest i := by
  unfold decodeFrame at h
  split at h
  case h_2 => cases h
  case h_1 b0 a b c d t tail =>
    split at h
    · cases h
    split at h
    · cases h
    next j hj =>
    split at h
    · cases h
    next ht =>
    have ht : t = frameTrailer b0 := not_not.1 ht
    split at h
    · cases h
    next r hr =>
    cases h
    obtain ⟨hs, he, h12⟩ := frameInstr_ok hj
    have hbytes : ∀ l, b0 :: a :: b :: c :: d :: t :: l = encodeFrame b0 (u32Of a b c d) ++ l := by
      intro l
      rw [encodeFrame, u32Bytes_u32Of, ht]
      rfl
    rcases afterFrame_ok hr with ⟨hb, rfl⟩ | ⟨hb, x, rfl⟩
    · rw [if_neg hb, List.append_nil] at he
      exact readsWord_of_encode hs (by rw [hbytes, he])
    · refine ⟨hs, encodeFrame b0 (u32Of a b c d) ++ [x], by rw [hbytes, List.append_assoc]; rfl, ?_, .inr ⟨⟨_, h12 hb⟩, ?_⟩⟩
      · rw [he, if_pos hb]
        rfl
      · rw [he]
        rfl

theorem decodeByte_ok {f : Byte → Except DecodeError Instr} {bytes rest : List Byte} {i : Instr}
    (h : decodeByte f bytes = .ok (i, rest)) : ∃ b, bytes = b :: rest ∧ f b = .ok i := by
  unfold decodeByte at h
  cases bytes with
  | nil => cases h
  | cons b t =>
    cases hf : f b with
    | error e => simp [hf] at h
    | ok j =>
      simp only [hf] at h
      cases h
      exact ⟨b, rfl, hf⟩

/-- A one-byte slot whose reader only gives instructions that have this byte as their word. -/
theorem decodeByte_reads {slot : Slot} {f : Byte → Except DecodeError Instr} {bytes rest : List Byte} {i : Instr}
    (hf : ∀ b j, f b = .ok j → slotOf j = slot ∧ encode j = [b]) (h : decodeByte f bytes = .ok (i, rest)) :
    readsWord slot bytes rest i := by
  obtain ⟨b, rfl, hb⟩ := decodeByte_ok h
  obtain ⟨hs, he⟩ := hf b i hb
  exact readsWord_of_encode hs (by rw [he]; rfl)

theorem decodeToken_ok {b : Byte} {i : Instr} (h : decodeToken b = .ok i) : slotOf i = .token ∧ encode i = [b] := by
  unfold decodeToken at h
  split at h <;> cases h
  all_goals
    rename_i e
    obtain rfl := eq_ofNat_of_toNat e
    exact ⟨rfl, rfl⟩

theorem decodeResponse_word (b : Byte) :
    slotOf (decodeResponse b) = .responsePoll ∧ encode (decodeResponse b) = [b] := by
  revert b
  decide

theorem decodeDataResponse_ok {b : Byte} {i : Instr} (h : decodeDataResponse b = .ok i) :
    slotOf i = .dataResponse ∧ encode i = [b] := by
  have key : ∀ b : Byte, b &&& 0x1F#8 = 0x05#8 → b.extractLsb' 5 3 ++ 0b00101#5 = b := by decide
  unfold decodeDataResponse at h
  split at h <;> cases h
  exact ⟨rfl, congrArg (fun x => [x]) (key b ‹_›)⟩

/-- A slot that accepts one byte value alone. -/
theorem onlyByte_ok {v b : Byte} {i j : Instr} {e : DecodeError} {slot : Slot} (hs : slotOf j = slot) (he : encode j = [v])
    (h : (if b = v then .ok j else .error e : Except DecodeError Instr) = .ok i) : slotOf i = slot ∧ encode i = [b] := by
  split at h <;> cases h
  next hb => exact ⟨hs, by rw [he, hb]⟩

theorem decodeRange_ok {f : U32 → U32 → Instr} {bytes rest : List Byte} {i : Instr} (h : decodeRange f bytes = .ok (i, rest)) :
    ∃ x y, i = f x y ∧ bytes = u32Bytes x ++ u32Bytes y ++ rest := by
  unfold decodeRange at h
  split at h <;> cases h
  exact ⟨_, _, rfl, by rw [u32Bytes_u32Of, u32Bytes_u32Of]; rfl⟩

theorem decodeBlockCall_ok {f : U32 → U32 → U32 → Instr} {bytes rest : List Byte} {i : Instr}
    (h : decodeBlockCall f bytes = .ok (i, rest)) :
    ∃ x y z, i = f x y z ∧ bytes = u32Bytes x ++ u32Bytes y ++ u32Bytes z ++ rest := by
  unfold decodeBlockCall at h
  split at h <;> cases h
  exact ⟨_, _, _, rfl, by rw [u32Bytes_u32Of, u32Bytes_u32Of, u32Bytes_u32Of]; rfl⟩

theorem decodeLoc_ok {bytes rest : List Byte} {l : Loc} (h : decodeLoc bytes = .ok (l, rest)) : bytes = encodeLoc l ++ rest := by
  unfold decodeLoc at h
  split at h
  case h_2 => cases h
  case h_1 t tail =>
    split at h
    case h_3 => cases h
    case h_2 e =>
      obtain rfl := eq_ofNat_of_toNat e
      cases h
      rfl
    case h_1 e =>
      obtain rfl := eq_ofNat_of_toNat e
      split at h <;> cases h
      rw [encodeLoc, u64Bytes_u64Of, u32Bytes_u32Of, u32Bytes_u32Of]
      rfl

theorem decodeLocLen_ok {f : Loc → BitVec 16 → Instr} {bytes rest : List Byte} {i : Instr}
    (h : decodeLocLen f bytes = .ok (i, rest)) :
    ∃ l len, i = f l len ∧ bytes = encodeLoc l ++ u16Bytes len ++ rest := by
  unfold decodeLocLen at h
  split at h <;> cases h
  rename_i l a b hl
  exact ⟨l, _, rfl, by rw [decodeLoc_ok hl, u16Bytes_u16Of, List.append_assoc]; rfl⟩

theorem decodeDir_ok {b : Byte} {d : Dir} (h : decodeDir b = .ok d) : b = encodeDir d := by
  unfold decodeDir at h
  split at h <;> cases h
  all_goals exact eq_ofNat_of_toNat ‹_›

theorem decodeIoctl_reads {code : Byte} {tail rest : List Byte} {i : Instr} (h : decodeIoctl code tail = .ok (i, rest)) :
    readsWord .host (4#8 :: code :: tail) rest i := by
  unfold decodeIoctl at h
  split at h
  case h_5 => cases h; exact readsWord_of_encode rfl rfl
  all_goals
    rename_i e
    obtain rfl := eq_ofNat_of_toNat e
  case h_4 =>
    obtain ⟨x, y, rfl, rfl⟩ := decodeRange_ok h
    exact readsWord_of_encode rfl rfl
  all_goals
    cases h
    exact readsWord_of_encode rfl rfl

theorem decodeHost_reads {bytes rest : List Byte} {i : Instr} (h : decodeHost bytes = .ok (i, rest)) :
    readsWord .host bytes rest i := by
  unfold decodeHost at h
  split at h
  case h_2 => cases h
  case h_1 op tail =>
    split at h
    case h_6 => cases h
    all_goals
      rename_i e
      obtain rfl := eq_ofNat_of_toNat e
    case h_1 => cases h; exact readsWord_of_encode rfl rfl
    case h_2 => cases h; exact readsWord_of_encode rfl rfl
    case h_3 =>
      obtain ⟨x, y, z, rfl, rfl⟩ := decodeBlockCall_ok h
      exact readsWord_of_encode rfl rfl
    case h_4 =>
      obtain ⟨x, y, z, rfl, rfl⟩ := decodeBlockCall_ok h
      exact readsWord_of_encode rfl rfl
    case h_5 =>
      cases tail with
      | nil => cases h
      | cons code r => exact decodeIoctl_reads h

theorem decodeIoctlEntry_reads {bytes rest : List Byte} {i : Instr} (h : decodeIoctlEntry bytes = .ok (i, rest)) :
    readsWord .ioctlEntry bytes rest i := by
  unfold decodeIoctlEntry at h
  split at h
  case h_2 => cases h
  case h_1 op code tail =>
    split at h
    · rename_i e
      obtain ⟨x, y, rfl, rfl⟩ := decodeRange_ok h
      exact readsWord_of_encode rfl (by rw [e]; rfl)
    · cases h

theorem decodePrimitive_reads {bytes rest : List Byte} {i : Instr} (h : decodePrimitive bytes = .ok (i, rest)) :
    readsWord .primitive bytes rest i := by
  unfold decodePrimitive at h
  split at h
  case h_2 => cases h
  case h_1 p tail =>
    split at h
    case h_13 => cases h
    all_goals
      rename_i e
      obtain rfl := eq_ofNat_of_toNat e
    case h_1 => split at h <;> cases h; exact readsWord_of_encode rfl rfl
    case h_4 => split at h <;> cases h; exact readsWord_of_encode rfl (by simp [encode, u32Bytes_u32Of])
    case h_5 => split at h <;> cases h; exact readsWord_of_encode rfl (by simp [encode, u32Bytes_u32Of])
    case h_6 => split at h <;> cases h; exact readsWord_of_encode rfl (by simp [encode, u64Bytes_u64Of, u32Bytes_u32Of])
    case h_7 =>
      obtain ⟨l, len, rfl, rfl⟩ := decodeLocLen_ok h
      exact readsWord_of_encode rfl rfl
    case h_10 =>
      split at h
      case h_2 => cases h
      case h_1 d r =>
        split at h
        · cases h
        · rename_i dir hd
          obtain ⟨l, len, rfl, rfl⟩ := decodeLocLen_ok h
          exact readsWord_of_encode rfl (by rw [decodeDir_ok hd]; rfl)
    all_goals
      cases h
      exact readsWord_of_encode rfl rfl

theorem decodeRaw_reads {slot : Slot} {bytes rest : List Byte} {i : Instr} (h : decodeRaw slot bytes = .ok (i, rest)) :
    readsWord slot bytes rest i := by
  cases slot with
  | frame => exact decodeFrame_reads h
  | token => exact decodeByte_reads (fun _ _ => decodeToken_ok) h
  | filler => exact decodeByte_reads (fun _ _ => onlyByte_ok (j := .dummy) rfl rfl) h
  | crcField => exact decodeByte_reads (fun _ _ => onlyByte_ok (j := .crcPlaceholder) rfl rfl) h
  | responsePoll => exact decodeByte_reads (f := fun b => .ok (decodeResponse b)) (fun b j hj => by cases hj; exact decodeResponse_word b) h
  | dataResponse => exact decodeByte_reads (fun _ _ => decodeDataResponse_ok) h
  | readyPoll => exact decodeByte_reads (fun _ _ => onlyByte_ok (j := .ready) rfl rfl) h
  | tokenPoll => exact decodeByte_reads (fun _ _ => onlyByte_ok (j := .dataStart) rfl rfl) h
  | host => exact decodeHost_reads h
  | ioctlEntry => exact decodeIoctlEntry_reads h
  | primitive => exact decodePrimitive_reads h

theorem decode_ok {slot : Slot} {bytes rest : List Byte} {i : Instr} (h : decode slot bytes = .ok (i, rest)) :
    i.wellFormed = true ∧ decodeRaw slot bytes = .ok (i, rest) := by
  unfold decode at h
  split at h
  · cases h
  · split at h <;> cases h
    exact ⟨‹_›, ‹_›⟩

theorem slotOf_decode {slot : Slot} {bytes rest : List Byte} {i : Instr} (h : decode slot bytes = .ok (i, rest)) :
    slotOf i = slot := (decodeRaw_reads (decode_ok h).2).1

/-- Settles O3: each slot's reader takes exactly the word of what it gives. -/
theorem decodedWordIsEncoding : Obligations.DecodedWordIsEncoding := by
  unfold Obligations.DecodedWordIsEncoding
  intro slot bytes rest i h
  obtain ⟨hwf, hraw⟩ := decode_ok h
  exact ⟨hwf, decodeRaw_reads hraw⟩

/-! ### What a reader refuses -/

theorem decode_error {slot : Slot} {bytes : List Byte} {e : DecodeError} (h : decodeRaw slot bytes = .error e) :
    decode slot bytes = .error e := by
  rw [decode, h]

theorem frameInstr_mem {b0 : Byte} {arg : U32} {i : Instr} (h : frameInstr b0 arg = .ok i) :
    b0 ∈ [0x40#8, 0x41#8, 0x48#8, 0x49#8, 0x4C#8, 0x4D#8, 0x50#8, 0x51#8, 0x57#8, 0x58#8, 0x59#8, 0x60#8, 0x61#8, 0x66#8,
      0x69#8, 0x77#8, 0x7A#8] := by
  unfold frameInstr at h
  split at h <;> cases h
  all_goals
    rename_i e
    obtain rfl := eq_ofNat_of_toNat e
    decide

/-- A frame that is read has a first byte of the command map and the trailer of its index. -/
theorem decodeFrame_ok {b0 a b c d t : Byte} {tail rest : List Byte} {i : Instr}
    (h : decodeFrame (b0 :: a :: b :: c :: d :: t :: tail) = .ok (i, rest)) :
    frameInstr b0 (u32Of a b c d) = .ok i ∧ t = frameTrailer b0 := by
  simp only [decodeFrame] at h
  split at h
  · cases h
  split at h
  · cases h
  next j hj =>
  split at h
  · cases h
  next ht =>
  split at h
  · cases h
  cases h
  exact ⟨hj, not_not.1 ht⟩

theorem decodeToken_error {b : Byte} (h : b ∉ [0xFC#8, 0xFD#8, 0xFE#8]) : decodeToken b = .error .badToken := by
  simp only [List.mem_cons, List.not_mem_nil, or_false, not_or] at h
  obtain ⟨hc, hd, he⟩ := h
  unfold decodeToken
  split
  case h_1 k => exact absurd (eq_ofNat_of_toNat k) he
  case h_2 k => exact absurd (eq_ofNat_of_toNat k) hc
  case h_3 k => exact absurd (eq_ofNat_of_toNat k) hd
  case h_4 => rfl

/-- Settles O4: what each reader accepts excludes these words; the named refusals are the readers' last branches. -/
theorem reservedWordsRejected : Obligations.ReservedWordsRejected := by
  unfold Obligations.ReservedWordsRejected
  refine ⟨fun b0 a b c d t rest h => ?frame, fun op rest h => decode_error ?host, fun p rest h => decode_error ?primitive,
    fun b rest h => decode_error ?token⟩
  case frame =>
    cases hd : decode .frame (b0 :: a :: b :: c :: d :: t :: rest) with
    | error e => exact ⟨e, rfl⟩
    | ok r =>
      obtain ⟨hi, ht⟩ := decodeFrame_ok (decode_ok hd).2
      rcases h with hb | ht'
      · exact absurd (frameInstr_mem hi) hb
      · exact absurd ht ht'
  case host =>
    simp only [decodeRaw, decodeHost]
    split
    case h_6 => rfl
    all_goals omega
  case primitive =>
    simp only [decodeRaw, decodePrimitive]
    split
    case h_13 => rfl
    all_goals omega
  case token =>
    simp [decodeRaw, decodeByte, decodeToken_error h]

/-! ### Table words -/

/-- Settles O1: ten closed words, each by running the decoder. -/
theorem tableWordsDecode : Obligations.TableWordsDecode := by
  unfold Obligations.TableWordsDecode
  decide

end Sys2Proof
end

section
/-! SUPPORT. What calls of other threads and the sampling of the inputs leave alone: the frame of everything that happens before
a call has the lock (45_guard_status.md R294, R302), and that none of it is an event of the calling thread. -/

namespace Sys2Proof.Machine

set_option Elab.async false

open Sys2Proof

/-- Only events that are not the calling thread's own have been added. -/
def foreign (s t : State) : Prop := t.me = s.me ∧ ∃ new, t.events = new ++ s.events ∧ ∀ e ∈ new, e.own s.me = false

theorem foreign.same {s t : State} (hm : t.me = s.me) (he : t.events = s.events) : foreign s t := ⟨hm, [], he, by simp⟩

theorem foreign.refl (s : State) : foreign s s := foreign.same rfl rfl

theorem foreign.trans {s t u : State} (h : foreign s t) (k : foreign t u) : foreign s u := by
  obtain ⟨hm, new, he, hn⟩ := h
  obtain ⟨km, more, ke, kn⟩ := k
  refine ⟨km.trans hm, more ++ new, by rw [ke, he, List.append_assoc], fun e h => ?_⟩
  rcases List.mem_append.1 h with h | h
  · exact hm ▸ kn e h
  · exact hn e h

theorem foreign.one {s t : State} {e : Event} (hm : t.me = s.me) (he : t.events = e :: s.events) (ho : e.own s.me = false) :
    foreign s t := ⟨hm, [e], he, by simpa using ho⟩

/-- The list of the thread's own events is unchanged. -/
theorem foreign.filter {s t : State} (h : foreign s t) :
    t.events.filter (Event.own s.me) = s.events.filter (Event.own s.me) := by
  obtain ⟨-, new, he, hn⟩ := h
  rw [he, List.filter_append, List.filter_eq_nil_iff.2 (fun e h => by simp [hn e h]), List.nil_append]

theorem Event.sent_of_not_own {thread : Nat} {e : Event} (h : e.own thread = false) : e.sent = none := by
  cases e <;> first | rfl | simp [Event.own] at h

/-- No byte has gone out. -/
theorem foreign.sent {s t : State} (h : foreign s t) : t.sent = s.sent := by
  obtain ⟨-, new, he, hn⟩ := h
  have hnil : new.reverse.filterMap Event.sent = [] := List.filterMap_eq_nil_iff.2 fun e he =>
    Event.sent_of_not_own (hn e (List.mem_reverse.1 he))
  rw [State.sent, he, List.reverse_append, List.filterMap_append, hnil, List.append_nil]
  rfl

theorem readCd_foreign (s : State) : foreign s (readCd s) := by
  unfold readCd
  split
  · exact foreign.one rfl rfl rfl
  · exact foreign.refl s

theorem readWp_foreign (s : State) : foreign s (readWp s) := by
  unfold readWp
  split
  · exact foreign.one rfl rfl rfl
  · exact foreign.refl s

theorem otherReturns_foreign {t : Nat} {v : HostReturn} {s : State} (h : t ≠ s.me) : foreign s (otherReturns t v s) :=
  foreign.one rfl rfl (by simpa [Event.own] using h)

theorem earlyStatement_foreign {e : Early} {s : State} (h : e.thread ≠ s.me) : foreign s (earlyStatement e s) := by
  unfold earlyStatement
  split
  · exact (readCd_foreign s).trans (foreign.same rfl rfl)
  · exact (readWp_foreign s).trans (foreign.same rfl rfl)
  · unfold endOfEarly
    have hend : ∀ v, foreign s (otherReturns e.thread v (endEarly e.thread s)) := fun v =>
      (foreign.same rfl rfl).trans (otherReturns_foreign h)
    split
    · exact hend _
    · split
      · exact hend _
      · exact foreign.same rfl rfl

theorem otherMove_foreign (v : OtherMove) (s : State) : foreign s (otherMove v s) := by
  cases v with
  | call t c =>
    simp only [otherMove]
    split
    · split <;> exact foreign.same rfl rfl
    · exact foreign.refl s
  | go t =>
    simp only [otherMove]
    split
    next e he =>
      obtain ⟨rfl, hne⟩ : e.thread = t ∧ t ≠ s.me := by simpa using List.find?_some he
      exact earlyStatement_foreign hne
    next => exact foreign.refl s

theorem otherMoves_foreign (vs : List OtherMove) (s : State) : foreign s (otherMoves vs s) := by
  induction vs generalizing s with
  | nil => exact foreign.refl s
  | cons v vs ih => exact (otherMove_foreign v s).trans (ih _)

theorem takeOthers_foreign (s : State) : foreign s (takeOthers s) := by
  unfold takeOthers
  split
  · exact foreign.refl s
  · exact (foreign.same rfl rfl).trans (otherMoves_foreign _ _)

theorem meanwhile_foreign (s : State) : foreign s (meanwhile s) := ⟨rfl, (takeOthers_foreign s).2⟩

/-! ### Before the lock -/

/-- What a call may change before it has the lock, apart from what it returns: the sampled status bits, the inputs, and what other
threads write. -/
def beforeLock (s t : State) : Prop :=
  t = { s with
    status := { s.status with noDisk := t.status.noDisk, writeProtected := t.status.writeProtected }
    cd := t.cd, wp := t.wp, events := t.events, hostOut := t.hostOut, waiters := t.waiters, early := t.early, others := t.others }
    ∧ (∃ new, t.waiters = s.waiters ++ new) ∧ foreign s t

theorem beforeLock.trans {s t u : State} (h : beforeLock s t) (k : beforeLock t u) : beforeLock s u := by
  refine ⟨?_, moreWaiters h.2.1 k.2.1, h.2.2.trans k.2.2⟩
  rw [k.1, h.1]

theorem meanwhile_beforeLock (s : State) : beforeLock s (meanwhile s) :=
  ⟨rfl, (meanwhile_heard s).1, meanwhile_foreign s⟩

theorem readCd_beforeLock (s : State) : beforeLock s (readCd s) := by
  refine ⟨?_, sameWaiters ?_, readCd_foreign s⟩
  all_goals
    unfold readCd
    split <;> rfl

theorem readWp_beforeLock (s : State) : beforeLock s (readWp s) := by
  refine ⟨?_, sameWaiters ?_, readWp_foreign s⟩
  all_goals
    unfold readWp
    split <;> rfl

theorem setInputs_beforeLock (d w : Bool) (s : State) :
    beforeLock s { s with status := { s.status with noDisk := d, writeProtected := w } } :=
  ⟨rfl, sameWaiters rfl, foreign.same rfl rfl⟩

theorem cardPresent_beforeLock (s : State) : beforeLock s (cardPresent s).2 :=
  (meanwhile_beforeLock s).trans (readCd_beforeLock _)

theorem wpActive_beforeLock (s : State) : beforeLock s (wpActive s).2 := (meanwhile_beforeLock s).trans (readWp_beforeLock _)

theorem refreshInputs_beforeLock (s : State) : beforeLock s (refreshInputs s).2 :=
  ((cardPresent_beforeLock s).trans (setInputs_beforeLock _ _ _)).trans
    ((wpActive_beforeLock _).trans (setInputs_beforeLock _ _ _))

theorem beforeLock.me {s t : State} (h : beforeLock s t) : t.me = s.me := by rw [h.1]
theorem beforeLock.lock {s t : State} (h : beforeLock s t) : t.lock = s.lock := by rw [h.1]
theorem beforeLock.cs {s t : State} (h : beforeLock s t) : t.cs = s.cs := by rw [h.1]
theorem beforeLock.seq {s t : State} (h : beforeLock s t) : t.seq = s.seq := by rw [h.1]
theorem beforeLock.contend {s t : State} (h : beforeLock s t) : t.contend = s.contend := by rw [h.1]
theorem beforeLock.requests {s t : State} (h : beforeLock s t) : t.requests = s.requests := by rw [h.1]

/-! ### The two kinds of instruction -/

/-- A host call that needs the lock runs as `hostCall` of its call; `status` is the one that needs none. -/
theorem exec_hostSlot {i : Instr} (h : isHostSlot (slotOf i) = true) :
    i = .status ∨ ∃ c, c ≠ .bareLock ∧ (c = .initCard ↔ i = .initCard) ∧ ∀ s, exec i s = hostCall c s := by
  cases i
  case status => exact .inl rfl
  case initCard => exact .inr ⟨.initCard, by simp, by simp, fun _ => rfl⟩
  case read b s c => exact .inr ⟨.read b s c, by simp, by simp, fun _ => rfl⟩
  case write b s c => exact .inr ⟨.write b s c, by simp, by simp, fun _ => rfl⟩
  case ioctl c a b => exact .inr ⟨.ioctl c a b, by simp, by simp, fun _ => rfl⟩
  case ioctlSync => exact .inr ⟨.ioctl 0#8 0#32 0#32, by simp, by simp, fun _ => rfl⟩
  case ioctlGetSectorCount => exact .inr ⟨.ioctl 1#8 0#32 0#32, by simp, by simp, fun _ => rfl⟩
  case ioctlGetBlockSize => exact .inr ⟨.ioctl 3#8 0#32 0#32, by simp, by simp, fun _ => rfl⟩
  case ioctlEraseSector a b => exact .inr ⟨.ioctl 4#8 a b, by simp, by simp, fun _ => rfl⟩
  case ioctlUnknown c => exact .inr ⟨.ioctl c 0#32 0#32, by simp, by simp, fun _ => rfl⟩
  all_goals cases h

/-- The lock as a call that gets it finds it: free, or its own. -/
def lockable (s : State) : Prop := s.lock.owner = some s.me ∨ s.lock.owner = none

theorem lockRace_cases (s : State) : ∃ f, (lockRace s).2 = { s with contend := f } ∧ (s.lock.owner ≠ none → f = s.contend)
    ∧ ((lockRace s).1 = true → lockable s) := by
  unfold lockRace
  split
  · next ho => exact ⟨s.contend, rfl, fun _ => rfl, fun _ => .inl ho⟩
  · split
    · next ho => exact ⟨s.contend.pop.2, rfl, fun hn => absurd ho hn, fun _ => .inr ho⟩
    · exact ⟨s.contend, rfl, fun _ => rfl, fun h => by cases h⟩

/-- A host call returns early, waits for the lock, or gets it and runs its body. -/
theorem hostCall_cases {c : Call} {s t : State} (h : hostCall c s = .next t) :
    (∃ v u, t = returnToHost v (enterOwn (checkPlace c) u) ∧ beforeLock s u) ∨
      (∃ u f, t = addWaiter ⟨u.me, c⟩ { u with contend := f } ∧ beforeLock s u
        ∧ (s.lock.owner ≠ none → f = s.contend)) ∨
      ∃ u f, lockedBody c (takeLock c { u with contend := f }) = .next t ∧ beforeLock s u ∧ lockable u := by
  have hu := refreshInputs_beforeLock s
  rcases hostCall_next h with ⟨v, -, rfl⟩ | ⟨-, h⟩
  · exact .inl ⟨v, _, rfl, hu⟩
  generalize (refreshInputs s).2 = u at h hu
  obtain ⟨f, hf, hc, hl⟩ := lockRace_cases u
  rcases lockThen_next h with ⟨-, rfl⟩ | ⟨hr, h⟩
  · exact .inr (.inl ⟨u, f, by rw [hf], hu, fun hn => (hc (hu.lock ▸ hn)).trans hu.contend⟩)
  · exact .inr (.inr ⟨u, f, hf ▸ h, hu, hl hr⟩)

/-- The statements of the sequencer that need no lock of their own. -/
theorem not_needsLock {i : Instr} (h : needsLock i = false) :
    isHostSlot (slotOf i) = true ∨ i = .lock ∨ i = .unlock ∨ i = .refreshInputs := by
  simp only [needsLock, Bool.and_eq_false_iff, Bool.not_eq_false', bne_eq_false_iff_eq] at h
  tauto

end Sys2Proof.Machine
end

section
/-! SUPPORT. Who writes the card record, and the invariant of every step (10_state.md R21 to R37; 45_guard_status.md R303). -/

namespace Sys2Proof.Machine

set_option Elab.async false

open Sys2Proof

/-! ### What an instruction keeps -/

/-- The parameters, the card record, NotInitialized and the speed selector are as before. -/
def keepsCard (s t : State) : Prop :=
  t.cfg = s.cfg ∧ t.card = s.card ∧ t.status.notInitialized = s.status.notInitialized ∧ t.speedSel = s.speedSel

theorem keepsCard.trans {s t u : State} (h : keepsCard s t) (k : keepsCard t u) : keepsCard s u := by
  obtain ⟨h1, h2, h3, h4⟩ := h
  obtain ⟨k1, k2, k3, k4⟩ := k
  exact ⟨k1.trans h1, k2.trans h2, k3.trans h3, k4.trans h4⟩

/-- What a statement of the sequencer keeps: also the lock, and the data part of the invariant. -/
def keeps (s t : State) : Prop := keepsCard s t ∧ t.lock = s.lock ∧ t.me = s.me ∧ (DataInv s → DataInv t)

theorem ioStep.keeps {s t : State} (h : ioStep s t) : keeps s t := by
  obtain ⟨⟨hf, -⟩, hs⟩ := h
  exact ⟨⟨by rw [hf], by rw [hf], by rw [hf], by rw [hf]⟩, by rw [hf], by rw [hf], hs.data⟩

theorem bodyStep.keeps {s t : State} (h : bodyStep s t) : keeps s t := by
  obtain ⟨⟨hf, -⟩, hs⟩ := h
  exact ⟨⟨by rw [hf], by rw [hf], by rw [hf], by rw [hf]⟩, by rw [hf], by rw [hf], hs.data⟩

theorem callStep.card {s t : State} (h : callStep s t) : keepsCard s t := by
  obtain ⟨⟨hf, -⟩, -⟩ := h
  exact ⟨by rw [hf], by rw [hf], by rw [hf], by rw [hf]⟩

theorem beforeLock.card {s t : State} (h : beforeLock s t) : keepsCard s t := by
  obtain ⟨hf, -⟩ := h
  exact ⟨by rw [hf], by rw [hf], by rw [hf], by rw [hf]⟩

theorem outcome_keeps {α : Type} {f : α → RetVal} {x : Res α} {s t : State} (hx : x.All (keeps s))
    (h : Res.outcome f x = .next t) : keeps s t := by
  rcases Res.outcome_next h with ⟨a, u, rfl, rfl⟩ | ⟨w, u, rfl, rfl⟩ <;> exact hx

theorem Res.all_io {α : Type} {R : State → State → Prop} {x : Res α} {s : State} (hx : x.All (R s))
    (h : ∀ u, R s u → ioStep s u) : x.All (keeps s) := Res.all_mono hx fun u hu => (h u hu).keeps

theorem Res.all_body {α : Type} {R : State → State → Prop} {x : Res α} {s : State} (hx : x.All (R s))
    (h : ∀ u, R s u → bodyStep s u) : x.All (keeps s) := Res.all_mono hx fun u hu => (h u hu).keeps

theorem receiveResponse_step (b : Byte) (s : State) : (receiveResponse b s).All (commandStep s) :=
  (emit_step _ s).command.trans (takeResponse_step b _)

/-- Every statement that needs the lock keeps the card record, the lock and the data part of the invariant. -/
theorem exec_keeps {i : Instr} {s t : State} (hi : needsLock i = true) (h : exec i s = .next t) : keeps s t := by
  cases i with
  | cmd0 arg => exact outcome_keeps (Res.all_io (cmd0_step arg s) fun _ => commandStep.io) h
  | cmd1 arg => exact outcome_keeps (Res.all_io (cmd1_step arg s) fun _ => commandStep.io) h
  | cmd8 arg => exact outcome_keeps (Res.all_body (cmd8_step arg s) fun _ => trailingStep.body) h
  | cmd9 arg => exact outcome_keeps (Res.all_io (cmd9_step arg s) fun _ => inpStep.io) h
  | cmd12 arg => exact outcome_keeps (Res.all_io (cmd12_step arg s) fun _ => commandStep.io) h
  | acmd13 arg => exact outcome_keeps (Res.all_io (acmd13_step arg s) fun _ => inpStep.io) h
  | cmd16 arg => exact outcome_keeps (Res.all_io (cmd16_step arg s) fun _ => commandStep.io) h
  | cmd17 arg => exact outcome_keeps (Res.all_io (cmd17_step arg s) fun _ => inpStep.io) h
  | acmd23 arg => exact outcome_keeps (Res.all_io (acmd23_step arg s) fun _ => commandStep.io) h
  | cmd24 arg => exact outcome_keeps (Res.all_io (cmd24_step arg s) fun _ => outStep.io) h
  | cmd25 arg => exact outcome_keeps (Res.all_io (cmd25_step arg s) fun _ => outStep.io) h
  | cmd32 arg => exact outcome_keeps (Res.all_io (cmd32_step arg s) fun _ => commandStep.io) h
  | cmd33 arg => exact outcome_keeps (Res.all_io (cmd33_step arg s) fun _ => commandStep.io) h
  | cmd38 arg => exact outcome_keeps (Res.all_io (cmd38_step arg s) fun _ => commandStep.io) h
  | acmd41 arg => exact outcome_keeps (Res.all_io (acmd41_step arg s) fun _ => commandStep.io) h
  | cmd55 arg => exact outcome_keeps (Res.all_io (cmd55_step arg s) fun _ => commandStep.io) h
  | cmd58 arg => exact outcome_keeps (Res.all_body (cmd58_step arg s) fun _ => trailingStep.body) h
  | tokenSingle | tokenMulti | tokenStop | crcPlaceholder =>
    exact outcome_keeps (f := fun _ => .none) (x := .ok () _) (send_step _ s).body.keeps h
  | dummy | xchg => exact outcome_keeps (x := .ok _ _) (xchg_step _ s).body.keeps h
  | dataStart =>
    exact outcome_keeps (x := .ok true _) ((emit_step _ s).command.inp.trans (setTok_step dataStartToken _)).io.keeps h
  | r1 | noResponse => exact outcome_keeps (Res.all_io (receiveResponse_step _ s) fun _ => commandStep.io) h
  | dataResponseAccepted | ready => exact outcome_keeps (x := .ok _ _) (emit_step _ s).body.keeps h
  | select => exact outcome_keeps (Res.all_body (select_step s) fun _ => linkStep.body) h
  | deselect => exact outcome_keeps (f := fun _ => .none) (x := .ok () _) (deselect_step s).body.keeps h
  | waitReady ms => exact outcome_keeps (Res.all_body (waitReady_step ms s) fun _ => linkStep.body) h
  | sendCommand idx arg => exact outcome_keeps (Res.all_io (sendCommand_step idx arg s) fun _ => commandStep.io) h
  | sendDataBlock off tk => exact outcome_keeps (Res.all_io (sendDataBlock_step _ tk s) fun _ => outStep.io) h
  | receiveDataBlock d len => exact outcome_keeps (Res.all_io (receiveDataBlock_step _ _ s) fun _ => inpStep.io) h
  | startTransfer d l len => exact outcome_keeps (Res.all_io (startTransfer_out d _ _ s) fun _ => outStep.io) h
  | waitForTransfer => exact outcome_keeps (Res.all_io (waitForTransfer_inp s) fun _ => inpStep.io) h
  | initCard | status | read | write | ioctl | ioctlSync | ioctlGetSectorCount | ioctlGetBlockSize | ioctlEraseSector
  | ioctlUnknown | lock | unlock | refreshInputs => cases hi

/-! ### Host calls -/

theorem enter_keepsCard (q : Seq) (s : State) : keepsCard s (enter q s) := ⟨rfl, rfl, rfl, rfl⟩

theorem enterOwn_card (q : Seq) (s : State) : keepsCard s (enterOwn q s) := by
  unfold enterOwn
  split
  · exact enter_keepsCard q s
  · exact ⟨rfl, rfl, rfl, rfl⟩

theorem returnToHost_card (v : HostReturn) (s : State) : keepsCard s (returnToHost v s) :=
  keepsCard.trans ⟨rfl, rfl, rfl, rfl⟩ (enterOwn_card .idle _)

theorem takeLock_card (c : Call) (s : State) : keepsCard s (takeLock c s) := by
  unfold takeLock
  split
  · exact (grantLock_call s).card
  · exact (enter_keepsCard _ s).trans (grantLock_call _).card

theorem initStep.cfg {s t : State} (h : initStep s t) : t.cfg = s.cfg := by rw [h.1.1]

theorem bodyEnds_card {c : Call} {s t : State} (h : bodyEnds c s t) : t.cfg = s.cfg ∧ (c ≠ .initCard → keepsCard s t) := by
  rcases h with ⟨v, u, rfl, -, -, ⟨hc, hu⟩ | ⟨hc, hu, -⟩⟩ | ⟨w, u, rfl, -, -, ⟨hc, hu⟩ | ⟨hc, hu, -⟩⟩
  · have hk := hu.card.trans (returnToHost_card v u)
    exact ⟨hk.1, fun _ => hk⟩
  · exact ⟨(returnToHost_card v u).1.trans hu.cfg, fun hn => absurd hc hn⟩
  · exact ⟨hu.card.1, fun _ => hu.card⟩
  · exact ⟨hu.cfg, fun hn => absurd hc hn⟩

theorem hostCall_card {c : Call} {s t : State} (hc : c ≠ .bareLock) (h : hostCall c s = .next t) :
    t.cfg = s.cfg ∧ (c ≠ .initCard → keepsCard s t) := by
  rcases hostCall_cases h with ⟨v, u, rfl, hu⟩ | ⟨u, f, rfl, hu, -⟩ | ⟨u, f, hb, hu, -⟩
  · have hk := hu.card.trans ((enterOwn_card (checkPlace c) u).trans (returnToHost_card v _))
    exact ⟨hk.1, fun _ => hk⟩
  · exact ⟨hu.card.1, fun _ => hu.card⟩
  · have hk : keepsCard s (takeLock c { u with contend := f }) := hu.card.trans (takeLock_card c _)
    obtain ⟨ho, hd⟩ := takeLock_owner c { u with contend := f }
    obtain ⟨hcfg, hcard⟩ := bodyEnds_card (lockedBody_next hc ho hd hb)
    exact ⟨hcfg.trans hk.1, fun hn => hk.trans (hcard hn)⟩

theorem execStatus_next {s t : State} (h : execStatus s = .next t) :
    ∃ v u, t = returnToHost v (enterOwn .sCheck u) ∧ beforeLock s u := by
  cases h
  exact ⟨_, _, rfl, (refreshInputs_beforeLock s).trans (meanwhile_beforeLock _)⟩

theorem execLock_next {s t : State} (h : execLock s = .next t) :
    ∃ u f, u = { s with contend := f } ∧ (s.lock.owner ≠ none → f = s.contend) ∧
      (t = addWaiter ⟨s.me, .bareLock⟩ u ∨ (lockable s ∧ t = { grantLock u with ret := .none })) := by
  obtain ⟨f, hf, hc, hl⟩ := lockRace_cases s
  rcases lockThen_next h with ⟨-, rfl⟩ | ⟨hr, h⟩
  · exact ⟨_, f, rfl, hc, .inl (by rw [hf])⟩
  · rw [hf] at h
    cases h
    exact ⟨_, f, rfl, hc, .inr ⟨hl hr, rfl⟩⟩

theorem execUnlock_next {s t : State} (h : execUnlock s = .next t) :
    s.lock.owner = some s.me ∧ 1 ≤ s.lock.depth ∧ t = { unlocked s with ret := .none } := by
  by_cases ho : s.lock.owner = some s.me ∧ 1 ≤ s.lock.depth
  · obtain ⟨ho, hd⟩ := ho
    rw [execUnlock, unlock_eq ho hd] at h
    cases h
    exact ⟨ho, hd, rfl⟩
  · rw [execUnlock, unlock, if_neg ho] at h
    cases h

theorem execRefreshInputs_next {s t : State} (h : execRefreshInputs s = .next t) :
    ∃ u, t = { u with ret := .none } ∧ beforeLock s u := by
  cases h
  exact ⟨_, rfl, refreshInputs_beforeLock s⟩

theorem exec_card {i : Instr} {s t : State} (h : exec i s = .next t) :
    t.cfg = s.cfg ∧ (i ≠ .initCard → keepsCard s t) := by
  cases hi : needsLock i with
  | true =>
    have hk := (exec_keeps hi h).1
    exact ⟨hk.1, fun _ => hk⟩
  | false =>
    rcases not_needsLock hi with hh | rfl | rfl | rfl
    · rcases exec_hostSlot hh with rfl | ⟨c, hc, hinit, he⟩
      · obtain ⟨v, u, rfl, hu⟩ := execStatus_next h
        have hk := hu.card.trans ((enterOwn_card .sCheck u).trans (returnToHost_card v _))
        exact ⟨hk.1, fun _ => hk⟩
      · obtain ⟨hcfg, hcard⟩ := hostCall_card hc (he s ▸ h)
        exact ⟨hcfg, fun hn => hcard fun e => hn (hinit.1 e)⟩
    · obtain ⟨u, f, rfl, -, rfl | ⟨-, rfl⟩⟩ := execLock_next h
      · exact ⟨rfl, fun _ => ⟨rfl, rfl, rfl, rfl⟩⟩
      · have hk : keepsCard s (grantLock { s with contend := f }) := (grantLock_call { s with contend := f }).card
        exact ⟨hk.1, fun _ => hk⟩
    · obtain ⟨-, -, rfl⟩ := execUnlock_next h
      exact ⟨rfl, fun _ => ⟨rfl, rfl, rfl, rfl⟩⟩
    · obtain ⟨u, rfl, hu⟩ := execRefreshInputs_next h
      exact ⟨hu.card.1, fun _ => hu.card⟩

/-- Settles O11: statements of the sequencer and the data calls have frames without the card record; the parameters are in no
frame. -/
theorem onlyInitializeWritesCard : Obligations.OnlyInitializeWritesCard := by
  unfold Obligations.OnlyInitializeWritesCard
  intro i s t h
  obtain ⟨hcfg, hcard⟩ := exec_card h
  exact ⟨hcfg, fun hi => (hcard hi).2⟩

/-! ### The invariant -/

/-- The lock is free exactly at depth 0 (R33). -/
def lockSound (l : LockState) : Prop := l.owner = none ↔ l.depth = 0

theorem inv_iff (s : State) : Machine.Inv s ↔ DataInv s ∧ cardSettled s ∧ lockSound s.lock := by
  unfold Machine.Inv DataInv cardSettled Card.legal lockSound
  tauto

theorem cardSettled_keeps {s t : State} (h : keepsCard s t) (k : cardSettled s) : cardSettled t := by
  obtain ⟨-, hc, hn, -⟩ := h
  exact ⟨hc ▸ k.1, by rw [hn, hc]; exact k.2⟩

theorem lockSound_taken {s : State} : lockSound (lockTaken s) := by
  unfold lockTaken
  split
  next ho => simp [lockSound, ho]
  next => simp [lockSound]

theorem lockSound_released {s : State} (ho : s.lock.owner ≠ none) (hd : 1 ≤ s.lock.depth) : lockSound (lockReleased s) := by
  unfold lockReleased
  split
  · simp [lockSound]
  · simp only [lockSound, ho, false_iff]
    omega

theorem keeps.inv {s t : State} (h : keeps s t) (k : Machine.Inv s) : Machine.Inv t := by
  obtain ⟨hd, hc, hl⟩ := (inv_iff s).1 k
  exact (inv_iff t).2 ⟨h.2.2.2 hd, cardSettled_keeps h.1 hc, h.2.1 ▸ hl⟩

theorem beforeLock.inv {s t : State} (h : beforeLock s t) (k : Machine.Inv s) : Machine.Inv t := by
  refine keeps.inv ⟨h.card, h.lock, h.me, fun hd => ?_⟩ k
  rw [h.1]
  exact hd

theorem returnToHost_keeps (v : HostReturn) (s : State) : keeps s (returnToHost v s) := by
  refine ⟨returnToHost_card v s, ?_⟩
  unfold returnToHost enterOwn
  split <;> exact ⟨rfl, rfl, fun hd => hd⟩

theorem enterOwn_keeps (q : Seq) (s : State) : keeps s (enterOwn q s) := by
  refine ⟨enterOwn_card q s, ?_⟩
  unfold enterOwn
  split <;> exact ⟨rfl, rfl, fun hd => hd⟩

theorem grantLock_inv {s : State} (k : Machine.Inv s) : Machine.Inv (grantLock s) := by
  obtain ⟨hd, hc, -⟩ := (inv_iff s).1 k
  exact (inv_iff _).2 ⟨(grantLock_call s).2.data hd, cardSettled_keeps (grantLock_call s).card hc, lockSound_taken (s := s)⟩

theorem takeLock_inv (c : Call) {s : State} (k : Machine.Inv s) : Machine.Inv (takeLock c s) := by
  unfold takeLock
  split
  · exact grantLock_inv k
  · exact grantLock_inv (s := enter (checkPlace c) s) k

theorem bodyEnds_inv {c : Call} {s t : State} (ho : s.lock.owner = some s.me) (hd : 1 ≤ s.lock.depth) (k : Machine.Inv s)
    (h : bodyEnds c s t) : Machine.Inv t := by
  obtain ⟨kd, kc, -⟩ := (inv_iff s).1 k
  have hs : s.lock.owner ≠ none := by simp [ho]
  rcases h with ⟨v, u, rfl, -, hl, hu⟩ | ⟨w, u, rfl, ⟨hown, hdep⟩, -, hu⟩
  · refine (returnToHost_keeps v u).inv ((inv_iff u).2 ⟨?_, ?_, hl ▸ lockSound_released hs hd⟩)
    · rcases hu with ⟨-, hu⟩ | ⟨-, hu, -⟩ <;> exact hu.2.data kd
    · rcases hu with ⟨-, hu⟩ | ⟨-, -, hu⟩
      · exact cardSettled_keeps hu.card kc
      · exact hu
  · refine (inv_iff _).2 ⟨?_, ?_, ?_⟩
    · rcases hu with ⟨-, hu⟩ | ⟨-, hu, -⟩ <;> exact hu.2.data kd
    · rcases hu with ⟨-, hu⟩ | ⟨-, -, hc, hn⟩
      · exact cardSettled_keeps hu.card kc
      · exact ⟨show u.card.legal from hc ▸ kc.1, show u.status.notInitialized = _ by rw [hn, hc]; exact kc.2⟩
    · have hdep' : u.lock.depth ≠ 0 := by omega
      simp [lockSound, hown, ho, hdep']

theorem lockedBody_inv {c : Call} {s t : State} (hc : c ≠ .bareLock) (k : Machine.Inv s)
    (h : lockedBody c (takeLock c s) = .next t) : Machine.Inv t := by
  obtain ⟨ho, hd⟩ := takeLock_owner c s
  exact bodyEnds_inv ho hd (takeLock_inv c k) (lockedBody_next hc ho hd h)

theorem hostCall_inv {c : Call} {s t : State} (hc : c ≠ .bareLock) (k : Machine.Inv s) (h : hostCall c s = .next t) :
    Machine.Inv t := by
  rcases hostCall_cases h with ⟨v, u, rfl, hu⟩ | ⟨u, f, rfl, hu, -⟩ | ⟨u, f, hb, hu, -⟩
  · exact (returnToHost_keeps v _).inv ((enterOwn_keeps _ u).inv (hu.inv k))
  · exact hu.inv k
  · exact lockedBody_inv hc (s := { u with contend := f }) (hu.inv k) hb

theorem exec_inv {i : Instr} {s t : State} (k : Machine.Inv s) (h : exec i s = .next t) : Machine.Inv t := by
  cases hi : needsLock i with
  | true => exact (exec_keeps hi h).inv k
  | false =>
    rcases not_needsLock hi with hh | rfl | rfl | rfl
    · rcases exec_hostSlot hh with rfl | ⟨c, hc, -, he⟩
      · obtain ⟨v, u, rfl, hu⟩ := execStatus_next h
        exact (returnToHost_keeps v _).inv ((enterOwn_keeps _ u).inv (hu.inv k))
      · exact hostCall_inv hc k (he s ▸ h)
    · obtain ⟨u, f, rfl, -, rfl | ⟨-, rfl⟩⟩ := execLock_next h
      · exact k
      · exact grantLock_inv (s := { s with contend := f }) k
    · obtain ⟨ho, hd, rfl⟩ := execUnlock_next h
      obtain ⟨kd, kc, -⟩ := (inv_iff s).1 k
      exact (inv_iff _).2 ⟨kd, kc, lockSound_released (s := s) (by simp [ho]) hd⟩
    · obtain ⟨u, rfl, hu⟩ := execRefreshInputs_next h
      exact hu.inv k

/-! ### The turns of the agents -/

theorem removeWaiter_some {k : Nat} {l rest : List Waiter} {w : Waiter} (h : removeWaiter k l = some (w, rest)) :
    ∃ before after, l = before ++ w :: after ∧ rest = before ++ after := by
  induction l generalizing k rest with
  | nil => simp [removeWaiter] at h
  | cons x t ih =>
    cases k with
    | zero =>
      cases h
      exact ⟨[], t, rfl, rfl⟩
    | succ j =>
      simp only [removeWaiter] at h
      split at h
      next v r hr =>
        cases h
        obtain ⟨b, a, rfl, rfl⟩ := ih hr
        exact ⟨x :: b, a, rfl, rfl⟩
      next => cases h

theorem chooseWaiter_eq (s : State) : ∃ f, (chooseWaiter s).2 = { s with free := f } := by
  unfold chooseWaiter
  split
  · exact ⟨s.free, rfl⟩
  · exact ⟨s.free + 1, rfl⟩

/-- A waiter gets the lock and runs its body, or nothing moves. -/
theorem grantNext_next {s t : State} (h : grantNext s = .next t) :
    (∃ f, t = { s with free := f }) ∨ s.lock.owner = none ∧ ∃ before after w f, s.waiters = before ++ w :: after ∧
      lockedBody w.call (takeLock w.call { s with free := f, me := w.thread, waiters := before ++ after }) = .next t := by
  unfold grantNext at h
  split at h
  next ho =>
    obtain ⟨f, hf⟩ := chooseWaiter_eq s
    simp only [hf] at h
    split at h
    next w rest hr =>
      obtain ⟨b, a, hb, rfl⟩ := removeWaiter_some hr
      exact .inr ⟨ho, b, a, w, f, hb, h⟩
    next =>
      cases h
      exact .inl ⟨s.free, rfl⟩
  next =>
    cases h
    exact .inl ⟨s.free, rfl⟩

theorem grantNext_inv {s t : State} (k : Machine.Inv s) (h : grantNext s = .next t) : Machine.Inv t := by
  rcases grantNext_next h with ⟨f, rfl⟩ | ⟨-, b, a, w, f, -, hb⟩
  · exact k
  · by_cases hc : w.call = .bareLock
    · rw [hc] at hb
      cases hb
      exact grantLock_inv (s := { s with free := f, me := w.thread, waiters := b ++ a }) k
    · exact lockedBody_inv hc (s := { s with free := f, me := w.thread, waiters := b ++ a }) k hb

theorem takeFirst_some {p : Request → Bool} {l rest : List Request} {r : Request} (h : takeFirst p l = some (r, rest)) :
    p r = true ∧ ∃ before after, l = before ++ r :: after ∧ rest = before ++ after ∧ ∀ q ∈ before, p q = false := by
  induction l generalizing rest with
  | nil => cases h
  | cons x t ih =>
    simp only [takeFirst] at h
    split at h
    next hx =>
      cases h
      exact ⟨hx, [], t, rfl, rfl, by simp⟩
    next hx =>
      split at h
      next q r' hr =>
        cases h
        obtain ⟨hp, b, a, rfl, rfl, hb⟩ := ih hr
        exact ⟨hp, x :: b, a, rfl, rfl, by simpa [hx] using hb⟩
      next => cases h

theorem runRequest_next {r : Request} {s t : State} (h : runRequest r s = .next t) :
    ∃ i rest, decode r.slot r.bytes = .ok (i, rest) ∧ exec i { s with me := r.thread } = .next t := by
  unfold runRequest at h
  split at h
  next i rest hd => exact ⟨i, rest, hd, h⟩
  next => cases h

/-- The sequencer takes up the first request it can, or a waiter gets the lock. -/
theorem sequencerTurn_next {s t : State} (h : sequencerTurn s = .next t) :
    grantNext s = .next t ∨ ∃ r before after i rest, s.requests = before ++ r :: after ∧ takeable s r = true ∧
      decode r.slot r.bytes = .ok (i, rest) ∧ exec i { s with requests := before ++ after, me := r.thread } = .next t := by
  unfold sequencerTurn at h
  split at h
  next r q hf =>
    obtain ⟨ht, b, a, hb, rfl, -⟩ := takeFirst_some hf
    obtain ⟨i, rest, hd, he⟩ := runRequest_next h
    exact .inr ⟨r, b, a, i, rest, hb, ht, hd, he⟩
  next => exact .inl h

theorem peerTurn_next {p b : Bool} {s t : State} (h : peerTurn p b s = .next t) :
    t = { s with pending := s.pending.set p b } ∧
      ((b = true ∧ s.pending.get p = false ∧ (p = s.cfg.peripheralId → s.lock.owner = none)) ∨
        (b = false ∧ (p = s.cfg.peripheralId → s.engine = none))) := by
  unfold peerTurn at h
  split at h
  next hb =>
    subst hb
    split at h
    · cases h
    next hp =>
      split at h
      · cases h
      next hl =>
        cases h
        exact ⟨rfl, .inl ⟨rfl, by simpa using hp, fun he => not_not.1 fun hn => hl ⟨he, hn⟩⟩⟩
  next hb =>
    obtain rfl : b = false := by simpa using hb
    split at h
    next hp =>
      cases h
      refine ⟨rfl, .inr ⟨rfl, fun he => ?_⟩⟩
      exact (by simpa [he] using hp : s.pending.get s.cfg.peripheralId = true ∧ s.engine = none).2
    next => cases h

theorem pending_get_set_other {p : Pending} {i j v : Bool} (h : i ≠ j) : (p.set i v).get j = p.get j := by
  cases i <;> cases j <;> first | rfl | exact absurd rfl h

/-- Another user of the bridge registers before the engine has anything of its own, and finishes only what is not the engine's. -/
theorem peerTurn_inv {p b : Bool} {s t : State} (k : Machine.Inv s) (h : peerTurn p b s = .next t) : Machine.Inv t := by
  obtain ⟨rfl, hcase⟩ := peerTurn_next h
  obtain ⟨⟨hm, hn, ht, he⟩, kc, kl⟩ := (inv_iff s).1 k
  refine (inv_iff _).2 ⟨⟨hm, hn, ht, fun hs => ?_⟩, kc, kl⟩
  by_cases hp : p = s.cfg.peripheralId
  · rcases hcase with ⟨rfl, -⟩ | ⟨rfl, hnone⟩
    · subst hp
      exact pending_get_set _ _ _
    · have hsome : s.engine.isSome = true := hs
      simp [hnone hp] at hsome
  · exact (pending_get_set_other hp).trans (he hs)

theorem engineTurn_next {s t : State} (h : engineTurn s = .next t) : ∃ x, s.engine = some x ∧ t = (runEngine x s).2 := by
  unfold engineTurn at h
  split at h
  next x hx =>
    cases h
    exact ⟨x, hx, rfl⟩
  next => cases h

theorem busUserTurn_next {c : SpiConfig} {s t : State} (h : busUserTurn c s = .next t) : t = { s with spiCfg := c } := by
  unfold busUserTurn at h
  split at h <;> cases h
  rfl

/-- Settles O9: each instruction and each agent's turn keeps the three parts of the invariant: the data part, the card record
with NotInitialized, and the lock. -/
theorem stepKeepsInvariant : Obligations.StepKeepsInvariant := by
  unfold Obligations.StepKeepsInvariant
  intro s t hs h
  have k : Machine.Inv { s with turns := s.turns.pop.2 } := hs
  rw [step] at h
  cases ha : s.turns.pop.1 with
  | sequencer =>
    rw [ha] at h
    rcases sequencerTurn_next h with hg | ⟨r, b, a, i, rest, -, -, -, he⟩
    · exact grantNext_inv k hg
    · exact exec_inv (s := { s with turns := s.turns.pop.2, requests := b ++ a, me := r.thread }) k he
  | grant =>
    rw [ha] at h
    exact grantNext_inv k h
  | engine =>
    rw [ha] at h
    obtain ⟨x, hx, rfl⟩ := engineTurn_next h
    exact (runEngine_inp x _ (by rw [hx]; rfl)).io.keeps.inv k
  | threads =>
    rw [ha] at h
    cases h
    exact (meanwhile_step _).body.keeps.inv k
  | host a bs =>
    rw [ha] at h
    cases h
    obtain ⟨⟨hm, hd⟩, kc, kl⟩ := (inv_iff _).1 k
    rw [hostStore_frame]
    exact (inv_iff _).2 ⟨⟨hostStore_wf a bs hm, hd⟩, kc, kl⟩
  | busUser c =>
    rw [ha] at h
    rw [busUserTurn_next h]
    exact k
  | peer p b =>
    rw [ha] at h
    exact peerTurn_inv k h

end Sys2Proof.Machine
end

section
/-! SUPPORT. The bus between operations (10_state.md R35, R37; 70_reset_and_hazards.md R363, R364): what a step from a resting
state leaves. -/

namespace Sys2Proof.Machine

set_option Elab.async false

open Sys2Proof

/-! ### The engine leaves chip-select alone -/

theorem placeWrite_cs (p : Place) (i : Nat) (v : Byte) (s : State) : (placeWrite p i v s).cs = s.cs := by
  cases p <;> rfl

theorem moveOut_cs (p : Place) (i k : Nat) (s : State) : (moveOut p i k s).cs = s.cs := by
  induction k generalizing i s with
  | zero => rfl
  | succ j ih => exact ih _ _

theorem moveIn_cs (p : Place) (i k : Nat) (s : State) : (moveIn p i k s).cs = s.cs := by
  induction k generalizing i s with
  | zero => rfl
  | succ j ih => exact (ih _ _).trans (placeWrite_cs _ _ _ _)

theorem moveBytes_cs (x : Transfer) (s : State) : (moveBytes x s).cs = s.cs := by
  unfold moveBytes
  split
  · exact moveOut_cs _ _ _ s
  · exact moveIn_cs _ _ _ s

theorem runEngine_cs (x : Transfer) (s : State) : (runEngine x s).2.cs = s.cs := by
  unfold runEngine
  dsimp only
  split
  · rfl
  · split <;> exact moveBytes_cs x s

/-! ### Who waits waits with a host operation -/

theorem returnToHost_calls (v : HostReturn) {s : State} (h : HostCalls s) : HostCalls (returnToHost v s) := by
  have hm : HostCalls (meanwhile s) := (meanwhile_steady s).calls h
  unfold returnToHost enterOwn
  split <;> exact hm

theorem enterOwn_calls (q : Seq) {s : State} (h : HostCalls s) : HostCalls (enterOwn q s) := by
  unfold enterOwn
  split <;> exact h

theorem addWaiter_calls {w : Waiter} (hw : w.call ≠ .bareLock) {s : State} (h : HostCalls s) : HostCalls (addWaiter w s) := by
  refine ⟨fun x hx => ?_, h.2⟩
  rcases List.mem_append.1 hx with hx | hx
  · exact h.1 x hx
  · obtain rfl := List.mem_singleton.1 hx
    exact hw

theorem bodyEnds_calls {c : Call} {s t : State} (h : bodyEnds c s t) (k : HostCalls s) : HostCalls t := by
  rcases h with ⟨v, u, rfl, -, -, hu⟩ | ⟨w, u, rfl, -, -, hu⟩
  · refine returnToHost_calls v ?_
    rcases hu with ⟨-, hu⟩ | ⟨-, hu, -⟩ <;> exact hu.2.calls k
  · rcases hu with ⟨-, hu⟩ | ⟨-, hu, -⟩ <;> exact hu.2.calls k

/-! ### Requests, the wait that never ends, and the calling thread -/

/-- The requests and the wait that never ends are as before. -/
def keepsTurn (s t : State) : Prop := t.requests = s.requests ∧ t.hung = s.hung ∧ t.me = s.me

theorem keepsTurn.trans {s t u : State} (h : keepsTurn s t) (k : keepsTurn t u) : keepsTurn s u := by
  obtain ⟨h1, h2, h3⟩ := h
  obtain ⟨k1, k2, k3⟩ := k
  exact ⟨k1.trans h1, k2.trans h2, k3.trans h3⟩

theorem callStep.turn {s t : State} (h : callStep s t) : keepsTurn s t :=
  ⟨by rw [h.1.1], h.2.hung, h.1.me⟩

theorem initStep.turn {s t : State} (h : initStep s t) : keepsTurn s t :=
  ⟨by rw [h.1.1], h.2.hung, h.1.me⟩

theorem beforeLock.turn {s t : State} (h : beforeLock s t) : keepsTurn s t :=
  ⟨h.requests, by rw [h.1], h.me⟩

theorem enterOwn_turn (q : Seq) (s : State) : keepsTurn s (enterOwn q s) := by
  unfold enterOwn
  split <;> exact ⟨rfl, rfl, rfl⟩

theorem returnToHost_turn (v : HostReturn) (s : State) : keepsTurn s (returnToHost v s) := by
  unfold returnToHost enterOwn
  split <;> exact ⟨rfl, rfl, rfl⟩

theorem takeLock_turn {c : Call} (hc : c ≠ .bareLock) (s : State) : keepsTurn s (takeLock c s) := (takeLock_call hc s).turn

theorem bodyEnds_turn {c : Call} {s t : State} (h : bodyEnds c s t) :
    t.requests = s.requests ∧ t.me = s.me ∧ ((∃ v u, t = returnToHost v u ∧ u.cs = .deasserted ∧ u.lock = lockReleased s ∧
      u.hung = s.hung ∧ u.me = s.me) ∨ (∃ w, t.hung = some ⟨w, s.me, some c⟩) ∧ lockHeld s t ∧ t.seq ≠ .idle) := by
  rcases h with ⟨v, u, rfl, hcs, hl, hu⟩ | ⟨w, u, rfl, hl, hq, hu⟩
  · have hk : keepsTurn s u := by
      rcases hu with ⟨-, hu⟩ | ⟨-, hu, -⟩ <;> exact hu.turn
    have hr := hk.trans (returnToHost_turn v u)
    exact ⟨hr.1, hr.2.2, .inl ⟨v, u, rfl, hcs, hl, hk.2⟩⟩
  · have hk : keepsTurn s u := by
      rcases hu with ⟨-, hu⟩ | ⟨-, hu, -⟩ <;> exact hu.turn
    exact ⟨hk.1, hk.2.2, .inr ⟨⟨w, by rw [hk.2.2]⟩, hl, hq⟩⟩

/-! ### A resting state stays one -/

/-- The bus as it is between operations. -/
def atRest (s : State) : Prop := s.cs = .deasserted ∧ s.lock = ⟨none, 0⟩ ∧ s.seq = .idle

/-- The part of `Resting` about the bus: at rest, or one thread keeps the lock in a wait that never ends. -/
def restingBus (s : State) : Prop :=
  (s.hung = none → atRest s) ∧ ∀ h, s.hung = some h → s.lock.owner = some h.thread ∧ s.seq ≠ .idle

theorem restingBus_keeps {s t : State} (hh : t.hung = s.hung) (hc : t.cs = s.cs) (hl : t.lock = s.lock) (hq : t.seq = s.seq)
    (h : restingBus s) : restingBus t := by
  simpa only [restingBus, atRest, hh, hc, hl, hq] using h

theorem lockOpen_free {s : State} (h : s.lock = ⟨none, 0⟩) : lockOpen s = true := by simp [lockOpen, h]

theorem lockOpen_other {s : State} {o : Nat} (h : s.lock.owner = some o) (hne : o ≠ s.me) : lockOpen s = false := by
  simp [lockOpen, h, hne]

theorem returnToHost_free (v : HostReturn) {s : State} (hc : s.cs = .deasserted) (hl : s.lock = ⟨none, 0⟩) :
    atRest (returnToHost v s) := by
  unfold returnToHost enterOwn
  rw [if_pos (lockOpen_free (by simpa using hl))]
  exact ⟨hc, hl, rfl⟩

theorem returnToHost_other (v : HostReturn) {s : State} {o : Nat} (h : s.lock.owner = some o) (hne : o ≠ s.me) :
    (returnToHost v s).cs = s.cs ∧ (returnToHost v s).lock = s.lock ∧ (returnToHost v s).seq = s.seq := by
  unfold returnToHost enterOwn
  have hl : lockOpen (record (.ret s.me v) { meanwhile s with hostOut := v }) = false := lockOpen_other h hne
  rw [if_neg (by simp only [hl, Bool.false_eq_true, not_false_eq_true])]
  exact ⟨rfl, rfl, rfl⟩

/-- A call that returns early leaves the bus as it is, or `seq` at Idle. -/
theorem earlyReturn_resting (q : Seq) (v : HostReturn) {s u : State} (hu : beforeLock s u) (h : restingBus s)
    (hme : ∀ w, s.hung = some w → w.thread ≠ s.me) : restingBus (returnToHost v (enterOwn q u)) := by
  have ht := (enterOwn_turn q u).trans (returnToHost_turn v _)
  have hhung : (returnToHost v (enterOwn q u)).hung = s.hung := ht.2.1.trans hu.turn.2.1
  cases hs : s.hung with
  | none =>
    obtain ⟨hc, hl, -⟩ := h.1 hs
    have hopen : enterOwn q u = enter q u := if_pos (lockOpen_free (hu.lock.trans hl))
    refine ⟨fun _ => ?_, fun w hw => absurd ((hhung.trans hs).symm.trans hw) nofun⟩
    rw [hopen]
    exact returnToHost_free v (hu.cs.trans hc) (hu.lock.trans hl)
  | some w =>
    obtain ⟨ho, -⟩ := h.2 w hs
    have hou : u.lock.owner = some w.thread := hu.lock ▸ ho
    have hne : w.thread ≠ u.me := hu.me ▸ hme w hs
    have hclosed : enterOwn q u = u := if_neg (by simp [lockOpen_other hou hne])
    rw [hclosed] at hhung ⊢
    obtain ⟨hc, hl, hq⟩ := returnToHost_other v hou hne
    exact restingBus_keeps hhung (hc.trans hu.cs) (hl.trans hu.lock) (hq.trans hu.seq) h

/-- A body that started with the lock at depth 1 gives it back, or keeps it for ever. -/
theorem lockedBody_resting {c : Call} {s t : State} (hc : c ≠ .bareLock) (hl : s.lock = ⟨none, 0⟩) (hh : s.hung = none)
    (h : lockedBody c (takeLock c s) = .next t) : restingBus t := by
  obtain ⟨ho, hd⟩ := takeLock_owner c s
  have hlock : (takeLock c s).lock = ⟨some s.me, 1⟩ := by rw [takeLock_lock, lockTaken, hl]; rfl
  obtain ⟨-, hme, ⟨v, u, rfl, hcs, hlu, hhu, -⟩ | ⟨⟨w, hw⟩, ⟨hown, -⟩, hq⟩⟩ := bodyEnds_turn (lockedBody_next hc ho hd h)
  · have hfree : u.lock = ⟨none, 0⟩ := by 
      rw [hlu, lockReleased, hlock]
      rfl
    have hnone : (returnToHost v u).hung = none := by
      rw [(returnToHost_turn v u).2.1, hhu, (takeLock_turn hc s).2.1, hh]
    exact ⟨fun _ => returnToHost_free v hcs hfree, fun w hw => absurd (hnone.symm.trans hw) nofun⟩
  · refine ⟨fun hn => absurd (hw.symm.trans hn) nofun, fun x hx => ?_⟩
    rw [hw] at hx
    cases hx
    exact ⟨hown.trans ho, hq⟩

theorem hostCall_resting {c : Call} {s t : State} (hc : c ≠ .bareLock) (h : restingBus s)
    (hme : ∀ w, s.hung = some w → w.thread ≠ s.me) (ht : hostCall c s = .next t) : restingBus t := by
  rcases hostCall_cases ht with ⟨v, u, rfl, hu⟩ | ⟨u, f, rfl, hu, -⟩ | ⟨u, f, hb, hu, hlock⟩
  · exact earlyReturn_resting _ v hu h hme
  · exact restingBus_keeps (hu.turn.2.1) hu.cs hu.lock hu.seq h
  · cases hs : s.hung with
    | none => exact lockedBody_resting (s := { u with contend := f }) hc (hu.lock.trans (h.1 hs).2.1) (hu.turn.2.1.trans hs) hb
    | some w =>
      obtain ⟨ho, -⟩ := h.2 w hs
      rw [lockable, hu.lock, hu.me, ho] at hlock
      rcases hlock with hw | hw
      · exact absurd (Option.some.inj hw) (hme w hs)
      · cases hw

/-! ### Host calls keep who waits, and the requests -/

theorem lockedBody_calls {c : Call} {s t : State} (hc : c ≠ .bareLock) (k : HostCalls s)
    (h : lockedBody c (takeLock c s) = .next t) : HostCalls t ∧ t.requests = s.requests := by
  obtain ⟨ho, hd⟩ := takeLock_owner c s
  have he := lockedBody_next hc ho hd h
  exact ⟨bodyEnds_calls he ((takeLock_call hc s).2.calls k), (bodyEnds_turn he).1.trans (takeLock_turn hc s).1⟩

theorem refreshInputs_calls {s : State} (k : HostCalls s) : HostCalls (refreshInputs s).2 :=
  (refreshInputs_both s).1.2.calls k

theorem hostCall_calls {c : Call} {s t : State} (hc : c ≠ .bareLock) (k : HostCalls s) (h : hostCall c s = .next t) :
    HostCalls t ∧ t.requests = s.requests := by
  have hu := refreshInputs_calls k
  have hb := refreshInputs_beforeLock s
  rcases hostCall_next h with ⟨v, -, rfl⟩ | ⟨-, h⟩
  · exact ⟨returnToHost_calls v (enterOwn_calls _ hu),
      ((enterOwn_turn _ _).trans (returnToHost_turn v _)).1.trans hb.requests⟩
  generalize (refreshInputs s).2 = u at h hu hb
  obtain ⟨f, hf, -⟩ := lockRace_cases u
  rcases lockThen_next h with ⟨-, rfl⟩ | ⟨-, h⟩
  · rw [hf]
    exact ⟨addWaiter_calls (s := { u with contend := f }) hc hu, hb.requests⟩
  · rw [hf] at h
    obtain ⟨k1, k2⟩ := lockedBody_calls (s := { u with contend := f }) hc hu h
    exact ⟨k1, k2.trans hb.requests⟩

theorem exec_hostSlot_resting {i : Instr} {s t : State} (hi : isHostSlot (slotOf i) = true) (k : HostCalls s) (h : restingBus s)
    (hme : ∀ w, s.hung = some w → w.thread ≠ s.me) (ht : exec i s = .next t) :
    HostCalls t ∧ t.requests = s.requests ∧ restingBus t := by
  rcases exec_hostSlot hi with rfl | ⟨c, hc, -, he⟩
  · cases ht
    have hu := (refreshInputs_beforeLock s).trans (meanwhile_beforeLock _)
    have hk : HostCalls (meanwhile (refreshInputs s).2) := (meanwhile_steady _).calls (refreshInputs_calls k)
    exact ⟨returnToHost_calls _ (enterOwn_calls _ hk),
      ((enterOwn_turn _ _).trans (returnToHost_turn _ _)).1.trans hu.requests, earlyReturn_resting _ _ hu h hme⟩
  · rw [he] at ht
    obtain ⟨k1, k2⟩ := hostCall_calls hc k ht
    exact ⟨k1, k2, hostCall_resting hc h hme ht⟩

theorem grantNext_resting {s t : State} (k : HostCalls s) (h : restingBus s) (ht : grantNext s = .next t) :
    HostCalls t ∧ t.requests = s.requests ∧ restingBus t := by
  rcases grantNext_next ht with ⟨f, rfl⟩ | ⟨hfree, b, a, w, f, hw, hb⟩
  · exact ⟨k, rfl, h⟩
  have hc : w.call ≠ .bareLock := k.1 w (by rw [hw]; simp)
  have hn : s.hung = none := by
    cases hs : s.hung with
    | none => rfl
    | some x => rw [(h.2 x hs).1] at hfree; cases hfree
  have kk : HostCalls { s with free := f, me := w.thread, waiters := b ++ a } :=
    ⟨fun x hx => k.1 x (by rw [hw]; simp at hx ⊢; tauto), k.2⟩
  obtain ⟨k1, k2⟩ := lockedBody_calls hc kk hb
  exact ⟨k1, k2, lockedBody_resting (s := { s with free := f, me := w.thread, waiters := b ++ a }) hc (h.1 hn).2.1 hn hb⟩

/-- A request that is taken up is not made by the thread of the wait that never ends. -/
theorem takeable_thread {s : State} {r : Request} (h : takeable s r = true) {w : Hung} (hw : s.hung = some w) :
    w.thread ≠ r.thread := by
  intro he
  simp [takeable, threadBusy, hw, he] at h

theorem resting_iff (s : State) : Resting s ↔ (∀ r ∈ s.requests, isHostSlot r.slot = true) ∧ HostCalls s ∧ restingBus s := by
  unfold Resting HostOnly restingBus atRest
  tauto

/-- Settles O10: a host call gives back what it took or hangs with it, and no other agent's turn touches chip-select, the lock,
`seq` or who waits with what. -/
theorem stepKeepsRestingBus : Obligations.StepKeepsRestingBus := by
  unfold Obligations.StepKeepsRestingBus
  intro s t hs h
  obtain ⟨hr, k, hb⟩ := (resting_iff s).1 hs
  have finish : HostCalls t ∧ t.requests = s.requests ∧ restingBus t → Resting t := fun ⟨k', hreq, hb'⟩ =>
    (resting_iff t).2 ⟨hreq ▸ hr, k', hb'⟩
  rw [step] at h
  cases ha : s.turns.pop.1 with
  | sequencer =>
    rw [ha] at h
    rcases sequencerTurn_next h with hg | ⟨r, b, a, i, rest, hq, htake, hd, he⟩
    · exact finish (grantNext_resting (s := { s with turns := s.turns.pop.2 }) k hb hg)
    · have hq : s.requests = b ++ r :: a := hq
      have hslot : isHostSlot (slotOf i) = true := slotOf_decode hd ▸ hr r (by rw [hq]; simp)
      obtain ⟨k', hreq, hb'⟩ := exec_hostSlot_resting hslot
        (s := { s with turns := s.turns.pop.2, requests := b ++ a, me := r.thread }) k hb
        (fun w hw => takeable_thread htake hw) he
      refine (resting_iff t).2 ⟨fun x hx => hr x ?_, k', hb'⟩
      rw [hreq] at hx
      rw [hq]
      simp at hx ⊢
      tauto
  | grant =>
    rw [ha] at h
    exact finish (grantNext_resting (s := { s with turns := s.turns.pop.2 }) k hb h)
  | engine =>
    rw [ha] at h
    obtain ⟨x, hx, rfl⟩ := engineTurn_next h
    have hstep := runEngine_inp x { s with turns := s.turns.pop.2 } (by rw [hx]; rfl)
    refine finish ⟨hstep.2.calls k, by rw [hstep.1.1], restingBus_keeps hstep.2.hung (runEngine_cs x _) ?_ ?_ hb⟩
    all_goals rw [hstep.1.1]
  | threads =>
    rw [ha] at h
    cases h
    exact finish ⟨(meanwhile_steady _).calls k, rfl, hb⟩
  | host a bs =>
    rw [ha] at h
    cases h
    rw [hostStore_frame] at finish ⊢
    exact finish ⟨k, rfl, hb⟩
  | busUser c =>
    rw [ha] at h
    obtain rfl := busUserTurn_next h
    exact finish ⟨k, rfl, hb⟩
  | peer p b =>
    rw [ha] at h
    obtain ⟨rfl, -⟩ := peerTurn_next h
    exact finish ⟨k, rfl, hb⟩

end Sys2Proof.Machine
end

section
/-! SUPPORT. The ends of a host call on the ports: the exit sequence (43_blockio.md R230, 60_exceptions.md R322), and what a call
without the lock may change (45_guard_status.md R294). -/

namespace Sys2Proof.Machine

set_option Elab.async false

open Sys2Proof

/-! ### The exit sequence -/

/-- What a thread's own events are after one more event. -/
theorem own_emit {e : Event} {s : State} (he : e.own s.me = true) :
    (emit e s).events.filter (Event.own s.me) = e :: s.events.filter (Event.own s.me) := by
  rw [← (meanwhile_foreign s).filter]
  exact List.filter_cons_of_pos he

theorem own_record_meanwhile {e : Event} {s t : State} (ht : t.events = (meanwhile s).events)
    (he : e.own s.me = true) :
    (record e t).events.filter (Event.own s.me) = e :: s.events.filter (Event.own s.me) := by
  rw [record_events, List.filter_cons_of_pos he, ht, (meanwhile_foreign s).filter]

theorem own_deselect (s : State) : ∃ d, (deselect s).events.filter (Event.own s.me) =
    .xchg s.cfg.dummy d :: .cs .deasserted :: s.events.filter (Event.own s.me) := by
  have hcs := own_emit (e := .cs .deasserted) (s := { s with cs := .deasserted }) rfl
  have hx := own_emit (e := .xchg s.cfg.dummy s.rx.pop.1)
    (s := { driveCs .deasserted s with rx := (driveCs .deasserted s).rx.pop.2 }) rfl
  exact ⟨s.rx.pop.1, hx.trans (congrArg _ hcs)⟩

theorem own_unlocked (s : State) :
    (unlocked s).events.filter (Event.own s.me) = .unlock s.me :: s.events.filter (Event.own s.me) :=
  own_record_meanwhile (s := s) rfl rfl

theorem own_returnToHost (v : HostReturn) (s : State) :
    (returnToHost v s).events.filter (Event.own s.me) = .ret s.me v :: s.events.filter (Event.own s.me) := by
  have h := own_record_meanwhile (e := .ret s.me v) (s := s) (t := { meanwhile s with hostOut := v }) rfl
    (by simp [Event.own])
  unfold returnToHost enterOwn
  split <;> exact h

/-- What the calling thread's own events end with after the exit sequence: for the card's probe the speed comes before the unlock. -/
def endsWithExit (c : Call) (s u : State) : Prop :=
  ∃ d es, u.events.filter (Event.own s.me) =
    .unlock s.me :: ((if c = .initCard then [.speed .high] else []) ++ .xchg s.cfg.dummy d :: .cs .deasserted :: es)

theorem endsWithExit_left {c : Call} (hc : c ≠ .initCard) {s w : State} (hm : w.me = s.me) (hcfg : w.cfg = s.cfg) :
    endsWithExit c s (left w) := by
  obtain ⟨d, hd⟩ := own_deselect w
  have hu := own_unlocked (deselect w)
  rw [deselect_me, hd, hm, hcfg] at hu
  exact ⟨d, w.events.filter (Event.own s.me), by rw [if_neg hc]; exact hu⟩

theorem unlock_ok {s u : State} {x : Unit} (h : unlock s = .ok x u) : u = unlocked s := by
  unfold unlock at h
  split at h <;> cases h
  rfl

theorem leave_exits (q : Seq) (f : State → HostReturn) {c : Call} (hc : c ≠ .initCard) {s w : State} (hm : w.me = s.me)
    (hcfg : w.cfg = s.cfg) : (leave q f w).Post (fun _ u => endsWithExit c s u) (fun _ => True) := by
  unfold leave exitSequence unlock
  split
  · exact endsWithExit_left (w := enter q w) hc hm hcfg
  · trivial

theorem all_then_leave {α : Type} {q : Seq} {g : α → State → HostReturn} {c : Call} (hc : c ≠ .initCard) {s : State}
    {x : Res α} (hx : x.All (callStep s)) :
    (x.bind fun a t => leave q (g a) t).Post (fun _ u => endsWithExit c s u) (fun _ => True) :=
  Res.post_bind hx.post (fun a _ ht => leave_exits q (g a) hc ht.1.me ht.card.1) fun _ _ => trivial

theorem readBody_exits (buf sector count : U32) (s : State) :
    (readBody buf sector count s).Post (fun _ u => endsWithExit (.read buf sector count) s u) (fun _ => True) :=
  all_then_leave (c := .read buf sector count) nofun <|
    Res.all_mono (readLoop_step _ _) fun _ h => ((enter_io (by decide) s).trans ((setUp_io _ _ _ _ _).trans h)).call

theorem writeBody_exits (buf sector count : U32) (s : State) :
    (writeBody buf sector count s).Post (fun _ u => endsWithExit (.write buf sector count) s u) (fun _ => True) := by
  refine all_then_leave (c := .write buf sector count) nofun ?_
  split
  · exact Res.all_mono (writeSingle_step _) fun _ h => ((enter_io (by decide) s).trans ((setUp_io _ _ _ _ _).trans h)).call
  · exact Res.all_mono (writeMulti_step _ _) fun _ h => ((enter_io (by decide) s).trans ((setUp_io _ _ _ _ _).trans h)).call

theorem ioctlBody_exits (code : Byte) (start stop : U32) {s : State} (ho : s.lock.owner = some s.me) (hd : 1 ≤ s.lock.depth) :
    (ioctlBody code start stop s).Post (fun _ u => endsWithExit (.ioctl code start stop) s u) (fun _ => True) := by
  have hk := codeBody_kept (s := enter .iBody s) code start stop ho hd
  exact Res.post_bind hk
    (fun r _ ht => leave_exits .iExit (fun _ => .result r) (c := .ioctl code start stop) nofun ht.1.1.me ht.1.card.1)
    fun _ _ => trivial

theorem own_setSpeed (sp : Speed) (s : State) :
    (setSpeed sp s).events.filter (Event.own s.me) = .speed sp :: s.events.filter (Event.own s.me) :=
  own_emit (e := .speed sp)
    (s := { s with speedSel := sp, spiCfg := { s.spiCfg with speed := speedOf s.cfg sp } }) rfl

theorem own_recordCard (c : Card) (s : State) : ∃ d, (recordCard c s).events.filter (Event.own s.me) =
    .xchg s.cfg.dummy d :: .cs .deasserted :: s.events.filter (Event.own s.me) := by
  obtain ⟨d, hd⟩ := own_deselect { enter .pRecord s with card := c }
  have hm := meanwhile_foreign (deselect { enter .pRecord s with card := c })
  have hw := (wpActive_beforeLock { meanwhile (deselect { enter .pRecord s with card := c }) with
    status := { (meanwhile (deselect { enter .pRecord s with card := c })).status with
      notInitialized := c.type == .unknown } }).2.2
  have hs : foreign (deselect { enter .pRecord s with card := c }) (recordCard c s) := by
    refine hm.trans (foreign.trans ?_ (foreign.trans hw ?_)) <;> exact foreign.same rfl rfl
  exact ⟨d, hs.filter.trans hd⟩

theorem probeDone_exits (c : Card) {s w : State} (hm : w.me = s.me) (hcfg : w.cfg = s.cfg) :
    (probeDone (recordCard c w)).Post (fun _ u => endsWithExit .initCard s u) (fun _ => True) := by
  unfold probeDone
  cases hu : unlock (setSpeed .high (enter .pDone (recordCard c w))) with
  | fault | refuse | hang => trivial
  | ok x u =>
    obtain rfl := unlock_ok hu
    obtain ⟨d, hd⟩ := own_recordCard c w
    have hme : (recordCard c w).me = w.me := (recordCard_step c w).1.me
    have h1 := own_setSpeed .high (enter .pDone (recordCard c w))
    have h2 := own_unlocked (setSpeed .high (enter .pDone (recordCard c w)))
    have h3 := (meanwhile_foreign (unlocked (setSpeed .high (enter .pDone (recordCard c w))))).filter
    refine ⟨d, w.events.filter (Event.own s.me), ?_⟩
    rw [if_pos rfl, ← hm, ← hcfg, ← hme]
    rw [← hme] at hd
    exact h3.trans (h2.trans (congrArg _ (h1.trans (congrArg _ hd))))

theorem probeBody_exits (s : State) : (probeBody s).Post (fun _ u => endsWithExit .initCard s u) (fun _ => True) := by
  rw [probeBody_entry]
  refine Res.post_bind (preCmd0_step _ _).post (fun _ t ht => ?_) fun _ _ => trivial
  refine Res.post_bind (probeCard_step t).post (fun c u hu => ?_) fun _ _ => trivial
  have hi : initStep s u := ((probeEntry_init s).trans ht.body.init).trans hu.init
  exact probeDone_exits c hi.1.me hi.cfg

theorem lockedBody_exits {c : Call} (hc : c ≠ .bareLock) {s t : State} (ho : s.lock.owner = some s.me) (hd : 1 ≤ s.lock.depth)
    (h : lockedBody c s = .next t) (hh : t.hung = none) : ∃ v u, t = returnToHost v u ∧ u.me = s.me ∧ endsWithExit c s u := by
  have key : ∀ x : Res HostReturn, x.Post (fun _ u => endsWithExit c s u) (fun _ => True) → x.callOutcome c = .next t →
      ∃ v u, t = returnToHost v u ∧ endsWithExit c s u := by
    intro x hx hn
    rcases Res.callOutcome_next hn with ⟨v, u, rfl, rfl⟩ | ⟨w, u, -, rfl⟩
    · exact ⟨v, u, rfl, hx⟩
    · cases hh
  have hme : t.me = s.me := (bodyEnds_turn (lockedBody_next hc ho hd h)).2.1
  suffices ∃ v u, t = returnToHost v u ∧ endsWithExit c s u by
    obtain ⟨v, u, rfl, hu⟩ := this
    exact ⟨v, u, rfl, (returnToHost_turn v u).2.2.symm.trans hme, hu⟩
  cases c with
  | initCard => exact key _ (probeBody_exits (raise .none s)) h
  | read b a n => exact key _ (readBody_exits b a n (raise .none s)) h
  | write b a n => exact key _ (writeBody_exits b a n (raise .none s)) h
  | ioctl k a b => exact key _ (ioctlBody_exits k a b (s := raise .none s) ho hd) h
  | bareLock => exact absurd rfl hc

/-- A call that returned before the lock, or waits for it, has no lock event of its own. -/
theorem no_lock_event {s t u : State} {es : List Event} (hu : foreign s u) (ht : t.events = es ++ u.events)
    (hes : ∀ e ∈ es, e ≠ .lock s.me) : ¬ ∃ new, t.events = new ++ s.events ∧ .lock s.me ∈ new := by
  rintro ⟨new, hn, hl⟩
  obtain ⟨-, more, hm, hf⟩ := hu
  rw [ht, hm, ← List.append_assoc] at hn
  obtain rfl := List.append_cancel_right hn
  rcases List.mem_append.1 hl with hl | hl
  · exact hes _ hl rfl
  · cases hf _ hl

theorem returned_no_lock (q : Seq) (v : HostReturn) {s u : State} (hu : beforeLock s u) :
    ¬ ∃ new, (returnToHost v (enterOwn q u)).events = new ++ s.events ∧ .lock s.me ∈ new := by
  have he : foreign u (enterOwn q u) := foreign.same (enterOwn_turn q u).2.2 (by unfold enterOwn; split <;> rfl)
  have hr : (returnToHost v (enterOwn q u)).events = [.ret (enterOwn q u).me v] ++ (meanwhile (enterOwn q u)).events := by
    unfold returnToHost
    rw [enterOwn]
    split <;> rfl
  exact no_lock_event ((hu.2.2.trans he).trans (meanwhile_foreign _)) hr (by simp)

/-- Settles O54: a call that took the lock and returned ran a body, and each body ends with the exit sequence; nothing but the
return follows it. -/
theorem exitSequenceEndsCalls : Obligations.ExitSequenceEndsCalls := by
  unfold Obligations.ExitSequenceEndsCalls
  intro i s t hi _ h hh hlock
  rcases exec_hostSlot hi with rfl | ⟨c, hc, hinit, he⟩
  · obtain ⟨v, u, rfl, hu⟩ := execStatus_next h
    exact absurd hlock (returned_no_lock _ v hu)
  rw [he] at h
  rcases hostCall_cases h with ⟨v, u, rfl, hu⟩ | ⟨u, f, rfl, hu, -⟩ | ⟨u, f, hb, hu, -⟩
  · exact absurd hlock (returned_no_lock _ v hu)
  · exact absurd hlock (no_lock_event (es := []) hu.2.2 rfl (by simp))
  · obtain ⟨ho, hd⟩ := takeLock_owner c { u with contend := f }
    obtain ⟨v, w, rfl, hw, d, es, hx⟩ := lockedBody_exits hc ho hd hb hh
    have hm : (takeLock c { u with contend := f }).me = s.me := (takeLock_turn hc _).2.2.trans hu.me
    have hcfg : (takeLock c { u with contend := f }).cfg = s.cfg := (takeLock_card c _).1.trans hu.card.1
    rw [hm, hcfg] at hx
    refine ⟨v, d, es, ?_⟩
    have hr := own_returnToHost v w
    rw [hw, hm, hx] at hr
    simpa only [hinit] using hr

end Sys2Proof.Machine
end

section
/-! SUPPORT. Requests, waiting threads and the guard (10_state.md R41; 45_guard_status.md R290, R294): what a turn takes up, who
gets the lock, and what a call meets that has it not. -/

namespace Sys2Proof.Machine

set_option Elab.async false

open Sys2Proof

/-! ### Taking up a request -/

theorem takeFirst_eq {p : Request → Bool} {blocked later : List Request} {r : Request} (hb : ∀ q ∈ blocked, p q = false)
    (hr : p r = true) : takeFirst p (blocked ++ r :: later) = some (r, blocked ++ later) := by
  induction blocked with
  | nil => simp [takeFirst, hr]
  | cons q t ih => simp [takeFirst, hb q (by simp), ih fun x hx => hb x (List.mem_cons_of_mem _ hx)]

theorem takeFirst_none {p : Request → Bool} {l : List Request} (h : ∀ q ∈ l, p q = false) : takeFirst p l = none := by
  induction l with
  | nil => rfl
  | cons q t ih => simp [takeFirst, h q (by simp), ih fun x hx => h x (List.mem_cons_of_mem _ hx)]

theorem sequencerTurn_eq {s : State} {blocked later : List Request} {r : Request} (hs : s.requests = blocked ++ r :: later)
    (hb : ∀ q ∈ blocked, takeable s q = false) (hr : takeable s r = true) :
    sequencerTurn s = runRequest r { s with requests := blocked ++ later } := by
  rw [sequencerTurn, hs, takeFirst_eq hb hr]

theorem runRequest_ok {r : Request} {i : Instr} {rest : List Byte} (s : State) (h : decode r.slot r.bytes = .ok (i, rest)) :
    runRequest r s = exec i { s with me := r.thread } := by
  rw [runRequest, h]

/-- Settles O5: the turn finds the first request that can be taken up, and its bytes are decoded in its slot. -/
theorem stepRunsNextRequest : Obligations.StepRunsNextRequest := by
  unfold Obligations.StepRunsNextRequest
  intro s blocked later r ha hs hb hr
  have hstep : step s = runRequest r { s with turns := s.turns.pop.2, requests := blocked ++ later } := by
    rw [step, ha]
    exact sequencerTurn_eq (s := { s with turns := s.turns.pop.2 }) hs hb hr
  exact ⟨fun i rest hd => hstep.trans (runRequest_ok _ hd), fun e he => by rw [hstep, runRequest, he]⟩

theorem idleThread_idle (s : State) :
    s.waiters.any (fun w => w.thread == idleThread s) = false ∧ s.early.any (fun e => e.thread == idleThread s) = false := by
  unfold idleThread
  split
  · refine ⟨List.any_eq_false.2 fun w hw => ?_, List.any_eq_false.2 fun e he => ?_⟩
    · have := List.le_sum_of_mem (List.mem_map_of_mem (f := fun w : Waiter => w.thread) hw)
      simp only [beq_iff_eq]
      omega
    · have := List.le_sum_of_mem (List.mem_map_of_mem (f := fun e : Early => e.thread) he)
      simp only [beq_iff_eq]
      omega
  · next h => simpa only [Bool.or_eq_true, not_or, Bool.not_eq_true] using h

theorem lockFor_owner {i : Instr} {s : State} (h : needsLock i = true) : (lockFor i s).owner = some (idleThread s) := by
  unfold lockFor
  split
  · rfl
  · next hn => simpa [h] using hn

theorem decodeTableWord_some {nbits w : Nat} {i : Instr} (h : decodeTableWord nbits w = some i) :
    ∃ rest, decode (tableSlot nbits w) (tableBytes nbits w) = .ok (i, rest) := by
  unfold decodeTableWord at h
  split at h <;> cases h
  exact ⟨_, ‹_›⟩

/-- Settles O6: the request put first is one its thread can make, for it is in no call and holds the lock where that is asked. -/
theorem tableWordRunsFirst : Obligations.TableWordRunsFirst := by
  unfold Obligations.TableWordRunsFirst
  intro s nbits w i h
  obtain ⟨rest, hd⟩ := decodeTableWord_some h
  have hlock : tableLock s nbits w = lockFor i s := by rw [tableLock, h]
  obtain ⟨hw, he⟩ := idleThread_idle s
  have htake : takeable { s with hung := none, lock := lockFor i s } (tableRequest s nbits w) = true := by
    have hfree : threadBusy { s with hung := none, lock := lockFor i s } (idleThread s) = false := by
      simp only [threadBusy, hw, he, Bool.or_false]
    have hout : lockedOut { s with hung := none, lock := lockFor i s } (tableRequest s nbits w) = false := by
      simp only [lockedOut, tableRequest, hd]
      cases hn : needsLock i with
      | false => rfl
      | true => simp [lockFor_owner hn]
    have hthread : (tableRequest s nbits w).thread = idleThread s := rfl
    simp [takeable, hthread, hfree, hout]
  show sequencerTurn { s with
    hung := none, lock := tableLock s nbits w, requests := tableRequest s nbits w :: s.requests } = _
  rw [hlock]
  exact (sequencerTurn_eq
    (s := { s with hung := none, lock := lockFor i s, requests := tableRequest s nbits w :: s.requests })
    (blocked := []) rfl (by simp) htake).trans (runRequest_ok _ hd)

/-! ### The lock for a waiting thread -/

theorem removeWaiter_lt {k : Nat} {l : List Waiter} (h : k < l.length) :
    ∃ before w after, l = before ++ w :: after ∧ removeWaiter k l = some (w, before ++ after) := by
  induction l generalizing k with
  | nil => cases h
  | cons x t ih =>
    cases k with
    | zero => exact ⟨[], x, t, rfl, by rw [removeWaiter]; rfl⟩
    | succ j =>
      obtain ⟨b, w, a, rfl, hr⟩ := ih (Nat.lt_of_succ_lt_succ h)
      exact ⟨x :: b, w, a, rfl, by simp [removeWaiter, hr]⟩

theorem chooseWaiter_lt {s : State} (h : s.waiters ≠ []) : (chooseWaiter s).1 < s.waiters.length := by
  have hpos := List.length_pos_iff.2 h
  unfold chooseWaiter
  split
  · exact hpos
  · exact Nat.mod_lt _ hpos

theorem grantNext_eq {s : State} (ho : s.lock.owner = none) (hw : s.waiters ≠ []) :
    ∃ before after w f, s.waiters = before ++ w :: after ∧
      grantNext s = lockedBody w.call (takeLock w.call { s with me := w.thread, waiters := before ++ after, free := f }) := by
  obtain ⟨f, hf⟩ := chooseWaiter_eq s
  obtain ⟨b, w, a, hb, hr⟩ := removeWaiter_lt (chooseWaiter_lt hw)
  refine ⟨b, a, w, f, hb, ?_⟩
  simp only [grantNext, ho, if_true, hf, hr]

/-- Settles O17: a grant turn, and a sequencer turn with nothing to take up, are the same grant. -/
theorem waitingThreadGetsLock : Obligations.WaitingThreadGetsLock := by
  unfold Obligations.WaitingThreadGetsLock
  intro s ho hw ha
  have hgrant : step s = grantNext { s with turns := s.turns.pop.2 } := by
    rcases ha with ha | ⟨ha, hq⟩
    · rw [step, ha]
      rfl
    · rw [step, ha]
      simp only [agentTurn, sequencerTurn]
      rw [takeFirst_none (p := takeable { s with turns := s.turns.pop.2 }) hq]
  obtain ⟨b, a, w, f, hb, hg⟩ := grantNext_eq (s := { s with turns := s.turns.pop.2 }) ho hw
  exact ⟨b, a, w, f, hb, hgrant.trans hg⟩

/-! ### A thread that has not the lock -/

/-- What a call of a thread that does not hold the lock may change, while another does: no byte goes out. -/
def lockedOutFrame (s t : State) : Prop :=
  t = { s with
    status := { s.status with noDisk := t.status.noDisk, writeProtected := t.status.writeProtected }
    cd := t.cd, wp := t.wp, events := t.events, hostOut := t.hostOut, waiters := t.waiters, early := t.early, others := t.others }
    ∧ (∃ new, t.waiters = s.waiters ++ new) ∧ t.sent = s.sent

theorem lockedOutFrame.trans {s t u : State} (h : lockedOutFrame s t) (k : lockedOutFrame t u) : lockedOutFrame s u := by
  refine ⟨?_, moreWaiters h.2.1 k.2.1, k.2.2.trans h.2.2⟩
  rw [k.1, h.1]

theorem beforeLock.lockedOut {s t : State} (h : beforeLock s t) : lockedOutFrame s t := ⟨h.1, h.2.1, h.2.2.sent⟩

theorem addWaiter_lockedOut (w : Waiter) (s : State) : lockedOutFrame s (addWaiter w s) := ⟨rfl, ⟨[w], rfl⟩, rfl⟩

theorem sent_record_ret (thread : Nat) (v : HostReturn) (s : State) : (record (.ret thread v) s).sent = s.sent := by
  simp [State.sent, Event.sent]

theorem returnToHost_lockedOut (q : Seq) (v : HostReturn) {s : State} (h : lockOpen s = false) :
    lockedOutFrame s (returnToHost v (enterOwn q s)) := by
  have hq : enterOwn q s = s := if_neg (by simp [h])
  have hr : returnToHost v s = record (.ret s.me v) { meanwhile s with hostOut := v } := by
    have hl : lockOpen (record (.ret s.me v) { meanwhile s with hostOut := v }) = false := h
    exact if_neg (by simp only [hl, Bool.false_eq_true, not_false_eq_true])
  rw [hq, hr]
  exact (meanwhile_beforeLock s).lockedOut.trans ⟨rfl, sameWaiters rfl, sent_record_ret _ _ _⟩

theorem hostCall_lockedOut {c : Call} {s : State} {o : Nat} (ho : s.lock.owner = some o) (hne : o ≠ s.me) :
    ∃ t, hostCall c s = .next t ∧ lockedOutFrame s t := by
  have hu := refreshInputs_beforeLock s
  have hou := hu.lock ▸ ho
  have hneu := hu.me ▸ hne
  unfold hostCall
  dsimp only
  split
  next v _ => exact ⟨_, rfl, hu.lockedOut.trans (returnToHost_lockedOut _ v (lockOpen_other hou hneu))⟩
  next =>
    have hrace : lockRace (refreshInputs s).2 = (false, (refreshInputs s).2) := by simp [lockRace, hou, hneu]
    refine ⟨addWaiter ⟨(refreshInputs s).2.me, c⟩ (refreshInputs s).2, ?_, hu.lockedOut.trans (addWaiter_lockedOut _ _)⟩
    simp [lockThen, hrace]

theorem exec_hostSlot_lockedOut {i : Instr} {s : State} {o : Nat} (hi : isHostSlot (slotOf i) = true)
    (ho : s.lock.owner = some o) (hne : o ≠ s.me) : ∃ t, exec i s = .next t ∧ lockedOutFrame s t := by
  rcases exec_hostSlot hi with rfl | ⟨c, -, -, he⟩
  · have hu := (refreshInputs_beforeLock s).trans (meanwhile_beforeLock _)
    exact ⟨_, rfl, hu.lockedOut.trans (returnToHost_lockedOut _ _ (lockOpen_other (hu.lock ▸ ho) (hu.me ▸ hne)))⟩
  · rw [he]
    exact hostCall_lockedOut ho hne

/-- A statement taken up while the lock is held, by another thread than its holder, puts no byte on the link. -/
theorem exec_other_sent {i : Instr} {s t : State} {o : Nat} (ho : s.lock.owner = some o) (hne : o ≠ s.me)
    (hi : needsLock i = false) (h : exec i s = .next t) : t.sent = s.sent := by
  rcases not_needsLock hi with hh | rfl | rfl | rfl
  · obtain ⟨u, hu, hf⟩ := exec_hostSlot_lockedOut hh ho hne
    rw [hu] at h
    cases h
    exact hf.2.2
  · obtain ⟨u, f, rfl, -, rfl | ⟨hl, -⟩⟩ := execLock_next h
    · rfl
    · rw [lockable, ho] at hl
      rcases hl with hl | hl
      · exact absurd (Option.some.inj hl) hne
      · cases hl
  · obtain ⟨hown, -⟩ := execUnlock_next h
    rw [ho] at hown
    exact absurd (Option.some.inj hown) hne
  · obtain ⟨u, rfl, hu⟩ := execRefreshInputs_next h
    exact hu.2.2.sent

theorem takeable_needsLock {s : State} {r : Request} {i : Instr} {rest : List Byte} (hr : takeable s r = true)
    (hd : decode r.slot r.bytes = .ok (i, rest)) (hi : needsLock i = true) : s.lock.owner = some r.thread := by
  have hslot : isHostSlot r.slot = false := by
    have hn : isHostSlot (slotOf i) = false := by
      simp only [needsLock, Bool.and_eq_true, Bool.not_eq_true'] at hi
      exact hi.1.1.1
    rwa [slotOf_decode hd] at hn
  simp only [takeable, hslot, Bool.false_or, Bool.and_eq_true, lockedOut, hd, hi, Bool.true_and, Bool.not_eq_true',
    bne_eq_false_iff_eq] at hr
  exact hr.2.2

theorem hostCall_me {c : Call} {s t : State} (hc : c ≠ .bareLock) (h : hostCall c s = .next t) : t.me = s.me := by
  rcases hostCall_cases h with ⟨v, u, rfl, hu⟩ | ⟨u, f, rfl, hu, -⟩ | ⟨u, f, hb, hu, -⟩
  · exact ((enterOwn_turn _ u).trans (returnToHost_turn v _)).2.2.trans hu.me
  · exact hu.me
  · obtain ⟨ho, hd⟩ := takeLock_owner c { u with contend := f }
    exact (bodyEnds_turn (lockedBody_next hc ho hd hb)).2.1.trans ((takeLock_turn hc _).2.2.trans hu.me)

theorem exec_me {i : Instr} {s t : State} (h : exec i s = .next t) : t.me = s.me := by
  cases hi : needsLock i with
  | true => exact (exec_keeps hi h).2.2.1
  | false =>
    rcases not_needsLock hi with hh | rfl | rfl | rfl
    · rcases exec_hostSlot hh with rfl | ⟨c, hc, -, he⟩
      · obtain ⟨v, u, rfl, hu⟩ := execStatus_next h
        exact ((enterOwn_turn _ u).trans (returnToHost_turn v _)).2.2.trans hu.me
      · exact hostCall_me hc (he s ▸ h)
    · obtain ⟨u, f, rfl, -, rfl | ⟨-, rfl⟩⟩ := execLock_next h <;> rfl
    · obtain ⟨-, -, rfl⟩ := execUnlock_next h
      rfl
    · obtain ⟨u, rfl, hu⟩ := execRefreshInputs_next h
      exact hu.me

theorem grantNext_held {s t : State} {o : Nat} (ho : s.lock.owner = some o) (h : grantNext s = .next t) : t.sent = s.sent := by
  rcases grantNext_next h with ⟨f, rfl⟩ | ⟨hn, -⟩
  · rfl
  · rw [ho] at hn
    cases hn

/-- Settles O18: a call without the lock returns early or waits; a statement that needs the lock is taken up for its holder
alone, and the other agents' turns exchange nothing. -/
theorem lockExcludesOtherThreads : Obligations.LockExcludesOtherThreads := by
  unfold Obligations.LockExcludesOtherThreads
  refine ⟨fun i s o hi ho hne => ?_, fun s t o ho h hsent => ?_⟩
  · obtain ⟨t, ht, hf, hw, hs⟩ := exec_hostSlot_lockedOut hi ho hne
    exact ⟨t, ht, hs, hf, hw⟩
  rw [step] at h
  cases ha : s.turns.pop.1 with
  | engine => exact .inr rfl
  | sequencer =>
    rw [ha] at h
    rcases sequencerTurn_next h with hg | ⟨r, b, a, i, rest, -, htake, hd, he⟩
    · exact absurd (grantNext_held (s := { s with turns := s.turns.pop.2 }) ho hg) hsent
    · have hme := exec_me he
      by_cases hne : o = r.thread
      · exact .inl ⟨rfl, hme.trans hne.symm⟩
      · cases hi : needsLock i with
        | true =>
          have hown := takeable_needsLock htake hd hi
          exact absurd (Option.some.inj (ho.symm.trans hown)) hne
        | false =>
          exact absurd (exec_other_sent
            (s := { s with turns := s.turns.pop.2, requests := b ++ a, me := r.thread }) ho hne hi he) hsent
  | grant =>
    rw [ha] at h
    exact absurd (grantNext_held (s := { s with turns := s.turns.pop.2 }) ho h) hsent
  | threads =>
    rw [ha] at h
    cases h
    exact absurd (meanwhile_foreign { s with turns := s.turns.pop.2 }).sent hsent
  | host a bs =>
    rw [ha] at h
    cases h
    rw [hostStore_frame] at hsent
    exact absurd rfl hsent
  | busUser c =>
    rw [ha] at h
    obtain rfl := busUserTurn_next h
    exact absurd rfl hsent
  | peer p b =>
    rw [ha] at h
    obtain ⟨rfl, -⟩ := peerTurn_next h
    exact absurd rfl hsent

end Sys2Proof.Machine
end

section
/-! SUPPORT. Host memory, reset, the early checks, the inputs and the lock (20_memory.md R64; 10_state.md R43; 60_exceptions.md
R313, R321; 45_guard_status.md R290, R292, R300 to R302). -/

namespace Sys2Proof.Machine

set_option Elab.async false

open Sys2Proof

/-! ### Host memory -/

/-- The cell in front is what its address reads as, and nothing else listed reads there. -/
theorem Memory.read_head (c : Host.Cell) (t : Memory) : Memory.read (c :: t) c.1 = c.2 := by simp [Memory.read]

theorem Memory.read_tail {c : Host.Cell} {t : Memory} {a : Nat} (h : a ≠ c.1) : Memory.read (c :: t) a = Memory.read t a := by
  simp [Memory.read, h.symm]

/-- Two canonical memories that read the same from `lo` on are the same list. -/
theorem Memory.ext_from {lo : Nat} {m m' : Memory} (h : Memory.wfFrom lo m = true) (h' : Memory.wfFrom lo m' = true)
    (he : ∀ a, m.read a = m'.read a) : m = m' := by
  induction m generalizing m' lo with
  | nil =>
    cases m' with
    | nil => rfl
    | cons c t =>
      obtain ⟨-, hc, -⟩ := (Memory.wfFrom_cons lo c t).1 h'
      exact absurd ((Memory.read_head c t).symm.trans (he c.1).symm) hc
  | cons c t ih =>
    obtain ⟨-, hc, ht⟩ := (Memory.wfFrom_cons lo c t).1 h
    cases m' with
    | nil => exact absurd ((Memory.read_head c t).symm.trans (he c.1)) hc
    | cons c' t' =>
      obtain ⟨-, hc', ht'⟩ := (Memory.wfFrom_cons lo c' t').1 h'
      have hfst : c.1 = c'.1 := by
        rcases Nat.lt_trichotomy c.1 c'.1 with hlt | heq | hlt
        · refine absurd ?_ hc
          rw [← Memory.read_head c t, he, Memory.read_tail (Nat.ne_of_lt hlt)]
          exact Memory.read_below ht' (by omega)
        · exact heq
        · refine absurd ?_ hc'
          rw [← Memory.read_head c' t', ← he, Memory.read_tail (Nat.ne_of_lt hlt)]
          exact Memory.read_below ht (by omega)
      have hsnd : c.2 = c'.2 := by rw [← Memory.read_head c t, ← Memory.read_head c' t', he, hfst]
      obtain rfl : c = c' := Prod.ext hfst hsnd
      rw [ih ht ht' fun a => ?_]
      by_cases ha : a = c.1
      · rw [ha, Memory.read_below ht (by omega), Memory.read_below ht' (by omega)]
      · rw [← Memory.read_tail ha, ← Memory.read_tail (t := t') ha, he]

/-- Settles O12: a write keeps the form and changes one reading; the form is unique because each cell is what its address reads
as. -/
theorem memoryIsCanonical : Obligations.MemoryIsCanonical := by
  unfold Obligations.MemoryIsCanonical
  exact ⟨fun m a v h => ⟨Memory.write_wf a v h, Memory.read_write h a v⟩, fun m m' h h' he => Memory.ext_from h h' he⟩

/-! ### Reset -/

/-- Settles O7: the fields of one closed state. -/
theorem resetValues : Obligations.ResetValues := by
  unfold Obligations.ResetValues
  exact ⟨rfl, rfl, rfl, rfl, rfl, rfl, rfl, rfl, rfl, rfl⟩

/-- Settles O8: reset has an empty memory, no card, a free lock and nothing in progress. -/
theorem resetSatisfiesInvariants : Obligations.ResetSatisfiesInvariants := by
  unfold Obligations.ResetSatisfiesInvariants
  refine ⟨(inv_iff _).2 ⟨?data, ?card, ?lock⟩, (resting_iff _).2 ⟨?requests, ?calls, ?bus⟩⟩
  case data => exact ⟨rfl, by decide, tickModulus_pos _, nofun⟩
  case card => exact ⟨nofun, rfl⟩
  case lock => exact ⟨fun _ => rfl, fun _ => rfl⟩
  case requests => exact nofun
  case calls => exact ⟨nofun, nofun, nofun⟩
  case bus => exact ⟨fun _ => ⟨rfl, rfl, rfl⟩, nofun⟩

/-! ### Early checks -/

theorem sampled_notReady {s : State} (h : inputPresent s = false ∨ s.status.notInitialized = true) :
    notReady (sampledStatus s) = true := by
  simpa [notReady, sampledStatus] using h

theorem sampled_ready {s : State} (hp : inputPresent s = true) (hn : s.status.notInitialized = false) :
    notReady (sampledStatus s) = false := by
  simp [notReady, sampledStatus, hp, hn]

theorem codeBody_unknown {code : Byte} (h : code ∉ [0#8, 1#8, 3#8, 4#8]) (start stop : U32) (s : State) :
    codeBody code start stop s = .ok .paramError s := by
  simp only [List.mem_cons, List.not_mem_nil, or_false, not_or] at h
  obtain ⟨h0, h1, h3, h4⟩ := h
  unfold codeBody
  split
  case h_1 e => exact absurd (BitVec.eq_of_toNat_eq e) h0
  case h_2 e => exact absurd (BitVec.eq_of_toNat_eq e) h1
  case h_3 e => exact absurd (BitVec.eq_of_toNat_eq e) h3
  case h_4 e => exact absurd (BitVec.eq_of_toNat_eq e) h4
  case h_5 => rfl

/-- A data call on a usable card runs its body in the state `opened`. -/
theorem hostCall_ioctl {code : Byte} {start stop : U32} {s : State} (hu : usable s) :
    hostCall (.ioctl code start stop) s =
      (ioctlBody code start stop (opened .iCheck s)).callOutcome (.ioctl code start stop) := by
  obtain ⟨hp, hn, hl, hq⟩ := hu
  obtain ⟨hc, ho⟩ := hostCall_opened (c := .ioctl code start stop) hl hq nofun (by
    simp [earlyReturn, sampled_ready hp hn])
  rw [hc, ← show _ = opened .iCheck s from ho]
  rfl

/-- An unknown code is found inside the lock: nothing but the exit sequence follows (R275). -/
theorem ioctl_unknown {code : Byte} {start stop : U32} {s : State} (hc : code ∉ [0#8, 1#8, 3#8, 4#8]) (hu : usable s) :
    hostCall (.ioctl code start stop) s = .next (finished .iExit (.result .paramError) s.rx.pop.1 s.rx.pop.2.next
      (enter .iBody (opened .iCheck s))) := by
  rw [hostCall_ioctl hu, ioctlBody, codeBody_unknown hc]
  exact leave_finished_any (u := enter .iBody (opened .iCheck s)) rfl hu.2.2.2

/-- Settles O13: each early check is a value of `earlyReturn` on what the call sampled; an unknown code runs the exit sequence. -/
theorem earlyChecksTurnAway : Obligations.EarlyChecksTurnAway := by
  unfold Obligations.EarlyChecksTurnAway
  intro s buf sector count hq
  refine ⟨fun h => ?_, fun hp hn hc => ?_, fun hw => ?_, fun hw h => ?_, fun hw hp hn hc => ?_, fun code start stop i hi h => ?_,
    fun hp => ?_, fun code start stop i hi hc hu => ?_⟩
  · exact hostCall_turnedAway (c := .read buf sector count) hq (by simp [earlyReturn, sampled_notReady h])
  · exact hostCall_turnedAway (c := .read buf sector count) hq (by simp [earlyReturn, sampled_ready hp hn, hc])
  · exact hostCall_turnedAway (c := .write buf sector count) hq (by simp [earlyReturn, sampledStatus, hw])
  · exact hostCall_turnedAway (c := .write buf sector count) hq
      (by simp [earlyReturn, sampled_notReady h, show (sampledStatus s).writeProtected = false from hw])
  · exact hostCall_turnedAway (c := .write buf sector count) hq
      (by simp [earlyReturn, sampled_ready hp hn, hc, show (sampledStatus s).writeProtected = false from hw])
  · have key : ∀ c a b, ∃ t, hostCall (.ioctl c a b) s = .next t ∧ turnedAway s (.result .notReady) t := fun c a b =>
      hostCall_turnedAway hq (by simp [earlyReturn, sampled_notReady h])
    simp only [List.mem_cons, List.not_mem_nil, or_false] at hi
    rcases hi with rfl | rfl | rfl | rfl | rfl | rfl <;> exact key _ _ _
  · exact hostCall_turnedAway (c := .initCard) hq (by simp [earlyReturn, sampledStatus, hp])
  · have key : ∀ a b, ∃ t, hostCall (.ioctl code a b) s = .next t ∧ t.events = .ret s.me (.result .paramError) :: .unlock s.me
        :: .xchg s.cfg.dummy s.rx.pop.1 :: .cs .deasserted :: .configure (lockConfig s) :: .lock s.me
        :: (inputEvents s ++ s.events) := fun a b => ⟨_, ioctl_unknown hc hu, rfl⟩
    simp only [List.mem_cons, List.not_mem_nil, or_false] at hi
    rcases hi with rfl | rfl <;> exact key _ _

/-! ### A status call inside another instruction -/

theorem otherMoves_append (vs ws : List OtherMove) (s : State) :
    otherMoves (vs ++ ws) s = otherMoves ws (otherMoves vs s) := by
  induction vs generalizing s with
  | nil => rfl
  | cons v t ih => exact ih _

/-- The thread's call stands in its early part in front of the others. -/
def callingFirst (e : Early) (s : State) : State := { s with early := e :: s.early }

theorem putEarly_new {e : Early} {s : State} (h : ∀ x ∈ s.early, x.thread ≠ e.thread) : putEarly e s = callingFirst e s := by
  have hf : s.early.filter (fun x => x.thread != e.thread) = s.early :=
    List.filter_eq_self.2 fun x hx => by simpa using h x hx
  rw [putEarly, hf]
  rfl

theorem putEarly_callingFirst {e e' : Early} {s : State} (ht : e.thread = e'.thread) (h : ∀ x ∈ s.early, x.thread ≠ e.thread) :
    putEarly e (callingFirst e' s) = callingFirst e s := by
  have hf : s.early.filter (fun x => x.thread != e.thread) = s.early :=
    List.filter_eq_self.2 fun x hx => by simpa using h x hx
  simp only [putEarly, callingFirst, List.filter_cons, ht, bne_self_eq_false, Bool.false_eq_true, if_false]
  rw [← ht, hf]

theorem otherMove_go {e : Early} {s : State} (hne : e.thread ≠ s.me) :
    otherMove (.go e.thread) (callingFirst e s) = earlyStatement e (callingFirst e s) := by
  simp [otherMove, callingFirst, hne]

theorem canCall_iff {s : State} {t : Nat} (h : canCall s t = true) : t ≠ s.me ∧ ∀ x ∈ s.early, x.thread ≠ t := by
  simp only [canCall, threadBusy, Bool.and_eq_true, Bool.not_eq_true', Bool.or_eq_false_iff, bne_iff_ne] at h
  obtain ⟨⟨hme, -⟩, ⟨-, he⟩, -⟩ := h
  exact ⟨hme, fun x hx => by simpa using List.any_eq_false.1 he x hx⟩

/-- The state after the first reading of `RefreshInputs()` by another thread. -/
def diskSampled (s : State) : State := { readCd s with status := { s.status with noDisk := !inputPresent s } }

/-- The state after the second reading. -/
def protectSampled (s : State) : State := { readWp s with status := { s.status with writeProtected := inputProtected s } }

theorem diskSampled_early (s : State) : (diskSampled s).early = s.early := by
  unfold diskSampled readCd
  split <;> rfl

theorem diskSampled_me (s : State) : (diskSampled s).me = s.me := by
  unfold diskSampled readCd
  split <;> rfl

theorem protectSampled_early (s : State) : (protectSampled s).early = s.early := by
  unfold protectSampled readWp
  split <;> rfl

theorem protectSampled_me (s : State) : (protectSampled s).me = s.me := by
  unfold protectSampled readWp
  split <;> rfl

theorem protectSampled_diskSampled (s : State) : protectSampled (diskSampled s) = sampled s := by
  cases hc : s.cfg.cdEnabled <;> cases hw : s.cfg.wpEnabled <;>
    simp [protectSampled, diskSampled, readCd, readWp, record, sampled, sampledStatus, inputEvents, inputPresent, inputProtected,
      hc, hw]

/-- Another thread's `status` call up to its first reading. -/
theorem otherMoves_statusBegins {s : State} {t : Nat} (h : canCall s t = true) :
    otherMoves [.call t none, .go t] s = callingFirst ⟨t, none, some (!inputPresent s), none⟩ (diskSampled s) := by
  obtain ⟨hme, he⟩ := canCall_iff h
  have h1 : otherMove (.call t none) s = callingFirst ⟨t, none, none, none⟩ s := by
    rw [otherMove, if_pos h, if_neg nofun]
    exact putEarly_new he
  have h2 : sampleDisk ⟨t, none, none, none⟩ (callingFirst ⟨t, none, none, none⟩ s) =
      putEarly ⟨t, none, some (!inputPresent s), none⟩ (callingFirst ⟨t, none, none, none⟩ (diskSampled s)) := by
    unfold sampleDisk diskSampled readCd
    split <;> (next hc => simp [callingFirst, inputPresent, record] at hc ⊢; simp [hc])
  simp only [otherMoves, h1, otherMove_go (e := ⟨t, none, none, none⟩) hme]
  exact h2.trans (putEarly_callingFirst rfl (by rw [diskSampled_early]; exact he))

/-- The rest of the call: the second reading, and the return of the three bits as they stand. -/
theorem otherMoves_statusEnds {s : State} {t : Nat} {d : Bool} (hme : t ≠ s.me) (he : ∀ x ∈ s.early, x.thread ≠ t) :
    otherMoves [.go t, .go t] (callingFirst ⟨t, none, some d, none⟩ s) =
      otherReturns t (.drive (protectSampled s).status) (protectSampled s) := by
  have h1 : sampleProtect ⟨t, none, some d, none⟩ (callingFirst ⟨t, none, some d, none⟩ s) =
      putEarly ⟨t, none, some d, some (inputProtected s)⟩ (callingFirst ⟨t, none, some d, none⟩ (protectSampled s)) := by
    unfold sampleProtect protectSampled readWp
    split <;> (next hc => simp [callingFirst, inputProtected, record] at hc ⊢; simp [hc])
  have he' : ∀ x ∈ (protectSampled s).early, x.thread ≠ t := by rw [protectSampled_early]; exact he
  have h2 := putEarly_callingFirst (e := ⟨t, none, some d, some (inputProtected s)⟩) (e' := ⟨t, none, some d, none⟩)
    (s := protectSampled s) rfl he'
  have h3 : endEarly t (callingFirst ⟨t, none, some d, some (inputProtected s)⟩ (protectSampled s)) = protectSampled s := by
    have hf : (protectSampled s).early.filter (fun x => x.thread != t) = (protectSampled s).early :=
      List.filter_eq_self.2 fun x hx => by simpa using he' x hx
    simp [endEarly, callingFirst, hf]
  simp only [otherMoves, otherMove_go (e := ⟨t, none, some d, none⟩) hme, earlyStatement, h1, h2]
  rw [otherMove_go (e := ⟨t, none, some d, some (inputProtected s)⟩) (s := protectSampled s)
    (by rw [protectSampled_me]; exact hme)]
  simp only [earlyStatement, endOfEarly, h3]
  rfl

/-- A whole `status` call of another thread between two statements. -/
theorem otherMoves_status {s : State} {t : Nat} (h : canCall s t = true) :
    otherMoves [.call t none, .go t, .go t, .go t] s = otherReturns t (.drive (sampledStatus s)) (sampled s) := by
  obtain ⟨hme, he⟩ := canCall_iff h
  rw [show ([.call t none, .go t, .go t, .go t] : List OtherMove) = [.call t none, .go t] ++ [.go t, .go t] from rfl,
    otherMoves_append, otherMoves_statusBegins h, otherMoves_statusEnds (by rw [diskSampled_me]; exact hme)
      (by rw [diskSampled_early]; exact he), protectSampled_diskSampled]
  rfl

theorem takeOthers_cons {s : State} {vs : List OtherMove} {later : List (List OtherMove)} (h : s.others = vs :: later) :
    takeOthers s = otherMoves vs { s with others := later } := by rw [takeOthers, h]

/-- One exchange with a whole `status` call before it. -/
theorem xchg_status {s : State} {t : Nat} {tx : Byte} {later : List (List OtherMove)} (h : canCall s t = true)
    (ho : s.others = [.call t none, .go t, .go t, .go t] :: later) :
    (xchg tx s).2 = { sampled s with
      others := later
      hostOut := .drive (sampledStatus s)
      rx := s.rx.pop.2
      events := .xchg tx s.rx.pop.1 :: .ret t (.drive (sampledStatus s)) :: (inputEvents s ++ s.events) } := by
  have ht := takeOthers_cons (s := { s with rx := s.rx.pop.2 }) ho
  rw [otherMoves_status (s := { s with rx := s.rx.pop.2, others := later }) h] at ht
  show record _ (meanwhile { s with rx := s.rx.pop.2 }) = _
  unfold meanwhile
  rw [ht]
  rfl

/-- `deselect` with the two readings on either side of its chip-select event. -/
theorem deselect_status {s : State} {t : Nat} {later : List (List OtherMove)} (h : canCall s t = true)
    (hcd : s.cfg.cdEnabled = true) (hwp : s.cfg.wpEnabled = true)
    (ho : s.others = [.call t none, .go t] :: [.go t, .go t] :: later) :
    deselect s = { sampled s with
      others := later
      hostOut := .drive (sampledStatus s)
      cs := .deasserted
      rx := s.rx.pop.2
      events := [.xchg s.cfg.dummy s.rx.pop.1, .ret t (.drive (sampledStatus s)), .writeProtect (inputProtected s),
        .cs .deasserted, .cardDetect (inputPresent s)] ++ s.events } := by
  obtain ⟨hme, he⟩ := canCall_iff h
  have h1 : driveCs .deasserted s = callingFirst ⟨t, none, some (!inputPresent s), none⟩
      { diskSampled s with
        cs := .deasserted, others := [.go t, .go t] :: later, events := .cs .deasserted :: (diskSampled s).events } := by
    have ht := takeOthers_cons (s := { s with cs := .deasserted }) ho
    rw [otherMoves_statusBegins (s := { s with cs := .deasserted, others := [.go t, .go t] :: later }) h] at ht
    show record _ (meanwhile { s with cs := .deasserted }) = _
    unfold meanwhile
    rw [ht]
    simp [diskSampled, readCd, hcd, record, callingFirst, inputPresent]
  have ht := takeOthers_cons (s := callingFirst ⟨t, none, some (!inputPresent s), none⟩
      { diskSampled s with
        cs := .deasserted, others := [.go t, .go t] :: later, events := .cs .deasserted :: (diskSampled s).events
        rx := s.rx.pop.2 }) (vs := [.go t, .go t]) (later := later) rfl
  rw [show ∀ u : State, { callingFirst ⟨t, none, some (!inputPresent s), none⟩ u with others := later } =
      callingFirst ⟨t, none, some (!inputPresent s), none⟩ { u with others := later } from fun _ => rfl,
    otherMoves_statusEnds (by simpa using (diskSampled_me s).symm ▸ hme) (by simpa [diskSampled_early] using he)] at ht
  show record (.xchg s.cfg.dummy s.rx.pop.1) (meanwhile { driveCs .deasserted s with rx := s.rx.pop.2 }) = _
  rw [h1]
  unfold meanwhile
  rw [show ∀ u : State, { callingFirst ⟨t, none, some (!inputPresent s), none⟩ u with rx := s.rx.pop.2 } =
      callingFirst ⟨t, none, some (!inputPresent s), none⟩ { u with rx := s.rx.pop.2 } from fun _ => rfl, ht]
  simp [protectSampled, diskSampled, readCd, readWp, hcd, hwp, record, otherReturns, callingFirst, sampled, sampledStatus,
    inputEvents, inputPresent, inputProtected]

/-- Settles O14: with nothing in between `RefreshInputs` is `sampled`; a `status` call of another thread takes its readings where
its moves fall. -/
theorem statusSamplesInputs : Obligations.StatusSamplesInputs := by
  unfold Obligations.StatusSamplesInputs
  refine ⟨fun s hq => ⟨?_, ?_⟩, fun s thread later h => ⟨fun tx ho => ?_, fun hcd hwp ho => ?_⟩⟩
  · simp [exec, execRefreshInputs, Res.outcome, refreshInputs_eq hq]
  · refine ⟨returnToHost (.drive (sampledStatus s)) (enterOwn .sCheck (sampled s)), ?_, turnedAway_return _ _ hq⟩
    simp only [exec, execStatus, refreshInputs_eq hq, meanwhile_quiet (s := sampled s) hq]
    rfl
  · simp only [exec, execXchg, Res.outcome, xchg_status h ho]
    rfl
  · simp only [exec, execDeselect, Res.outcome, deselect_status h hcd hwp ho]

/-! ### The lock -/

theorem exec_lock_granted {s : State} {f : Feed Bool} (hq : quiet s) (hr : lockRace s = (true, { s with contend := f })) :
    exec .lock s = .next { s with
      contend := f, lock := lockTaken s, spiCfg := lockConfig s
      events := .configure (lockConfig s) :: .lock s.me :: s.events, ret := .none } := by
  have hg := grantLock_eq (s := { s with contend := f }) hq
  simp only [exec, execLock, lockThen, hr, if_true, takeLock, hg]
  rfl

theorem exec_lock_waits {s : State} {f : Feed Bool} (hr : lockRace s = (false, { s with contend := f })) :
    exec .lock s = .next { s with contend := f, waiters := s.waiters ++ [⟨s.me, .bareLock⟩] } := by
  simp only [exec, execLock, lockThen, hr, Bool.false_eq_true, if_false]
  rfl

/-- Settles O15: the four outcomes of the race for the lock. -/
theorem lockAcquires : Obligations.LockAcquires := by
  unfold Obligations.LockAcquires
  refine fun s => ⟨fun hq ho => ?_, fun hq ho hc => ?_, fun o ho hne => ?_, fun ho hc => ?_⟩
  · rw [exec_lock_granted (f := s.contend) hq (by simp [lockRace, ho]), lockTaken, if_pos ho, ho]
    rfl
  · rw [exec_lock_granted (f := s.contend.pop.2) hq (by simp [lockRace, ho, hc]), lockTaken, if_neg (by simp [ho])]
    rfl
  · exact exec_lock_waits (f := s.contend) (by simp [lockRace, ho, hne])
  · exact exec_lock_waits (f := s.contend.pop.2) (by simp [lockRace, ho, hc])

/-! ### The bridge's preconditions -/

theorem placeHolds_placeOf (l : Loc) (len : Nat) : placeHolds (placeOf l) len = true ↔ (l = .csd → len ≤ 16) := by
  cases l <;> simp [placeHolds, placeOf]

/-- Settles O19: with nothing pending the transfer is registered, unless the scratch array is too short. -/
theorem startTransferRegisters : Obligations.StartTransferRegisters := by
  unfold Obligations.StartTransferRegisters
  intro s dir loc len hp
  have hp : pendingHere s = false := hp
  refine ⟨fun hq hh => ?_, fun hl hlen => ?_⟩
  · have hh := (placeHolds_placeOf loc len.toNat).2 hh
    have hs : startTransfer dir (placeOf loc) len.toNat s = .ok () (started dir (placeOf loc) len.toNat s) := by
      simp [startTransfer, hp, hh, started]
    rw [exec, execStartTransfer, hs, started_quiet _ _ _ hq]
    rfl
  · subst hl
    have hh : placeHolds (placeOf .csd) len.toNat = false := by simpa [placeHolds, placeOf] using hlen
    simp [exec, execStartTransfer, startTransfer, hp, hh, Res.outcome]

/-- Settles O21: each breach meets its own branch of the turn or of `StartTransfer`. -/
theorem bridgePreconditionsRefused : Obligations.BridgePreconditionsRefused := by
  unfold Obligations.BridgePreconditionsRefused
  refine ⟨fun s dir loc len hp => ?_, fun s p ha hp => ?_, fun s p ha hp => ?_, fun s c ha ho => ?_, fun s ha hp ho => ?_,
    fun s ha he => ?_⟩
  · have hp : pendingHere s = true := hp
    simp [exec, execStartTransfer, startTransfer, hp, Res.outcome]
  · simp [step, ha, agentTurn, peerTurn, hp]
  · simp [step, ha, agentTurn, peerTurn, hp]
  · simp [step, ha, agentTurn, busUserTurn, ho]
  · simp [step, ha, agentTurn, peerTurn, hp, ho]
  · simp [step, ha, agentTurn, engineTurn, he]

end Sys2Proof.Machine
end

section
/-! SUPPORT. The transport primitives to a card that answers, idles, stays busy or fails (40_transport.md R132 to R147), the
transfer bridge, and the single bytes on the link. -/

namespace Sys2Proof.Machine

set_option Elab.async false

open Sys2Proof

/-! ### The engine's exchanges for any place -/

theorem placeRead_exchanged (p : Place) (i : Nat) (o inp rest : List Byte) (s : State) :
    placeRead p i (exchanged o inp rest s) = placeRead p i s := by cases p <;> rfl

/-- Byte after byte of the place goes out; what comes back is dropped (R292). -/
theorem moveOut_place {p : Place} {i : Nat} {inp rest : List Byte} {s : State} (h : s.rx.next = inp ++ rest) (hq : quiet s) :
    moveOut p i inp.length s =
      exchanged ((List.range inp.length).map fun j => placeRead p (i + j) s) inp rest s := by
  induction inp generalizing i s with
  | nil =>
    have : s.rx = { s.rx with next := rest } := by rw [← show s.rx.next = rest from h]
    simp only [List.length_nil, moveOut, exchanged, ← this]
    rfl
  | cons d u ih =>
    simp only [List.cons_append] at h
    rw [List.length_cons, moveOut, send_answered h, ih (s := exchanged [placeRead p i s] [d] (u ++ rest) s) rfl hq,
      exchanged_exchanged [placeRead p i s] _ [d] u _ rest rfl]
    simp only [placeRead_exchanged, List.range_succ_eq_map, List.map_cons, List.map_map, List.cons_append, List.nil_append]
    refine congrArg (fun l => exchanged l (d :: u) rest s) (List.cons_eq_cons.2 ⟨rfl, List.map_congr_left fun j _ => ?_⟩)
    rw [Function.comp, Nat.add_right_comm]
    rfl

theorem waitForTransfer_fires {x : Transfer} {s : State} (hp : s.pending.get s.cfg.peripheralId = true)
    (he : s.engine = some x) (hm : x.moved = false) (hf : (moveBytes x s).fires.pop.1 = true) :
    waitForTransfer s = .ok () (complete { moveBytes x s with fires := (moveBytes x s).fires.pop.2 }) := by
  have hp : pendingHere s = true := hp
  simp [waitForTransfer, hp, he, runEngine, hm, hf]

theorem waitForTransfer_idle {s : State} (hp : s.pending.get s.cfg.peripheralId = false) : waitForTransfer s = .ok () s := by
  have hp : pendingHere s = false := hp
  simp [waitForTransfer, hp]

theorem exec_waitForTransfer_ok {s t : State} (h : waitForTransfer s = .ok () t) :
    exec .waitForTransfer s = .next { t with ret := .none } := congrArg (Res.outcome fun _ => .none) h

/-- Settles O20: the engine's exchanges for the place, then the completion. -/
theorem transferMovesBytes : Obligations.TransferMovesBytes := by
  unfold Obligations.TransferMovesBytes
  intro s place bytes rest hq hf hrx hp
  refine ⟨fun he => ?_, fun he => ?_, exec_waitForTransfer_ok (waitForTransfer_idle (pending_get_set _ _ _))⟩
  · have hmove : moveBytes ⟨.out, place, bytes.length, false⟩ s =
        exchanged ((List.range bytes.length).map fun i => placeRead place i s) bytes rest s := by
      have h := moveOut_place (p := place) (i := 0) hrx hq
      simp only [Nat.zero_add] at h
      exact h
    have hw := waitForTransfer_fires hp he rfl (by rw [hmove]; exact hf)
    rw [hmove, complete_quiet (by exact hq)] at hw
    exact exec_waitForTransfer_ok hw
  · have hmove : moveBytes ⟨.inp, place, bytes.length, false⟩ s =
        { exchanged (List.replicate bytes.length s.cfg.dummy) bytes rest s with
          mem := memAfter place bytes s, csd := csdAfter place bytes s } := by
      have h := moveIn_answered (p := place) (i := 0) hrx hq
      cases place <;> exact h
    have hw := waitForTransfer_fires hp he rfl (by rw [hmove]; exact hf)
    rw [hmove, complete_quiet (by exact hq)] at hw
    rw [reads_eq]
    exact exec_waitForTransfer_ok hw

/-! ### Waits that never end -/

theorem moveBytes_step (x : Transfer) (s : State) : inpStep s (moveBytes x s) := by
  unfold moveBytes
  split
  · exact (moveOut_step _ _ _ s).command.inp
  · exact moveIn_step _ _ _ s

theorem moveOut_bridge (p : Place) (i k : Nat) (s : State) :
    (moveOut p i k s).pending = s.pending ∧ (moveOut p i k s).fires = s.fires ∧ (moveOut p i k s).tickAdv = s.tickAdv := by
  induction k generalizing i s with
  | zero => exact ⟨rfl, rfl, rfl⟩
  | succ j ih => exact ih _ _

theorem placeWrite_bridge (p : Place) (i : Nat) (v : Byte) (s : State) :
    (placeWrite p i v s).fires = s.fires ∧ (placeWrite p i v s).tickAdv = s.tickAdv := by
  cases p <;> exact ⟨rfl, rfl⟩

theorem moveIn_bridge (p : Place) (i k : Nat) (s : State) :
    (moveIn p i k s).fires = s.fires ∧ (moveIn p i k s).tickAdv = s.tickAdv := by
  induction k generalizing i s with
  | zero => exact ⟨rfl, rfl⟩
  | succ j ih =>
    obtain ⟨h1, h2⟩ := ih (i + 1) (placeWrite p i (xchg s.cfg.dummy s).1 (xchg s.cfg.dummy s).2)
    obtain ⟨k1, k2⟩ := placeWrite_bridge p i (xchg s.cfg.dummy s).1 (xchg s.cfg.dummy s).2
    exact ⟨h1.trans k1, h2.trans k2⟩

/-- The exchanges of a transfer use up no completion signal and no reading of the counter. -/
theorem moveBytes_bridge (x : Transfer) (s : State) :
    (moveBytes x s).pending = s.pending ∧ (moveBytes x s).fires = s.fires ∧ (moveBytes x s).tickAdv = s.tickAdv := by
  unfold moveBytes
  split
  · exact moveOut_bridge _ _ _ s
  · exact ⟨moveIn_pending _ _ _ s, moveIn_bridge _ _ _ s⟩

theorem waitForTransfer_hangs {x : Transfer} {s : State} (hp : s.pending.get s.cfg.peripheralId = true)
    (he : s.engine = some x) (hf : s.fires.pop.1 = false) :
    ∃ u, waitForTransfer s = .hang .completion u ∧ u.me = s.me ∧ u.cs = s.cs ∧ u.lock = s.lock ∧ u.pending = s.pending := by
  have hp : pendingHere s = true := hp
  obtain ⟨hpend, hfires, -⟩ := moveBytes_bridge x s
  by_cases hm : x.moved = true
  · exact ⟨s, by simp [waitForTransfer, hp, he, runEngine, hm], rfl, rfl, rfl, rfl⟩
  · refine ⟨{ moveBytes x s with fires := (moveBytes x s).fires.pop.2, engine := some { x with moved := true } }, ?_,
      (moveBytes_step x s).io.1.me, moveBytes_cs x s, (moveBytes_step x s).io.1.lock, hpend⟩
    simp [waitForTransfer, hp, he, runEngine, hm, hfires, hf]

/-- With the counter at a standstill no time passes between two readings. -/
theorem expired_frozen {w : Window} {s : State} {a : Nat} (hadv : s.tickAdv = ⟨[], a⟩) (ha : a % tickModulus s.cfg = 0)
    (hw : w.start = s.tick) (hs : s.tick < tickModulus s.cfg) (hd : w.durationMs ≠ 0#32) : (expired w s).1 = false := by
  have hn : (now s).1 = s.tick := by
    show (s.tick + s.tickAdv.pop.1) % tickModulus s.cfg = s.tick
    rw [hadv]
    show (s.tick + a) % tickModulus s.cfg = s.tick
    rw [Nat.add_mod, ha, Nat.add_zero, Nat.mod_mod, Nat.mod_eq_of_lt hs]
  have hpos : 0 < w.durationMs.toNat := Nat.pos_of_ne_zero fun h => hd (BitVec.eq_of_toNat_eq h)
  simp only [expired, hn, hw, elapsed_self]
  exact decide_eq_false (by omega)

theorem now_frozen {s : State} {a : Nat} (hadv : s.tickAdv = ⟨[], a⟩) :
    (now s).2.tickAdv = ⟨[], a⟩ ∧ (now s).2.tick = (now s).1 ∧ (now s).1 < tickModulus s.cfg :=
  ⟨by rw [now_tickAdv, hadv]; rfl, rfl, Nat.mod_lt _ (tickModulus_pos _)⟩

theorem frozen_of {s : State} {a : Nat} {b : Byte} (hrx : s.rx = ⟨[], b⟩) (hadv : s.tickAdv = ⟨[], a⟩)
    (ha : a % tickModulus s.cfg = 0) : frozen s = true := by
  simp [frozen, ticksFrozen, hrx, hadv, ha]

/-- The state after one poll that goes on: the exchange, the reading, the delay. -/
def polledOnce (w : Window) (s : State) : State := delay s.cfg.pollDelayMs (expired w (xchg s.cfg.dummy s).2).2

theorem polledOnce_keeps (w : Window) (s : State) :
    (polledOnce w s).me = s.me ∧ (polledOnce w s).cs = s.cs ∧ (polledOnce w s).lock = s.lock := ⟨rfl, rfl, rfl⟩

theorem waitReadyLoop_hangs {j a : Nat} {w : Window} {b : Byte} {s : State} (hrx : s.rx = ⟨[], b⟩) (hb : b ≠ 0xFF#8)
    (hadv : s.tickAdv = ⟨[], a⟩) (ha : a % tickModulus s.cfg = 0) (hw : w.start = s.tick) (hs : s.tick < tickModulus s.cfg)
    (hd : w.durationMs ≠ 0#32) : waitReadyLoop (j + 1) w s = .hang .waitReady (polledOnce w s) := by
  have hbyte : (xchg s.cfg.dummy s).1 ≠ readyByte := by
    show s.rx.pop.1 ≠ readyByte
    rw [hrx]
    exact hb
  have hexp : (expired w (xchg s.cfg.dummy s).2).1 = false := expired_frozen (s := (xchg s.cfg.dummy s).2) hadv ha hw hs hd
  have hrx' : (polledOnce w s).rx = ⟨[], b⟩ := by
    show s.rx.pop.2 = _
    rw [hrx]
    rfl
  have hadv' : (polledOnce w s).tickAdv = ⟨[], a⟩ := by
    show s.tickAdv.pop.2 = _
    rw [hadv]
    rfl
  have hnever : readyNever (polledOnce w s) = true := by
    simp only [readyNever, frozen_of hrx' hadv' ha, hrx']
    simpa [readyByte] using hb
  rw [waitReadyLoop]
  simp only [hbyte, if_false, hexp, Bool.false_eq_true]
  exact if_pos hnever

theorem tokenLoop_hangs {j a : Nat} {w : Window} {s : State} (hrx : s.rx = ⟨[], 0xFF#8⟩)
    (hadv : s.tickAdv = ⟨[], a⟩) (ha : a % tickModulus s.cfg = 0) (hw : w.start = s.tick) (hs : s.tick < tickModulus s.cfg)
    (hd : w.durationMs ≠ 0#32) :
    ∃ u, tokenLoop (j + 1) w s = .hang .dataToken u ∧ u.me = s.me ∧ u.cs = s.cs ∧ u.lock = s.lock ∧ u.mem = s.mem
      ∧ u.csd = s.csd := by
  have hbyte : (xchg s.cfg.dummy s).1 = 0xFF#8 := by
    show s.rx.pop.1 = _
    rw [hrx]
    rfl
  have hexp : (expired w { (xchg s.cfg.dummy s).2 with tok := 0xFF#8 }).1 = false :=
    expired_frozen (s := { (xchg s.cfg.dummy s).2 with tok := 0xFF#8 }) hadv ha hw hs hd
  refine ⟨delay s.cfg.pollDelayMs (expired w { (xchg s.cfg.dummy s).2 with tok := 0xFF#8 }).2, ?_, rfl, rfl, rfl, rfl, rfl⟩
  have hnever : tokenNever (delay s.cfg.pollDelayMs (expired w { (xchg s.cfg.dummy s).2 with tok := 0xFF#8 }).2) = true := by
    have hrx' : (delay s.cfg.pollDelayMs (expired w { (xchg s.cfg.dummy s).2 with tok := 0xFF#8 }).2).rx = ⟨[], 0xFF#8⟩ := by
      show s.rx.pop.2 = _
      rw [hrx]
      rfl
    have hadv' : (delay s.cfg.pollDelayMs (expired w { (xchg s.cfg.dummy s).2 with tok := 0xFF#8 }).2).tickAdv = ⟨[], a⟩ := by
      show s.tickAdv.pop.2 = _
      rw [hadv]
      rfl
    simp only [tokenNever, frozen_of hrx' hadv' ha, hrx']
    rfl
  rw [tokenLoop]
  simp only [hbyte, ne_eq, not_true_eq_false, if_false, hexp, Bool.false_eq_true]
  exact if_pos hnever

/-- Settles O22: the transfer that has no signal, and the first poll of a loop whose inputs stand still. -/
theorem waitsNeverEnd : Obligations.WaitsNeverEnd := by
  unfold Obligations.WaitsNeverEnd
  refine ⟨fun s x he hp hf => ?_, fun s ms b a hrx hb hadv ha hms => ?_, fun s dest len a hrx hadv ha => ?_⟩
  · obtain ⟨u, hu, hme, hcs, hl, hpend⟩ := waitForTransfer_hangs hp he hf
    refine ⟨{ u with hung := some ⟨.completion, u.me, none⟩ }, congrArg (Res.outcome fun _ => .none) hu, ?_, hcs, hl, hpend⟩
    rw [hme]
  · obtain ⟨h1, h2, h3⟩ := now_frozen hadv
    have hk := polledOnce_keeps (startWindow ms s).1 (startWindow ms s).2
    have hl := waitReadyLoop_hangs (j := (startWindow ms s).2.rx.next.length + (startWindow ms s).2.tickAdv.next.length +
      tickModulus (startWindow ms s).2.cfg) (w := (startWindow ms s).1) (s := (startWindow ms s).2) hrx hb h1 ha h2.symm h3 hms
    have hw : waitReady ms s = .hang .waitReady (polledOnce (startWindow ms s).1 (startWindow ms s).2) := by
      unfold waitReady pollFuel
      dsimp only
      rw [hl]
      rfl
    generalize polledOnce (startWindow ms s).1 (startWindow ms s).2 = u at hw hk
    obtain ⟨hme, hcs, hlock⟩ := hk
    refine ⟨{ u with hung := some ⟨.waitReady, u.me, none⟩ }, congrArg (Res.outcome .bool) hw, ?_, hcs, hlock⟩
    rw [hme]
    rfl
  · obtain ⟨h1, h2, h3⟩ := now_frozen hadv
    obtain ⟨u, hl, hme, hcs, hlock, hmem, hcsd⟩ := tokenLoop_hangs (j := (startWindow tTokenMs s).2.rx.next.length +
      (startWindow tTokenMs s).2.tickAdv.next.length + tickModulus (startWindow tTokenMs s).2.cfg)
      (w := (startWindow tTokenMs s).1) (s := (startWindow tTokenMs s).2) hrx h1 ha h2.symm h3
      (show tTokenMs ≠ 0#32 by decide)
    have hr : receiveDataBlock (placeOf dest) len.toNat s = .hang .dataToken u := by
      unfold receiveDataBlock pollFuel
      dsimp only
      rw [hl]
      rfl
    refine ⟨{ u with hung := some ⟨.dataToken, u.me, none⟩ }, congrArg (Res.outcome .bool) hr, ?_, hcs, hlock, hmem, hcsd⟩
    rw [hme]
    rfl

/-! ### waitReady and select -/

theorem exec_waitReady_ok {ms : U32} {b : Bool} {s t : State} (h : waitReady ms s = .ok b t) :
    exec (.waitReady ms) s = .next { t with ret := .bool b } := congrArg (Res.outcome .bool) h

theorem exec_select_ok {b : Bool} {s t : State} (h : select s = .ok b t) :
    exec .select s = .next { t with ret := .bool b } := congrArg (Res.outcome .bool) h

/-- Settles O24: the loop goes through the busy bytes and then ends on 0xFF, or on the poll after which the window is over. -/
theorem waitReadyOutcome : Obligations.WaitReadyOutcome := by
  unfold Obligations.WaitReadyOutcome
  refine fun s ms bs rest a hq hbusy => ⟨fun hrx => ?_, fun b hb hms hrx => ?_⟩
  · obtain ⟨t, hw, ht, hsent, -⟩ := waitReady_afterBusy hbusy hrx
    refine ⟨{ t with ret := .bool true }, exec_waitReady_ok hw, ?frame, rfl, ?_, ?_, ?_, ?_, ?_, hsent⟩
    case frame => rw [ht]; exact ⟨rfl, heard.same rfl⟩
    all_goals rw [ht]
  · obtain ⟨t, hw, ht, hsent, -⟩ := waitReady_expires hbusy hb hms hrx
    refine ⟨{ t with ret := .bool false }, exec_waitReady_ok hw, ?frame, rfl, ?_, ?_, ?_, ?_, ?_, hsent⟩
    case frame => rw [ht]; exact ⟨rfl, heard.same rfl⟩
    all_goals rw [ht]

/-- A command whose `select` fails sends no frame and gives 0xFF (R136). -/
theorem sendCommand_notSelected {idx : Byte} {arg : U32} {s t : State} (h6 : idx.getLsbD 6 = false) (h7 : idx.getLsbD 7 = false)
    (hi : idx ≠ s.cfg.stopCmdIndex) (h : select (deselect s) = .ok false t) :
    sendCommand idx arg s = .ok 0xFF#8 { t with r1 := 0xFF#8 } := by
  simp only [sendCommand, h6, h7, sendPlain, hi, Bool.false_eq_true, if_false, h, Res.bind_ok]
  rfl

/-- Settles O25: after its dummy byte `select` is a `waitReady`; inside a command a failed one ends it. -/
theorem selectOutcome : Obligations.SelectOutcome := by
  unfold Obligations.SelectOutcome
  refine fun s bs rest d a hq hbusy => ⟨fun hrx => ?_, fun b e hb hT hrx => ?_, fun b c e index arg hb hT hrx h6 h7 hi => ?_⟩
  · obtain ⟨t, hw, ht, hsent, -⟩ := select_afterBusy hbusy hrx
    refine ⟨{ t with ret := .bool true }, exec_select_ok hw, ?frame, rfl, ?_, ?_, ?_, ?_, ?_, hsent⟩
    case frame => rw [ht]; exact ⟨rfl, heard.same rfl⟩
    all_goals rw [ht]
  · obtain ⟨t, hw, ht, hsent, -⟩ := select_expires hbusy hb hT hrx
    refine ⟨{ t with ret := .bool false }, exec_select_ok hw, ?frame, rfl, ?_, ?_, ?_, ?_, ?_, hsent⟩
    case frame => rw [ht]; exact ⟨rfl, heard.same rfl⟩
    all_goals rw [ht]
  · have hdes := deselect_answered hrx
    obtain ⟨t, hw, ht, hsent, -⟩ := select_expires (s := deselect s) (bs := bs) (rest := rest) (by rw [hdes]; exact hbusy) hb hT
      (by rw [hdes]; rfl) (by rw [hdes]; exact hq)
    refine ⟨_, exec_sendCommand_ok (sendCommand_notSelected h6 h7 hi hw), rfl, rfl, ?fr, ?cs, ?cause, ?hung, ?sent⟩
    case sent =>
      show t.sent = _
      rw [hsent, deselect_cfg, hdes, sent_exchanged_one, sent_driven, List.append_assoc, List.singleton_append,
        ← List.replicate_succ]
    case fr | hung =>
      rw [ht]
      rfl
    case cs | cause => rw [ht]

/-! ### Commands -/

/-- Settles O27: the state is the model's `answered`, and its bytes are those of `commandSent`. -/
theorem sendCommandAnswered : Obligations.SendCommandAnswered := by
  unfold Obligations.SendCommandAnswered
  intro s index arg a rest hq ha h6 h7 hi hrx
  refine ⟨exec_sendCommand_ok (sendCommand_answered ha h6 h7 hi hrx), ?_, rfl⟩
  rw [sent_answered index arg rest s ha, commandSent, ← List.append_assoc, ← List.append_assoc]
  rfl

/-- Settles O29: CMD55 as a whole command, and the command behind it when its value is at most 1. -/
theorem applicationCommandPrefix : Obligations.ApplicationCommandPrefix := by
  unfold Obligations.ApplicationCommandPrefix
  refine fun s index arg a b rest hq ha hb h6 h7 h55 hi => ⟨fun hr hrx => ?_, fun hr hrx => ?_⟩
  · exact exec_sendCommand_ok (sendCommand_application ha hb h6 h7 h55 hi (decide_eq_true hr) hrx)
  · exact exec_sendCommand_ok (sendCommand_prefixFails ha h6 h7 h55 (decide_eq_false (by omega)) hrx)

/-- The stop-transmission frame: its six bytes, the discarded byte, the response poll (R140). -/
theorem frameAndPoll_stop {idx : Byte} {arg : U32} {echo gap rest : List Byte} {d r : Byte} {s : State}
    (hi : idx = s.cfg.stopCmdIndex) (he : echo.length = 6) (hgl : gap.length ≤ 9) (hg : ∀ b ∈ gap, b.getLsbD 7 = true)
    (hr : r.getLsbD 7 = false) (h : s.rx.next = echo ++ d :: (gap ++ r :: rest)) (hq : quiet s) :
    frameAndPoll idx arg s =
      { exchanged (frameBytes s.cfg idx arg ++ List.replicate (gap.length + 2) s.cfg.dummy) (echo ++ d :: (gap ++ [r])) rest s with
        fr := ⟨idx, arg, trailer s.cfg idx⟩, r1 := r, n := BitVec.ofNat 4 (9 - gap.length) } := by
  have h1 : sendAll (frameBytes s.cfg idx arg) { s with fr := ⟨idx, arg, trailer s.cfg idx⟩ } =
      exchanged (frameBytes s.cfg idx arg) echo (d :: (gap ++ r :: rest)) { s with fr := ⟨idx, arg, trailer s.cfg idx⟩ } :=
    sendAll_answered (s := { s with fr := ⟨idx, arg, trailer s.cfg idx⟩ }) (by rw [frameBytes_length, he]) h hq
  have h2 : send s.cfg.dummy (exchanged (frameBytes s.cfg idx arg) echo (d :: (gap ++ r :: rest))
      { s with fr := ⟨idx, arg, trailer s.cfg idx⟩ }) =
      exchanged (frameBytes s.cfg idx arg ++ [s.cfg.dummy]) (echo ++ [d]) (gap ++ r :: rest)
        { s with fr := ⟨idx, arg, trailer s.cfg idx⟩ } := by
    rw [send_answered rfl (by exact hq), exchanged_exchanged _ _ _ _ _ _ (by rw [frameBytes_length, he])]
  have h3 := pollResponse_answered hg (k := 10) (m := 9) (.inl hr) (by omega) hgl (le_refl 9)
    (s := { exchanged (frameBytes s.cfg idx arg ++ [s.cfg.dummy]) (echo ++ [d]) (gap ++ r :: rest)
      { s with fr := ⟨idx, arg, trailer s.cfg idx⟩ } with n := BitVec.ofNat 4 10 }) rfl rfl (by exact hq)
  have h4 := exchanged_exchanged (frameBytes s.cfg idx arg ++ [s.cfg.dummy]) (List.replicate (gap.length + 1) s.cfg.dummy)
    (echo ++ [d]) (gap ++ [r]) (gap ++ r :: rest) rest (by simp [frameBytes_length, he]) s
  have hout : frameBytes s.cfg idx arg ++ [s.cfg.dummy] ++ List.replicate (gap.length + 1) s.cfg.dummy =
      frameBytes s.cfg idx arg ++ List.replicate (gap.length + 2) s.cfg.dummy := by
    rw [List.append_assoc, List.singleton_append, ← List.replicate_succ]
  have hin : echo ++ [d] ++ (gap ++ [r]) = echo ++ d :: (gap ++ [r]) := by simp
  rw [hout, hin] at h4
  have hi' : idx = (exchanged (frameBytes s.cfg idx arg) echo (d :: (gap ++ r :: rest))
    { s with fr := ⟨idx, arg, trailer s.cfg idx⟩ }).cfg.stopCmdIndex := hi
  have h5 : frameAndPoll idx arg s = pollResponse 10 { exchanged (frameBytes s.cfg idx arg ++ [s.cfg.dummy]) (echo ++ [d])
      (gap ++ r :: rest) { s with fr := ⟨idx, arg, trailer s.cfg idx⟩ } with n := BitVec.ofNat 4 10 } := by
    rw [← h2, frameAndPoll]
    simp only [h1, if_pos hi']
    rfl
  exact (h5.trans h3).trans (congrArg (fun u : State => { u with
    fr := ⟨idx, arg, trailer s.cfg idx⟩, r1 := r, n := BitVec.ofNat 4 (9 - gap.length) }) h4)

theorem sendCommand_stop {arg : U32} {s : State} (h12 : s.cfg.stopCmdIndex = 12#8) (hcs : s.cs = .asserted) :
    sendCommand 12#8 arg s = .ok (frameAndPoll 12#8 arg s).r1 (frameAndPoll 12#8 arg s) := by
  simp [sendCommand, sendPlain, h12, hcs]

/-- Settles O30: the frame goes out in the open selection, and one more byte is dropped before the poll. -/
theorem stopTransmissionCommand : Obligations.StopTransmissionCommand := by
  unfold Obligations.StopTransmissionCommand
  intro s arg echo gap rest d r hq h12 hcs he hgl hg hr hrx
  have hf := frameAndPoll_stop (idx := 12#8) (arg := arg) h12.symm he hgl hg hr hrx hq
  have hs := sendCommand_stop (arg := arg) h12 hcs
  rw [hf] at hs
  refine ⟨_, rfl, exec_sendCommand_ok hs, ?_⟩
  have hok : responded r = true := by rw [responded, hr]; rfl
  rw [exec, execCmd12, cmd12, hs, Res.bind_ok, hok]
  rfl

/-- Settles O31: each precondition is a branch of `sendCommand`. -/
theorem commandPreconditionsRefused : Obligations.CommandPreconditionsRefused := by
  unfold Obligations.CommandPreconditionsRefused
  refine ⟨fun s arg h12 hcs => ?_, fun s index arg h6 => ?_⟩
  · have h : sendCommand 12#8 arg s = .refuse .stopOutsideSelection := by simp [sendCommand, sendPlain, h12, hcs]
    refine ⟨congrArg (Res.outcome .byte) h, ?_⟩
    rw [exec, execCmd12, cmd12, h]
    rfl
  · have h : sendCommand index arg s = .refuse .reservedIndex := by simp [sendCommand, h6]
    exact congrArg (Res.outcome .byte) h

/-! ### receiveDataBlock -/

theorem exec_receiveDataBlock_ok {dest : Loc} {len : BitVec 16} {b : Bool} {s t : State}
    (h : receiveDataBlock (placeOf dest) len.toNat s = .ok b t) :
    exec (.receiveDataBlock dest len) s = .next { t with ret := .bool b } := congrArg (Res.outcome .bool) h

theorem csdWriteAll_take (v : Vector Byte 16) {bs : List Byte} (h : bs.length ≤ 16) :
    (csdWriteAll v 0 bs).toList.take bs.length = bs := by
  refine List.ext_getElem (by simpa using h) fun i h1 h2 => ?_
  rw [List.getElem_take, Vector.getElem_toList, csdWriteAll_get v 0 bs i (by omega), dif_pos ⟨Nat.zero_le _, h2⟩]
  rfl

/-- Settles O33: the token at once, then the transfer into the place; what is stored is the payload and nothing else. -/
theorem receiveDataBlockStores : Obligations.ReceiveDataBlockStores := by
  unfold Obligations.ReceiveDataBlockStores
  intro s dest len k rest hq hlen hp hf hh hwf hrx
  have hr := receiveDataBlock_received (p := placeOf dest) hp
    ((placeHolds_placeOf dest k.payload.length).2 (hlen ▸ hh)) hf hrx
  rw [hlen] at hr
  refine ⟨exec_receiveDataBlock_ok hr, ?_, ?_⟩
  · rintro off rfl
    refine ⟨fun i hi => Memory.read_writeAll_inside hwf hi, fun a ha => ?_, rfl⟩
    exact Memory.read_writeAll_outside (hlen ▸ ha)
  · rintro rfl
    exact ⟨hlen ▸ csdWriteAll_take s.csd (hlen ▸ hh rfl), rfl⟩

/-- One exchange of the token poll. -/
def tokenRead (d : Byte) (rest : List Byte) (t : State) : State := { exchanged [t.cfg.dummy] [d] rest t with tok := d }

/-- A byte that is neither idle nor the token ends the poll, and nothing is stored (R146). -/
theorem receiveDataBlock_wrongToken {dest : Place} {len j a : Nat} {d : Byte} {rest : List Byte} {s : State} (hb : idleFor j a s)
    (hd : d ≠ 0xFF#8) (hd' : d ≠ 0xFE#8) (h : s.rx.next = List.replicate j 0xFF#8 ++ d :: rest) (hq : quiet s) :
    ∃ u, receiveDataBlock dest len s = .ok false u ∧
      u = { s with
        rx := { s.rx with next := rest }, tick := u.tick, events := u.events, tok := d, cause := .diskError .wrongToken } ∧
      u.sent = s.sent ++ List.replicate (j + 1) s.cfg.dummy := by
  obtain ⟨t, ht, -, -, hsent, k, hk⟩ := receiveDataBlock_afterIdle (dest := dest) (len := len) hb (by simp) h
  have htq : quiet t := by rw [ht]; exact hq
  have hcfg : t.cfg = s.cfg := by rw [ht]
  have hloop := tokenLoop_found (j := k) (w := (startWindow tTokenMs s).1) (rest := rest) hd (by rw [ht]) htq
  refine ⟨raise (.diskError .wrongToken) (closeWindow (tokenRead d rest t)), ?_, ?_, ?_⟩
  · rw [hk, hloop]
    simp only [Res.bind_ok, Bool.not_true, Bool.false_eq_true, if_false]
    exact if_pos hd'
  · rw [ht]
    rfl
  · show (exchanged [t.cfg.dummy] [d] rest t).sent = _
    rw [sent_exchanged_one, hsent, hcfg, List.append_assoc, ← List.replicate_succ']

theorem tokenLoop_expires {j : Nat} {w : Window} {rest : List Byte} {t : State} (h : t.rx.next = 0xFF#8 :: rest) (hq : quiet t)
    (hx : (expired w (tokenRead 0xFF#8 rest t)).1 = true) :
    tokenLoop (j + 1) w t = .ok false
      (raise (.timeout .dataToken) (now (tokenRead 0xFF#8 rest t)).2) := by
  rw [tokenLoop, xchg_answered h hq]
  simp only [ne_eq, not_true_eq_false, if_false]
  exact if_pos hx

/-- A line that idles for the whole window: no token, nothing stored (R146). -/
theorem receiveDataBlock_noToken {dest : Place} {len j a : Nat} {rest : List Byte} {s : State} (hb : idleFor j a s)
    (hT : 200 ≤ (j + 1) * a) (h : s.rx.next = List.replicate (j + 1) 0xFF#8 ++ rest) (hq : quiet s) :
    ∃ u, receiveDataBlock dest len s = .ok false u ∧
      u = { s with
        rx := { s.rx with next := rest }, tick := u.tick, events := u.events, tok := 0xFF#8, cause := .timeout .dataToken } ∧
      u.sent = s.sent ++ List.replicate (j + 1) s.cfg.dummy := by
  have h : s.rx.next = List.replicate j 0xFF#8 ++ 0xFF#8 :: rest := by
    rw [h, List.replicate_succ', List.append_assoc, List.singleton_append]
  obtain ⟨t, ht, htick, hel, hsent, k, hk⟩ := receiveDataBlock_afterIdle (dest := dest) (len := len) hb (by simp) h
  obtain ⟨hadv, -, hM⟩ := hb
  rw [Nat.add_mul, Nat.one_mul] at hT hM
  have htq : quiet t := by rw [ht]; exact hq
  have hcfg : t.cfg = s.cfg := by rw [ht]
  have htadv : t.tickAdv = ⟨[], a⟩ := by rw [ht]; exact hadv
  have hx : (expired (startWindow tTokenMs s).1 (tokenRead 0xFF#8 rest t)).1 = true := by
    show decide (200 ≤ elapsed t.cfg (startWindow tTokenMs s).1.start ((t.tick + t.tickAdv.pop.1) % tickModulus t.cfg)) = true
    have hst : (startWindow tTokenMs s).1.start < tickModulus s.cfg := Nat.mod_lt _ (tickModulus_pos _)
    rw [hcfg, htadv, show (⟨[], a⟩ : Feed Nat).pop.1 = a from rfl, elapsed_advance hst htick (by rw [hel]; exact hM), hel]
    exact decide_eq_true hT
  refine ⟨closeWindow (raise (.timeout .dataToken)
    (now (tokenRead 0xFF#8 rest t)).2), ?_, ?_, ?_⟩
  · rw [hk, tokenLoop_expires (by rw [ht]) htq hx]
    rfl
  · have htadv' : t.tickAdv.pop.2 = t.tickAdv := by rw [htadv]; rfl
    rw [now_quiet (s := tokenRead 0xFF#8 rest t) htq]
    simp only [closeWindow, raise, tokenRead, exchanged, htadv']
    rw [ht]
    rfl
  · have hs : (closeWindow (raise (.timeout .dataToken)
        (now (tokenRead 0xFF#8 rest t)).2)).sent = t.sent ++ [s.cfg.dummy] := by
      rw [now_quiet (s := tokenRead 0xFF#8 rest t) htq]
      simp [State.sent, tokenRead, exchanged, Event.sent, hcfg]
    rw [hs, hsent, List.append_assoc, ← List.replicate_succ']

/-- The state after a block whose token has been read: the transfer into its place, two dropped bytes. -/
def storedBlock (p : Place) (k : Packet) (rest : List Byte) (v : State) : State :=
  { v with
    mem := memAfter p k.payload v, csd := csdAfter p k.payload v, engine := none, fires := v.fires.pop.2
    rx := { v.rx with next := rest }
    events := (.startTransfer .inp p k.payload.length :: (reads v.cfg k.payload ++
      .complete v.cfg.peripheralId :: reads v.cfg [k.c0, k.c1])).reverse ++ v.events }

theorem sent_blockEvents (c : Config) (p : Place) (k : Packet) :
    (Event.startTransfer .inp p k.payload.length ::
      (reads c k.payload ++ .complete c.peripheralId :: reads c [k.c0, k.c1])).filterMap Event.sent =
      List.replicate (k.payload.length + 2) c.dummy := by
  rw [List.filterMap_cons_none rfl, List.filterMap_append, List.filterMap_cons_none rfl, sent_reads, sent_reads,
    ← List.replicate_add]
  rfl

theorem transferPayload_stored {p : Place} {k : Packet} {rest : List Byte} {v : State} (hp : pendingHere v = false)
    (hh : placeHolds p k.payload.length = true) (hf : v.fires.pop.1 = true)
    (h : v.rx.next = k.payload ++ ([k.c0, k.c1] ++ rest)) (hq : quiet v) :
    ((transferPayload .inp p k.payload.length v).bind fun _ s => .ok true (sendDummies 2 s)) =
      .ok true (storedBlock p k rest v) := by
  rw [transferPayload_in hp hh hf h, Res.bind_ok, sendDummies_answered (k := 2) (inp := [k.c0, k.c1]) (rest := rest) rfl rfl (by exact hq)]
  simp [storedBlock, exchanged, reads]

/-- The token after `j` idle polls, then the block (R145, R146). -/
theorem receiveDataBlock_lateToken {dest : Place} {j a : Nat} {k : Packet} {rest : List Byte} {s : State} (hb : idleFor j a s)
    (hp : pendingHere s = false) (hh : placeHolds dest k.payload.length = true) (hf : s.fires.pop.1 = true)
    (h : s.rx.next = List.replicate j 0xFF#8 ++ (k.bytes ++ rest)) (hq : quiet s) :
    ∃ u, receiveDataBlock dest k.payload.length s = .ok true u ∧
      u = { s with
        rx := { s.rx with next := rest }, tick := u.tick, events := u.events, tok := 0xFE#8
        mem := memAfter dest k.payload s, csd := csdAfter dest k.payload s, engine := none, fires := s.fires.pop.2 } ∧
      u.sent = s.sent ++ List.replicate (j + 1 + k.payload.length + 2) s.cfg.dummy := by
  have h : s.rx.next = List.replicate j 0xFF#8 ++ 0xFE#8 :: (k.payload ++ ([k.c0, k.c1] ++ rest)) := by
    simpa [Packet.bytes] using h
  obtain ⟨t, ht, -, -, hsent, n, hk⟩ := receiveDataBlock_afterIdle (dest := dest) (len := k.payload.length) hb (by simp) h
  have htq : quiet t := by rw [ht]; exact hq
  have hcfg : t.cfg = s.cfg := by rw [ht]
  have hloop : tokenLoop (n + 1) (startWindow tTokenMs s).1 t = .ok true (tokenRead 0xFE#8 (k.payload ++ ([k.c0, k.c1] ++ rest)) t) :=
    tokenLoop_found (by decide) (by rw [ht]) htq
  have hv : closeWindow (tokenRead 0xFE#8 (k.payload ++ ([k.c0, k.c1] ++ rest)) t) = { s with
      rx := { s.rx with next := k.payload ++ ([k.c0, k.c1] ++ rest) }, tick := t.tick
      events := .xchg s.cfg.dummy 0xFE#8 :: t.events, tok := 0xFE#8 } := by
    rw [ht]
    rfl
  have hstored := transferPayload_stored (p := dest) (k := k) (rest := rest)
    (v := closeWindow (tokenRead 0xFE#8 (k.payload ++ ([k.c0, k.c1] ++ rest)) t)) (by rw [hv]; exact hp) hh
    (by rw [hv]; exact hf) rfl htq
  refine ⟨storedBlock dest k rest (closeWindow (tokenRead 0xFE#8 (k.payload ++ ([k.c0, k.c1] ++ rest)) t)), ?_, ?_, ?_⟩
  · rw [hk, hloop]
    exact hstored
  · rw [hv]
    cases dest <;> rfl
  · rw [sent_of_events rfl]
    have hclosed : (closeWindow (tokenRead 0xFE#8 (k.payload ++ ([k.c0, k.c1] ++ rest)) t)).sent =
        s.sent ++ List.replicate (j + 1) s.cfg.dummy := by
      show (exchanged [t.cfg.dummy] [0xFE#8] (k.payload ++ ([k.c0, k.c1] ++ rest)) t).sent = _
      rw [sent_exchanged_one, hsent, hcfg, List.append_assoc, ← List.replicate_succ']
    have hc : (closeWindow (tokenRead 0xFE#8 (k.payload ++ ([k.c0, k.c1] ++ rest)) t)).cfg = s.cfg := hcfg
    rw [hclosed, hc, sent_blockEvents, List.append_assoc, ← List.replicate_add]
    simp [Nat.add_assoc]

/-- Settles O34: the three ends of the token poll. -/
theorem tokenPollOutcome : Obligations.TokenPollOutcome := by
  unfold Obligations.TokenPollOutcome
  refine fun s dest len j a rest hq hb => ⟨fun d hd hd' hrx => ?_, fun hT hrx => ?_, fun k hlen hp hf hh hrx => ?_⟩
  · obtain ⟨u, hr, hu, hsent⟩ := receiveDataBlock_wrongToken (dest := placeOf dest) (len := len.toNat) hb hd hd' hrx hq
    refine ⟨_, exec_receiveDataBlock_ok hr, rfl, ?_, ?_, ?_, ?_, ?_, ?_, hsent⟩
    all_goals rw [hu]
  · obtain ⟨u, hr, hu, hsent⟩ := receiveDataBlock_noToken (dest := placeOf dest) (len := len.toNat) hb hT hrx hq
    refine ⟨_, exec_receiveDataBlock_ok hr, rfl, ?_, ?_, ?_, ?_, ?_, ?_, hsent⟩
    all_goals rw [hu]
  · obtain ⟨u, hr, hu, hsent⟩ := receiveDataBlock_lateToken (dest := placeOf dest) hb hp
      ((placeHolds_placeOf dest k.payload.length).2 (hlen ▸ hh)) hf hrx hq
    rw [hlen] at hr hsent
    refine ⟨_, exec_receiveDataBlock_ok hr, rfl, ?_, ?_, ?_, ?_, hsent⟩
    all_goals rw [hu]

/-! ### Single bytes on the link -/

theorem exec_send_quiet {b : Byte} {s : State} (hq : quiet s) :
    Res.outcome (fun _ => .none) (.ok () (send b s)) = .next { s with
      rx := s.rx.pop.2, events := .xchg b s.rx.pop.1 :: s.events, ret := .none } :=
  congrArg (fun t : State => Res.outcome (fun _ => .none) (.ok () t)) (send_quiet b hq)

/-- A byte of the response poll (R138). -/
theorem receiveResponse_quiet {b : Byte} {s : State} (hq : quiet s) :
    Res.outcome .bool (receiveResponse b s) = .next { s with
      r1 := b, n := if s.n = 0#4 then 0#4 else s.n - 1#4, events := .xchg s.cfg.dummy b :: s.events
      ret := .bool (responded b || (if s.n = 0#4 then 0#4 else s.n - 1#4) == 0#4) } := by
  simp only [receiveResponse, xchgGiven_quiet _ _ hq, Res.outcome, takeResponse]

/-- Settles O35: each row is one exchange with what its poll does. -/
theorem wireBytes : Obligations.WireBytes := by
  unfold Obligations.WireBytes
  refine ⟨fun s hq => ⟨exec_send_quiet hq, exec_send_quiet hq, exec_send_quiet hq, exec_xchg_quiet s.cfg.dummy hq,
    exec_send_quiet hq, ?_, ?_⟩, fun s r x hq => ⟨?_, ?_, ?_⟩, rfl⟩
  · simp only [exec, execDataStart, Res.outcome, xchgGiven_quiet _ _ hq]
    rfl
  · simp only [exec, execReady, receiveReady, Res.outcome, xchgGiven_quiet _ _ hq]
    rfl
  · have hr : ∀ r : BitVec 7, 0#1 ++ r = BitVec.ofNat 8 r.toNat ∧ responded (0#1 ++ r) = true := by decide
    exact (receiveResponse_quiet hq).trans (by rw [(hr r).2, (hr r).1]; rfl)
  · have hr : ∀ r : BitVec 7, 1#1 ++ r = BitVec.ofNat 8 (128 + r.toNat) ∧ responded (1#1 ++ r) = false := by decide
    have hn : ∀ n : BitVec 4, ((if n = 0#4 then 0#4 else n - 1#4) == 0#4) = (n == 1#4 || n == 0#4) := by decide
    exact (receiveResponse_quiet hq).trans (by rw [(hr r).2, hn, (hr r).1]; rfl)
  · have hx : ∀ x : BitVec 3, x ++ 0b00101#5 = BitVec.ofNat 8 (32 * x.toNat + 5) ∧ dataAccepted (x ++ 0b00101#5) = true := by
      decide
    rw [exec, execDataResponseAccepted, receiveDataResponse, xchgGiven_quiet _ _ hq, (hx x).2, (hx x).1]
    rfl

end Sys2Proof.Machine
end

section
/-! SUPPORT. What returns when the tick counter advances past any window and every started transfer completes
(70_reset_and_hazards.md R363, R364; 45_guard_status.md R293): primitives, commands, and the bodies of the data calls. -/

namespace Sys2Proof.Machine

set_option Elab.async false

open Sys2Proof

/-! ### The premises along a run -/

/-- The premises under which every wait ends, with the parameters fixed. -/
def live (c : Config) (s : State) : Prop := ticking s ∧ bridgeReady s ∧ s.cfg = c

theorem live_congr {c : Config} {s t : State} (h : live c s) (hc : t.cfg = s.cfg) (ha : t.tickAdv = s.tickAdv)
    (hf : t.fires = s.fires) (hp : t.pending = s.pending) : live c t := by
  obtain ⟨ht, ⟨hpend, hfair⟩, hcfg⟩ := h
  refine ⟨ticking_congr hc ha ht, ⟨?_, ?_⟩, hc.trans hcfg⟩
  · simpa only [pendingHere, hc, hp] using hpend
  · simpa only [fair, hf] using hfair

theorem live.of_ticking {c : Config} {s t : State} (h : live c s) (ht : ticking t) (hc : t.cfg = s.cfg)
    (hf : t.fires = s.fires) (hp : t.pending = s.pending) : live c t := by
  obtain ⟨-, ⟨hpend, hfair⟩, hcfg⟩ := h
  exact ⟨ht, ⟨by simpa only [pendingHere, hc, hp] using hpend, by simpa only [fair, hf] using hfair⟩, hc.trans hcfg⟩

/-- It ends with a value, and the premises still hold. -/
def returns {α : Type} (c : Config) (x : Res α) : Prop := ∃ a t, x = .ok a t ∧ live c t

theorem returns_ok {α : Type} {c : Config} {a : α} {t : State} (h : live c t) : returns c (.ok a t) := ⟨a, t, rfl, h⟩

theorem returns.bind {α β : Type} {c : Config} {x : Res α} {f : α → State → Res β} (hx : returns c x)
    (hf : ∀ a t, live c t → returns c (f a t)) : returns c (x.bind f) := by
  obtain ⟨a, t, rfl, ht⟩ := hx
  exact hf a t ht

theorem fair_pop {s : State} (h : fair s) : s.fires.pop.1 = true ∧ fair { s with fires := s.fires.pop.2 } := by
  obtain ⟨hr, hn⟩ := h
  unfold Feed.pop fair
  split
  next b l he =>
    rw [he] at hn
    exact ⟨hn b (by simp), hr, fun x hx => hn x (List.mem_cons_of_mem _ hx)⟩
  next => exact ⟨hr, hr, hn⟩

section

variable {c : Config} {s : State}

theorem send_live {b : Byte} (h : live c s) : live c (send b s) := live_congr h rfl rfl rfl rfl

theorem deselect_live (h : live c s) : live c (deselect s) := live_congr h rfl rfl rfl rfl

theorem sendDummies_live {k : Nat} (h : live c s) : live c (sendDummies k s) := by
  induction k generalizing s with
  | zero => exact h
  | succ j ih => exact ih (send_live h)

theorem sendAll_live {bs : List Byte} (h : live c s) : live c (sendAll bs s) := by
  induction bs generalizing s with
  | nil => exact h
  | cons b t ih => exact ih (send_live h)

theorem pollResponse_live {k : Nat} (h : live c s) : live c (pollResponse k s) := by
  induction k generalizing s with
  | zero => exact h
  | succ j ih =>
    have hb : live c (takeResponse (xchg s.cfg.dummy s).1 (xchg s.cfg.dummy s).2) := live_congr h rfl rfl rfl rfl
    rw [pollResponse]
    split
    · exact hb
    · exact ih hb

theorem frameAndPoll_live {idx : Byte} {arg : U32} (h : live c s) : live c (frameAndPoll idx arg s) := by
  have hs : live c (sendAll (frameBytes s.cfg idx arg) { s with fr := ⟨idx, arg, trailer s.cfg idx⟩ }) :=
    sendAll_live (live_congr h rfl rfl rfl rfl)
  unfold frameAndPoll
  dsimp only
  refine pollResponse_live ?_
  split
  · exact live_congr hs rfl rfl rfl rfl
  · exact live_congr hs rfl rfl rfl rfl

/-! ### Primitives -/

theorem linkStep.live {t : State} (hs : linkStep s t) (h : live c s) (ht : ticking t) : live c t := by
  obtain ⟨⟨hf, -⟩, -⟩ := hs
  exact h.of_ticking ht (by rw [hf]) (by rw [hf]) (by rw [hf])

theorem waitReady_live {ms : U32} (hd : ms.toNat ≤ 30000) (h : live c s) : returns c (waitReady ms s) := by
  obtain ⟨b, t, hw, ht⟩ := waitReady_returns hd h.1
  have hs := waitReady_step ms s
  rw [hw] at hs
  exact ⟨b, t, hw, hs.live h ht⟩

theorem select_live (h : live c s) : returns c (select s) := by
  refine (waitReady_live (s := send s.cfg.dummy (driveCs .asserted s)) (by decide) (live_congr h rfl rfl rfl rfl)).bind
    fun ready t ht => ?_
  split
  · exact returns_ok ht
  · exact returns_ok (deselect_live ht)

theorem sendPlain_live {idx : Byte} {arg : U32} (hi : idx ≠ c.stopCmdIndex) (h : live c s) :
    returns c (sendPlain idx arg s) := by
  unfold sendPlain
  rw [if_neg (h.2.2 ▸ hi)]
  refine (select_live (deselect_live h)).bind fun selected t ht => ?_
  split
  · exact returns_ok (frameAndPoll_live ht)
  · exact returns_ok (live_congr ht rfl rfl rfl rfl)

theorem and_7F_of_bit7 {idx : Byte} (h : idx.getLsbD 7 = false) : idx &&& 0x7F#8 = idx := by
  revert idx
  decide

theorem sendCommand_live {idx : Byte} {arg : U32} (h6 : idx.getLsbD 6 = false) (h55 : 55#8 ≠ c.stopCmdIndex)
    (hi : idx &&& 0x7F#8 ≠ c.stopCmdIndex) (h : live c s) : returns c (sendCommand idx arg s) := by
  unfold sendCommand
  rw [if_neg (by rw [h6]; decide)]
  split
  · refine (sendPlain_live h55 h).bind fun r t ht => ?_
    split
    · exact sendPlain_live hi ht
    · exact returns_ok ht
  · next h7 =>
    rw [and_7F_of_bit7 (by simpa using h7)] at hi
    exact sendPlain_live hi h

theorem transferPayload_live {d : Dir} {p : Place} {len : Nat} (hh : placeHolds p len = true) (h : live c s) :
    returns c (transferPayload d p len s) := by
  obtain ⟨ht, ⟨hp, hfair⟩, hcfg⟩ := h
  obtain ⟨-, hfires, htick⟩ := moveBytes_bridge ⟨d, p, len, false⟩ (started d p len s)
  have hc : (moveBytes ⟨d, p, len, false⟩ (started d p len s)).cfg = s.cfg :=
    (moveBytes_step _ _).io.keeps.1.1.trans (started_step d p len s).io.keeps.1.1
  obtain ⟨hpop, hfair'⟩ := fair_pop hfair
  have hrun : runEngine ⟨d, p, len, false⟩ (started d p len s) =
      (true, complete { moveBytes ⟨d, p, len, false⟩ (started d p len s) with
        fires := (moveBytes ⟨d, p, len, false⟩ (started d p len s)).fires.pop.2 }) := by
    have : (moveBytes ⟨d, p, len, false⟩ (started d p len s)).fires.pop.1 = true := by rw [hfires]; exact hpop
    simp [runEngine, this]
  rw [transferPayload_eq hp hh, hrun]
  refine returns_ok ⟨ticking_congr hc htick ht, ⟨pending_get_set _ _ _, ?_⟩, hc.trans hcfg⟩
  show _ ∧ _
  simp only [complete, emit_fires, hfires]
  exact hfair'

theorem sendDataBlock_live {off : Nat} {token : Byte} (h : live c s) : returns c (sendDataBlock off token s) := by
  refine (waitReady_live (by decide) h).bind fun ready t ht => ?_
  split
  · exact returns_ok ht
  · dsimp only
    split
    · exact returns_ok (send_live ht)
    · refine (transferPayload_live rfl (send_live ht)).bind fun _ u hu => ?_
      split <;> exact returns_ok (live_congr hu rfl rfl rfl rfl)

theorem tokenLoop_bridge (k : Nat) (w : Window) (s : State) :
    (tokenLoop k w s).All fun t => t.cfg = s.cfg ∧ t.fires = s.fires ∧ t.pending = s.pending := by
  induction k generalizing s with
  | zero => exact ⟨rfl, rfl, rfl⟩
  | succ j ih =>
    unfold tokenLoop
    dsimp only
    split
    · exact ⟨rfl, rfl, rfl⟩
    · split
      · exact ⟨rfl, rfl, rfl⟩
      · split
        · exact ⟨rfl, rfl, rfl⟩
        · exact Res.all_mono (ih _) fun t ht => ht

theorem tokenLoop_live {d : U32} (hd : d.toNat ≤ 30000) (h : live c s) :
    returns c (tokenLoop (pollFuel (startWindow d s).2) (startWindow d s).1 (startWindow d s).2) := by
  have ht : ticking (startWindow d s).2 := startWindow_ticking h.1
  obtain ⟨b, t, hl, htt⟩ := tokenLoop_returns ht (startWindow_open hd) (readingsLeft_fuel (w := (startWindow d s).1) ht hd)
  have hb := tokenLoop_bridge (pollFuel (startWindow d s).2) (startWindow d s).1 (startWindow d s).2
  rw [hl] at hb
  obtain ⟨hc, hf, hp⟩ := hb
  exact ⟨b, t, hl, h.of_ticking htt hc hf hp⟩

theorem receiveDataBlock_live {p : Place} {len : Nat} (hh : placeHolds p len = true) (h : live c s) :
    returns c (receiveDataBlock p len s) := by
  refine (tokenLoop_live (by decide) h).bind fun found t ht => ?_
  have hc : live c (closeWindow t) := live_congr ht rfl rfl rfl rfl
  dsimp only
  split
  · exact returns_ok hc
  · split
    · exact returns_ok (live_congr hc rfl rfl rfl rfl)
    · exact (transferPayload_live hh hc).bind fun _ u hu => returns_ok (sendDummies_live hu)

end

theorem outcome_returns {α : Type} {f : α → RetVal} {c : Config} {x : Res α} {s : State} (h : returns c x)
    (hs : x.All fun t => t.hung = s.hung) : ∃ t, Res.outcome f x = .next t ∧ t.hung = s.hung := by
  obtain ⟨a, t, rfl, -⟩ := h
  exact ⟨{ t with ret := f a }, rfl, hs⟩

/-- Settles O26: each primitive's wait is a `waitReady` or a token poll, and each transfer completes. -/
theorem primitivesReturn : Obligations.PrimitivesReturn := by
  unfold Obligations.PrimitivesReturn
  intro s ht hf hp
  have h : live s.cfg s := ⟨ht, ⟨hp, hf⟩, rfl⟩
  refine ⟨fun ms hms => ?_, ?_, fun index arg h6 h55 hi => ?_, fun off token => ?_, fun dest len hh => ?_⟩
  · exact outcome_returns (waitReady_live hms h) (Res.all_mono (waitReady_step ms s) fun _ k => k.2.hung)
  · exact outcome_returns (select_live h) (Res.all_mono (select_step s) fun _ k => k.2.hung)
  · exact outcome_returns (sendCommand_live h6 h55 hi h) (Res.all_mono (sendCommand_step index arg s) fun _ k => k.2.hung)
  · exact outcome_returns (sendDataBlock_live h) (Res.all_mono (sendDataBlock_step off.toNat token s) fun _ k => k.2.hung)
  · exact outcome_returns (receiveDataBlock_live ((placeHolds_placeOf dest len.toNat).2 hh) h)
      (Res.all_mono (receiveDataBlock_step (placeOf dest) len.toNat s) fun _ k => k.2.hung)

/-! ### Commands -/

section

variable {c : Config} {s : State} (h12 : c.stopCmdIndex = 12#8)

include h12

/-- A command of the model's rows: its index has bit 6 clear and is not the stop command. -/
theorem command_live {idx : Byte} {arg : U32} {tag : DiskTag} (h6 : idx.getLsbD 6 = false) (hi : idx &&& 0x7F#8 ≠ 12#8)
    (h : live c s) : returns c (command idx arg tag s) := by
  refine (sendCommand_live h6 (by rw [h12]; decide) (h12 ▸ hi) h).bind fun r t ht => ?_
  split <;> exact returns_ok (live_congr ht rfl rfl rfl rfl)

theorem cmd9_live {arg : U32} (h : live c s) : returns c (cmd9 arg s) := by
  refine (command_live h12 (by decide) (by decide) h).bind fun ok t ht => ?_
  split
  · exact receiveDataBlock_live (by decide) ht
  · exact returns_ok ht

theorem acmd13_live {arg : U32} (h : live c s) : returns c (acmd13 arg s) := by
  refine (command_live h12 (by decide) (by decide) h).bind fun ok t ht => ?_
  split
  · exact returns_ok ht
  · refine (receiveDataBlock_live (by decide) (sendDummies_live ht)).bind fun got u hu => ?_
    split
    · exact returns_ok (sendDummies_live hu)
    · exact returns_ok hu

omit h12 in
theorem visit_live {b : Bool} {q : Seq} (h : live c s) : live c (visit b q s) := by
  unfold visit
  split
  · exact live_congr h rfl rfl rfl rfl
  · exact h

theorem cmd17_live {b : Bool} {arg : U32} (h : live c s) : returns c (cmd17 b arg s) := by
  refine (command_live h12 (by decide) (by decide) h).bind fun ok t ht => ?_
  split
  · exact receiveDataBlock_live rfl (visit_live ht)
  · exact returns_ok ht

theorem cmd24_live {b : Bool} {arg : U32} (h : live c s) : returns c (cmd24 b arg s) := by
  refine (command_live h12 (by decide) (by decide) h).bind fun ok t ht => ?_
  split
  · exact sendDataBlock_live (visit_live ht)
  · exact returns_ok ht

theorem acmd23_live {arg : U32} (h : live c s) : returns c (acmd23 arg s) :=
  (sendCommand_live (by decide) (by rw [h12]; decide) (by rw [h12]; decide) h).bind fun _ _ ht => returns_ok ht

omit h12 in
theorem blockLoop_live {b : Bool} {k : Nat} (h : live c s) : returns c (blockLoop b k s) := by
  induction k generalizing s with
  | zero => exact returns_ok h
  | succ j ih =>
    unfold blockLoop
    split
    · exact returns_ok h
    · refine (sendDataBlock_live (visit_live h)).bind fun ok t ht => ?_
      split
      · exact ih (live_congr ht rfl rfl rfl rfl)
      · exact returns_ok ht

omit h12 in
theorem stream_live {b : Bool} (h : live c s) : returns c (stream b s) := by
  refine (blockLoop_live (s := { s with off := 0 }) (live_congr h rfl rfl rfl rfl)).bind fun _ t ht => ?_
  refine (sendDataBlock_live (visit_live ht)).bind fun ok u hu => ?_
  split
  · exact returns_ok hu
  · exact returns_ok (live_congr hu rfl rfl rfl rfl)

theorem cmd25_live {b : Bool} {arg : U32} (h : live c s) : returns c (cmd25 b arg s) := by
  refine (command_live h12 (by decide) (by decide) h).bind fun ok t ht => ?_
  split
  · exact (stream_live ht).bind fun _ u hu => returns_ok hu
  · exact returns_ok ht

theorem cmd38_live {arg : U32} (h : live c s) : returns c (cmd38 arg s) := by
  refine (command_live h12 (by decide) (by decide) h).bind fun ok t ht => ?_
  split
  · exact waitReady_live (by decide) ht
  · exact returns_ok ht

/-! ### The bodies of the data calls, up to the exit sequence -/

theorem readLoop_live {k : Nat} (h : live c s) : returns c (readLoop k s) := by
  induction k generalizing s with
  | zero => exact returns_ok h
  | succ j ih =>
    unfold readLoop
    split
    · exact returns_ok h
    · refine (cmd17_live h12 (s := enter .rCmd17 s) (live_congr h rfl rfl rfl rfl)).bind fun ok t ht => ?_
      split
      · exact ih (live_congr ht rfl rfl rfl rfl)
      · exact returns_ok ht

theorem writeSingle_live (h : live c s) : returns c (writeSingle s) := by
  refine (cmd24_live h12 (s := enter .wCmd24 s) (live_congr h rfl rfl rfl rfl)).bind fun ok t ht => ?_
  split
  · exact returns_ok (live_congr ht rfl rfl rfl rfl)
  · exact returns_ok ht

theorem hint_live {count : U32} (h : live c s) : returns c (hint count s) := by
  unfold hint
  split
  · exact (acmd23_live h12 (s := enter .wHint s) (live_congr h rfl rfl rfl rfl)).bind fun _ t ht => returns_ok ht
  · exact returns_ok h

theorem writeMulti_live {count : U32} (h : live c s) : returns c (writeMulti count s) :=
  (hint_live h12 h).bind fun _ t ht =>
    (cmd25_live h12 (s := enter .wCmd25 t) (live_congr ht rfl rfl rfl rfl)).bind fun _ _ hu => returns_ok hu

omit h12 in
theorem syncBody_live (h : live c s) : returns c (syncBody s) := (select_live h).bind fun _ _ ht => returns_ok ht

omit h12 in
theorem valueOrDraw_live {v : Option U32} (h : live c s) : live c (valueOrDraw v s).2 := by
  cases v
  · exact live_congr h rfl rfl rfl rfl
  · exact h

theorem sectorCountBody_live (h : live c s) : returns c (sectorCountBody s) := by
  refine (cmd9_live h12 h).bind fun ok t ht => ?_
  split
  · have hv : live c (sectorCountValue t).2 := by
      unfold sectorCountValue
      split
      · exact valueOrDraw_live ht
      · exact ht
    exact returns_ok (live_congr hv rfl rfl rfl rfl)
  · exact returns_ok ht

theorem blockSizeBody_live (h : live c s) : returns c (blockSizeBody s) := by
  unfold blockSizeBody
  split
  · refine (acmd13_live h12 h).bind fun ok t ht => ?_
    split
    · exact returns_ok (live_congr ht rfl rfl rfl rfl)
    · exact returns_ok ht
  · refine (cmd9_live h12 h).bind fun ok t ht => ?_
    split
    · have hv : live c (blockSizeValue t).2 := by
        unfold blockSizeValue
        split
        · exact valueOrDraw_live ht
        · split
          · exact live_congr ht rfl rfl rfl rfl
          · exact ht
      exact returns_ok (live_congr hv rfl rfl rfl rfl)
    · exact returns_ok ht

theorem eraseSequence_live {st ed : U32} (h : live c s) : returns c (eraseSequence st ed s) := by
  refine (command_live h12 (by decide) (by decide) h).bind fun ok t ht => ?_
  split
  · exact returns_ok ht
  · refine (command_live h12 (by decide) (by decide) ht).bind fun ok u hu => ?_
    split
    · exact returns_ok hu
    · exact (cmd38_live h12 hu).bind fun ok v hv => returns_ok hv

end

theorem beforeLock.live {c : Config} {s t : State} (hb : beforeLock s t) (h : live c s) : live c t := by
  obtain ⟨hf, -⟩ := hb
  exact live_congr h (by rw [hf]) (by rw [hf]) (by rw [hf]) (by rw [hf])

theorem innerReadCsd_live {c : Config} {s : State} (h12 : c.stopCmdIndex = 12#8) (h : live c s) :
    returns c (innerReadCsd s) := by
  have hb := refreshInputs_beforeLock (enter .iNested s)
  have hu : live c (refreshInputs (enter .iNested s)).2 := hb.live (live_congr h rfl rfl rfl rfl)
  unfold innerReadCsd
  dsimp only
  split
  · exact returns_ok hu
  · obtain ⟨ok, t, hr, ht⟩ := cmd9_live h12 (arg := 0#32) (s := grantLock (refreshInputs (enter .iNested s)).2)
      (live_congr hu rfl rfl rfl rfl)
    have hio := cmd9_step 0#32 (grantLock (refreshInputs (enter .iNested s)).2)
    rw [hr] at hio
    obtain ⟨hgo, hgd⟩ := grantLock_owner (refreshInputs (enter .iNested s)).2
    have hto : t.lock.owner = some t.me := by rw [hio.io.1.lock, hio.io.1.me]; exact hgo
    have htd : 1 ≤ t.lock.depth := by rw [hio.io.1.lock]; exact hgd
    rw [readCsd, hr, Res.bind_ok, exitSequence_eq hto htd]
    exact returns_ok (live_congr ht rfl rfl rfl rfl)

theorem eraseBody_live {c : Config} {s : State} (h12 : c.stopCmdIndex = 12#8) {start stop : U32}
    (h : live c s) : returns c (eraseBody start stop s) := by
  unfold eraseBody
  split
  · refine (innerReadCsd_live h12 h).bind fun ok t ht => ?_
    have he : live c (enter .iBody t) := live_congr ht rfl rfl rfl rfl
    dsimp only
    split
    · split <;> exact returns_ok (live_congr he rfl rfl rfl rfl)
    · split
      · exact eraseSequence_live h12 he
      · exact returns_ok (live_congr he rfl rfl rfl rfl)
  · exact returns_ok (live_congr h rfl rfl rfl rfl)

theorem codeBody_live {c : Config} {s : State} (h12 : c.stopCmdIndex = 12#8) {code : Byte} {start stop : U32}
    (h : live c s) : returns c (codeBody code start stop s) := by
  unfold codeBody
  split
  · exact syncBody_live h
  · exact sectorCountBody_live h12 h
  · exact blockSizeBody_live h12 h
  · exact eraseBody_live h12 h
  · exact returns_ok h

/-! ### The data calls -/

/-- What a data call's body that returned leaves behind. -/
def bodyReturns (s : State) (x : Res HostReturn) : Prop :=
  ∃ v u, x = .ok v u ∧ u.hung = s.hung ∧ u.cs = .deasserted ∧ u.lock = lockReleased s

theorem bodyReturns_of {α : Type} {c : Config} {s : State} {x : Res α} {q : Seq} {g : α → State → HostReturn}
    (ho : s.lock.owner = some s.me) (hd : 1 ≤ s.lock.depth) (hr : returns c x)
    (hk : lockKept s x) (he : callEnds s (x.bind fun a t => leave q (g a) t)) :
    bodyReturns s (x.bind fun a t => leave q (g a) t) := by
  obtain ⟨a, t, rfl, -⟩ := hr
  obtain ⟨hstep, hl⟩ := hk
  have hl' : t.lock.owner = some t.me := by rw [hl, hstep.1.me, ho]
  rw [Res.bind_ok, leave_eq q (g a) hl' (by rw [hl]; exact hd)] at he ⊢
  obtain ⟨hc, hcs, hlock⟩ := he
  exact ⟨_, _, rfl, hc.2.hung, hcs, hlock⟩

theorem lockedBody_live {k : Call} {c : Config} {s : State} (h12 : c.stopCmdIndex = 12#8) (hk : k ≠ .bareLock)
    (hi : k ≠ .initCard) (ho : s.lock.owner = some s.me) (hd : 1 ≤ s.lock.depth) (h : live c s) :
    ∃ v u, lockedBody k s = .next (returnToHost v u) ∧ u.hung = s.hung ∧ u.cs = .deasserted ∧ u.lock = lockReleased s := by
  have finish : ∀ x : Res HostReturn, bodyReturns (raise .none s) x →
      ∃ v u, x.callOutcome k = .next (returnToHost v u) ∧ u.hung = s.hung ∧ u.cs = .deasserted ∧ u.lock = lockReleased s := by
    rintro x ⟨v, u, rfl, hh, hcs, hl⟩
    exact ⟨v, u, rfl, hh, hcs, hl⟩
  have hn : live c (raise .none s) := live_congr h rfl rfl rfl rfl
  cases k with
  | initCard => exact absurd rfl hi
  | bareLock => exact absurd rfl hk
  | read b a n =>
    refine finish _ (bodyReturns_of (s := raise .none s) ho hd (readLoop_live h12 (live_congr hn rfl rfl rfl rfl)) ?_
      (readBody_ends (s := raise .none s) b a n ho hd))
    exact lockKept_from (((enter_io (q := .rLock) (by decide) _).trans (setUp_io _ _ _ _ _)).call) rfl
      (lockKept_io (readLoop_step _ _))
  | write b a n =>
    have hset : live c { enter .wLock (raise .none s) with
      bufBase := b.toNat, addr := toAddr s.card a, remaining := n, off := 0 } := live_congr hn rfl rfl rfl rfl
    refine finish _ (bodyReturns_of (c := c) (s := raise .none s) ho hd ?_ ?_
      (writeBody_ends (s := raise .none s) b a n ho hd))
    · split
      · exact writeSingle_live h12 hset
      · exact writeMulti_live h12 hset
    · refine lockKept_from
        (((enter_io (q := .wLock) (by decide) _).trans (setUp_io b.toNat (toAddr s.card a) n 0 _)).call) rfl ?_
      split
      · exact lockKept_io (writeSingle_step _)
      · exact lockKept_io (writeMulti_step _ _)
  | ioctl code a b =>
    refine finish _ (bodyReturns_of (s := raise .none s) ho hd
      (codeBody_live h12 (s := enter .iBody (raise .none s)) (live_congr hn rfl rfl rfl rfl)) ?_
      (ioctlBody_ends (s := raise .none s) code a b ho hd))
    exact lockKept_from (s := raise .none s) (t := enter .iBody (raise .none s)) (enter_io (by decide) _).call rfl
      (codeBody_kept code a b ho hd)

theorem returned_free {v : HostReturn} {s : State} (hc : s.cs = .deasserted) (hl : s.lock = ⟨none, 0⟩) :
    returned v (returnToHost v s) := by
  obtain ⟨h1, h2, h3⟩ := returnToHost_free v hc hl
  refine ⟨h1, h2, h3, ?_⟩
  unfold returnToHost enterOwn
  split <;> rfl

theorem early_returned {q : Seq} {v : HostReturn} {s u : State} (hb : beforeLock s u) (hc : s.cs = .deasserted)
    (hl : s.lock = ⟨none, 0⟩) :
    (returnToHost v (enterOwn q u)).hung = s.hung ∧ returned v (returnToHost v (enterOwn q u)) := by
  have hopen : enterOwn q u = enter q u := if_pos (lockOpen_free (hb.lock.trans hl))
  rw [hopen]
  exact ⟨(returnToHost_turn v _).2.1.trans hb.turn.2.1, returned_free (hb.cs.trans hc) (hb.lock.trans hl)⟩

theorem hostCall_live {k : Call} {c : Config} {s : State} (h12 : c.stopCmdIndex = 12#8) (hk : k ≠ .bareLock)
    (hi : k ≠ .initCard) (hl : lockFree s) (hcs : s.cs = .deasserted) (h : live c s) :
    ∃ t v, hostCall k s = .next t ∧ t.hung = s.hung ∧ returned v t := by
  obtain ⟨hlock, hrace⟩ := hl
  have hb := refreshInputs_beforeLock s
  unfold hostCall
  dsimp only
  split
  next v _ => exact ⟨_, v, rfl, early_returned hb hcs hlock⟩
  next =>
    generalize (refreshInputs s).2 = u at hb
    have hul : u.lock = ⟨none, 0⟩ := hb.lock.trans hlock
    have hr : lockRace u = (true, { u with contend := u.contend.pop.2 }) := by
      simp [lockRace, hul, hb.contend, hrace]
    have hlv : live c (takeLock k { u with contend := u.contend.pop.2 }) := by
      unfold takeLock
      split <;> exact live_congr (hb.live h) rfl rfl rfl rfl
    obtain ⟨ho, hd⟩ := takeLock_owner k { u with contend := u.contend.pop.2 }
    obtain ⟨v, w, hbody, hh, hwc, hwl⟩ := lockedBody_live h12 hk hi ho hd hlv
    have hfree : w.lock = ⟨none, 0⟩ := by
      rw [hwl, lockReleased, takeLock_lock, lockTaken]
      simp [hul]
    refine ⟨returnToHost v w, v, by simp only [lockThen, hr, if_true, hbody], ?_, returned_free hwc hfree⟩
    exact (returnToHost_turn v w).2.1.trans (hh.trans ((takeLock_turn hk _).2.1.trans hb.turn.2.1))

/-- Settles O55: a data call gets the free lock, its body returns since each of its waits ends, and the exit sequence follows. -/
theorem dataCallsReturn : Obligations.DataCallsReturn := by
  unfold Obligations.DataCallsReturn
  intro s i hslot hi hl hbridge ht h12 hcs
  have h : live s.cfg s := ⟨ht, hbridge, rfl⟩
  rcases exec_hostSlot hslot with rfl | ⟨k, hk, hinit, he⟩
  · exact ⟨_, _, rfl, early_returned ((refreshInputs_beforeLock s).trans (meanwhile_beforeLock _)) hcs hl.1⟩
  · rw [he]
    exact hostCall_live h12 hk (fun e => hi (hinit.1 e)) hl hcs h

end Sys2Proof.Machine
end

section
/-! SUPPORT. Frames of the instructions: what each may change (10_state.md R25 to R29; 40_transport.md R131, R141, R145). -/

namespace Sys2Proof.Machine

set_option Elab.async false

open Sys2Proof

/-! ### What `exec` adds to a primitive -/

/-- The state a primitive left, with its value noted or its endless wait marked. -/
def marked (u t : State) : Prop := (∃ v, t = { u with ret := v }) ∨ ∃ w, t = { u with hung := w }

theorem outcome_all {α : Type} {f : α → RetVal} {x : Res α} {t : State} {Q : State → Prop} (hx : x.All Q)
    (h : Res.outcome f x = .next t) : ∃ u, Q u ∧ marked u t := by
  rcases Res.outcome_next h with ⟨a, u, rfl, rfl⟩ | ⟨w, u, rfl, rfl⟩
  · exact ⟨u, hx, .inl ⟨_, rfl⟩⟩
  · exact ⟨u, hx, .inr ⟨_, rfl⟩⟩

theorem linkFrame.marked {s u t : State} (h : linkFrame s u) (k : marked u t) : linkFrame s t := by
  rcases k with ⟨v, rfl⟩ | ⟨w, rfl⟩
  · exact ⟨congrArg (fun x : State => { x with ret := v }) h.1, h.2⟩
  · exact ⟨congrArg (fun x : State => { x with hung := w }) h.1, h.2⟩

theorem commandFrame.marked {s u t : State} (h : commandFrame s u) (k : marked u t) : commandFrame s t := by
  rcases k with ⟨v, rfl⟩ | ⟨w, rfl⟩
  · exact ⟨congrArg (fun x : State => { x with ret := v }) h.1, h.2⟩
  · exact ⟨congrArg (fun x : State => { x with hung := w }) h.1, h.2⟩

theorem trailingFrame.marked {s u t : State} (h : trailingFrame s u) (k : marked u t) : trailingFrame s t := by
  rcases k with ⟨v, rfl⟩ | ⟨w, rfl⟩
  · exact ⟨congrArg (fun x : State => { x with ret := v }) h.1, h.2⟩
  · exact ⟨congrArg (fun x : State => { x with hung := w }) h.1, h.2⟩

theorem blockOutFrame.marked {s u t : State} (h : blockOutFrame s u) (k : marked u t) : blockOutFrame s t := by
  rcases k with ⟨v, rfl⟩ | ⟨w, rfl⟩
  · exact ⟨congrArg (fun x : State => { x with ret := v }) h.1, h.2⟩
  · exact ⟨congrArg (fun x : State => { x with hung := w }) h.1, h.2⟩

theorem blockInFrame.marked {s u t : State} (h : blockInFrame s u) (k : marked u t) : blockInFrame s t := by
  rcases k with ⟨v, rfl⟩ | ⟨w, rfl⟩
  · exact ⟨congrArg (fun x : State => { x with ret := v }) h.1, h.2⟩
  · exact ⟨congrArg (fun x : State => { x with hung := w }) h.1, h.2⟩

theorem outcome_command {α : Type} {f : α → RetVal} {x : Res α} {s t : State} (hx : x.All (commandStep s))
    (h : Res.outcome f x = .next t) : commandFrame s t := by
  obtain ⟨u, hu, hm⟩ := outcome_all hx h
  exact hu.1.marked hm

theorem outcome_trailing {α : Type} {f : α → RetVal} {x : Res α} {s t : State} (hx : x.All (trailingStep s))
    (h : Res.outcome f x = .next t) : trailingFrame s t := by
  obtain ⟨u, hu, hm⟩ := outcome_all hx h
  exact hu.1.marked hm

/-! ### Chip-select and open windows through a wait -/

/-- Chip-select and the open windows are as before. -/
def sameLine (s t : State) : Prop := t.cs = s.cs ∧ t.wins = s.wins

theorem waitReadyLoop_line (k : Nat) (w : Window) (s : State) :
    (waitReadyLoop k w s).All (sameLine s) ∧ ∀ h t, waitReadyLoop k w s = .hang h t → h = .waitReady := by
  induction k generalizing s with
  | zero => exact ⟨⟨rfl, rfl⟩, by rintro h t ⟨⟩; rfl⟩
  | succ j ih =>
    have hx : sameLine s (xchg s.cfg.dummy s).2 := ⟨xchg_cs _ _, xchg_wins _ _⟩
    simp only [waitReadyLoop]
    generalize xchg s.cfg.dummy s = d at hx
    split
    · exact ⟨hx, by rintro h t ⟨⟩⟩
    · have he : sameLine s (expired w d.2).2 := ⟨(now_cs _).trans hx.1, (now_wins _).trans hx.2⟩
      generalize expired w d.2 = e at he
      split
      · exact ⟨he, by rintro h t ⟨⟩⟩
      · have hd : sameLine s (delay s.cfg.pollDelayMs e.2) := ⟨(delay_cs _ _).trans he.1, (delay_wins _ _).trans he.2⟩
        generalize delay s.cfg.pollDelayMs e.2 = u at hd
        split
        · exact ⟨hd, by rintro h t ⟨⟩; rfl⟩
        · exact ⟨Res.all_mono (ih u).1 fun _ h => ⟨h.1.trans hd.1, h.2.trans hd.2⟩, (ih u).2⟩

/-- `waitReady` leaves chip-select; its window is closed when it returns, and it can wait for ever in its own poll only. -/
theorem waitReady_line (ms : U32) (s : State) :
    (waitReady ms s).Post (fun _ t => sameLine s t) (fun t => t.cs = s.cs)
      ∧ ∀ h t, waitReady ms s = .hang h t → h = .waitReady := by
  obtain ⟨hl, hh⟩ := waitReadyLoop_line (pollFuel (startWindow ms s).2) (startWindow ms s).1 (startWindow ms s).2
  have hc : (startWindow ms s).2.cs = s.cs := now_cs s
  have hw : (startWindow ms s).2.wins.tail = s.wins := now_wins s
  unfold waitReady
  dsimp only
  generalize startWindow ms s = w at hl hh hc hw
  generalize waitReadyLoop (pollFuel w.2) w.1 w.2 = x at hl hh
  cases x with
  | ok a t => exact ⟨⟨hl.1.trans hc, (congrArg List.tail hl.2).trans hw⟩, by rintro h t ⟨⟩⟩
  | hang w t => exact ⟨hl.1.trans hc, by rintro h t' ⟨⟩; exact hh _ _ rfl⟩
  | fault | refuse => exact ⟨trivial, by rintro h t ⟨⟩⟩

theorem select_line (s : State) :
    (select s).Post (fun _ t => t.wins = s.wins) (fun _ => True) ∧ ∀ h t, select s = .hang h t → h = .waitReady := by
  obtain ⟨hp, hh⟩ := waitReady_line tSelectMs (send s.cfg.dummy (driveCs .asserted s))
  unfold select
  generalize waitReady tSelectMs (send s.cfg.dummy (driveCs .asserted s)) = x at hp hh
  cases x with
  | ok a t => cases a <;> exact ⟨hp.2, by rintro h t ⟨⟩⟩
  | hang w t => exact ⟨trivial, by rintro h t' ⟨⟩; exact hh _ _ rfl⟩
  | fault | refuse => exact ⟨trivial, by rintro h t ⟨⟩⟩

theorem exec_select_frame {s t : State} (h : exec .select s = .next t) :
    linkFrame s t ∧ (t.wins = s.wins ∨ t.hung = some ⟨.waitReady, s.me, none⟩) := by
  have hs := select_step s
  obtain ⟨hw, hh⟩ := select_line s
  rcases Res.outcome_next (x := select s) h with ⟨a, u, hx, rfl⟩ | ⟨w, u, hx, rfl⟩
  · rw [hx] at hs hw
    exact ⟨hs.1.marked (.inl ⟨_, rfl⟩), .inl hw⟩
  · have hw := hh w u hx
    rw [hx] at hs
    refine ⟨hs.1.marked (.inr ⟨_, rfl⟩), .inr ?_⟩
    have hme : u.me = s.me := by rw [hs.1.1]
    rw [hw, hme]

theorem exec_waitReady_frame {ms : U32} {s t : State} (h : exec (.waitReady ms) s = .next t) :
    linkFrame s t ∧ t.cs = s.cs := by
  have hs := waitReady_step ms s
  obtain ⟨hp, -⟩ := waitReady_line ms s
  rcases Res.outcome_next (x := waitReady ms s) h with ⟨a, u, hx, rfl⟩ | ⟨w, u, hx, rfl⟩
  · rw [hx] at hs hp
    exact ⟨hs.1.marked (.inl ⟨_, rfl⟩), hp.1⟩
  · rw [hx] at hs hp
    exact ⟨hs.1.marked (.inr ⟨_, rfl⟩), hp⟩

/-- An instruction that leaves the state of one exchange, or of one event, with a value. -/
theorem outcome_line {α : Type} {f : α → RetVal} {a : α} {s u t : State} (hu : linkStep s u) (hc : u.cs = s.cs)
    (h : Res.outcome f (.ok a u) = .next t) : linkFrame s t ∧ t.cs = s.cs := by
  obtain ⟨w, ⟨hw, hwc⟩, hm⟩ := outcome_all (Q := fun x => linkStep s x ∧ x.cs = s.cs) (x := .ok a u) ⟨hu, hc⟩ h
  refine ⟨hw.1.marked hm, ?_⟩
  rcases hm with ⟨v, rfl⟩ | ⟨v, rfl⟩ <;> exact hwc

theorem exec_exchange_frame {i : Instr} {b : Byte} {x : BitVec 3} {s t : State} (h : exec i s = .next t)
    (hi : i ∈ [.xchg b, .dummy, .crcPlaceholder, .tokenSingle, .tokenMulti, .tokenStop, .ready, .dataResponseAccepted x]) :
    linkFrame s t ∧ t.cs = s.cs := by
  simp only [List.mem_cons, List.not_mem_nil, or_false] at hi
  rcases hi with rfl | rfl | rfl | rfl | rfl | rfl | rfl | rfl
  · exact outcome_line (xchg_step b s) rfl h
  · exact outcome_line (xchg_step _ s) rfl h
  · exact outcome_line (f := fun _ => .none) (a := ()) (send_step _ s) rfl h
  · exact outcome_line (f := fun _ => .none) (a := ()) (send_step _ s) rfl h
  · exact outcome_line (f := fun _ => .none) (a := ()) (send_step _ s) rfl h
  · exact outcome_line (f := fun _ => .none) (a := ()) (send_step _ s) rfl h
  · exact outcome_line (a := _) (emit_step _ s) rfl h
  · exact outcome_line (a := _) (emit_step _ s) rfl h

theorem exec_command_frame {i : Instr} {arg : U32} {index : Byte} {r : BitVec 7} {s t : State} (h : exec i s = .next t)
    (hi : i ∈ [.cmd0 arg, .cmd1 arg, .cmd12 arg, .cmd16 arg, .acmd23 arg, .cmd32 arg, .cmd33 arg, .cmd38 arg, .acmd41 arg,
      .cmd55 arg, .sendCommand index arg, .r1 r, .noResponse r]) : commandFrame s t := by
  simp only [List.mem_cons, List.not_mem_nil, or_false] at hi
  rcases hi with rfl | rfl | rfl | rfl | rfl | rfl | rfl | rfl | rfl | rfl | rfl | rfl | rfl
  · exact outcome_command (cmd0_step arg s) h
  · exact outcome_command (cmd1_step arg s) h
  · exact outcome_command (cmd12_step arg s) h
  · exact outcome_command (cmd16_step arg s) h
  · exact outcome_command (acmd23_step arg s) h
  · exact outcome_command (cmd32_step arg s) h
  · exact outcome_command (cmd33_step arg s) h
  · exact outcome_command (cmd38_step arg s) h
  · exact outcome_command (acmd41_step arg s) h
  · exact outcome_command (cmd55_step arg s) h
  · exact outcome_command (sendCommand_step index arg s) h
  · exact outcome_command (receiveResponse_step _ s) h
  · exact outcome_command (receiveResponse_step _ s) h

/-- Settles O58: each instruction is its primitive, whose frame is known, and a value or the mark of an endless wait. -/
theorem commandFrames : Obligations.CommandFrames := by
  unfold Obligations.CommandFrames
  intro i s t arg ms index b r x h
  refine ⟨fun hi => ?_, fun hi => ?_, exec_command_frame h, fun hi => ?_⟩
  · simp only [List.mem_cons, List.not_mem_nil, or_false] at hi
    rcases hi with rfl | rfl
    · exact exec_select_frame h
    · cases h
      exact ⟨(deselect_step s).1.marked (.inl ⟨_, rfl⟩), .inl rfl⟩
  · rcases List.mem_cons.1 hi with rfl | hi
    · exact exec_exchange_frame (b := b) (x := x) h (by simp)
    · rcases List.mem_cons.1 hi with rfl | hi
      · exact exec_waitReady_frame h
      · exact exec_exchange_frame (b := b) (x := x) h (List.mem_cons_of_mem _ hi)
  · simp only [List.mem_cons, List.not_mem_nil, or_false] at hi
    rcases hi with rfl | rfl
    · exact outcome_trailing (cmd8_step arg s) h
    · exact outcome_trailing (cmd58_step arg s) h

end Sys2Proof.Machine
end

section
/-! SUPPORT. Frames of the data blocks: where a block in stores, and what a block out leaves (40_transport.md R141, R145;
45_guard_status.md R292). -/

namespace Sys2Proof.Machine

set_option Elab.async false

open Sys2Proof

/-! ### Where a block in stores -/

/-- Bytes are stored only at the first `len` of this place. -/
def storesIn (p : Place) (len : Nat) (s t : State) : Prop :=
  match p with
  | .buffer o => t.csd = s.csd ∧ keepsOutside (s.bufBase + o) len s t
  | .csd => t.mem = s.mem

/-- What a block into this place may change. -/
def storeStep (p : Place) (len : Nat) (s t : State) : Prop := inpStep s t ∧ storesIn p len s t

theorem storesIn.of_same {p : Place} {len : Nat} {s t : State} (hm : t.mem = s.mem) (hc : t.csd = s.csd) :
    storesIn p len s t := by
  cases p with
  | buffer o => exact ⟨hc, fun _ _ => by rw [hm]⟩
  | csd => exact hm

theorem storesIn.mono {p : Place} {k len : Nat} {s t : State} (h : storesIn p k s t) (hk : k ≤ len) : storesIn p len s t := by
  cases p with
  | buffer o => exact ⟨h.1, fun a ha => h.2 a (by omega)⟩
  | csd => exact h

theorem storesIn.trans {p : Place} {len : Nat} {s t u : State} (hb : t.bufBase = s.bufBase) (h : storesIn p len s t)
    (k : storesIn p len t u) : storesIn p len s u := by
  cases p with
  | buffer o => exact ⟨k.1.trans h.1, fun a ha => (k.2 a (by rw [hb]; exact ha)).trans (h.2 a ha)⟩
  | csd => exact Eq.trans k h

theorem inpStep.bufBase {s t : State} (h : inpStep s t) : t.bufBase = s.bufBase := by rw [h.1.1]
theorem inpStep.off {s t : State} (h : inpStep s t) : t.off = s.off := by rw [h.1.1]
theorem inpStep.remaining {s t : State} (h : inpStep s t) : t.remaining = s.remaining := by rw [h.1.1]

theorem storeStep.trans {p : Place} {len : Nat} {s t u : State} (h : storeStep p len s t) (k : storeStep p len t u) :
    storeStep p len s u := ⟨h.1.trans k.1, h.2.trans h.1.bufBase k.2⟩

theorem storeStep.mono {p : Place} {k len : Nat} {s t : State} (h : storeStep p k s t) (hk : k ≤ len) :
    storeStep p len s t := ⟨h.1, h.2.mono hk⟩

theorem storeStep.of_inp {p : Place} {len : Nat} {s t : State} (h : inpStep s t) (hm : t.mem = s.mem) (hc : t.csd = s.csd) :
    storeStep p len s t := ⟨h, .of_same hm hc⟩

theorem commandStep.store {p : Place} {len : Nat} {s t : State} (h : commandStep s t) : storeStep p len s t :=
  .of_inp h.inp (by rw [h.1.1]) (by rw [h.1.1])

theorem linkStep.store {p : Place} {len : Nat} {s t : State} (h : linkStep s t) : storeStep p len s t := h.command.store

theorem placeWrite_store (p : Place) (i : Nat) (v : Byte) (s : State) : storeStep p (i + 1) s (placeWrite p i v s) := by
  refine ⟨placeWrite_step p i v s, ?_⟩
  cases p with
  | buffer o => exact ⟨rfl, fun a ha => Memory.read_write_other _ _ (by omega)⟩
  | csd => rfl

theorem moveIn_store (p : Place) (i k : Nat) (s : State) : storeStep p (i + k) s (moveIn p i k s) := by
  induction k generalizing i s with
  | zero => exact (linkStep.refl s).store
  | succ j ih =>
    have hw := (placeWrite_store p i (xchg s.cfg.dummy s).1 (xchg s.cfg.dummy s).2).mono (len := i + (j + 1)) (by omega)
    exact ((xchg_step s.cfg.dummy s).store.trans hw).trans ((ih (i + 1) _).mono (by omega))

theorem moveBytes_store (x : Transfer) (s : State) : storeStep x.place x.len s (moveBytes x s) := by
  unfold moveBytes
  split
  · exact (moveOut_step _ _ _ s).store
  · exact (moveIn_store _ 0 _ s).mono (by omega)

theorem runEngine_store (x : Transfer) {s : State} (h : s.engine.isSome = true) : storeStep x.place x.len s (runEngine x s).2 := by
  have hm := moveBytes_store x s
  refine ⟨runEngine_inp x s h, ?_⟩
  unfold runEngine
  split
  · exact .of_same rfl rfl
  · dsimp only
    split <;> exact hm.2.trans hm.1.bufBase (.of_same rfl rfl)

/-- An outbound transfer stores nothing. -/
theorem runEngine_out_mem {x : Transfer} {s : State} (hd : x.dir = .out) (h : s.engine.isSome = true) :
    (runEngine x s).2.mem = s.mem := by
  rw [(runEngine_out x s hd h).1.1]

theorem waitForTransfer_store {y : Transfer} {s : State} (h : s.engine = some y) :
    (waitForTransfer s).All (fun t => storeStep y.place y.len s t ∧ (y.dir = .out → t.mem = s.mem)) := by
  unfold waitForTransfer
  split
  · exact ⟨(linkStep.refl s).store, fun _ => rfl⟩
  · rw [h]
    have hs : s.engine.isSome = true := by rw [h]; rfl
    dsimp only
    split <;> exact ⟨runEngine_store y hs, fun hd => runEngine_out_mem hd hs⟩

/-- Without a transfer in the engine, and when it returns, nothing moved. -/
theorem waitForTransfer_none {s : State} (h : s.engine = none) :
    (waitForTransfer s).All (fun t => t.mem = s.mem ∧ t.csd = s.csd) := by
  unfold waitForTransfer
  split
  · exact ⟨rfl, rfl⟩
  · rw [h]; trivial

theorem transferPayload_store (p : Place) (len : Nat) (s : State) : (transferPayload .inp p len s).All (storeStep p len s) := by
  by_cases h : pendingHere s = false
  · by_cases hp : placeHolds p len = true
    · have hs : storeStep p len s (started .inp p len s) :=
        .of_inp ((register_inp _ s).trans (emit_step _ _).command.inp) rfl rfl
      have h2 := hs.trans (runEngine_store ⟨.inp, p, len, false⟩ (s := started .inp p len s) rfl)
      rw [transferPayload_eq h hp]
      split <;> exact h2
    · simp [transferPayload, startTransfer, h, hp, Res.All]
  · simp [transferPayload, startTransfer, h, Res.All]

theorem tokenLoop_store {p : Place} {len : Nat} (k : Nat) (w : Window) (s : State) :
    (tokenLoop k w s).All (storeStep p len s) := by
  induction k generalizing s with
  | zero => exact (linkStep.refl s).store
  | succ j ih =>
    have h1 : storeStep p len s { (xchg s.cfg.dummy s).2 with tok := (xchg s.cfg.dummy s).1 } :=
      (xchg_step s.cfg.dummy s).store.trans (.of_inp (setTok_step _ _) rfl rfl)
    simp only [tokenLoop]
    split
    · exact h1
    · have h2 := h1.trans (expired_step w _).store
      split
      · exact h2.trans (raise_step _ _).store
      · have h3 := h2.trans (delay_step s.cfg.pollDelayMs _).store
        split
        · exact h3
        · exact Res.all_mono (ih _) fun _ h => h3.trans h

theorem receiveDataBlock_store (p : Place) (len : Nat) (s : State) : (receiveDataBlock p len s).All (storeStep p len s) := by
  refine Res.all_bind (Res.all_mono (tokenLoop_store _ _ _) fun _ h => (startWindow_step _ s).store.trans h)
    (fun a t h => ?_) fun _ h => h
  have h1 := h.trans (closeWindow_step t).store
  simp only
  split
  · exact h1
  · split
    · exact h1.trans (raise_step _ _).store
    · exact Res.all_bind (Res.all_mono (transferPayload_store _ _ _) fun _ k => h1.trans k)
        (fun _ u k => k.trans (sendDummies_step 2 u).store) fun _ k => k

theorem cmd9_store (arg : U32) (s : State) : (cmd9 arg s).All (storeStep .csd csdLen s) := by
  refine Res.all_seq (R := storeStep .csd csdLen) storeStep.trans
    (Res.all_mono (command_step _ _ _ s) fun _ h => h.store) fun ok t => ?_
  split
  · exact receiveDataBlock_store .csd csdLen t
  · exact (linkStep.refl t).store

theorem acmd13_store (arg : U32) (s : State) : (acmd13 arg s).All (storeStep .csd csdLen s) := by
  refine Res.all_seq (R := storeStep .csd csdLen) storeStep.trans
    (Res.all_mono (command_step _ _ _ s) fun _ h => h.store) fun ok t => ?_
  split
  · exact (linkStep.refl t).store
  · refine Res.all_bind (Res.all_mono (receiveDataBlock_store .csd csdLen _) fun _ h => (sendDummies_step 1 t).store.trans h)
      (fun got u h => ?_) fun _ h => h
    split
    · exact h.trans (sendDummies_step _ u).store
    · exact h

/-- `CMD17` by itself stores its block at the current offset. -/
theorem cmd17_store (arg : U32) (s : State) : (cmd17 false arg s).All (storeStep (.buffer s.off) sectorSize s) := by
  refine Res.all_bind (Res.all_mono (command_step _ _ _ s)
    fun t (h : commandStep s t) => (⟨h.store, h.inp.off⟩ : storeStep (.buffer s.off) sectorSize s t ∧ t.off = s.off))
    (fun ok t ⟨h, ho⟩ => ?_) fun _ h => h.1
  split
  · rw [show visit false .rData t = t from rfl, ho]
    exact Res.all_mono (receiveDataBlock_store _ _ t) fun _ k => h.trans k
  · exact h

/-! ### What a block out leaves -/

/-- A packet out keeps the offset and the count, as a block in does. -/
theorem sendDataBlock_inp (off : Nat) (tk : Byte) (s : State) : (sendDataBlock off tk s).All (inpStep s) := by
  refine Res.all_seq (R := inpStep) inpStep.trans (Res.all_mono (waitReady_step _ s) fun _ h => h.command.inp) fun a t => ?_
  simp only
  split
  · exact inpStep.refl t
  · split
    · exact (send_step tk t).command.inp
    · refine Res.all_bind (Res.all_mono (transferPayload_inp _ _ _ _) fun _ h => (send_step tk t).command.inp.trans h)
        (fun _ u h => ?_) fun _ h => h
      have h2 := h.trans (((send_step u.cfg.crcPlaceholder u).trans (send_step u.cfg.crcPlaceholder _)).trans
        (xchg_step (send u.cfg.crcPlaceholder (send u.cfg.crcPlaceholder u)).cfg.dummy _)).command.inp
      split
      · exact h2
      · exact h2.trans (raise_step _ _).command.inp

theorem cmd24_inp (arg : U32) (s : State) : (cmd24 false arg s).All (inpStep s) := by
  refine Res.all_seq (R := inpStep) inpStep.trans (Res.all_mono (command_step _ _ _ s) fun _ h => h.inp) fun ok t => ?_
  split
  · exact sendDataBlock_inp _ _ t
  · exact inpStep.refl t

/-! ### The instructions -/

theorem outcome_out {α : Type} {f : α → RetVal} {x : Res α} {s t : State} (hx : x.All (outStep s))
    (h : Res.outcome f x = .next t) : blockOutFrame s t := by
  obtain ⟨u, hu, hm⟩ := outcome_all hx h
  exact hu.1.marked hm

theorem outcome_block {α : Type} {f : α → RetVal} {x : Res α} {s t : State} (hx : x.All (inpStep s))
    (h : Res.outcome f x = .next t) : t.off = s.off ∧ t.remaining = s.remaining := by
  obtain ⟨u, hu, hm⟩ := outcome_all hx h
  rcases hm with ⟨v, rfl⟩ | ⟨w, rfl⟩ <;> exact ⟨hu.off, hu.remaining⟩

theorem storesIn.marked {p : Place} {len : Nat} {s u t : State} (h : storesIn p len s u) (k : marked u t) :
    storesIn p len s t := by
  rcases k with ⟨v, rfl⟩ | ⟨w, rfl⟩ <;> cases p <;> exact h

theorem outcome_store {α : Type} {f : α → RetVal} {x : Res α} {p : Place} {len : Nat} {s t : State}
    (hx : x.All (storeStep p len s)) (h : Res.outcome f x = .next t) : blockInFrame s t ∧ storesIn p len s t := by
  obtain ⟨u, hu, hm⟩ := outcome_all hx h
  exact ⟨hu.1.1.marked hm, hu.2.marked hm⟩

theorem exec_waitForTransfer_frame {s t : State} (h : exec .waitForTransfer s = .next t) :
    blockInFrame s t ∧
      (∀ y : Transfer, s.engine = some y →
        (y.dir = .out ∨ y.place = .csd → t.mem = s.mem)
          ∧ (∀ o, y.place = .buffer o → t.csd = s.csd ∧ keepsOutside (s.bufBase + o) y.len s t))
      ∧ (s.engine = none → t.mem = s.mem ∧ t.csd = s.csd) := by
  obtain ⟨u, hu, hm⟩ := outcome_all (x := waitForTransfer s) (waitForTransfer_inp s) h
  refine ⟨hu.1.marked hm, fun y hy => ?_, fun he => ?_⟩
  · obtain ⟨w, ⟨hw, hout⟩, hm⟩ := outcome_all (x := waitForTransfer s) (waitForTransfer_store hy) h
    have hs := hw.2.marked hm
    have hmem : t.mem = w.mem := by rcases hm with ⟨v, rfl⟩ | ⟨v, rfl⟩ <;> rfl
    refine ⟨fun hy => ?_, fun o ho => ?_⟩
    · rcases hy with hd | hp
      · exact hmem.trans (hout hd)
      · rw [hp] at hs; exact hs
    · rw [ho] at hs; exact hs
  · obtain ⟨w, hw, hm⟩ := outcome_all (x := waitForTransfer s) (waitForTransfer_none he) h
    rcases hm with ⟨v, rfl⟩ | ⟨v, rfl⟩ <;> exact hw

/-- Settles O59: a block in stores inside its place, since the engine's writes do; a block out has no store at all. -/
theorem dataBlockFrames : Obligations.DataBlockFrames := by
  unfold Obligations.DataBlockFrames
  intro i s t arg off token dest dir len h
  refine ⟨fun hi => ?_, fun hi => ?_, fun hi => ?_, fun hi => ?_, fun hi => ?_, fun hi => ?_, fun hi => ?_⟩
  · simp only [List.mem_cons, List.not_mem_nil, or_false] at hi
    rcases hi with rfl | rfl | rfl | rfl
    · exact outcome_out (cmd24_step arg s) h
    · exact outcome_out (cmd25_step arg s) h
    · exact outcome_out (sendDataBlock_step _ token s) h
    · exact outcome_out (startTransfer_out dir _ _ s) h
  · simp only [List.mem_cons, List.not_mem_nil, or_false] at hi
    rcases hi with rfl | rfl | rfl
    · exact outcome_block (cmd24_inp arg s) h
    · exact outcome_block (sendDataBlock_inp _ token s) h
    · exact outcome_block (startTransfer_inp dir _ _ s) h
  · simp only [List.mem_cons, List.not_mem_nil, or_false] at hi
    rcases hi with rfl | rfl
    · exact outcome_store (cmd9_store arg s) h
    · exact outcome_store (acmd13_store arg s) h
  · subst hi
    exact outcome_store (cmd17_store arg s) h
  · subst hi
    obtain ⟨hf, hs⟩ := outcome_store (receiveDataBlock_store (placeOf dest) len.toNat s) h
    refine ⟨hf, fun hd => ?_, fun o hd => ?_⟩
    · rw [hd] at hs; exact hs
    · rw [hd] at hs; exact hs
  · subst hi
    have hs : storeStep .csd 0 s { emit (.xchg s.cfg.dummy dataStartToken) s with tok := dataStartToken } :=
      (emit_step _ s).store.trans (.of_inp (setTok_step _ _) rfl rfl)
    cases h
    exact ⟨hs.1.1.marked (.inl ⟨_, rfl⟩), rfl, rfl⟩
  · subst hi
    exact exec_waitForTransfer_frame h

end Sys2Proof.Machine
end

section
/-! SUPPORT. Frames of the host operations (43_blockio.md R231, R236; 44_ioctl.md R260; 42_probe.md R217). -/

namespace Sys2Proof.Machine

set_option Elab.async false

open Sys2Proof

/-! ### Around a body -/

/-- What a host call does outside its body, and the exit sequence, may change: no data and no transfer. -/
def aroundBody (s t : State) : Prop :=
  t = { s with
    cs := t.cs, cause := t.cause, rx := t.rx, events := t.events, hung := t.hung, status := t.status, lock := t.lock
    contend := t.contend, waiters := t.waiters, early := t.early, spiCfg := t.spiCfg, cd := t.cd, wp := t.wp
    hostOut := t.hostOut, seq := t.seq, path := t.path, others := t.others }

theorem aroundBody.trans {s t u : State} (h : aroundBody s t) (k : aroundBody t u) : aroundBody s u := by
  unfold aroundBody at h k ⊢
  rw [k, h]

theorem beforeLock.around {s t : State} (h : beforeLock s t) : aroundBody s t := by
  obtain ⟨h, -⟩ := h
  unfold aroundBody
  rw [h]

theorem enter_around (q : Seq) (s : State) : aroundBody s (enter q s) := rfl

theorem enterOwn_around (q : Seq) (s : State) : aroundBody s (enterOwn q s) := by
  unfold enterOwn
  split <;> rfl

theorem returnToHost_around (v : HostReturn) (s : State) : aroundBody s (returnToHost v s) :=
  (show aroundBody s (record (.ret s.me v) { meanwhile s with hostOut := v }) from rfl).trans (enterOwn_around _ _)

theorem grantLock_around (s : State) : aroundBody s (grantLock s) := rfl

theorem takeLock_around (c : Call) (s : State) : aroundBody s (takeLock c s) := by
  unfold takeLock
  split
  · exact grantLock_around s
  · exact (enter_around _ s).trans (grantLock_around _)

theorem exitSequence_around (s : State) : (exitSequence s).All (aroundBody s) := by
  unfold exitSequence unlock
  split
  · exact rfl
  · trivial

theorem leave_around (q : Seq) (f : State → HostReturn) (s : State) : (leave q f s).All (aroundBody s) :=
  Res.all_bind (exitSequence_around (enter q s)) (fun _ _ h => (enter_around q s).trans h) fun _ h => (enter_around q s).trans h

/-- The body of a call, as `lockedBody` runs it. -/
def bodyOf (c : Call) (s : State) : Res HostReturn :=
  match c with
  | .initCard => probeBody s
  | .read buf sector count => readBody buf sector count s
  | .write buf sector count => writeBody buf sector count s
  | .ioctl code start stop => ioctlBody code start stop s
  | .bareLock => .ok .none s

theorem lockedBody_eq {c : Call} (hc : c ≠ .bareLock) (s : State) : lockedBody c s = (bodyOf c (raise .none s)).callOutcome c := by
  cases c with
  | bareLock => exact absurd rfl hc
  | initCard | read | write | ioctl => rfl

/-- A call runs at most its body; all else it does lies around it. -/
theorem hostCall_around {c : Call} {s t : State} (hc : c ≠ .bareLock) (h : hostCall c s = .next t) :
    aroundBody s t ∨ ∃ u, aroundBody s u ∧ ∀ Q : State → Prop, (bodyOf c u).All Q → ∃ w, Q w ∧ aroundBody w t := by
  rcases hostCall_cases h with ⟨v, u, rfl, hu⟩ | ⟨u, f, rfl, hu, -⟩ | ⟨u, f, hb, hu, -⟩
  · exact .inl (hu.around.trans ((enterOwn_around _ u).trans (returnToHost_around v _)))
  · exact .inl (hu.around.trans rfl)
  · have hk : aroundBody s (raise .none (takeLock c { u with contend := f })) :=
      (hu.around.trans (show aroundBody u { u with contend := f } from rfl)).trans
        ((takeLock_around c _).trans (show aroundBody _ (raise .none _) from rfl))
    rw [lockedBody_eq hc] at hb
    refine .inr ⟨_, hk, fun Q hQ => ?_⟩
    rcases Res.callOutcome_next hb with ⟨v, w, hx, rfl⟩ | ⟨k, w, hx, rfl⟩
    · rw [hx] at hQ
      exact ⟨w, hQ, returnToHost_around v w⟩
    · rw [hx] at hQ
      exact ⟨w, hQ, rfl⟩

/-! ### The frames of the calls -/

theorem beforeLock.host {s t : State} (h : beforeLock s t) : hostFrame s t ∧ initFrame s t := by
  obtain ⟨h, hw, -⟩ := h
  constructor <;> refine ⟨?_, hw⟩ <;> rw [h]

theorem enterOwn_host (q : Seq) (s : State) : hostFrame s (enterOwn q s) ∧ initFrame s (enterOwn q s) := by
  unfold enterOwn
  split <;> exact ⟨⟨rfl, sameWaiters rfl⟩, rfl, sameWaiters rfl⟩

theorem returnToHost_host (v : HostReturn) (s : State) :
    hostFrame s (returnToHost v s) ∧ initFrame s (returnToHost v s) := by
  have hm := (meanwhile_heard s).1
  have h1 : hostFrame s (record (.ret s.me v) { meanwhile s with hostOut := v }) := ⟨rfl, hm⟩
  have h2 : initFrame s (record (.ret s.me v) { meanwhile s with hostOut := v }) := ⟨rfl, hm⟩
  obtain ⟨h3, h4⟩ := enterOwn_host .idle (record (.ret s.me v) { meanwhile s with hostOut := v })
  exact ⟨h1.trans h3, h2.trans h4⟩

theorem addWaiter_host (w : Waiter) (f : Feed Bool) (s : State) :
    hostFrame s (addWaiter w { s with contend := f }) ∧ initFrame s (addWaiter w { s with contend := f }) :=
  ⟨⟨rfl, [w], rfl⟩, rfl, [w], rfl⟩

theorem takeLock_host (c : Call) (s : State) : hostFrame s (takeLock c s) ∧ initFrame s (takeLock c s) := by
  unfold takeLock
  split
  · exact ⟨(grantLock_call s).1, (grantLock_init s).1⟩
  · exact ⟨(show hostFrame s (enter (checkPlace c) s) from ⟨rfl, sameWaiters rfl⟩).trans (grantLock_call _).1,
      (show initFrame s (enter (checkPlace c) s) from ⟨rfl, sameWaiters rfl⟩).trans (grantLock_init _).1⟩

theorem setContend_host (f : Feed Bool) (s : State) : hostFrame s { s with contend := f } ∧ initFrame s { s with contend := f } :=
  ⟨⟨rfl, sameWaiters rfl⟩, rfl, sameWaiters rfl⟩

theorem setHung_host (w : Option Hung) (s : State) : hostFrame s { s with hung := w } ∧ initFrame s { s with hung := w } :=
  ⟨⟨rfl, sameWaiters rfl⟩, rfl, sameWaiters rfl⟩

theorem bodyEnds_host {c : Call} {s t : State} (h : bodyEnds c s t) :
    (c ≠ .initCard → hostFrame s t) ∧ (c = .initCard → initFrame s t) := by
  rcases h with ⟨v, u, rfl, -, -, ⟨hn, hu⟩ | ⟨hn, hu, -⟩⟩ | ⟨w, u, rfl, -, -, ⟨hn, hu⟩ | ⟨hn, hu, -⟩⟩
  · exact ⟨fun _ => hu.1.trans (returnToHost_host v u).1, fun k => absurd k hn⟩
  · exact ⟨fun k => absurd hn k, fun _ => hu.1.trans (returnToHost_host v u).2⟩
  · exact ⟨fun _ => hu.1.trans (setHung_host _ u).1, fun k => absurd k hn⟩
  · exact ⟨fun k => absurd hn k, fun _ => hu.1.trans (setHung_host _ u).2⟩

theorem hostCall_frame {c : Call} {s t : State} (hc : c ≠ .bareLock) (h : hostCall c s = .next t) :
    (c ≠ .initCard → hostFrame s t) ∧ (c = .initCard → initFrame s t) := by
  rcases hostCall_cases h with ⟨v, u, rfl, hu⟩ | ⟨u, f, rfl, hu, -⟩ | ⟨u, f, hb, hu, -⟩
  · obtain ⟨h1, h2⟩ := enterOwn_host (checkPlace c) u
    obtain ⟨h3, h4⟩ := returnToHost_host v (enterOwn (checkPlace c) u)
    exact ⟨fun _ => hu.host.1.trans (h1.trans h3), fun _ => hu.host.2.trans (h2.trans h4)⟩
  · obtain ⟨h1, h2⟩ := addWaiter_host ⟨u.me, c⟩ f u
    exact ⟨fun _ => hu.host.1.trans h1, fun _ => hu.host.2.trans h2⟩
  · obtain ⟨ho, hd⟩ := takeLock_owner c { u with contend := f }
    obtain ⟨h1, h2⟩ := setContend_host f u
    obtain ⟨h3, h4⟩ := takeLock_host c { u with contend := f }
    obtain ⟨h5, h6⟩ := bodyEnds_host (lockedBody_next hc ho hd hb)
    exact ⟨fun hn => hu.host.1.trans (h1.trans (h3.trans (h5 hn))), fun hn => hu.host.2.trans (h2.trans (h4.trans (h6 hn)))⟩

/-! ### What the bodies of `read` and `write` store -/

/-- Memory is written only in `len` bytes from the current offset on; the buffer stays. -/
def readStores (len : Nat) (s t : State) : Prop :=
  t.bufBase = s.bufBase ∧ t.csd = s.csd ∧ t.out = s.out ∧ keepsOutside (s.bufBase + s.off) len s t

theorem readStores.refl (len : Nat) (s : State) : readStores len s s := ⟨rfl, rfl, rfl, fun _ _ => rfl⟩

theorem ioStep.out {s t : State} (h : ioStep s t) : t.out = s.out := by rw [h.1.1]

/-- `CMD17` inside `read` stores its block at the current offset and keeps the offset. -/
theorem cmd17_stores (arg : U32) (s : State) : (cmd17 true arg s).All (fun t => readStores sectorSize s t ∧ t.off = s.off) := by
  refine Res.all_bind (command_step _ _ _ s) (fun ok t (h : commandStep s t) => ?_) fun t h => ?_
  · have hb : t.bufBase = s.bufBase ∧ t.csd = s.csd ∧ t.out = s.out ∧ t.off = s.off ∧ t.mem = s.mem := by
      refine ⟨?_, ?_, ?_, ?_, ?_⟩ <;> rw [h.1.1]
    obtain ⟨hb, hc, ho, hf, hm⟩ := hb
    split
    · refine Res.all_mono (receiveDataBlock_store (.buffer t.off) sectorSize (visit true .rData t)) fun u ⟨hu, hs⟩ => ?_
      refine ⟨⟨hu.bufBase.trans hb, hs.1.trans hc, hu.io.out.trans ho, fun a ha => ?_⟩, hu.off.trans hf⟩
      have hk := hs.2 a (by rw [visit, if_pos rfl, enter_bufBase, hb, hf]; exact ha)
      rw [hk, visit, if_pos rfl, enter_mem, hm]
    · exact ⟨⟨hb, hc, ho, fun a _ => by rw [hm]⟩, hf⟩
  · refine ⟨⟨?_, ?_, ?_, fun a _ => ?_⟩, ?_⟩ <;> rw [h.1.1]

theorem keepsOutside_more {lo j : Nat} {s t : State} (h : keepsOutside lo sectorSize s t) :
    keepsOutside lo (512 * (j + 1)) s t := fun a ha => h a (by
  have h512 : sectorSize = 512 := rfl
  omega)

theorem readLoop_stores (k : Nat) (s : State) : (readLoop k s).All (readStores (512 * k) s) := by
  induction k generalizing s with
  | zero => exact .refl _ s
  | succ j ih =>
    simp only [readLoop]
    split
    · exact .refl _ s
    · refine Res.all_bind (cmd17_stores s.addr (enter .rCmd17 s)) (fun ok t ⟨⟨hb, hc, ho, hk⟩, hf⟩ => ?_)
        fun t ⟨⟨hb, hc, ho, hk⟩, _⟩ => ⟨hb, hc, ho, keepsOutside_more hk⟩
      have hk1 : keepsOutside (s.bufBase + s.off) (512 * (j + 1)) s t := keepsOutside_more hk
      split
      · refine Res.all_mono (ih _) fun u ⟨ub, uc, uo, uk⟩ => ⟨ub.trans hb, uc.trans hc, uo.trans ho, fun a ha => ?_⟩
        refine (uk a ?_).trans (hk1 a ha)
        show a < t.bufBase + (t.off + sectorSize) ∨ t.bufBase + (t.off + sectorSize) + 512 * j ≤ a
        have h512 : sectorSize = 512 := rfl
        rw [hb, hf, enter_bufBase, enter_off]
        omega
      · exact ⟨hb, hc, ho, hk1⟩

/-- A body that sends blocks keeps memory, the scratch array and the ioctl value. -/
def writeKeeps (s t : State) : Prop := t.csd = s.csd ∧ t.out = s.out ∧ t.mem = s.mem

theorem writeKeeps.trans {s t u : State} (h : writeKeeps s t) (k : writeKeeps t u) : writeKeeps s u :=
  ⟨k.1.trans h.1, k.2.1.trans h.2.1, k.2.2.trans h.2.2⟩

theorem outStep.writeKeeps {s t : State} (h : outStep s t) : writeKeeps s t := by
  obtain ⟨⟨h, -⟩, -⟩ := h
  unfold Machine.writeKeeps
  rw [h]
  exact ⟨rfl, rfl, rfl⟩

theorem visit_writeKeeps (b : Bool) (q : Seq) (s : State) : writeKeeps s (visit b q s) := by
  unfold visit
  split <;> exact ⟨rfl, rfl, rfl⟩

theorem cmd24_writeKeeps (b : Bool) (arg : U32) (s : State) : (cmd24 b arg s).All (writeKeeps s) := by
  refine Res.all_seq (R := writeKeeps) writeKeeps.trans (Res.all_mono (command_step _ _ _ s) fun _ h => h.out.writeKeeps)
    fun ok t => ?_
  split
  · exact Res.all_mono (sendDataBlock_step _ _ _) fun _ h => (visit_writeKeeps b .wSingle t).trans h.writeKeeps
  · exact ⟨rfl, rfl, rfl⟩

theorem blockLoop_writeKeeps (b : Bool) (k : Nat) (s : State) : (blockLoop b k s).All (writeKeeps s) := by
  induction k generalizing s with
  | zero => exact ⟨rfl, rfl, rfl⟩
  | succ j ih =>
    simp only [blockLoop]
    split
    · exact ⟨rfl, rfl, rfl⟩
    · refine Res.all_seq (R := writeKeeps) writeKeeps.trans
        (Res.all_mono (sendDataBlock_step s.off s.cfg.tokenMulti (visit b .wBlock s)) fun _ h =>
          (visit_writeKeeps b .wBlock s).trans h.writeKeeps) fun ok t => ?_
      split
      · exact Res.all_mono (ih _) fun _ h => ⟨h.1, h.2.1, h.2.2⟩
      · exact ⟨rfl, rfl, rfl⟩

theorem stream_writeKeeps (b : Bool) (s : State) : (stream b s).All (writeKeeps s) := by
  refine Res.all_seq (R := writeKeeps) writeKeeps.trans
    (Res.all_mono (blockLoop_writeKeeps b s.remaining.toNat { s with off := 0 }) fun _ h => ⟨h.1, h.2.1, h.2.2⟩) fun _ t => ?_
  refine Res.all_seq (R := writeKeeps) writeKeeps.trans
    (Res.all_mono (sendDataBlock_step 0 t.cfg.tokenStop (visit b .wStop t)) fun _ h =>
      (visit_writeKeeps b .wStop t).trans h.writeKeeps) fun ok u => ?_
  split <;> exact ⟨rfl, rfl, rfl⟩

theorem cmd25_writeKeeps (b : Bool) (arg : U32) (s : State) : (cmd25 b arg s).All (writeKeeps s) := by
  refine Res.all_seq (R := writeKeeps) writeKeeps.trans (Res.all_mono (command_step _ _ _ s) fun _ h => h.out.writeKeeps)
    fun ok t => ?_
  split
  · exact Res.all_bind (stream_writeKeeps b t) (fun _ _ h => h) fun _ h => h
  · exact ⟨rfl, rfl, rfl⟩

theorem hint_writeKeeps (count : U32) (s : State) : (hint count s).All (writeKeeps s) := by
  unfold hint
  split
  · exact Res.all_bind (acmd23_step count (enter .wHint s)) (fun _ _ (h : commandStep _ _) => h.out.writeKeeps)
      fun _ (h : commandStep _ _) => h.out.writeKeeps
  · exact ⟨rfl, rfl, rfl⟩

theorem writeBody_writeKeeps (buf sector count : U32) (s : State) : (writeBody buf sector count s).All (writeKeeps s) := by
  refine Res.all_seq (R := writeKeeps) writeKeeps.trans ?_ fun _ t =>
    Res.all_mono (leave_around .wExit transferResult t) fun u hu => ?_
  · split
    · exact Res.all_bind (cmd24_writeKeeps true _ _)
        (fun ok t h => by split <;> exact ⟨h.1, h.2.1, h.2.2⟩) fun _ h => ⟨h.1, h.2.1, h.2.2⟩
    · refine Res.all_bind (hint_writeKeeps count _) (fun _ t h => ?_) fun _ h => ⟨h.1, h.2.1, h.2.2⟩
      exact Res.all_bind (cmd25_writeKeeps true t.addr (enter .wCmd25 t))
        (fun _ u k => ⟨k.1.trans h.1, k.2.1.trans h.2.1, k.2.2.trans h.2.2⟩)
        fun _ k => ⟨k.1.trans h.1, k.2.1.trans h.2.1, k.2.2.trans h.2.2⟩
  · unfold aroundBody at hu
    rw [hu]
    exact ⟨rfl, rfl, rfl⟩

/-! ### What the bodies of ioctl leave -/

/-- Memory and the registers of the block transfer are as before. -/
def ioctlKeeps (s t : State) : Prop :=
  t.mem = s.mem ∧ t.bufBase = s.bufBase ∧ t.addr = s.addr ∧ t.remaining = s.remaining ∧ t.off = s.off

theorem ioctlKeeps.refl (s : State) : ioctlKeeps s s := ⟨rfl, rfl, rfl, rfl, rfl⟩

theorem ioctlKeeps.trans {s t u : State} (h : ioctlKeeps s t) (k : ioctlKeeps t u) : ioctlKeeps s u := by
  obtain ⟨h1, h2, h3, h4, h5⟩ := h
  obtain ⟨k1, k2, k3, k4, k5⟩ := k
  exact ⟨k1.trans h1, k2.trans h2, k3.trans h3, k4.trans h4, k5.trans h5⟩

theorem aroundBody.ioctlKeeps {s t : State} (h : aroundBody s t) : ioctlKeeps s t := by
  unfold aroundBody at h
  rw [h]
  exact .refl _

theorem aroundBody.writeKeeps {s t : State} (h : aroundBody s t) : writeKeeps s t := by
  unfold aroundBody at h
  rw [h]
  exact ⟨rfl, rfl, rfl⟩

theorem commandStep.ioctlKeeps {s t : State} (h : commandStep s t) : ioctlKeeps s t := by
  refine ⟨?_, ?_, ?_, ?_, ?_⟩ <;> rw [h.1.1]

theorem storeStep.ioctlKeeps {len : Nat} {s t : State} (h : storeStep .csd len s t) : ioctlKeeps s t :=
  ⟨h.2, h.1.bufBase, by rw [h.1.1.1], h.1.remaining, h.1.off⟩

theorem innerReadCsd_ioctlKeeps (s : State) : (innerReadCsd s).All (ioctlKeeps s) := by
  have hb := (refreshInputs_beforeLock (enter .iNested s)).around.ioctlKeeps
  unfold innerReadCsd
  dsimp only
  split
  · exact hb
  · have hg := hb.trans (grantLock_around (refreshInputs (enter .iNested s)).2).ioctlKeeps
    refine Res.all_bind (Res.all_mono (cmd9_store 0#32 _) fun _ h => hg.trans h.ioctlKeeps) (fun ok t h => ?_) fun _ h => h
    exact Res.all_bind (exitSequence_around t) (fun _ u k => h.trans k.ioctlKeeps) fun _ k => h.trans k.ioctlKeeps

theorem raiseEraseNotValid_ioctlKeeps (s : State) : ioctlKeeps s (raiseEraseNotValid s) := .refl _

theorem eraseSequence_ioctlKeeps (a b : U32) (s : State) : (eraseSequence a b s).All (ioctlKeeps s) := by
  refine Res.all_seq (R := ioctlKeeps) ioctlKeeps.trans (Res.all_mono (cmd32_step a s) fun _ h => h.ioctlKeeps) fun ok t => ?_
  split
  · exact .refl t
  · refine Res.all_seq (R := ioctlKeeps) ioctlKeeps.trans (Res.all_mono (cmd33_step b t) fun _ h => h.ioctlKeeps) fun ok u => ?_
    split
    · exact .refl u
    · exact Res.all_bind (cmd38_step 0#32 u) (fun _ _ (h : commandStep _ _) => h.ioctlKeeps)
        fun _ (h : commandStep _ _) => h.ioctlKeeps

theorem eraseBody_ioctlKeeps (start stop : U32) (s : State) : (eraseBody start stop s).All (ioctlKeeps s) := by
  unfold eraseBody
  split
  · refine Res.all_seq (R := ioctlKeeps) ioctlKeeps.trans (innerReadCsd_ioctlKeeps s) fun ok t => ?_
    dsimp only
    split
    · split <;> exact .refl _
    · split
      · exact eraseSequence_ioctlKeeps _ _ (enter .iBody t)
      · exact .refl _
  · exact .refl _

theorem valueOrDraw_ioctlKeeps (v : Option U32) (s : State) : ioctlKeeps s (valueOrDraw v s).2 := by
  cases v <;> exact .refl _

theorem sectorCountBody_ioctlKeeps (s : State) : (sectorCountBody s).All (ioctlKeeps s) := by
  refine Res.all_seq (R := ioctlKeeps) ioctlKeeps.trans (Res.all_mono (cmd9_store 0#32 s) fun _ h => h.ioctlKeeps) fun ok t => ?_
  split
  · show ioctlKeeps t { (sectorCountValue t).2 with out := _ }
    unfold sectorCountValue
    split
    · exact valueOrDraw_ioctlKeeps _ t
    · exact .refl t
  · exact .refl t

theorem blockSizeBody_ioctlKeeps (s : State) : (blockSizeBody s).All (ioctlKeeps s) := by
  unfold blockSizeBody
  split
  · refine Res.all_seq (R := ioctlKeeps) ioctlKeeps.trans (Res.all_mono (acmd13_store 0#32 s) fun _ h => h.ioctlKeeps)
      fun ok t => ?_
    split <;> exact .refl t
  · refine Res.all_seq (R := ioctlKeeps) ioctlKeeps.trans (Res.all_mono (cmd9_store 0#32 s) fun _ h => h.ioctlKeeps)
      fun ok t => ?_
    split
    · show ioctlKeeps t { (blockSizeValue t).2 with out := _ }
      unfold blockSizeValue
      split
      · exact valueOrDraw_ioctlKeeps _ t
      · split <;> exact .refl t
    · exact .refl t

theorem codeBody_ioctlKeeps (code : Byte) (start stop : U32) (s : State) : (codeBody code start stop s).All (ioctlKeeps s) := by
  unfold codeBody
  split
  · exact Res.all_bind (select_step s) (fun _ _ (h : linkStep _ _) => h.command.ioctlKeeps)
      fun _ (h : linkStep _ _) => h.command.ioctlKeeps
  · exact sectorCountBody_ioctlKeeps s
  · exact blockSizeBody_ioctlKeeps s
  · exact eraseBody_ioctlKeeps start stop s
  · exact .refl s

theorem ioctlBody_ioctlKeeps (code : Byte) (start stop : U32) (s : State) :
    (ioctlBody code start stop s).All (ioctlKeeps s) := by
  refine Res.all_seq (R := ioctlKeeps) ioctlKeeps.trans (codeBody_ioctlKeeps code start stop (enter .iBody s)) fun r t => ?_
  exact Res.all_mono (leave_around .iExit _ t) fun _ h => h.ioctlKeeps

/-! ### The calls -/

theorem hostCall_ioctl_keeps {code : Byte} {start stop : U32} {s t : State} (h : hostCall (.ioctl code start stop) s = .next t) :
    hostFrame s t ∧ ioctlKeeps s t := by
  refine ⟨(hostCall_frame (c := .ioctl code start stop) nofun h).1 nofun, ?_⟩
  rcases hostCall_around (c := .ioctl code start stop) nofun h with hs | ⟨u, hu, hbody⟩
  · exact hs.ioctlKeeps
  · obtain ⟨w, hw, ht⟩ := hbody (ioctlKeeps u) (ioctlBody_ioctlKeeps code start stop u)
    exact hu.ioctlKeeps.trans (hw.trans ht.ioctlKeeps)

theorem hostCall_write_keeps {buf sector count : U32} {s t : State} (h : hostCall (.write buf sector count) s = .next t) :
    hostFrame s t ∧ writeKeeps s t := by
  refine ⟨(hostCall_frame (c := .write buf sector count) nofun h).1 nofun, ?_⟩
  rcases hostCall_around (c := .write buf sector count) nofun h with hs | ⟨u, hu, hbody⟩
  · exact hs.writeKeeps
  · obtain ⟨w, hw, ht⟩ := hbody (writeKeeps u) (writeBody_writeKeeps buf sector count u)
    exact hu.writeKeeps.trans (hw.trans ht.writeKeeps)

/-- What `read` keeps: the scratch array, the ioctl value, and every byte outside its buffer. -/
def readKeeps (buf len : Nat) (s t : State) : Prop := t.csd = s.csd ∧ t.out = s.out ∧ keepsOutside buf len s t

theorem writeKeeps.read {buf len : Nat} {s t : State} (h : writeKeeps s t) : readKeeps buf len s t :=
  ⟨h.1, h.2.1, fun a _ => by rw [h.2.2]⟩

theorem readKeeps.trans {buf len : Nat} {s t u : State} (h : readKeeps buf len s t) (k : readKeeps buf len t u) :
    readKeeps buf len s u := ⟨k.1.trans h.1, k.2.1.trans h.2.1, fun a ha => (k.2.2 a ha).trans (h.2.2 a ha)⟩

theorem readBody_keeps (buf sector count : U32) (s : State) :
    (readBody buf sector count s).All (readKeeps buf.toNat (512 * count.toNat) s) := by
  refine Res.all_seq (R := readKeeps buf.toNat (512 * count.toNat)) readKeeps.trans ?_ fun _ t =>
    Res.all_mono (leave_around .rExit transferResult t) fun u hu => hu.writeKeeps.read
  exact Res.all_mono (readLoop_stores _ _) fun t ⟨_, hc, ho, hk⟩ => ⟨hc, ho, hk⟩

theorem hostCall_read_keeps {buf sector count : U32} {s t : State} (h : hostCall (.read buf sector count) s = .next t) :
    hostFrame s t ∧ readKeeps buf.toNat (512 * count.toNat) s t := by
  refine ⟨(hostCall_frame (c := .read buf sector count) nofun h).1 nofun, ?_⟩
  rcases hostCall_around (c := .read buf sector count) nofun h with hs | ⟨u, hu, hbody⟩
  · exact hs.writeKeeps.read
  · obtain ⟨w, hw, ht⟩ := hbody _ (readBody_keeps buf sector count u)
    exact hu.writeKeeps.read.trans (hw.trans ht.writeKeeps.read)

/-- Settles O60: a call runs at most its body, and each body's stores are known; nothing around a body touches data. -/
theorem hostCallFrames : Obligations.HostCallFrames := by
  unfold Obligations.HostCallFrames
  intro i s t buf sector count start stop code h
  refine ⟨?_, ?_, fun hi => ?_, ?_⟩
  · rintro rfl
    exact hostCall_read_keeps h
  · rintro rfl
    exact hostCall_write_keeps h
  · simp only [List.mem_cons, List.not_mem_nil, or_false] at hi
    rcases hi with rfl | rfl | rfl | rfl | rfl | rfl
    · exact hostCall_ioctl_keeps (code := code) (start := start) (stop := stop) h
    · exact hostCall_ioctl_keeps (code := 0#8) (start := 0#32) (stop := 0#32) h
    · exact hostCall_ioctl_keeps (code := 1#8) (start := 0#32) (stop := 0#32) h
    · exact hostCall_ioctl_keeps (code := 3#8) (start := 0#32) (stop := 0#32) h
    · exact hostCall_ioctl_keeps (code := 4#8) (start := start) (stop := stop) h
    · exact hostCall_ioctl_keeps (code := code) (start := 0#32) (stop := 0#32) h
  · rintro rfl
    exact (hostCall_frame (c := .initCard) nofun h).2 rfl

end Sys2Proof.Machine
end

section
/-! SUPPORT. Sector addresses and the fields of the registers as arithmetic (20_memory.md R63, R66, R67; 44_ioctl.md R263 to
R273). -/

namespace Sys2Proof.Machine

set_option Elab.async false

open Sys2Proof

/-! ### Addresses -/

theorem toAddr_advance (card : Card) (sector m : U32) : toAddr card (sector + m) = toAddr card sector + m * addrStep card := by
  unfold toAddr addrStep
  split
  · rw [BitVec.mul_one]
  · exact BitVec.add_mul

/-- Settles O56: the address is linear in the sector, and 512 times 2^23 is 0 modulo 2^32. -/
theorem addressesOfSectors : Obligations.AddressesOfSectors := by
  unfold Obligations.AddressesOfSectors
  refine fun card sector k => ⟨?_, toAddr_advance card sector _, fun h => ?_⟩
  · unfold toAddr
    split
    · rfl
    · exact BitVec.toNat_mul sector 512#32
  · have h0 : 0x800000#32 * addrStep card = 0#32 := by rw [addrStep, if_neg (by rw [h]; decide)]; decide
    rw [toAddr_advance, h0, BitVec.add_zero]

/-! ### Fields -/

theorem extract_toNat {n : Nat} (v : BitVec n) (k m : Nat) : (v.extractLsb' k m).toNat = v.toNat / 2 ^ k % 2 ^ m := by
  rw [BitVec.extractLsb'_toNat, Nat.shiftRight_eq_div_pow]

theorem append_toNat {n m : Nat} (a : BitVec n) (b : BitVec m) : (a ++ b).toNat = a.toNat * 2 ^ m + b.toNat := by
  rw [BitVec.toNat_append, ← Nat.shiftLeft_add_eq_or_of_lt b.isLt, Nat.shiftLeft_eq]

theorem csdStructure_toNat (csd : Vector Byte 16) : (csdStructure csd).toNat = csd[0].toNat / 64 := by
  have := csd[0].isLt
  rw [csdStructure, extract_toNat]
  omega

theorem cSizeV2_toNat (csd : Vector Byte 16) :
    (cSizeV2 csd).toNat = csd[7].toNat % 64 * 65536 + csd[8].toNat * 256 + csd[9].toNat := by
  show (csd[7].extractLsb' 0 6 ++ csd[8] ++ csd[9] : BitVec (6 + 8 + 8)).toNat = _
  rw [append_toNat, append_toNat, extract_toNat]
  omega

theorem cSizeV1_toNat (csd : Vector Byte 16) :
    (cSizeV1 csd).toNat = csd[6].toNat % 4 * 1024 + csd[7].toNat * 4 + csd[8].toNat / 64 := by
  have := csd[8].isLt
  show (csd[6].extractLsb' 0 2 ++ csd[7] ++ csd[8].extractLsb' 6 2 : BitVec (2 + 8 + 2)).toNat = _
  rw [append_toNat, append_toNat, extract_toNat, extract_toNat]
  omega

theorem v1Exponent_eq (csd : Vector Byte 16) :
    v1Exponent csd = csd[5].toNat % 16 + (csd[9].toNat % 4 * 2 + csd[10].toNat / 128) + 2 := by
  have := csd[10].isLt
  have hb : (readBlLen csd).toNat = csd[5].toNat % 16 := by
    rw [readBlLen, extract_toNat]
    omega
  have hm : (cSizeMult csd).toNat = csd[9].toNat % 4 * 2 + csd[10].toNat / 128 := by
    show (csd[9].extractLsb' 0 2 ++ csd[10].extractLsb' 7 1 : BitVec (2 + 1)).toNat = _
    rw [append_toNat, extract_toNat, extract_toNat]
    omega
  rw [v1Exponent, hb, hm]

theorem eraseSectorSize_toNat (csd : Vector Byte 16) :
    (eraseSectorSize csd).toNat = csd[10].toNat % 64 * 2 + csd[11].toNat / 128 := by
  have := csd[11].isLt
  show (csd[10].extractLsb' 0 6 ++ csd[11].extractLsb' 7 1 : BitVec (6 + 1)).toNat = _
  rw [append_toNat, extract_toNat, extract_toNat]
  omega

theorem writeBlLenLow_toNat (csd : Vector Byte 16) : (writeBlLenLow csd).toNat = csd[13].toNat / 64 := by
  have := csd[13].isLt
  rw [writeBlLenLow, extract_toNat]
  omega

theorem eraseGrpSize_toNat (csd : Vector Byte 16) : (eraseGrpSize csd).toNat = csd[10].toNat / 4 % 32 := by
  rw [eraseGrpSize, extract_toNat]
  omega

theorem eraseGrpMult_toNat (csd : Vector Byte 16) :
    (eraseGrpMult .fromByte10 csd).toNat = csd[10].toNat % 4 * 8 + csd[11].toNat / 32 := by
  have := csd[11].isLt
  show (csd[10].extractLsb' 0 2 ++ csd[11].extractLsb' 5 3 : BitVec (2 + 3)).toNat = _
  rw [append_toNat, extract_toNat, extract_toNat]
  omega

/-! ### Formulas -/

theorem setWidth_succ {n : Nat} (v : BitVec n) : v.setWidth 32 + 1#32 = BitVec.ofNat 32 (v.toNat + 1) := by
  rw [BitVec.ofNat_add, BitVec.ofNat_toNat]

theorem ofNat_shiftLeft (a k : Nat) : BitVec.ofNat 32 a <<< k = BitVec.ofNat 32 (a * 2 ^ k) := by
  apply BitVec.eq_of_toNat_eq
  rw [BitVec.toNat_shiftLeft, BitVec.toNat_ofNat, BitVec.toNat_ofNat, Nat.shiftLeft_eq, Nat.mod_mul_mod]

theorem csdStructure_eq_iff (csd : Vector Byte 16) {k : Nat} (hk : k < 4) :
    csdStructure csd = BitVec.ofNat 2 k ↔ csd[0].toNat / 64 = k := by
  rw [← BitVec.toNat_inj, csdStructure_toNat, BitVec.toNat_ofNat, Nat.mod_eq_of_lt hk]

theorem sectorCount_v2 {csd : Vector Byte 16} (h : csd[0].toNat / 64 = 1) :
    sectorCount csd = some (BitVec.ofNat 32 ((csd[7].toNat % 64 * 65536 + csd[8].toNat * 256 + csd[9].toNat + 1) * 1024)) := by
  rw [sectorCount, if_pos ((csdStructure_eq_iff csd (by decide)).2 h), setWidth_succ, cSizeV2_toNat, ← BitVec.ofNat_mul]

theorem sectorCount_v1 {csd : Vector Byte 16} (h : csd[0].toNat / 64 ≠ 1) :
    sectorCount csd =
      if 9 ≤ v1Exponent csd then some (BitVec.ofNat 32 (((cSizeV1 csd).toNat + 1) * 2 ^ (v1Exponent csd - 9))) else none := by
  rw [sectorCount, if_neg fun e => h ((csdStructure_eq_iff csd (by decide)).1 e), setWidth_succ, ofNat_shiftLeft]

theorem getLsbD_iff (b : Byte) (k : Nat) : b.getLsbD k = true ↔ b.toNat / 2 ^ k % 2 = 1 := by
  rw [BitVec.getLsbD, Nat.testBit_eq_decide_div_mod_eq, decide_eq_true_eq]

/-- Settles O57: each field is a quotient and a remainder of its bytes, and the formulas are sums, products and shifts of them. -/
theorem registerFormulas : Obligations.RegisterFormulas := by
  unfold Obligations.RegisterFormulas
  refine fun csd => ⟨sectorCount_v2, ?_, ?_, ?_, ?_, ?_⟩
  · rintro n cSize h rfl rfl
    rw [sectorCount_v1 h, v1Exponent_eq, cSizeV1_toNat]
  · rintro w size rfl rfl
    rw [blockSizeSd1, setWidth_succ, ofNat_shiftLeft, eraseSectorSize_toNat, writeBlLenLow_toNat]
  · rw [blockSizeMmc, setWidth_succ, setWidth_succ, eraseGrpSize_toNat, eraseGrpMult_toNat, ← BitVec.ofNat_mul]
  · have h : (csd[10].extractLsb' 4 4).toNat = csd[10].toNat / 16 := by
      have := csd[10].isLt
      rw [extract_toNat]
      omega
    rw [auSize, h, ofNat_shiftLeft]
  · rw [eraseSupported, Bool.or_eq_true, bne_iff_ne, Ne, csdStructure_eq_iff csd (k := 0) (by decide), getLsbD_iff]
    rfl

end Sys2Proof.Machine
end

section
/-! SUPPORT. The commands to a card that answers (41_commands.md R161 to R178): each as its command frame, its test and its data. -/

namespace Sys2Proof.Machine

set_option Elab.async false

open Sys2Proof

/-! ### The instruction of a command -/

theorem outcome_ok {x : Res Bool} {b : Bool} {u : State} (h : x = .ok b u) :
    Res.outcome .bool x = .next { u with ret := .bool b } := congrArg (Res.outcome .bool) h

/-- A command whose test decides between its value and a cause. -/
theorem outcome_test {x : Res Bool} {p : Prop} [Decidable p] {u : State} {c : Cause}
    (h : x = if p then .ok true u else .ok false { u with cause := c }) :
    Res.outcome .bool x = .next { u with cause := if p then u.cause else c, ret := .bool (decide p) } := by
  rw [h]
  by_cases hp : p
  · rw [if_pos hp, if_pos hp, decide_eq_true hp]; rfl
  · rw [if_neg hp, if_neg hp, decide_eq_false hp]; rfl

section
variable {arg : U32} {a : Answer} {rest : List Byte} {s : State} (hq : quiet s) (ha : a.wf = true)
  (h12 : s.cfg.stopCmdIndex = 12#8)
include hq ha h12

/-! ### Commands without data -/

theorem cmd0_answered (h : s.rx.next = a.bytes ++ rest) : cmd0 arg s =
    if a.r = 0x01#8 then .ok true (answered 0#8 arg a rest s)
    else .ok false { answered 0#8 arg a rest s with cause := .diskError .cmd0 } := by
  unfold cmd0
  rw [sendCommand_answered ha (by decide) (by decide) (by rw [h12]; decide) h]
  simp [acceptedIdle, raise]

theorem cmd1_answered (h : s.rx.next = a.bytes ++ rest) :
    cmd1 arg s = .ok (acceptedReady a.r) (answered 1#8 arg a rest s) := by
  unfold cmd1
  rw [sendCommand_answered ha (by decide) (by decide) (by rw [h12]; decide) h]
  rfl

theorem cmd55_answered (h : s.rx.next = a.bytes ++ rest) :
    cmd55 arg s = .ok (idleOrReady a.r) (answered 55#8 arg a rest s) := by
  unfold cmd55
  rw [sendCommand_answered ha (by decide) (by decide) (by rw [h12]; decide) h]
  rfl

/-- The commands that are `command` with the test against 0x00. -/
theorem exec_tested {i : Instr} {idx : Byte} {tag : DiskTag} (hi : exec i s = Res.outcome .bool (command idx arg tag s))
    (h6 : idx.getLsbD 6 = false) (h7 : idx.getLsbD 7 = false) (hne : idx ≠ 12#8) (h : s.rx.next = a.bytes ++ rest) :
    exec i s = .next { answered idx arg a rest s with
      cause := if a.r = 0x00#8 then s.cause else .diskError tag, ret := .bool (a.r == 0x00#8) } := by
  rw [hi]
  exact outcome_test (command_answered ha h6 h7 (by rw [h12]; exact hne) h)

/-- What a command that was not accepted leaves. -/
theorem command_rejected {idx : Byte} {tag : DiskTag} (h6 : idx.getLsbD 6 = false) (h7 : idx.getLsbD 7 = false)
    (hne : idx ≠ 12#8) (hr : a.r ≠ 0x00#8) (h : s.rx.next = a.bytes ++ rest) :
    command idx arg tag s = .ok false { answered idx arg a rest s with cause := .diskError tag } := by
  rw [command_answered ha h6 h7 (by rw [h12]; exact hne) h, if_neg hr]

/-- What an accepted command leaves. -/
theorem command_accepted {idx : Byte} {tag : DiskTag} (h6 : idx.getLsbD 6 = false) (h7 : idx.getLsbD 7 = false)
    (hne : idx ≠ 12#8) (hr : a.r = 0x00#8) (h : s.rx.next = a.bytes ++ rest) :
    command idx arg tag s = .ok true (answered idx arg a rest s) := by
  rw [command_answered ha h6 h7 (by rw [h12]; exact hne) h, if_pos hr]

/-! ### Four trailing bytes -/

theorem cmd8_trailing {b0 b1 b2 b3 : Byte} (hr : a.r = 0x01#8) (h : s.rx.next = a.bytes ++ (b0 :: b1 :: b2 :: b3 :: rest)) :
    cmd8 false arg s = .ok true { readOn [b0, b1, b2, b3] rest (answered 8#8 arg a (b0 :: b1 :: b2 :: b3 :: rest) s) with
      ocr := #v[b0, b1, b2, b3] } := by
  have hread := readOcr_answered (s := answered 8#8 arg a (b0 :: b1 :: b2 :: b3 :: rest) s) rfl (by exact hq)
  unfold cmd8
  rw [sendCommand_answered ha (by decide) (by decide) (by rw [h12]; decide) h, Res.bind_ok,
    if_pos (show acceptedIdle a.r = true by rw [hr]; decide)]
  exact congrArg (Res.ok true) hread

theorem cmd8_refused (hr : a.r ≠ 0x01#8) (h : s.rx.next = a.bytes ++ rest) :
    cmd8 false arg s = .ok false (answered 8#8 arg a rest s) := by
  unfold cmd8
  rw [sendCommand_answered ha (by decide) (by decide) (by rw [h12]; decide) h, Res.bind_ok,
    if_neg (by simpa [acceptedIdle] using hr)]

theorem cmd58_trailing {b0 b1 b2 b3 : Byte} (hr : a.r = 0x00#8) (h : s.rx.next = a.bytes ++ (b0 :: b1 :: b2 :: b3 :: rest)) :
    cmd58 false arg s = .ok true { readOn [b0, b1, b2, b3] rest (answered 58#8 arg a (b0 :: b1 :: b2 :: b3 :: rest) s) with
      ocr := #v[b0, b1, b2, b3] } := by
  have hread := readOcr_answered (s := answered 58#8 arg a (b0 :: b1 :: b2 :: b3 :: rest) s) rfl (by exact hq)
  unfold cmd58
  rw [command_accepted hq ha h12 (by decide) (by decide) (by decide) hr h, Res.bind_ok, if_pos rfl]
  exact congrArg (Res.ok true) hread

theorem cmd58_refused (hr : a.r ≠ 0x00#8) (h : s.rx.next = a.bytes ++ rest) :
    cmd58 false arg s = .ok false { answered 58#8 arg a rest s with cause := .diskError .cmd58 } := by
  unfold cmd58
  rw [command_rejected hq ha h12 (by decide) (by decide) (by decide) hr h]
  rfl

end

/-- Settles O36: each is `sendCommand` to a card that answers, and its own test of the response. -/
theorem plainCommandsAnswered : Obligations.PlainCommandsAnswered := by
  unfold Obligations.PlainCommandsAnswered
  intro s arg a rest hq ha h12 h
  exact ⟨outcome_test (cmd0_answered hq ha h12 h), outcome_ok (cmd1_answered hq ha h12 h),
    exec_tested hq ha h12 rfl (by decide) (by decide) (by decide) h,
    exec_tested hq ha h12 rfl (by decide) (by decide) (by decide) h,
    exec_tested hq ha h12 rfl (by decide) (by decide) (by decide) h,
    outcome_ok (cmd55_answered hq ha h12 h)⟩

/-- Settles O37: accepted, the frame is followed by four exchanges into `ocr`; rejected, by nothing. -/
theorem trailingByteCommands : Obligations.TrailingByteCommands := by
  unfold Obligations.TrailingByteCommands
  intro s arg a b0 b1 b2 b3 rest hq ha h12
  exact ⟨fun h => ⟨fun hr => outcome_ok (cmd8_trailing hq ha h12 hr h), fun hr => outcome_ok (cmd58_trailing hq ha h12 hr h)⟩,
    fun h => ⟨fun hr => outcome_ok (cmd8_refused hq ha h12 hr h), fun hr => outcome_ok (cmd58_refused hq ha h12 hr h)⟩⟩

/-! ### Application commands -/

/-- Settles O38: ACMD23 drops the value `sendCommand` returns, ACMD41 tests it; a failed CMD55 gives its value, above 1. -/
theorem applicationCommandsAnswered : Obligations.ApplicationCommandsAnswered := by
  unfold Obligations.ApplicationCommandsAnswered
  intro s arg a b rest hq ha hb h12
  refine ⟨fun hr h => ?_, fun hr h => ?_⟩
  · have h23 := application_answered (idx := 0x97#8) (arg := arg) ha hb (by decide) (by decide) h12 (by decide) hr h
    have h41 := application_answered (idx := 0xA9#8) (arg := arg) ha hb (by decide) (by decide) h12 (by decide) hr h
    exact ⟨outcome_ok (congrArg (Res.bind · fun _ s => .ok true s) h23),
      outcome_ok (congrArg (Res.bind · fun r s => .ok (acceptedReady r) s) h41)⟩
  · have h23 := application_fails (idx := 0x97#8) (arg := arg) ha (by decide) (by decide) h12 hr h
    have h41 := application_fails (idx := 0xA9#8) (arg := arg) ha (by decide) (by decide) h12 hr h
    have hne : acceptedReady a.r = false := by
      unfold acceptedReady
      rw [beq_eq_false_iff_ne]
      rintro h0
      rw [h0] at hr
      exact absurd hr (by decide)
    refine ⟨outcome_ok (congrArg (Res.bind · fun _ s => .ok true s) h23), ?_⟩
    rw [← hne]
    exact outcome_ok (congrArg (Res.bind · fun r s => .ok (acceptedReady r) s) h41)

/-! ### Commands with a data block -/

section
variable {arg : U32} {a b : Answer} {k : Packet} {rest : List Byte} {s : State} (hq : quiet s) (ha : a.wf = true)
  (h12 : s.cfg.stopCmdIndex = 12#8) (hp : pendingHere s = false) (hf : s.fires.pop.1 = true)
include hq ha h12 hp hf

theorem cmd9_received (hk : k.payload.length = 16) (hr : a.r = 0x00#8) (h : s.rx.next = a.bytes ++ (k.bytes ++ rest)) :
    cmd9 arg s = .ok true (received .csd k rest (answered 9#8 arg a (k.bytes ++ rest) s)) := by
  unfold cmd9
  rw [command_accepted hq ha h12 (by decide) (by decide) (by decide) hr h, Res.bind_ok, if_pos rfl]
  exact receiveDataBlock_csd (s := answered 9#8 arg a (k.bytes ++ rest) s) hp hk hf rfl (by exact hq)

theorem cmd17_received (hk : k.payload.length = 512) (hr : a.r = 0x00#8) (h : s.rx.next = a.bytes ++ (k.bytes ++ rest)) :
    cmd17 false arg s = .ok true (received (.buffer s.off) k rest (answered 17#8 arg a (k.bytes ++ rest) s)) := by
  have hd := receiveDataBlock_received (p := .buffer s.off) (s := answered 17#8 arg a (k.bytes ++ rest) s) hp rfl hf rfl
    (by exact hq)
  rw [hk] at hd
  unfold cmd17
  rw [command_accepted hq ha h12 (by decide) (by decide) (by decide) hr h, Res.bind_ok, if_pos rfl]
  exact hd

theorem cmd24_responded {k : Sink} (hk : k.echo.length = 512) (ht : s.cfg.tokenSingle ≠ s.cfg.tokenStop) (hr : a.r = 0x00#8)
    (h : s.rx.next = a.bytes ++ (k.bytes ++ rest)) :
    cmd24 false arg s =
      if k.response.toNat % 32 = 5 then
        .ok true (sentBlock 0 s.cfg.tokenSingle k rest (answered 24#8 arg a (k.bytes ++ rest) s))
      else .ok false { sentBlock 0 s.cfg.tokenSingle k rest (answered 24#8 arg a (k.bytes ++ rest) s) with
        cause := .diskError .dataResponse } := by
  unfold cmd24
  rw [command_accepted hq ha h12 (by decide) (by decide) (by decide) hr h, Res.bind_ok, if_pos rfl]
  exact sendDataBlock_response (s := answered 24#8 arg a (k.bytes ++ rest) s) hp hf ht hk rfl (by exact hq)

/-- `ACMD13` accepted: one byte dropped, the packet, 48 bytes dropped (R167). -/
theorem acmd13_received {x : Byte} {tail : List Byte} (hb : b.wf = true) (hk : k.payload.length = 16) (hr : a.r.toNat ≤ 1)
    (hr' : b.r = 0x00#8) (ht : tail.length = 48)
    (h : s.rx.next = a.bytes ++ (b.bytes ++ (x :: (k.bytes ++ (tail ++ rest))))) :
    acmd13 arg s = .ok true (exchanged (List.replicate 48 s.cfg.dummy) tail rest (received .csd k (tail ++ rest)
      (exchanged [s.cfg.dummy] [x] (k.bytes ++ (tail ++ rest)) (answered 13#8 arg b (x :: (k.bytes ++ (tail ++ rest)))
        (answered 55#8 0#32 a (b.bytes ++ (x :: (k.bytes ++ (tail ++ rest)))) s))))) := by
  have hc : command 0x8D#8 arg .acmd13 s = .ok true (answered 13#8 arg b (x :: (k.bytes ++ (tail ++ rest)))
      (answered 55#8 0#32 a (b.bytes ++ (x :: (k.bytes ++ (tail ++ rest)))) s)) := by
    unfold command
    rw [application_answered (idx := 0x8D#8) ha hb (by decide) (by decide) h12 (by decide) hr h, Res.bind_ok,
      if_pos (show acceptedReady b.r = true by rw [hr']; decide)]
    rfl
  unfold acmd13
  rw [hc, Res.bind_ok, if_neg (by decide)]
  have hu : quiet (answered 13#8 arg b (x :: (k.bytes ++ (tail ++ rest)))
    (answered 55#8 0#32 a (b.bytes ++ (x :: (k.bytes ++ (tail ++ rest)))) s)) := hq
  have hup : pendingHere (answered 13#8 arg b (x :: (k.bytes ++ (tail ++ rest)))
    (answered 55#8 0#32 a (b.bytes ++ (x :: (k.bytes ++ (tail ++ rest)))) s)) = false := hp
  have huf : (answered 13#8 arg b (x :: (k.bytes ++ (tail ++ rest)))
    (answered 55#8 0#32 a (b.bytes ++ (x :: (k.bytes ++ (tail ++ rest)))) s)).fires.pop.1 = true := hf
  have hur : (answered 13#8 arg b (x :: (k.bytes ++ (tail ++ rest)))
    (answered 55#8 0#32 a (b.bytes ++ (x :: (k.bytes ++ (tail ++ rest)))) s)).rx.next = [x] ++ (k.bytes ++ (tail ++ rest)) := rfl
  have huc : (answered 13#8 arg b (x :: (k.bytes ++ (tail ++ rest)))
    (answered 55#8 0#32 a (b.bytes ++ (x :: (k.bytes ++ (tail ++ rest)))) s)).cfg = s.cfg := rfl
  generalize answered 13#8 arg b (x :: (k.bytes ++ (tail ++ rest)))
    (answered 55#8 0#32 a (b.bytes ++ (x :: (k.bytes ++ (tail ++ rest)))) s) = u at hu hup huf hur huc
  rw [sendDummies_answered (k := 1) rfl hur hu, huc]
  have hd := receiveDataBlock_csd (s := exchanged [s.cfg.dummy] [x] (k.bytes ++ (tail ++ rest)) u) hup hk huf rfl (by exact hu)
  rw [show List.replicate 1 s.cfg.dummy = [s.cfg.dummy] from rfl, hd, Res.bind_ok, if_pos rfl]
  have hs := sendDummies_answered (k := 48) (rest := rest)
    (s := received .csd k (tail ++ rest) (exchanged [s.cfg.dummy] [x] (k.bytes ++ (tail ++ rest)) u)) ht rfl (by exact hu)
  rw [← huc] at hs ⊢
  exact congrArg (Res.ok true) hs

end

/-- Settles O39: CMD9 is its frame and one packet; ACMD13 two frames, a dropped byte, one packet and 48 dropped bytes. -/
theorem registerReadCommands : Obligations.RegisterReadCommands := by
  unfold Obligations.RegisterReadCommands
  intro s arg a b x k tail rest hq ha hb h12 hp hf hk
  refine ⟨fun hr h => ⟨outcome_ok (cmd9_received hq ha h12 hp hf hk hr h), csdWriteAll_full _ hk⟩, fun hr hr' ht h => ?_⟩
  refine ⟨_, outcome_ok (acmd13_received hq ha h12 hp hf hb hk hr hr' ht h), rfl, csdWriteAll_full _ hk, rfl, rfl, rfl, ?_⟩
  generalize hu : answered 55#8 0#32 a (b.bytes ++ (x :: (k.bytes ++ (tail ++ rest)))) s = u
  have hus : u.sent = s.sent ++ commandSent s.cfg 55#8 0#32 a := by rw [← hu, sent_answered _ _ _ _ ha]
  have huc : u.cfg = s.cfg := by rw [← hu]; rfl
  generalize hv : answered 13#8 arg b (x :: (k.bytes ++ (tail ++ rest))) u = v
  have hvs : v.sent = u.sent ++ commandSent u.cfg 13#8 arg b := by rw [← hv, sent_answered _ _ _ _ hb]
  have hvc : v.cfg = u.cfg := by rw [← hv]; rfl
  show (exchanged (List.replicate 48 s.cfg.dummy) tail rest (received .csd k (tail ++ rest)
    (exchanged [s.cfg.dummy] [x] (k.bytes ++ (tail ++ rest)) v))).sent = _
  rw [sent_exchanged _ _ (by rw [List.length_replicate, ht]), sent_received,
    sent_exchanged (l := [s.cfg.dummy]) (m := [x]) _ _ rfl, hvs, hus, hk]
  show _ ++ List.replicate _ v.cfg.dummy ++ _ = _
  rw [hvc, huc, show 1 + 1 + 16 + 2 + 48 = 1 + ((1 + 16 + 2) + 48) from rfl, ← List.replicate_append_replicate,
    ← List.replicate_append_replicate]
  simp only [List.append_assoc]
  rfl

/-- Settles O40: the frame, then the packet in or out. -/
theorem singleBlockCommands : Obligations.SingleBlockCommands := by
  unfold Obligations.SingleBlockCommands
  intro s arg a rest hq ha hr h12 hp hf
  refine ⟨fun k hk h => outcome_ok (cmd17_received hq ha h12 hp hf hk hr h), fun k hk ht h => ?_⟩
  have hc := cmd24_responded (arg := arg) hq ha h12 hp hf hk ht hr h
  exact ⟨fun h5 => outcome_ok (hc.trans (if_pos h5)), fun h5 => outcome_ok (hc.trans (if_neg h5))⟩

/-! ### The erase wait -/

/-- Settles O42: behind an accepted frame, `waitReady` of 30000 ms in the same selection. -/
theorem eraseCommandWaits : Obligations.EraseCommandWaits := by
  unfold Obligations.EraseCommandWaits
  intro s arg a bs rest adv hq ha h12 hbusy
  have hframe : ∀ {b : Bool} {t : State}, cmd38 arg s = .ok b t → commandFrame s { t with ret := .bool b } := by
    intro b t h
    exact outcome_command (f := .bool) (cmd38_step arg s) (by rw [h]; rfl)
  have hcmd : ∀ more, a.r = 0x00#8 → s.rx.next = a.bytes ++ more →
      cmd38 arg s = waitReady tEraseMs (answered 38#8 arg a more s) := by
    intro more hr h
    unfold cmd38
    rw [command_accepted hq ha h12 (by decide) (by decide) (by decide) hr h]
    rfl
  have hbusy' : ∀ more, s.tickAdv.pop.2 = s.tickAdv → busyFor bs tEraseMs.toNat adv (answered 38#8 arg a more s) :=
    fun more hp => ⟨hp.trans hbusy.1, hbusy.2⟩
  have hpop : s.tickAdv.pop.2 = s.tickAdv := by rw [hbusy.1]; rfl
  refine ⟨fun hr h => ?_, fun b hr hne hms h => ?_, fun hr h => ?_⟩
  · obtain ⟨t, h1, h2, h3, -⟩ := waitReady_afterBusy (s := answered 38#8 arg a (bs ++ 0xFF#8 :: rest) s) (hbusy' _ hpop) rfl
      (by exact hq)
    have h4 := (hcmd _ hr h).trans h1
    refine ⟨_, outcome_ok h4, hframe h4, rfl, by rw [h2]; rfl, by rw [h2]; rfl, by rw [h2]; rfl, by rw [h2]; rfl, ?_⟩
    rw [sent_answered _ _ _ _ ha] at h3
    exact h3
  · obtain ⟨t, h1, h2, -⟩ := waitReady_expires (s := answered 38#8 arg a (bs ++ b :: rest) s) (hbusy' _ hpop) hne hms rfl
      (by exact hq)
    have h4 := (hcmd _ hr h).trans h1
    exact ⟨_, outcome_ok h4, hframe h4, rfl, by rw [h2]⟩
  · have h4 : cmd38 arg s = .ok false { answered 38#8 arg a rest s with cause := .diskError .cmd38 } := by
      unfold cmd38
      rw [command_rejected hq ha h12 (by decide) (by decide) (by decide) hr h]
      rfl
    exact outcome_ok h4

end Sys2Proof.Machine
end

section
/-! SUPPORT. What operations with data leave, as a relation: which bytes went out, the cause, memory and the scratch array; all
else but the link registers is as before (40_transport.md R136 to R147; 43_blockio.md R234 to R243). -/

namespace Sys2Proof.Machine

set_option Elab.async false

open Sys2Proof

/-! ### The relation -/

/-- From `s` to `t` the bytes `out` went out, `rest` is left of what the card returns, the cause is `c`, memory `m` and the scratch
array `v`; transfers still complete, and a tick counter that advances by `adv` at each reading still does. -/
def ran (adv : Nat) (out rest : List Byte) (c : Cause) (m : Memory) (v : Vector Byte 16) (s t : State) : Prop :=
  t = { s with
    cs := t.cs, fr := t.fr, r1 := t.r1, n := t.n, ocr := t.ocr, tok := t.tok, csd := v, mem := m
    engine := t.engine, fires := t.fires, rx := { s.rx with next := rest }, tick := t.tick, tickAdv := t.tickAdv
    events := t.events, cause := c, seq := t.seq, path := t.path }
  ∧ t.sent = s.sent ++ out ∧ (fair s → fair t) ∧ (s.tickAdv = ⟨[], adv⟩ → t.tickAdv = ⟨[], adv⟩)

section
variable {adv : Nat} {out rest : List Byte} {c : Cause} {m : Memory} {v : Vector Byte 16} {s t : State}

theorem ran.trans {out' rest' : List Byte} {c' : Cause} {m' : Memory} {v' : Vector Byte 16} {u : State}
    (h : ran adv out rest c m v s t) (k : ran adv out' rest' c' m' v' t u) : ran adv (out ++ out') rest' c' m' v' s u := by
  obtain ⟨h1, h2, h3, h4⟩ := h
  obtain ⟨k1, k2, k3, k4⟩ := k
  refine ⟨?_, ?_, k3 ∘ h3, k4 ∘ h4⟩
  · rw [k1, h1]
  · rw [k2, h2, List.append_assoc]

theorem ran.cast {out' rest' : List Byte} {c' : Cause} {m' : Memory} {v' : Vector Byte 16} (h : ran adv out rest c m v s t)
    (ho : out = out') (hr : rest = rest') (hc : c = c') (hm : m = m') (hv : v = v') : ran adv out' rest' c' m' v' s t := by
  subst ho hr hc hm hv
  exact h

theorem ran.refl (adv : Nat) (s : State) : ran adv [] s.rx.next s.cause s.mem s.csd s s :=
  ⟨rfl, (List.append_nil _).symm, id, id⟩

theorem ran.cfg (h : ran adv out rest c m v s t) : t.cfg = s.cfg := by rw [h.1]
theorem ran.card (h : ran adv out rest c m v s t) : t.card = s.card := by rw [h.1]
theorem ran.next (h : ran adv out rest c m v s t) : t.rx.next = rest := by rw [h.1]
theorem ran.cause (h : ran adv out rest c m v s t) : t.cause = c := by rw [h.1]
theorem ran.mem (h : ran adv out rest c m v s t) : t.mem = m := by rw [h.1]
theorem ran.csd (h : ran adv out rest c m v s t) : t.csd = v := by rw [h.1]
theorem ran.bufBase (h : ran adv out rest c m v s t) : t.bufBase = s.bufBase := by rw [h.1]
theorem ran.off (h : ran adv out rest c m v s t) : t.off = s.off := by rw [h.1]
theorem ran.addr (h : ran adv out rest c m v s t) : t.addr = s.addr := by rw [h.1]
theorem ran.remaining (h : ran adv out rest c m v s t) : t.remaining = s.remaining := by rw [h.1]
theorem ran.ticks (h : ran adv out rest c m v s t) (ha : s.tickAdv = ⟨[], adv⟩) : t.tickAdv = ⟨[], adv⟩ := h.2.2.2 ha
theorem ran.fair (h : ran adv out rest c m v s t) (hf : fair s) : fair t := h.2.2.1 hf
theorem ran.quiet (h : ran adv out rest c m v s t) (hq : quiet s) : quiet t := by rw [h.1]; exact hq

theorem ran.bridge (h : ran adv out rest c m v s t) (hb : bridgeReady s) : bridgeReady t := by
  obtain ⟨hp, hf⟩ := hb
  refine ⟨?_, h.fair hf⟩
  rw [h.1]
  exact hp

/-- The block registers can be set on both sides. -/
theorem ran.set (h : ran adv out rest c m v s t) (o : Nat) (r : U32) :
    ran adv out rest c m v { s with off := o, remaining := r } { t with off := o, remaining := r } :=
  ⟨congrArg (fun x : State => { x with off := o, remaining := r }) h.1, h.2⟩

theorem ran.setRemaining (h : ran adv out rest c m v s t) (r : U32) :
    ran adv out rest c m v { s with remaining := r } { t with remaining := r } :=
  ⟨congrArg (fun x : State => { x with remaining := r }) h.1, h.2⟩

theorem ran.setSector (h : ran adv out rest c m v s t) (o : Nat) (a r : U32) :
    ran adv out rest c m v { s with off := o, addr := a, remaining := r } { t with off := o, addr := a, remaining := r } :=
  ⟨congrArg (fun x : State => { x with off := o, addr := a, remaining := r }) h.1, h.2⟩

end

theorem went.ran {adv k : Nat} {out rest : List Byte} {c : Cause} {s t : State} (h : went adv k out rest c s t) :
    ran adv out rest c s.mem s.csd s t := by
  obtain ⟨h1, h2, h3⟩ := h
  refine ⟨?_, h2, fun hf => ?_, fun ha => (h3 ha).1⟩
  · rw [h1]
  · rw [h1]; exact hf

theorem enter_ran (adv : Nat) (q : Seq) (s : State) : ran adv [] s.rx.next s.cause s.mem s.csd s (enter q s) :=
  (went.enter (adv := adv) q s).ran

theorem visit_ran (adv : Nat) (b : Bool) (q : Seq) (s : State) : ran adv [] s.rx.next s.cause s.mem s.csd s (visit b q s) := by
  unfold visit
  split
  · exact enter_ran adv q s
  · exact .refl adv s

/-! ### Commands and what they meet -/

section
variable {adv : Nat} {idx r : Byte} {arg : U32} {tag : DiskTag} {xs : List Turn} {rest : List Byte} {s : State}

/-- A command that meets any value but 0x00. -/
theorem command_fails (hm : meets idx arg xs r) (hwf : turnsWf adv s xs) (h6 : idx.getLsbD 6 = false)
    (h12 : s.cfg.stopCmdIndex = 12#8) (hi : idx &&& 0x7F#8 ≠ 12#8) (hr : r ≠ 0x00#8) (h : s.rx.next = turnsBytes xs ++ rest)
    (hq : quiet s) :
    ∃ t, command idx arg tag s = .ok false t ∧ went adv (turnsReadings xs) (turnsSent s.cfg xs) rest (.diskError tag) s t
      ∧ t.r1 = r := by
  obtain ⟨t, h1, h2, h3⟩ := sendCommand_turns hm hwf h6 (by rw [h12]; decide) (by rw [h12]; exact hi) h
  refine ⟨raise (.diskError tag) t, ?_, ?_, h3⟩
  · unfold command
    rw [h1, Res.bind_ok, if_neg (by simpa [acceptedReady] using hr)]
  · have hw := h2.trans (raise_went (adv := adv) (.diskError tag) t)
    rw [h2.next] at hw
    exact hw.cast rfl (List.append_nil _) rfl rfl

/-- A command that meets 0x00. -/
theorem command_passes (hm : meets idx arg xs r) (hwf : turnsWf adv s xs) (h6 : idx.getLsbD 6 = false)
    (h12 : s.cfg.stopCmdIndex = 12#8) (hi : idx &&& 0x7F#8 ≠ 12#8) (hr : r = 0x00#8) (h : s.rx.next = turnsBytes xs ++ rest)
    (hq : quiet s) :
    ∃ t, command idx arg tag s = .ok true t
      ∧ went adv (turnsReadings xs) (turnsSent s.cfg xs) rest (turnsCause xs s.cause) s t := by
  obtain ⟨t, h1, h2, -⟩ := sendCommand_turns hm hwf h6 (by rw [h12]; decide) (by rw [h12]; exact hi) h
  refine ⟨t, ?_, h2⟩
  unfold command
  rw [h1, Res.bind_ok, if_pos (by rw [hr]; decide)]

end

/-! ### No data without acceptance -/

/-- The commands with data, by the command they begin with. -/
theorem dataCommand_rejected {i : Instr} {idx : Byte} {tag : DiskTag} {arg : U32} {s u : State}
    (hi : (i, idx, tag) ∈ [(.cmd9 arg, 9#8, .cmd9), (.cmd17 arg, 17#8, .cmd17), (.cmd24 arg, 24#8, .cmd24),
      (.cmd25 arg, 25#8, .cmd25), (.acmd13 arg, 0x8D#8, .acmd13)]) (h : command idx arg tag s = .ok false u) :
    exec i s = .next { u with ret := .bool false } := by
  simp only [List.mem_cons, Prod.mk.injEq, List.not_mem_nil, or_false] at hi
  rcases hi with ⟨rfl, rfl, rfl⟩ | ⟨rfl, rfl, rfl⟩ | ⟨rfl, rfl, rfl⟩ | ⟨rfl, rfl, rfl⟩ | ⟨rfl, rfl, rfl⟩
  · exact outcome_ok (by unfold cmd9; rw [h]; rfl)
  · exact outcome_ok (by unfold cmd17; rw [h]; rfl)
  · exact outcome_ok (by unfold cmd24; rw [h]; rfl)
  · exact outcome_ok (by unfold cmd25; rw [h]; rfl)
  · exact outcome_ok (by unfold acmd13; rw [h]; rfl)

theorem acmd13_second {arg : U32} {a b : Answer} {rest : List Byte} {s : State} (hq : quiet s) (ha : a.wf = true)
    (hb : b.wf = true) (h12 : s.cfg.stopCmdIndex = 12#8) (hr : a.r.toNat ≤ 1) (hr' : b.r ≠ 0x00#8)
    (h : s.rx.next = a.bytes ++ (b.bytes ++ rest)) :
    command 0x8D#8 arg .acmd13 s = .ok false { answered 13#8 arg b rest (answered 55#8 0#32 a (b.bytes ++ rest) s) with
      cause := .diskError .acmd13 } := by
  unfold command
  rw [application_answered (idx := 0x8D#8) ha hb (by decide) (by decide) h12 (by decide) hr h, Res.bind_ok,
    if_neg (by simpa [acceptedReady] using hr')]
  rfl

theorem acmd13_first {arg : U32} {a : Answer} {rest : List Byte} {s : State} (hq : quiet s) (ha : a.wf = true)
    (h12 : s.cfg.stopCmdIndex = 12#8) (hr : 1 < a.r.toNat) (h : s.rx.next = a.bytes ++ rest) :
    command 0x8D#8 arg .acmd13 s = .ok false { answered 55#8 0#32 a rest s with cause := .diskError .acmd13 } := by
  have hne : a.r ≠ 0x00#8 := by
    intro h0
    rw [h0] at hr
    exact absurd hr (by decide)
  unfold command
  rw [application_fails (idx := 0x8D#8) ha (by decide) (by decide) h12 hr h, Res.bind_ok,
    if_neg (by simpa [acceptedReady] using hne)]
  rfl

/-- Settles O43: each command with data ends where its `command` does when that was not accepted. -/
theorem noDataWithoutAcceptance : Obligations.NoDataWithoutAcceptance := by
  unfold Obligations.NoDataWithoutAcceptance
  intro s arg rest hq h12
  refine ⟨fun a b ha hb => ⟨fun h hr => ?_, fun h hr hr' => ?_, fun h hr => ?_⟩, ?_⟩
  · exact ⟨dataCommand_rejected (arg := arg) (idx := 9#8) (by simp) (command_rejected hq ha h12 (by decide) (by decide) (by decide) hr h),
      dataCommand_rejected (arg := arg) (idx := 17#8) (by simp) (command_rejected hq ha h12 (by decide) (by decide) (by decide) hr h),
      dataCommand_rejected (arg := arg) (idx := 24#8) (by simp) (command_rejected hq ha h12 (by decide) (by decide) (by decide) hr h),
      dataCommand_rejected (arg := arg) (idx := 25#8) (by simp) (command_rejected hq ha h12 (by decide) (by decide) (by decide) hr h)⟩
  · exact dataCommand_rejected (arg := arg) (by simp) (acmd13_second hq ha hb h12 hr hr' h)
  · exact dataCommand_rejected (arg := arg) (by simp) (acmd13_first hq ha h12 hr h)
  · intro i idx r tag xs adv hi hm hwf hr h
    have hidx : idx.getLsbD 6 = false ∧ idx &&& 0x7F#8 ≠ 12#8 := by
      simp only [List.mem_cons, Prod.mk.injEq, List.not_mem_nil, or_false] at hi
      rcases hi with ⟨-, rfl, -⟩ | ⟨-, rfl, -⟩ | ⟨-, rfl, -⟩ | ⟨-, rfl, -⟩ | ⟨-, rfl, -⟩ <;> decide
    obtain ⟨t, h1, h2, h3⟩ := command_fails (tag := tag) hm hwf hidx.1 h12 hidx.2 hr h hq
    have hstep := command_step idx arg tag s
    rw [h1] at hstep
    refine ⟨_, dataCommand_rejected hi h1, hstep.1.marked (.inl ⟨_, rfl⟩), rfl, h3, h2.cause, ?_, ?_, ?_, h2.2.1⟩
    · show t.wins = s.wins
      rw [h2.1]
    · show t.hung = s.hung
      rw [h2.1]
    · show t.rx = _
      rw [h2.1]

/-! ### Blocks out -/

section
variable {adv off : Nat} {token : Byte} {rest : List Byte} {s : State}

theorem sentBlock_ran (k : Sink) (hk : k.echo.length = sectorSize) :
    ran adv (packetSent s.cfg token (memBytes s.mem (s.bufBase + off) 512)) rest s.cause s.mem s.csd s
      (sentBlock off token k rest s) :=
  ⟨rfl, sent_sentBlock off token rest s hk, fun hf => (fair_pop hf).2, fun ha => by
    show s.tickAdv.pop.2 = _
    rw [ha]; rfl⟩

theorem setCause_ran {out : List Byte} {c c' : Cause} {m : Memory} {v : Vector Byte 16} {t : State}
    (h : ran adv out rest c m v s t) : ran adv out rest c' m v s { t with cause := c' } :=
  ⟨congrArg (fun x : State => { x with cause := c' }) h.1, h.2⟩

/-- A block that the card accepts. -/
theorem sendDataBlock_sends {k : Sink} (hb : bridgeReady s) (ht : token ≠ s.cfg.tokenStop) (hk : k.echo.length = 512)
    (hr : k.response.toNat % 32 = 5) (h : s.rx.next = k.bytes ++ rest) (hq : quiet s) :
    ∃ u, sendDataBlock off token s = .ok true u
      ∧ ran adv (packetSent s.cfg token (memBytes s.mem (s.bufBase + off) 512)) rest s.cause s.mem s.csd s u ∧ u.cs = s.cs := by
  refine ⟨sentBlock off token k rest s, ?_, sentBlock_ran k hk, rfl⟩
  rw [sendDataBlock_response hb.1 (fair_pop hb.2).1 ht hk h, if_pos hr]

/-- A token that is held back by a busy card. -/
theorem sendDataBlock_heldBack {failing out : List Byte} {c : Cause} (hf : tokenHeldBack adv failing out c s)
    (h : s.rx.next = failing ++ rest) (hq : quiet s) :
    ∃ u, sendDataBlock off token s = .ok false u ∧ ran adv out rest c s.mem s.csd s u := by
  obtain ⟨bs, b, hbusy, hne, hms, rfl, rfl, rfl⟩ := hf
  obtain ⟨t, h1, h2, h3, -⟩ := waitReady_expires (ms := tSendBlockMs) (rest := rest) hbusy hne hms
    (by rw [h, List.append_assoc]; rfl)
  refine ⟨t, sendDataBlock_notReady h1, ?_, h3, fun hf => ?_, fun ha => ?_⟩
  · rw [h2]
  · rw [h2]; exact hf
  · rw [h2]; exact ha

/-- A block that fails, either way. -/
theorem sendDataBlock_fails {failing out : List Byte} {c : Cause} (hb : bridgeReady s) (ht : token ≠ s.cfg.tokenStop)
    (hf : blockFails adv token (memBytes s.mem (s.bufBase + off) 512) failing out c s) (h : s.rx.next = failing ++ rest)
    (hq : quiet s) : ∃ u, sendDataBlock off token s = .ok false u ∧ ran adv out rest c s.mem s.csd s u := by
  rcases hf with ⟨k, hk, hr, rfl, rfl, rfl⟩ | hf
  · refine ⟨{ sentBlock off token k rest s with cause := .diskError .dataResponse }, ?_, setCause_ran (sentBlock_ran k hk)⟩
    rw [sendDataBlock_response hb.1 (fair_pop hb.2).1 ht hk h, if_neg hr]
  · exact sendDataBlock_heldBack hf h hq

theorem tokenHeldBack_congr {failing out : List Byte} {c : Cause} {t : State} (hc : t.cfg = s.cfg)
    (ha : s.tickAdv = ⟨[], adv⟩ → t.tickAdv = ⟨[], adv⟩) (h : tokenHeldBack adv failing out c s) :
    tokenHeldBack adv failing out c t := by
  obtain ⟨bs, b, ⟨h1, h2, h3, h4⟩, hne, hms, hf, hs, hcause⟩ := h
  exact ⟨bs, b, ⟨ha h1, h2, h3, by rw [hc]; exact h4⟩, hne, hms, hf, by rw [hc]; exact hs, hcause⟩

theorem blockFails_congr {failing out p : List Byte} {c : Cause} {t : State} (hc : t.cfg = s.cfg)
    (ha : s.tickAdv = ⟨[], adv⟩ → t.tickAdv = ⟨[], adv⟩) (h : blockFails adv token p failing out c s) :
    blockFails adv token p failing out c t := by
  rcases h with ⟨k, hk, hr, hf, hs, hcause⟩ | h
  · exact .inl ⟨k, hk, hr, hf, by rw [hc]; exact hs, hcause⟩
  · exact .inr (tokenHeldBack_congr hc ha h)

/-! ### The stream -/

theorem streamSent_succ (c : Config) (m : Memory) (base n : Nat) :
    streamSent c m base (n + 1) = packetSent c c.tokenMulti (memBytes m base 512) ++ streamSent c m (base + 512) n := by
  have hk : ∀ k, base + 512 * (k + 1) = base + 512 + 512 * k := fun k => by omega
  unfold streamSent
  rw [List.range_succ_eq_map, List.flatMap_cons, List.flatMap_map]
  simp only [hk, Nat.mul_zero, Nat.add_zero]

/-- The blocks of a stream that the card accepts, one after the other; `j` more are to follow. -/
theorem blockLoop_sends {b : Bool} {ks : List Sink} {j : Nat} (hb : bridgeReady s) (ht : s.cfg.tokenMulti ≠ s.cfg.tokenStop)
    (hks : ∀ k ∈ ks, k.echo.length = 512 ∧ k.response.toNat % 32 = 5) (hrem : s.remaining.toNat = ks.length + j)
    (h : s.rx.next = ks.flatMap Sink.bytes ++ rest) (hq : quiet s) :
    ∃ u, blockLoop b (ks.length + j) s = blockLoop b j u
      ∧ ran adv (streamSent s.cfg s.mem (s.bufBase + s.off) ks.length) rest s.cause s.mem s.csd
          { s with off := s.off + 512 * ks.length, remaining := BitVec.ofNat 32 j } u
      ∧ u.cs = s.cs := by
  induction ks generalizing s with
  | nil =>
    have hr : s.remaining = BitVec.ofNat 32 j := by
      apply BitVec.eq_of_toNat_eq
      have := s.remaining.isLt
      rw [BitVec.toNat_ofNat, hrem, List.length_nil, Nat.zero_add, Nat.mod_eq_of_lt (by omega)]
    refine ⟨s, by rw [List.length_nil, Nat.zero_add], ?_, rfl⟩
    rw [← hr]
    exact (ran.refl adv s).cast rfl h rfl rfl rfl
  | cons k ks ih =>
    obtain ⟨hk, hresp⟩ := hks k (by simp)
    rw [List.length_cons] at hrem
    have hv := visit_ran adv b .wBlock s
    obtain ⟨t, h1, h2, h3⟩ := sendDataBlock_sends (adv := adv) (off := s.off) (token := s.cfg.tokenMulti)
      (rest := ks.flatMap Sink.bytes ++ rest) (hv.bridge hb) (by rw [hv.cfg]; exact ht) hk hresp
      (by rw [hv.next, h, List.flatMap_cons, List.append_assoc]) (hv.quiet hq)
    rw [hv.cfg, hv.mem, hv.bufBase, hv.cause, hv.csd] at h2
    have hst := hv.trans h2
    rw [List.nil_append] at hst
    have hne : s.remaining ≠ 0#32 := fun h0 => by
      rw [h0] at hrem
      change 0 = _ at hrem
      omega
    have hdec : (s.remaining - 1#32).toNat = ks.length + j := by
      rw [BitVec.toNat_sub_of_le (by rw [BitVec.le_def]; show 1 ≤ _; omega), hrem]
      show ks.length + 1 + j - 1 = _
      omega
    have hset := hst.set (s.off + sectorSize) (s.remaining - 1#32)
    have hloop : blockLoop b ((k :: ks).length + j) s =
        blockLoop b (ks.length + j) { t with off := s.off + sectorSize, remaining := s.remaining - 1#32 } := by
      rw [show (k :: ks).length + j = (ks.length + j) + 1 by rw [List.length_cons]; omega, blockLoop, if_neg hne, h1,
        Res.bind_ok, if_pos rfl, hst.off, hst.remaining]
    obtain ⟨u, h4, h5, h6⟩ := ih (s := { t with off := s.off + sectorSize, remaining := s.remaining - 1#32 })
      (hset.bridge hb) (by rw [hset.cfg]; exact ht) (fun x hx => hks x (List.mem_cons_of_mem _ hx)) hdec hset.next
      (hset.quiet hq)
    have hoff : s.off + sectorSize + 512 * ks.length = s.off + 512 * (k :: ks).length := by
      rw [List.length_cons, show sectorSize = 512 from rfl]
      omega
    have hsent : streamSent t.cfg t.mem (t.bufBase + (s.off + sectorSize)) ks.length =
        streamSent s.cfg s.mem (s.bufBase + s.off + 512) ks.length := by
      rw [hst.cfg, hst.mem, hst.bufBase, ← Nat.add_assoc]
      rfl
    have h7 : ran adv (streamSent s.cfg s.mem (s.bufBase + s.off + 512) ks.length) rest s.cause s.mem s.csd
        { t with off := s.off + sectorSize + 512 * ks.length, remaining := BitVec.ofNat 32 j } u :=
      h5.cast hsent rfl hst.cause hst.mem hst.csd
    rw [hoff] at h7
    refine ⟨u, hloop.trans h4, ?_, ?_⟩
    · rw [show (k :: ks).length = ks.length + 1 from rfl, streamSent_succ]
      exact (hst.set (s.off + 512 * (k :: ks).length) (BitVec.ofNat 32 j)).trans h7
    · exact h6.trans (h3.trans (by unfold visit; split <;> rfl))

/-- What a stream does after its blocks: the stop token, whose failure leaves the count above 0 (R239, R244). -/
def streamStop (b : Bool) (_ : Unit) (s : State) : Res Unit :=
  (sendDataBlock 0 s.cfg.tokenStop (visit b .wStop s)).bind fun ok s => if ok then .ok () s else .ok () { s with remaining := 1#32 }

theorem stream_eq (b : Bool) (s : State) :
    stream b s = (blockLoop b s.remaining.toNat { s with off := 0 }).bind (streamStop b) := rfl

theorem sentStop_ran (d : Byte) (s : State) :
    ran adv [s.cfg.dummy, s.cfg.tokenStop] rest s.cause s.mem s.csd s (sentStop d rest s) :=
  ⟨rfl, sent_sentStop d rest s, id, fun ha => by
    show s.tickAdv.pop.2 = _
    rw [ha]; rfl⟩

theorem streamStop_sent {b : Bool} {d : Byte} (h : s.rx.next = 0xFF#8 :: d :: rest) (hq : quiet s) :
    ∃ u, streamStop b () s = .ok () u
      ∧ ran adv [s.cfg.dummy, s.cfg.tokenStop] rest s.cause s.mem s.csd s u ∧ u.cs = s.cs := by
  have hv := visit_ran adv b .wStop s
  have hs := sentStop_ran (adv := adv) (rest := rest) d (visit b .wStop s)
  have h1 := sendDataBlock_stop (off := 0) (s := visit b .wStop s) (hv.next.trans h) (hv.quiet hq)
  rw [hv.cfg] at h1 hs
  rw [hv.cause, hv.mem, hv.csd] at hs
  refine ⟨sentStop d rest (visit b .wStop s), ?_, hv.trans hs, by unfold visit; split <;> rfl⟩
  unfold streamStop
  rw [h1]
  rfl

theorem streamStop_heldBack {b : Bool} {failing out : List Byte} {c : Cause} (hf : tokenHeldBack adv failing out c s)
    (h : s.rx.next = failing ++ rest) (hq : quiet s) :
    ∃ u, streamStop b () s = .ok () u ∧ ran adv out rest c s.mem s.csd { s with remaining := 1#32 } u := by
  have hv := visit_ran adv b .wStop s
  obtain ⟨u, h1, h2⟩ := sendDataBlock_heldBack (off := 0) (token := s.cfg.tokenStop) (tokenHeldBack_congr hv.cfg hv.ticks hf)
    (hv.next.trans h) (hv.quiet hq)
  rw [hv.mem, hv.csd] at h2
  refine ⟨{ u with remaining := 1#32 }, ?_, ?_⟩
  · unfold streamStop
    rw [h1]
    rfl
  · exact (hv.trans h2).setRemaining 1#32

/-- A stream whose blocks are all accepted, up to its stop token. -/
theorem stream_blocks {b : Bool} {ks : List Sink} {j : Nat} (hb : bridgeReady s) (ht : s.cfg.tokenMulti ≠ s.cfg.tokenStop)
    (hks : ∀ k ∈ ks, k.echo.length = 512 ∧ k.response.toNat % 32 = 5) (hrem : s.remaining.toNat = ks.length + j)
    (h : s.rx.next = ks.flatMap Sink.bytes ++ rest) (hq : quiet s) :
    ∃ u, stream b s = (blockLoop b j u).bind (streamStop b)
      ∧ ran adv (streamSent s.cfg s.mem s.bufBase ks.length) rest s.cause s.mem s.csd
          { s with off := 512 * ks.length, remaining := BitVec.ofNat 32 j } u
      ∧ u.cs = s.cs := by
  obtain ⟨u, h1, h2, h3⟩ := blockLoop_sends (adv := adv) (s := { s with off := 0 }) (b := b) hb ht hks hrem h hq
  refine ⟨u, ?_, ?_, h3⟩
  · rw [stream_eq, hrem, h1]
  · have hoff : 0 + 512 * ks.length = 512 * ks.length := Nat.zero_add _
    rw [← hoff]
    exact h2

/-- A stream whose blocks and stop token all go out. -/
theorem stream_sends {b : Bool} {ks : List Sink} {d : Byte} (hb : bridgeReady s) (ht : s.cfg.tokenMulti ≠ s.cfg.tokenStop)
    (hks : ∀ k ∈ ks, k.echo.length = 512 ∧ k.response.toNat % 32 = 5) (hrem : s.remaining.toNat = ks.length)
    (h : s.rx.next = ks.flatMap Sink.bytes ++ (0xFF#8 :: d :: rest)) (hq : quiet s) :
    ∃ u, stream b s = .ok () u
      ∧ ran adv (streamSent s.cfg s.mem s.bufBase ks.length ++ [s.cfg.dummy, s.cfg.tokenStop]) rest s.cause s.mem s.csd
          { s with off := 512 * ks.length, remaining := 0#32 } u
      ∧ u.cs = s.cs := by
  obtain ⟨t, h1, h2, h3⟩ := stream_blocks (adv := adv) (b := b) (j := 0) hb ht hks hrem h hq
  obtain ⟨u, h4, h5, h6⟩ := streamStop_sent (adv := adv) (b := b) h2.next (h2.quiet hq)
  rw [h2.cfg, h2.mem, h2.csd, h2.cause] at h5
  exact ⟨u, h1.trans h4, h2.trans h5, h6.trans h3⟩

/-- A stream whose stop token is held back. -/
theorem stream_heldBack {b : Bool} {ks : List Sink} {failing out : List Byte} {c : Cause} (hb : bridgeReady s)
    (ht : s.cfg.tokenMulti ≠ s.cfg.tokenStop) (hks : ∀ k ∈ ks, k.echo.length = 512 ∧ k.response.toNat % 32 = 5)
    (hrem : s.remaining.toNat = ks.length) (hf : tokenHeldBack adv failing out c s)
    (h : s.rx.next = ks.flatMap Sink.bytes ++ (failing ++ rest)) (hq : quiet s) :
    ∃ u, stream b s = .ok () u
      ∧ ran adv (streamSent s.cfg s.mem s.bufBase ks.length ++ out) rest c s.mem s.csd
          { s with off := 512 * ks.length, remaining := 1#32 } u := by
  obtain ⟨t, h1, h2, -⟩ := stream_blocks (adv := adv) (b := b) (j := 0) hb ht hks hrem h hq
  obtain ⟨u, h4, h5⟩ := streamStop_heldBack (b := b) (tokenHeldBack_congr h2.cfg h2.ticks hf) h2.next (h2.quiet hq)
  rw [h2.mem, h2.csd] at h5
  have h6 := h2.set (512 * ks.length) 1#32
  have h7 : ran adv out rest c s.mem s.csd { t with off := 512 * ks.length, remaining := 1#32 } u := by
    have ho : t.off = 512 * ks.length := h2.off
    rw [← ho]
    exact h5
  exact ⟨u, h1.trans h4, h6.trans h7⟩

/-- A stream one of whose blocks fails: the stop token is still attempted, and the count stays above 0 (R243). -/
theorem stream_fails {b : Bool} {ks : List Sink} {j : Nat} {failing out stopping stopOut : List Byte} {c c' : Cause}
    (hb : bridgeReady s) (ht : s.cfg.tokenMulti ≠ s.cfg.tokenStop)
    (hks : ∀ k ∈ ks, k.echo.length = 512 ∧ k.response.toNat % 32 = 5) (hrem : s.remaining.toNat = ks.length + (j + 1))
    (hf : blockFails adv s.cfg.tokenMulti (memBytes s.mem (s.bufBase + 512 * ks.length) 512) failing out c s)
    (hstop : stopMeets adv c stopping stopOut c' s)
    (h : s.rx.next = ks.flatMap Sink.bytes ++ (failing ++ (stopping ++ rest))) (hq : quiet s) :
    ∃ u r, stream b s = .ok () u
      ∧ ran adv (streamSent s.cfg s.mem s.bufBase ks.length ++ out ++ stopOut) rest c' s.mem s.csd
          { s with off := 512 * ks.length, remaining := r } u
      ∧ r ≠ 0#32 := by
  obtain ⟨t, h1, h2, -⟩ := stream_blocks (adv := adv) (b := b) (j := j + 1) hb ht hks hrem h hq
  have hne : BitVec.ofNat 32 (j + 1) ≠ 0#32 := fun h0 => by
    have hj := congrArg BitVec.toNat h0
    have := s.remaining.isLt
    rw [BitVec.toNat_ofNat, Nat.mod_eq_of_lt (by omega)] at hj
    change j + 1 = 0 at hj
    omega
  have hv := h2.trans ((visit_ran adv b .wBlock t).cast rfl h2.next h2.cause h2.mem h2.csd)
  have hf' : blockFails adv s.cfg.tokenMulti
      (memBytes (visit b .wBlock t).mem ((visit b .wBlock t).bufBase + 512 * ks.length) 512) failing out c (visit b .wBlock t) := by
    rw [hv.mem, hv.bufBase]
    exact blockFails_congr (s := s) hv.cfg hv.ticks hf
  obtain ⟨w, h3, h4⟩ := sendDataBlock_fails (hv.bridge hb) (by rw [hv.cfg]; exact ht) hf' hv.next (hv.quiet hq)
  have hw := hv.trans (h4.cast rfl rfl rfl hv.mem hv.csd)
  have hloop : blockLoop b (j + 1) t = .ok () w := by
    rw [blockLoop, if_neg (by rw [h2.remaining]; exact hne), h2.off, h2.cfg, h3]
    rfl
  rw [hloop, Res.bind_ok] at h1
  rcases hstop with ⟨d, rfl, rfl, rfl⟩ | hheld
  · obtain ⟨u, h5, h6, -⟩ := streamStop_sent (adv := adv) (b := b) hw.next (hw.quiet hq)
    have hu := hw.trans (h6.cast (by rw [hw.cfg]) rfl hw.cause hw.mem hw.csd)
    exact ⟨u, BitVec.ofNat 32 (j + 1), h1.trans h5, hu.cast (by simp) rfl rfl rfl rfl, hne⟩
  · obtain ⟨u, h5, h6⟩ := streamStop_heldBack (b := b) (tokenHeldBack_congr (s := s) hw.cfg hw.ticks hheld) hw.next (hw.quiet hq)
    have h7 : ran adv stopOut rest c' s.mem s.csd { w with off := 512 * ks.length, remaining := 1#32 } u := by
      have ho : w.off = 512 * ks.length := hw.off
      rw [← ho]
      exact h6.cast rfl rfl rfl hw.mem hw.csd
    have hu := (hw.set (512 * ks.length) 1#32).trans h7
    exact ⟨u, 1#32, h1.trans h5, hu.cast (by simp) rfl rfl rfl rfl, by decide⟩

theorem cmd25_accepted {b : Bool} {arg : U32} {t : State} (h : command 0x19#8 arg .cmd25 s = .ok true t) :
    cmd25 b arg s = (stream b t).bind fun _ u => .ok (u.remaining == 0#32) u := by
  unfold cmd25
  rw [h]
  rfl

end

/-- Settles O41: the accepted frame, the blocks one by one, and the stop token; nothing in between deselects. -/
theorem streamCommandSends : Obligations.StreamCommandSends := by
  unfold Obligations.StreamCommandSends
  intro s arg a ks d rest hq ha hr h12 ht hb hrem hks h
  have hc := command_accepted (idx := 0x19#8) (tag := .cmd25) (arg := arg) hq ha h12 (by decide) (by decide) (by decide) hr h
  obtain ⟨u, h1, h2, h3⟩ := stream_sends (adv := 0) (b := false)
    (s := answered 25#8 arg a (ks.flatMap Sink.bytes ++ (0xFF#8 :: d :: rest)) s) hb ht hks hrem rfl hq
  have h4 : cmd25 false arg s = .ok true u := by
    rw [cmd25_accepted hc, h1, Res.bind_ok, h2.remaining]
    rfl
  have hframe : blockOutFrame s { u with ret := .bool true } := outcome_out (f := .bool) (cmd25_step arg s) (by rw [h4]; rfl)
  refine ⟨_, outcome_ok h4, hframe, rfl, h2.remaining, h2.off, h3, h2.cause, ?_, ?_, ?_⟩
  · show u.hung = s.hung
    rw [h2.1]
    rfl
  · show u.rx = _
    rw [h2.1]
    rfl
  · show u.sent = _
    rw [h2.2.1]
    show (answered 25#8 arg a (ks.flatMap Sink.bytes ++ (0xFF#8 :: d :: rest)) s).sent ++ (streamSent s.cfg s.mem s.bufBase ks.length ++ [s.cfg.dummy, s.cfg.tokenStop]) = _
    rw [sent_answered _ _ _ _ ha, ← List.append_assoc]
    rfl

end Sys2Proof.Machine
end

section
/-! SUPPORT. A data call on a usable card, from the lock to the return; `read` sector by sector (43_blockio.md R230, R231; 20_memory.md
R67, R79, R80). -/

namespace Sys2Proof.Machine

set_option Elab.async false

open Sys2Proof

/-! ### From the lock to the return -/

theorem usable.isQuiet {s : State} (h : usable s) : quiet s := by
  obtain ⟨-, -, -, hq⟩ := h
  exact hq

/-- A call that no early check turns away runs its body in the state `opened`. -/
theorem hostCall_body {k : Call} {s : State} (hk : k ≠ .bareLock) (hl : lockFree s) (hq : quiet s)
    (he : earlyReturn k (sampledStatus s) = none) :
    hostCall k s = (bodyOf k (opened (checkPlace k) s)).callOutcome k := by
  obtain ⟨hc, ho⟩ := hostCall_opened hl hq hk he
  rw [hc, lockedBody_eq hk, ho]

/-- The state in which a body begins, with its block registers set. -/
def begun (q' q : Seq) (b o : Nat) (a r : U32) (s : State) : State :=
  { enter q' (opened q s) with bufBase := b, off := o, addr := a, remaining := r }

theorem begun_sent (q' q : Seq) (b o : Nat) (a r : U32) (s : State) : (begun q' q b o a r s).sent = s.sent := sent_opened q s

/-- What a call leaves that sent `out` before its last dummy byte. -/
def leaves (out rest : List Byte) (c : Cause) (m : Memory) (v : Vector Byte 16) (s t : State) : Prop :=
  t.cause = c ∧ t.hung = s.hung ∧ t.rx = { s.rx with next := rest } ∧ t.sent = s.sent ++ out ++ [s.cfg.dummy]
    ∧ t.mem = m ∧ t.csd = v

/-- The exit of a body that `ran`. -/
theorem leave_ran {adv : Nat} {out rest : List Byte} {d : Byte} {c : Cause} {m : Memory} {v : Vector Byte 16}
    {q' q₀ q : Seq} {b o : Nat} {a r : U32} {s u : State} {f : State → HostReturn} {w : HostReturn} {k : Call} (hq : quiet s)
    (h : ran adv out (d :: rest) c m v (begun q' q₀ b o a r s) u) (hw : f (left (enter q u)) = w) :
    ∃ t, (leave q f u).callOutcome k = .next t ∧ returned w t ∧ leaves out rest c m v s t := by
  have hl : u.lock = ⟨some u.me, 1⟩ := by rw [h.1]; rfl
  have hh : u.hung = s.hung := by rw [h.1]; rfl
  have hx : u.rx = { s.rx with next := d :: rest } := by rw [h.1]; rfl
  have hs : u.sent = s.sent ++ out := h.2.1.trans (congrArg (· ++ out) (begun_sent _ _ _ _ _ _ s))
  have hcfg : u.cfg = s.cfg := h.cfg
  subst hw
  refine ⟨_, leave_finished hl h.next (h.quiet hq), finished_returned _ _ _ _ u, h.cause, hh, ?_, ?_, h.mem, h.csd⟩
  · show ({ u.rx with next := rest } : Feed Byte) = _
    rw [hx]
  · rw [sent_finished, hs, hcfg]

/-- The value of a block transfer is Ok exactly when no sector is left. -/
theorem transferResult_left (q : Seq) (u : State) :
    transferResult (left (enter q u)) = .result (if u.remaining = 0#32 then .ok else .error) := rfl

/-! ### Commands and blocks in, as `ran` -/

section
variable {adv : Nat} {idx : Byte} {arg : U32} {tag : DiskTag} {a : Answer} {rest : List Byte} {s : State}

theorem answered_ran (idx : Byte) (arg : U32) (rest : List Byte) (s : State) (ha : a.wf = true) :
    ran adv (commandSent s.cfg idx arg a) rest s.cause s.mem s.csd s (answered idx arg a rest s) :=
  ⟨rfl, sent_answered idx arg rest s ha, id, fun hadv => by
    show s.tickAdv.pop.2 = _
    rw [hadv]; rfl⟩

theorem received_ran (p : Place) (k : Packet) (rest : List Byte) (s : State) :
    ran adv (List.replicate (1 + k.payload.length + 2) s.cfg.dummy) rest s.cause (memAfter p k.payload s)
      (csdAfter p k.payload s) s (received p k rest s) :=
  ⟨rfl, sent_received p k rest s, fun hf => (fair_pop hf).2, fun hadv => by
    show s.tickAdv.pop.2 = _
    rw [hadv]; rfl⟩

theorem meets_turn {x : Turn} (h7 : idx.getLsbD 7 = false) (hx : x.isOf idx arg) : meets idx arg [x] x.value := by
  unfold meets
  rw [h7]
  exact ⟨x, rfl, hx, rfl⟩

/-- A command that is not accepted. -/
theorem command_commandFails {failing out : List Byte} {c : Cause} (hf : commandFails adv idx arg tag failing out c s)
    (h6 : idx.getLsbD 6 = false) (h7 : idx.getLsbD 7 = false) (h12 : s.cfg.stopCmdIndex = 12#8) (hi : idx &&& 0x7F#8 ≠ 12#8)
    (h : s.rx.next = failing ++ rest) (hq : quiet s) :
    ∃ u, command idx arg tag s = .ok false u ∧ ran adv out rest c s.mem s.csd s u := by
  obtain ⟨x, hx, hwf, hv, rfl, rfl, rfl⟩ := hf
  obtain ⟨u, h1, h2, -⟩ := command_fails (tag := tag) (xs := [x]) (rest := rest) (meets_turn h7 hx)
    (fun y hy => by rw [List.mem_singleton.1 hy]; exact hwf) h6 h12 hi hv (by rw [h]; simp [turnsBytes]) hq
  exact ⟨u, h1, h2.ran.cast (by simp [turnsSent]) rfl rfl rfl rfl⟩

theorem commandFails_congr {failing out : List Byte} {c : Cause} {t : State} (hc : t.cfg = s.cfg)
    (ha : s.tickAdv = ⟨[], adv⟩ → t.tickAdv = ⟨[], adv⟩) (h : commandFails adv idx arg tag failing out c s) :
    commandFails adv idx arg tag failing out c t := by
  obtain ⟨x, hx, hwf, hv, hf, ho, hcause⟩ := h
  exact ⟨x, hx, turn_wf_congr hc ha hwf, hv, hf, by rw [hc]; exact ho, hcause⟩

/-- A token poll that fails stores nothing. -/
theorem receiveDataBlock_fails {p : Place} {len : Nat} {failing out : List Byte} {c : Cause}
    (hf : tokenFails adv failing out c s) (h : s.rx.next = failing ++ rest) (hq : quiet s) :
    ∃ u, receiveDataBlock p len s = .ok false u ∧ ran adv out rest c s.mem s.csd s u := by
  obtain ⟨j, hidle, rfl, ⟨b, hb, hb', rfl, rfl⟩ | ⟨hT, rfl, rfl⟩⟩ := hf
  · obtain ⟨u, h1, h2, h3⟩ := receiveDataBlock_wrongToken (dest := p) (len := len) (rest := rest) hidle hb hb'
      (by rw [h, List.append_assoc]; rfl) hq
    exact ⟨u, h1, by rw [h2], h3, fun hf => by rw [h2]; exact hf, fun ha => by rw [h2]; exact ha⟩
  · obtain ⟨u, h1, h2, h3⟩ := receiveDataBlock_noToken (dest := p) (len := len) hidle hT h hq
    exact ⟨u, h1, by rw [h2], h3, fun hf => by rw [h2]; exact hf, fun ha => by rw [h2]; exact ha⟩

theorem tokenFails_congr {failing out : List Byte} {c : Cause} {t : State} (hc : t.cfg = s.cfg)
    (ha : s.tickAdv = ⟨[], adv⟩ → t.tickAdv = ⟨[], adv⟩) (h : tokenFails adv failing out c s) :
    tokenFails adv failing out c t := by
  obtain ⟨j, ⟨h1, h2, h3⟩, ho, hcases⟩ := h
  exact ⟨j, ⟨ha h1, h2, by rw [hc]; exact h3⟩, by rw [hc]; exact ho, hcases⟩

theorem blockReadFails_congr {failing out : List Byte} {c : Cause} {t : State} (hc : t.cfg = s.cfg)
    (ha : s.tickAdv = ⟨[], adv⟩ → t.tickAdv = ⟨[], adv⟩) (h : blockReadFails adv idx arg tag failing out c s) :
    blockReadFails adv idx arg tag failing out c t := by
  rcases h with h | ⟨a, data, o, hwf, hr, hf, hfail, hout⟩
  · exact .inl (commandFails_congr hc ha h)
  · exact .inr ⟨a, data, o, hwf, hr, tokenFails_congr hc ha hf, hfail, by rw [hc]; exact hout⟩

/-! ### One sector of `read` -/

theorem cmd17_reads {k : Packet} (ha : a.wf = true) (hr : a.r = 0x00#8) (hk : k.payload.length = 512)
    (h12 : s.cfg.stopCmdIndex = 12#8) (hb : bridgeReady s) (h : s.rx.next = a.bytes ++ (k.bytes ++ rest)) (hq : quiet s) :
    ∃ u, cmd17 true arg s = .ok true u
      ∧ ran adv (commandSent s.cfg 17#8 arg a ++ List.replicate (1 + 512 + 2) s.cfg.dummy) rest s.cause
          (s.mem.writeAll (s.bufBase + s.off) k.payload) s.csd s u := by
  have hc := command_accepted (idx := 0x11#8) (tag := .cmd17) (arg := arg) hq ha h12 (by decide) (by decide) (by decide) hr h
  have h1 := answered_ran (adv := adv) 17#8 arg (k.bytes ++ rest) s ha
  generalize answered 17#8 arg a (k.bytes ++ rest) s = t at hc h1
  have h2 := h1.trans ((visit_ran adv true .rData t).cast rfl h1.next h1.cause h1.mem h1.csd)
  rw [List.append_nil] at h2
  have hd := receiveDataBlock_received (p := .buffer s.off) (s := visit true .rData t) (h2.bridge hb).1 rfl
    (fair_pop (h2.bridge hb).2).1 h2.next (h2.quiet hq)
  have h3 := received_ran (adv := adv) (.buffer s.off) k rest (visit true .rData t)
  rw [hk] at hd h3
  refine ⟨received (.buffer s.off) k rest (visit true .rData t), ?_, h2.trans (h3.cast ?_ rfl h2.cause ?_ h2.csd)⟩
  · unfold cmd17
    rw [hc, Res.bind_ok, if_pos rfl, h1.off]
    exact hd
  · rw [h2.cfg]
  · show (visit true .rData t).mem.writeAll ((visit true .rData t).bufBase + s.off) k.payload = _
    rw [h2.mem, h2.bufBase]

theorem cmd17_fails {failing out : List Byte} {c : Cause} (hf : blockReadFails adv 17#8 arg .cmd17 failing out c s)
    (h12 : s.cfg.stopCmdIndex = 12#8) (h : s.rx.next = failing ++ rest) (hq : quiet s) :
    ∃ u, cmd17 true arg s = .ok false u ∧ ran adv out rest c s.mem s.csd s u := by
  rcases hf with hf | ⟨a, data, o, ha, hr, hf, rfl, rfl⟩
  · obtain ⟨u, h1, h2⟩ := command_commandFails (idx := 0x11#8) hf (by decide) (by decide) h12 (by decide) h hq
    exact ⟨u, by unfold cmd17; rw [h1]; rfl, h2⟩
  · rw [List.append_assoc] at h
    have hc := command_accepted (idx := 0x11#8) (tag := .cmd17) (arg := arg) hq ha h12 (by decide) (by decide) (by decide) hr h
    have h1 := answered_ran (adv := adv) 17#8 arg (data ++ rest) s ha
    generalize answered 17#8 arg a (data ++ rest) s = t at hc h1
    have h2 := h1.trans ((visit_ran adv true .rData t).cast rfl h1.next h1.cause h1.mem h1.csd)
    rw [List.append_nil] at h2
    obtain ⟨u, h3, h4⟩ := receiveDataBlock_fails (p := .buffer t.off) (len := sectorSize)
      (tokenFails_congr h2.cfg h2.ticks hf) h2.next (h2.quiet hq)
    exact ⟨u, by unfold cmd17; rw [hc]; exact h3, h2.trans (h4.cast rfl rfl rfl h2.mem h2.csd)⟩

end

/-! ### The sectors -/

theorem Memory.writeAll_append (m : Memory) (a : Nat) (bs cs : List Byte) :
    m.writeAll a (bs ++ cs) = (m.writeAll a bs).writeAll (a + bs.length) cs := by
  induction bs generalizing m a with
  | nil => rfl
  | cons b t ih =>
    show (m.write a b).writeAll (a + 1) (t ++ cs) = ((m.write a b).writeAll (a + 1) t).writeAll (a + (t.length + 1)) cs
    rw [ih, Nat.add_assoc, Nat.add_comm 1]

/-- The bytes of the sectors in order. -/
def sectorBytes (as : List (Answer × Packet)) : List Byte := as.flatMap fun p => p.2.payload

theorem sectorBytes_length {as : List (Answer × Packet)} (h : ∀ p ∈ as, p.2.payload.length = 512) :
    (sectorBytes as).length = 512 * as.length := by
  induction as with
  | nil => rfl
  | cons p t ih =>
    have h1 := h p (by simp)
    have h2 := ih fun q hq => h q (List.mem_cons_of_mem _ hq)
    unfold sectorBytes at h2 ⊢
    rw [List.flatMap_cons, List.length_append, List.length_cons, h1, h2]
    omega

theorem sectorBytes_get {as : List (Answer × Packet)} (h : ∀ p ∈ as, p.2.payload.length = 512) {k i : Nat}
    (hk : k < as.length) (hi : i < as[k].2.payload.length) :
    (sectorBytes as)[512 * k + i]? = some as[k].2.payload[i] := by
  induction as generalizing k with
  | nil => cases hk
  | cons p t ih =>
    have hp := h p (by simp)
    unfold sectorBytes
    rw [List.flatMap_cons]
    cases k with
    | zero =>
      have hi : i < p.2.payload.length := hi
      rw [Nat.mul_zero, Nat.zero_add, List.getElem?_append_left hi, List.getElem?_eq_getElem hi]
      rfl
    | succ j =>
      rw [List.getElem?_append_right (by omega), hp, show 512 * (j + 1) + i - 512 = 512 * j + i by omega]
      exact ih (fun q hq => h q (List.mem_cons_of_mem _ hq)) (by simpa using hk) (by simpa using hi)

theorem readSent_cons (c : Config) (card : Card) (sector : U32) (p : Answer × Packet) (as : List (Answer × Packet)) :
    readSent c card sector (p :: as) =
      commandSent c 17#8 (toAddr card sector) p.1 ++ List.replicate (1 + 512 + 2) c.dummy
        ++ readSent c card (sector + 1#32) as := by
  unfold readSent
  rw [List.zipIdx_cons, List.flatMap_cons, List.zipIdx_eq_map_add (l := as) (i := 0 + 1), List.flatMap_map]
  have h0 : sector + BitVec.ofNat 32 0 = sector := BitVec.add_zero sector
  have hn : ∀ n : Nat, sector + BitVec.ofNat 32 (0 + 1 + n) = sector + 1#32 + BitVec.ofNat 32 n := fun n => by
    rw [BitVec.ofNat_add, ← BitVec.add_assoc]
  dsimp only
  rw [h0]
  refine congrArg (_ ++ ·) (congrArg (List.flatMap · as.zipIdx) (funext fun q => ?_))
  rw [hn q.2]

theorem toAddr_succ (card : Card) (sector : U32) : toAddr card sector + addrStep card = toAddr card (sector + 1#32) := by
  rw [toAddr_advance, BitVec.one_mul]

section
variable {adv : Nat} {rest : List Byte} {s : State}

/-- The sectors that the card delivers, one after the other; `j` more are to follow. -/
theorem readLoop_reads {as : List (Answer × Packet)} {sector : U32} {j : Nat} (h12 : s.cfg.stopCmdIndex = 12#8)
    (hb : bridgeReady s) (has : ∀ p ∈ as, p.1.wf = true ∧ p.1.r = 0x00#8 ∧ p.2.payload.length = 512)
    (haddr : s.addr = toAddr s.card sector) (hrem : s.remaining.toNat = as.length + j)
    (h : s.rx.next = as.flatMap (fun p => p.1.bytes ++ p.2.bytes) ++ rest) (hq : quiet s) :
    ∃ u, readLoop (as.length + j) s = readLoop j u
      ∧ ran adv (readSent s.cfg s.card sector as) rest s.cause (s.mem.writeAll (s.bufBase + s.off) (sectorBytes as)) s.csd
          { s with
            off := s.off + 512 * as.length
            addr := toAddr s.card (sector + BitVec.ofNat 32 as.length)
            remaining := BitVec.ofNat 32 j } u := by
  induction as generalizing s sector with
  | nil =>
    have hr : s.remaining = BitVec.ofNat 32 j := by
      apply BitVec.eq_of_toNat_eq
      have := s.remaining.isLt
      rw [BitVec.toNat_ofNat, hrem, List.length_nil, Nat.zero_add, Nat.mod_eq_of_lt (by omega)]
    refine ⟨s, by rw [List.length_nil, Nat.zero_add], ?_⟩
    have ha : toAddr s.card (sector + BitVec.ofNat 32 ([] : List (Answer × Packet)).length) = s.addr := by
      rw [haddr]
      exact congrArg _ (BitVec.add_zero sector)
    rw [← hr, ha]
    exact (ran.refl adv s).cast rfl h rfl rfl rfl
  | cons p as ih =>
    obtain ⟨ha, hr, hk⟩ := has p (by simp)
    rw [List.length_cons] at hrem
    have he := enter_ran adv .rCmd17 s
    obtain ⟨t, h1, h2⟩ := cmd17_reads (adv := adv) (arg := s.addr) (rest := as.flatMap (fun p => p.1.bytes ++ p.2.bytes) ++ rest)
      (s := enter .rCmd17 s) ha hr hk h12 (he.bridge hb)
      (by rw [he.next, h, List.flatMap_cons, List.append_assoc, List.append_assoc]) (he.quiet hq)
    have hst : ran adv (commandSent s.cfg 17#8 (toAddr s.card sector) p.1 ++ List.replicate (1 + 512 + 2) s.cfg.dummy)
        (as.flatMap (fun p => p.1.bytes ++ p.2.bytes) ++ rest) s.cause (s.mem.writeAll (s.bufBase + s.off) p.2.payload) s.csd
        s t := (he.trans h2).cast (by rw [haddr]; rfl) rfl rfl rfl rfl
    have hne : s.remaining ≠ 0#32 := fun h0 => by
      rw [h0] at hrem
      change 0 = _ at hrem
      omega
    have hdec : (s.remaining - 1#32).toNat = as.length + j := by
      rw [BitVec.toNat_sub_of_le (by rw [BitVec.le_def]; show 1 ≤ _; omega), hrem]
      show as.length + 1 + j - 1 = _
      omega
    have hset := hst.setSector (s.off + sectorSize) (toAddr s.card (sector + 1#32)) (s.remaining - 1#32)
    have hloop : readLoop ((p :: as).length + j) s = readLoop (as.length + j)
        { t with off := s.off + sectorSize, addr := toAddr s.card (sector + 1#32), remaining := s.remaining - 1#32 } := by
      rw [show (p :: as).length + j = (as.length + j) + 1 by rw [List.length_cons]; omega, readLoop, if_neg hne, h1,
        Res.bind_ok, if_pos rfl, hst.off, hst.remaining, hst.addr, hst.card, haddr, toAddr_succ]
    obtain ⟨u, h4, h5⟩ := ih (s := { t with
        off := s.off + sectorSize, addr := toAddr s.card (sector + 1#32), remaining := s.remaining - 1#32 })
      (sector := sector + 1#32) (by rw [hset.cfg]; exact h12) (hset.bridge hb) (fun x hx => has x (List.mem_cons_of_mem _ hx))
      (by rw [hset.card]) hdec hset.next (hset.quiet hq)
    have hoff : s.off + sectorSize + 512 * as.length = s.off + 512 * (p :: as).length := by
      rw [List.length_cons, show sectorSize = 512 from rfl]
      omega
    have hsec : toAddr t.card (sector + 1#32 + BitVec.ofNat 32 as.length) =
        toAddr s.card (sector + BitVec.ofNat 32 (p :: as).length) := by
      rw [hst.card, List.length_cons, BitVec.ofNat_add, BitVec.add_comm (BitVec.ofNat 32 as.length), BitVec.add_assoc]
    have hmem : t.mem.writeAll (t.bufBase + (s.off + sectorSize)) (sectorBytes as) =
        s.mem.writeAll (s.bufBase + s.off) (sectorBytes (p :: as)) := by
      rw [hst.mem, hst.bufBase, show sectorBytes (p :: as) = p.2.payload ++ sectorBytes as from rfl, Memory.writeAll_append, hk,
        Nat.add_assoc]
      rfl
    have h7 : ran adv (readSent s.cfg s.card (sector + 1#32) as) rest s.cause
        (s.mem.writeAll (s.bufBase + s.off) (sectorBytes (p :: as))) s.csd
        { t with
          off := s.off + sectorSize + 512 * as.length
          addr := toAddr t.card (sector + 1#32 + BitVec.ofNat 32 as.length)
          remaining := BitVec.ofNat 32 j } u :=
      h5.cast (by rw [hset.cfg, hset.card]) rfl hst.cause hmem hst.csd
    rw [hoff, hsec] at h7
    refine ⟨u, hloop.trans h4, ?_⟩
    rw [readSent_cons]
    exact (hst.setSector _ _ _).trans h7

/-- A sector that fails is the last one attempted. -/
theorem readLoop_fails {j : Nat} {failing out : List Byte} {c : Cause} (h12 : s.cfg.stopCmdIndex = 12#8)
    (hne : s.remaining ≠ 0#32) (hf : blockReadFails adv 17#8 s.addr .cmd17 failing out c s)
    (h : s.rx.next = failing ++ rest) (hq : quiet s) :
    ∃ u, readLoop (j + 1) s = .ok () u ∧ ran adv out rest c s.mem s.csd s u := by
  have he := enter_ran adv .rCmd17 s
  obtain ⟨u, h1, h2⟩ := cmd17_fails (s := enter .rCmd17 s) (blockReadFails_congr (s := s) he.cfg he.ticks hf) h12
    (he.next.trans h) (he.quiet hq)
  refine ⟨u, ?_, he.trans h2⟩
  rw [readLoop, if_neg hne, h1]
  rfl

end

/-! ### The call -/

theorem readBody_begun (buf sector count : U32) (s : State) :
    readBody buf sector count (opened .rCheck s) =
      (readLoop count.toNat (begun .rLock .rCheck buf.toNat 0 (toAddr s.card sector) count s)).bind fun _ s =>
        leave .rExit transferResult s := rfl

theorem exec_read_body {buf sector count : U32} {s : State} (hu : usable s) (hc : count ≠ 0#32) :
    exec (.read buf sector count) s =
      (readBody buf sector count (opened .rCheck s)).callOutcome (.read buf sector count) := by
  obtain ⟨hp, hn, hl, hq⟩ := hu
  exact hostCall_body (k := .read buf sector count) nofun hl hq (by simp [earlyReturn, sampled_ready hp hn, hc])

theorem exec_read_frame {buf sector count : U32} {s t : State} (h : exec (.read buf sector count) s = .next t) : hostFrame s t :=
  (hostCall_frame (c := .read buf sector count) nofun h).1 nofun

/-- The sectors read back from where they were stored. -/
theorem read_sectors {as : List (Answer × Packet)} (h : ∀ p ∈ as, p.2.payload.length = 512) {m : Memory} (hm : m.wf = true)
    {base k i : Nat} (hk : k < as.length) (hi : i < as[k].2.payload.length) :
    (m.writeAll base (sectorBytes as)).read (base + (512 * k + i)) = as[k].2.payload[i] := by
  have hget := sectorBytes_get h hk hi
  obtain ⟨hlt, he⟩ := List.getElem?_eq_some_iff.1 hget
  rw [Memory.read_writeAll_inside hm hlt, he]

/-- Settles O44: the loop's sectors, then the exit; a sector that fails ends the loop with the count above 0. -/
theorem readTransfersSectors : Obligations.ReadTransfersSectors := by
  unfold Obligations.ReadTransfersSectors
  intro s buf sector count as d rest hu hb h12 hwf hc has
  have hq : quiet s := hu.isQuiet
  have hlen : ∀ p ∈ as, p.2.payload.length = 512 := fun p hp => (has p hp).2.2
  have hb0 : bridgeReady (begun .rLock .rCheck buf.toNat 0 (toAddr s.card sector) count s) := hb
  have houtside : ∀ {t : State}, t.mem = s.mem.writeAll buf.toNat (sectorBytes as) →
      keepsOutside buf.toNat (512 * as.length) s t := fun hm a ha => by
    rw [hm, Memory.read_writeAll_outside (by rw [sectorBytes_length hlen]; exact ha)]
  refine ⟨fun hcount h => ?_, fun failing sent cause adv hlt hf h => ?_⟩
  · obtain ⟨u, h1, h2⟩ := readLoop_reads (adv := 0) (j := 0) (sector := sector)
      (s := begun .rLock .rCheck buf.toNat 0 (toAddr s.card sector) count s) h12 hb0 has rfl hcount.symm h hq
    have h2' := (h2.cast rfl rfl rfl rfl rfl : ran 0 (readSent s.cfg s.card sector as) (d :: rest) .none
      (s.mem.writeAll buf.toNat (sectorBytes as)) s.csd
      (begun .rLock .rCheck buf.toNat (0 + 512 * as.length) (toAddr s.card (sector + BitVec.ofNat 32 as.length)) 0#32 s) u)
    obtain ⟨t, h3, h4, h5⟩ := leave_ran (q := .rExit) (f := transferResult) (w := .result .ok) (k := .read buf sector count) hq h2'
      (by rw [transferResult_left, h2'.remaining]; rfl)
    have hloop : readLoop as.length (begun .rLock .rCheck buf.toNat 0 (toAddr s.card sector) count s) = .ok () u := h1
    have hexec : exec (.read buf sector count) s = .next t := by
      rw [exec_read_body hu hc, readBody_begun, ← hcount, hloop]
      exact h3
    obtain ⟨hcause, hhung, hrx, hs, hmem, -⟩ := h5
    refine ⟨t, hexec, exec_read_frame hexec, h4, hcause, hhung, hrx, hs, fun k i hk hi => ?_, ?_⟩
    · rw [hmem]
      exact read_sectors hlen hwf hk hi
    · rw [← hcount]
      exact houtside hmem
  · obtain ⟨j, hj⟩ : ∃ j, count.toNat = as.length + (j + 1) := ⟨count.toNat - as.length - 1, by omega⟩
    obtain ⟨u, h1, h2⟩ := readLoop_reads (adv := adv) (j := j + 1) (sector := sector)
      (s := begun .rLock .rCheck buf.toNat 0 (toAddr s.card sector) count s) h12 hb0 has rfl hj h hq
    have h2' := (h2.cast rfl rfl rfl rfl rfl : ran adv (readSent s.cfg s.card sector as) (failing ++ d :: rest) .none
      (s.mem.writeAll buf.toNat (sectorBytes as)) s.csd
      (begun .rLock .rCheck buf.toNat (0 + 512 * as.length) (toAddr s.card (sector + BitVec.ofNat 32 as.length))
        (BitVec.ofNat 32 (j + 1)) s) u)
    have hne : u.remaining ≠ 0#32 := by
      rw [h2'.remaining]
      intro h0
      have hz := congrArg BitVec.toNat h0
      have := count.isLt
      change (BitVec.ofNat 32 (j + 1)).toNat = 0 at hz
      rw [BitVec.toNat_ofNat, Nat.mod_eq_of_lt (by omega)] at hz
      omega
    obtain ⟨w, h6, h7⟩ := readLoop_fails (s := u) (j := j) (by rw [h2'.cfg]; exact h12) hne
      (blockReadFails_congr (s := s) h2'.cfg h2'.ticks (by rw [h2'.addr]; exact hf)) h2'.next (h2'.quiet hq)
    have hw := h2'.trans (h7.cast rfl rfl rfl h2'.mem h2'.csd)
    have hwne : w.remaining ≠ 0#32 := by rw [h7.remaining]; exact hne
    obtain ⟨t, h3, h4, h5⟩ := leave_ran (q := .rExit) (f := transferResult) (w := .result .error) (k := .read buf sector count) hq hw
      (by rw [transferResult_left, if_neg hwne])
    have hexec : exec (.read buf sector count) s = .next t := by
      rw [exec_read_body hu hc, readBody_begun, hj, h1, h6]
      exact h3
    obtain ⟨hcause, hhung, hrx, hs, hmem, -⟩ := h5
    refine ⟨t, hexec, exec_read_frame hexec, h4, hcause, hhung, hrx, ?_, fun k i hk hi => ?_, houtside hmem⟩
    · rw [hs, ← List.append_assoc s.sent]
    · rw [hmem]
      exact read_sectors hlen hwf hk hi

end Sys2Proof.Machine
end

section
/-! SUPPORT. `write` of one sector and of several, on every path the card takes (43_blockio.md R233 to R244). -/

namespace Sys2Proof.Machine

set_option Elab.async false

open Sys2Proof

/-! ### The call around its body -/

/-- The state in which the body of `write` begins. -/
def writeBegun (buf sector count : U32) (s : State) : State :=
  begun .wLock .wCheck buf.toNat 0 (toAddr s.card sector) count s

theorem exec_write_body {buf sector count : U32} {s : State} (hu : usable s) (hw : inputProtected s = false)
    (hc : count ≠ 0#32) :
    exec (.write buf sector count) s =
      ((if count = 1#32 then writeSingle (writeBegun buf sector count s) else writeMulti count (writeBegun buf sector count s)).bind
        fun _ s => leave .wExit transferResult s).callOutcome (.write buf sector count) := by
  obtain ⟨hp, hn, hl, hq⟩ := hu
  exact hostCall_body (k := .write buf sector count) nofun hl hq
    (by simp [earlyReturn, sampled_ready hp hn, hc, show (sampledStatus s).writeProtected = false from hw])

/-- A body of `write` that came to its end: what the call leaves, by the number of sectors still to go. -/
theorem write_ends {adv o : Nat} {buf sector count r : U32} {out rest : List Byte} {d : Byte} {c : Cause} {s u : State}
    (hu : usable s) (hw : inputProtected s = false) (hc : count ≠ 0#32)
    (hbody : (if count = 1#32 then writeSingle (writeBegun buf sector count s)
      else writeMulti count (writeBegun buf sector count s)) = .ok () u)
    (h : ran adv out (d :: rest) c s.mem s.csd (begun .wLock .wCheck buf.toNat o (toAddr s.card sector) r s) u) :
    ∃ t, exec (.write buf sector count) s = .next t ∧ hostFrame s t ∧ t.mem = s.mem
      ∧ returned (.result (if r = 0#32 then .ok else .error)) t ∧ t.cause = c ∧ t.hung = s.hung
      ∧ t.rx = { s.rx with next := rest } ∧ t.sent = s.sent ++ out ++ [s.cfg.dummy] := by
  have hr : u.remaining = r := h.remaining
  obtain ⟨t, h1, h2, hcause, hhung, hrx, hs, hmem, -⟩ := leave_ran (q := .wExit) (f := transferResult)
    (w := .result (if r = 0#32 then .ok else .error)) (k := .write buf sector count) hu.isQuiet h (by rw [transferResult_left, hr])
  have hexec : exec (.write buf sector count) s = .next t := by
    rw [exec_write_body hu hw hc, hbody]
    exact h1
  exact ⟨t, hexec, (hostCall_frame (c := .write buf sector count) nofun hexec).1 nofun, hmem, h2, hcause, hhung, hrx, hs⟩

/-! ### One sector -/

section
variable {adv : Nat} {arg : U32} {a : Answer} {rest : List Byte} {s : State} (h12 : s.cfg.stopCmdIndex = 12#8) (hq : quiet s)
include h12 hq

/-- An accepted CMD24 with its packet still to come. -/
theorem cmd24_accepted {more : List Byte} (ha : a.wf = true) (hr : a.r = 0x00#8) (h : s.rx.next = a.bytes ++ more) :
    ∃ t, cmd24 true arg s = sendDataBlock 0 s.cfg.tokenSingle t
      ∧ ran adv (commandSent s.cfg 24#8 arg a) more s.cause s.mem s.csd s t := by
  have hc := command_accepted (idx := 0x18#8) (tag := .cmd24) (arg := arg) hq ha h12 (by decide) (by decide) (by decide) hr h
  have h1 := answered_ran (adv := adv) 24#8 arg more s ha
  generalize answered 24#8 arg a more s = t at hc h1
  have h2 := h1.trans ((visit_ran adv true .wSingle t).cast rfl h1.next h1.cause h1.mem h1.csd)
  rw [List.append_nil] at h2
  refine ⟨visit true .wSingle t, ?_, h2⟩
  unfold cmd24
  rw [hc, Res.bind_ok, if_pos rfl, h1.cfg]

theorem cmd24_sends {k : Sink} (ha : a.wf = true) (hr : a.r = 0x00#8) (hb : bridgeReady s)
    (ht : s.cfg.tokenSingle ≠ s.cfg.tokenStop) (hk : k.echo.length = 512) (h5 : k.response.toNat % 32 = 5)
    (h : s.rx.next = a.bytes ++ (k.bytes ++ rest)) :
    ∃ u, cmd24 true arg s = .ok true u
      ∧ ran adv (commandSent s.cfg 24#8 arg a ++ packetSent s.cfg s.cfg.tokenSingle (memBytes s.mem s.bufBase 512)) rest
          s.cause s.mem s.csd s u := by
  obtain ⟨t, h1, h2⟩ := cmd24_accepted (adv := adv) (arg := arg) h12 hq ha hr h
  obtain ⟨u, h3, h4, -⟩ := sendDataBlock_sends (adv := adv) (off := 0) (token := s.cfg.tokenSingle) (rest := rest) (h2.bridge hb)
    (by rw [h2.cfg]; exact ht) hk h5 h2.next (h2.quiet hq)
  exact ⟨u, h1.trans h3, h2.trans (h4.cast (by rw [h2.cfg, h2.mem, h2.bufBase]; rfl) rfl h2.cause h2.mem h2.csd)⟩

theorem cmd24_blockFails {failing out : List Byte} {c : Cause} (ha : a.wf = true) (hr : a.r = 0x00#8) (hb : bridgeReady s)
    (ht : s.cfg.tokenSingle ≠ s.cfg.tokenStop)
    (hf : blockFails adv s.cfg.tokenSingle (memBytes s.mem s.bufBase 512) failing out c s)
    (h : s.rx.next = a.bytes ++ (failing ++ rest)) :
    ∃ u, cmd24 true arg s = .ok false u ∧ ran adv (commandSent s.cfg 24#8 arg a ++ out) rest c s.mem s.csd s u := by
  obtain ⟨t, h1, h2⟩ := cmd24_accepted (adv := adv) (arg := arg) h12 hq ha hr h
  have hf' : blockFails adv s.cfg.tokenSingle (memBytes t.mem (t.bufBase + 0) 512) failing out c t := by
    rw [h2.mem, h2.bufBase]
    exact blockFails_congr h2.cfg h2.ticks hf
  obtain ⟨u, h3, h4⟩ := sendDataBlock_fails (off := 0) (rest := rest) (h2.bridge hb) (by rw [h2.cfg]; exact ht) hf' h2.next
    (h2.quiet hq)
  exact ⟨u, h1.trans h3, h2.trans (h4.cast rfl rfl rfl h2.mem h2.csd)⟩

theorem cmd24_rejected {failing out : List Byte} {c : Cause} (hf : commandFails adv 24#8 arg .cmd24 failing out c s)
    (h : s.rx.next = failing ++ rest) : ∃ u, cmd24 true arg s = .ok false u ∧ ran adv out rest c s.mem s.csd s u := by
  obtain ⟨u, h1, h2⟩ := command_commandFails (idx := 0x18#8) hf (by decide) (by decide) h12 (by decide) h hq
  exact ⟨u, by unfold cmd24; rw [h1]; rfl, h2⟩

end

theorem writeSingle_ok {s u : State} (h : cmd24 true s.addr (enter .wCmd24 s) = .ok true u) :
    writeSingle s = .ok () { u with remaining := 0#32 } := by
  unfold writeSingle
  rw [h]
  rfl

theorem writeSingle_fails {s u : State} (h : cmd24 true s.addr (enter .wCmd24 s) = .ok false u) : writeSingle s = .ok () u := by
  unfold writeSingle
  rw [h]
  rfl

/-- Settles O45: CMD24 and its packet; the count becomes 0 exactly when the block was accepted. -/
theorem writeSingleSector : Obligations.WriteSingleSector := by
  unfold Obligations.WriteSingleSector
  intro s buf sector d rest hu hw hb h12 ht
  have hq : quiet s := hu.isQuiet
  have he : ∀ adv, ran adv [] s.rx.next .none s.mem s.csd (writeBegun buf sector 1#32 s) (enter .wCmd24 (writeBegun buf sector 1#32 s)) :=
    fun adv => enter_ran adv .wCmd24 (writeBegun buf sector 1#32 s)
  refine ⟨fun a k ha hr hk h5 h => ?_, fun a failing sent cause adv ha hr hf h => ?_, fun failing sent cause adv hf h => ?_⟩
  · obtain ⟨u, h1, h2⟩ := cmd24_sends (adv := 0) (arg := toAddr s.card sector) (s := enter .wCmd24 (writeBegun buf sector 1#32 s))
      h12 hq ha hr hb ht hk h5 h
    obtain ⟨t, h3, h4, h5, h6, h7, h8, h9, h10⟩ := write_ends (buf := buf) (sector := sector) (count := 1#32) (o := 0) (r := 0#32) hu hw
      (by decide) ((if_pos rfl).trans (writeSingle_ok h1))
      (((he 0).trans h2).setRemaining 0#32)
    exact ⟨t, h3, h4, h5, h6, h7, h8, h9, by rw [h10, List.nil_append, ← List.append_assoc s.sent]; rfl⟩
  · obtain ⟨u, h1, h2⟩ := cmd24_blockFails (adv := adv) (arg := toAddr s.card sector)
      (s := enter .wCmd24 (writeBegun buf sector 1#32 s)) h12 hq ha hr hb ht
      (blockFails_congr (s := s) rfl id hf) h
    obtain ⟨t, h3, h4, h5, h6, h7, h8, h9, h10⟩ := write_ends (buf := buf) (sector := sector) (count := 1#32) (o := 0) (r := 1#32) hu hw
      (by decide) ((if_pos rfl).trans (writeSingle_fails h1)) ((he adv).trans h2)
    exact ⟨t, h3, h4, h5, h6, h7, h8, h9, by rw [h10, List.nil_append, ← List.append_assoc s.sent]; rfl⟩
  · obtain ⟨u, h1, h2⟩ := cmd24_rejected (adv := adv) (arg := toAddr s.card sector)
      (s := enter .wCmd24 (writeBegun buf sector 1#32 s)) h12 hq (commandFails_congr (s := s) rfl id hf) h
    obtain ⟨t, h3, h4, h5, h6, h7, h8, h9, h10⟩ := write_ends (buf := buf) (sector := sector) (count := 1#32) (o := 0) (r := 1#32) hu hw
      (by decide) ((if_pos rfl).trans (writeSingle_fails h1)) ((he adv).trans h2)
    exact ⟨t, h3, h4, h5, h6, h7, h8, h9, h10⟩

/-! ### Several sectors -/

/-- The hint leaves what its turns leave, and its answer is ignored (R237). -/
theorem hint_ran {adv : Nat} {count : U32} {xs : List Turn} {rest : List Byte} {s : State} (hm : hintMeets count xs s)
    (hwf : turnsWf adv s xs) (h12 : s.cfg.stopCmdIndex = 12#8) (h : s.rx.next = turnsBytes xs ++ rest) (hq : quiet s) :
    ∃ t, hint count s = .ok () t ∧ ran adv (turnsSent s.cfg xs) rest (turnsCause xs s.cause) s.mem s.csd s t := by
  unfold hintMeets at hm
  unfold hint
  split at hm
  next hcard =>
    obtain ⟨r, hm⟩ := hm
    have he := enter_ran adv .wHint s
    obtain ⟨t, h1, h2, -⟩ := sendCommand_turns (s := enter .wHint s) hm (turnsWf_congr he.cfg he.ticks hwf) (by decide)
      (by rw [he.cfg, h12]; decide) (by rw [he.cfg, h12]; decide) (he.next.trans h) (he.quiet hq)
    refine ⟨t, ?_, he.trans h2.ran⟩
    rw [if_pos hcard, acmd23, h1]
    rfl
  next hcard =>
    subst hm
    exact ⟨s, if_neg hcard, (ran.refl adv s).cast rfl h rfl rfl rfl⟩

section
variable {adv : Nat} {count : U32} {xs : List Turn} {a : Answer} {ks : List Sink} {rest : List Byte} {s : State}
  (hb : bridgeReady s) (h12 : s.cfg.stopCmdIndex = 12#8) (ht : s.cfg.tokenMulti ≠ s.cfg.tokenStop)
  (hm : hintMeets count xs s) (hwf : turnsWf adv s xs) (hq : quiet s)
include hb h12 ht hm hwf hq

omit hb ht in
/-- Up to the stream: the hint, and CMD25 accepted. -/
theorem writeMulti_streams {more : List Byte} (ha : a.wf = true) (hr : a.r = 0x00#8)
    (h : s.rx.next = turnsBytes xs ++ (a.bytes ++ more)) :
    ∃ t, (∀ u, stream true t = .ok () u → writeMulti count s = .ok () u)
      ∧ ran adv (turnsSent s.cfg xs ++ commandSent s.cfg 25#8 s.addr a) more (turnsCause xs s.cause) s.mem s.csd s t := by
  obtain ⟨t, h1, h2⟩ := hint_ran hm hwf h12 h hq
  have he := h2.trans ((enter_ran adv .wCmd25 t).cast rfl h2.next h2.cause h2.mem h2.csd)
  rw [List.append_nil] at he
  have hc := command_accepted (idx := 0x19#8) (tag := .cmd25) (arg := s.addr) (s := enter .wCmd25 t) (he.quiet hq) ha
    (by rw [he.cfg]; exact h12) (by decide) (by decide) (by decide) hr he.next
  have h3 := answered_ran (adv := adv) 25#8 s.addr more (enter .wCmd25 t) ha
  refine ⟨answered 25#8 s.addr a more (enter .wCmd25 t), fun u hu => ?_,
    he.trans (h3.cast (by rw [he.cfg]) rfl he.cause he.mem he.csd)⟩
  unfold writeMulti
  rw [h1, Res.bind_ok, h2.addr, cmd25_accepted hc, hu]
  rfl

theorem writeMulti_sends {d : Byte} (ha : a.wf = true) (hr : a.r = 0x00#8)
    (hks : ∀ k ∈ ks, k.echo.length = 512 ∧ k.response.toNat % 32 = 5) (hrem : s.remaining.toNat = ks.length)
    (h : s.rx.next = turnsBytes xs ++ (a.bytes ++ (ks.flatMap Sink.bytes ++ (0xFF#8 :: d :: rest)))) :
    ∃ u, writeMulti count s = .ok () u
      ∧ ran adv (turnsSent s.cfg xs ++ commandSent s.cfg 25#8 s.addr a ++ (streamSent s.cfg s.mem s.bufBase ks.length
            ++ [s.cfg.dummy, s.cfg.tokenStop])) rest (turnsCause xs s.cause) s.mem s.csd
          { s with off := 512 * ks.length, remaining := 0#32 } u := by
  obtain ⟨t, h1, h2⟩ := writeMulti_streams h12 hm hwf hq ha hr h
  obtain ⟨u, h3, h4, -⟩ := stream_sends (adv := adv) (b := true) (h2.bridge hb) (by rw [h2.cfg]; exact ht) hks
    (by rw [h2.remaining]; exact hrem) h2.next (h2.quiet hq)
  refine ⟨u, h1 u h3, (h2.set _ _).trans (h4.cast ?_ rfl h2.cause h2.mem h2.csd)⟩
  rw [h2.cfg, h2.mem, h2.bufBase]

theorem writeMulti_heldBack {failing out : List Byte} {c : Cause} (ha : a.wf = true) (hr : a.r = 0x00#8)
    (hks : ∀ k ∈ ks, k.echo.length = 512 ∧ k.response.toNat % 32 = 5) (hrem : s.remaining.toNat = ks.length)
    (hf : tokenHeldBack adv failing out c s)
    (h : s.rx.next = turnsBytes xs ++ (a.bytes ++ (ks.flatMap Sink.bytes ++ (failing ++ rest)))) :
    ∃ u, writeMulti count s = .ok () u
      ∧ ran adv (turnsSent s.cfg xs ++ commandSent s.cfg 25#8 s.addr a ++ (streamSent s.cfg s.mem s.bufBase ks.length ++ out))
          rest c s.mem s.csd { s with off := 512 * ks.length, remaining := 1#32 } u := by
  obtain ⟨t, h1, h2⟩ := writeMulti_streams h12 hm hwf hq ha hr h
  obtain ⟨u, h3, h4⟩ := stream_heldBack (adv := adv) (b := true) (h2.bridge hb) (by rw [h2.cfg]; exact ht) hks
    (by rw [h2.remaining]; exact hrem) (tokenHeldBack_congr h2.cfg h2.ticks hf) h2.next (h2.quiet hq)
  refine ⟨u, h1 u h3, (h2.set _ _).trans (h4.cast ?_ rfl rfl h2.mem h2.csd)⟩
  rw [h2.cfg, h2.mem, h2.bufBase]

theorem writeMulti_fails {j : Nat} {failing out stopping stopOut : List Byte} {c c' : Cause} (ha : a.wf = true)
    (hr : a.r = 0x00#8) (hks : ∀ k ∈ ks, k.echo.length = 512 ∧ k.response.toNat % 32 = 5)
    (hrem : s.remaining.toNat = ks.length + (j + 1))
    (hf : blockFails adv s.cfg.tokenMulti (memBytes s.mem (s.bufBase + 512 * ks.length) 512) failing out c s)
    (hstop : stopMeets adv c stopping stopOut c' s)
    (h : s.rx.next = turnsBytes xs ++ (a.bytes ++ (ks.flatMap Sink.bytes ++ (failing ++ (stopping ++ rest))))) :
    ∃ u r, writeMulti count s = .ok () u
      ∧ ran adv (turnsSent s.cfg xs ++ commandSent s.cfg 25#8 s.addr a ++ (streamSent s.cfg s.mem s.bufBase ks.length ++ out
            ++ stopOut)) rest c' s.mem s.csd { s with off := 512 * ks.length, remaining := r } u
      ∧ r ≠ 0#32 := by
  obtain ⟨t, h1, h2⟩ := writeMulti_streams h12 hm hwf hq ha hr h
  have hstop' : stopMeets adv c stopping stopOut c' t := by
    rcases hstop with ⟨d, h3, h4, h5⟩ | hheld
    · exact .inl ⟨d, h3, by rw [h2.cfg]; exact h4, h5⟩
    · exact .inr (tokenHeldBack_congr h2.cfg h2.ticks hheld)
  have hf' : blockFails adv t.cfg.tokenMulti (memBytes t.mem (t.bufBase + 512 * ks.length) 512) failing out c t := by
    rw [h2.cfg, h2.mem, h2.bufBase]
    exact blockFails_congr h2.cfg h2.ticks hf
  obtain ⟨u, r, h3, h4, h5⟩ := stream_fails (adv := adv) (b := true) (h2.bridge hb) (by rw [h2.cfg]; exact ht) hks
    (by rw [h2.remaining]; exact hrem) hf' hstop' h2.next (h2.quiet hq)
  refine ⟨u, r, h1 u h3, (h2.set _ _).trans (h4.cast ?_ rfl rfl h2.mem h2.csd), h5⟩
  rw [h2.cfg, h2.mem, h2.bufBase]

omit hb ht in
theorem writeMulti_rejected {failing out : List Byte} {c : Cause} (hf : commandFails adv 25#8 s.addr .cmd25 failing out c s)
    (h : s.rx.next = turnsBytes xs ++ (failing ++ rest)) :
    ∃ u, writeMulti count s = .ok () u ∧ ran adv (turnsSent s.cfg xs ++ out) rest c s.mem s.csd s u := by
  obtain ⟨t, h1, h2⟩ := hint_ran hm hwf h12 h hq
  have he := h2.trans ((enter_ran adv .wCmd25 t).cast rfl h2.next h2.cause h2.mem h2.csd)
  rw [List.append_nil] at he
  obtain ⟨u, h3, h4⟩ := command_commandFails (idx := 0x19#8) (s := enter .wCmd25 t)
    (commandFails_congr he.cfg he.ticks hf) (by decide) (by decide) (by rw [he.cfg]; exact h12) (by decide) he.next (he.quiet hq)
  refine ⟨u, ?_, he.trans (h4.cast rfl rfl rfl he.mem he.csd)⟩
  unfold writeMulti cmd25
  rw [h1, Res.bind_ok, h2.addr, h3]
  rfl

end

theorem count_ne {count : U32} (h : 1 < count.toNat) : count ≠ 0#32 ∧ count ≠ 1#32 := by
  constructor <;> rintro rfl <;> exact absurd h (by decide)

/-- Settles O46: the hint, CMD25, the blocks and the stop token; a failed block or a refused CMD25 leaves the count above 0. -/
theorem writeStreamsSectors : Obligations.WriteStreamsSectors := by
  unfold Obligations.WriteStreamsSectors
  intro s buf sector count hint ks adv rest hu hw hb h12 ht hcount hm hwf hks
  have hq : quiet s := hu.isQuiet
  obtain ⟨h0, h1⟩ := count_ne hcount
  refine ⟨fun a d e ha hr hlen h => ?_, fun a failing sent stopping stopSent cause cause' e ha hr hlt hf hstop h => ?_,
    fun failing sent cause e hf h => ?_⟩
  · obtain ⟨u, h2, h3⟩ := writeMulti_sends (s := writeBegun buf sector count s) hb h12 ht hm hwf hq ha hr hks hlen.symm h
    obtain ⟨t, h4, h5, h6, h7, h8, h9, h10, h11⟩ := write_ends (buf := buf) (sector := sector) (count := count)
      (o := 512 * ks.length) (r := 0#32) hu hw h0 ((if_neg h1).trans h2) h3
    refine ⟨t, h4, h5, h6, h7, h8, h9, h10, ?_⟩
    rw [h11]
    simp only [← List.append_assoc]
    rfl
  · obtain ⟨j, hj⟩ : ∃ j, count.toNat = ks.length + (j + 1) := ⟨count.toNat - ks.length - 1, by omega⟩
    obtain ⟨u, r, h2, h3, hr0⟩ := writeMulti_fails (s := writeBegun buf sector count s) hb h12 ht hm hwf hq ha hr hks hj
      (blockFails_congr (s := s) rfl id hf) hstop h
    obtain ⟨t, h4, h5, h6, h7, h8, h9, h10, h11⟩ := write_ends (buf := buf) (sector := sector) (count := count)
      (o := 512 * ks.length) (r := r) hu hw h0 ((if_neg h1).trans h2) h3
    rw [if_neg hr0] at h7
    refine ⟨t, h4, h5, h6, h7, h8, h9, h10, ?_⟩
    rw [h11]
    simp only [← List.append_assoc]
    rfl
  · obtain ⟨u, h2, h3⟩ := writeMulti_rejected (s := writeBegun buf sector count s) h12 hm hwf hq hf h
    obtain ⟨t, h4, h5, h6, h7, h8, h9, h10, h11⟩ := write_ends (buf := buf) (sector := sector) (count := count)
      (o := 0) (r := count) hu hw h0 ((if_neg h1).trans h2) h3
    rw [if_neg h0] at h7
    refine ⟨t, h4, h5, h6, h7, h8, h9, h10, ?_⟩
    rw [h11]
    simp only [← List.append_assoc]
    rfl

/-- Settles O47: the stop token is held back as a block would be, so the count is set above 0. -/
theorem stopTokenNotTaken : Obligations.StopTokenNotTaken := by
  unfold Obligations.StopTokenNotTaken
  intro s buf sector count hint a ks bs rest b d adv hu hw hb h12 ht hcount hm hwf ha hr hks hlen hbusy hne hms h
  have hq : quiet s := hu.isQuiet
  obtain ⟨h0, h1⟩ := count_ne hcount
  obtain ⟨u, h2, h3⟩ := writeMulti_heldBack (s := writeBegun buf sector count s) (failing := bs ++ [b]) (rest := d :: rest)
    hb h12 ht hm hwf hq ha hr hks hlen.symm ⟨bs, b, hbusy, hne, hms, rfl, rfl, rfl⟩ (h.trans (by simp))
  obtain ⟨t, h4, h5, h6, h7, h8, h9, h10, h11⟩ := write_ends (buf := buf) (sector := sector) (count := count)
    (o := 512 * ks.length) (r := 1#32) hu hw h0 ((if_neg h1).trans h2) h3
  refine ⟨t, h4, h5, h6, h7, h8, h9, h10, ?_⟩
  rw [h11]
  simp only [← List.append_assoc]
  rfl

end Sys2Proof.Machine
end

section
/-! SUPPORT. `ioctl`: SYNC, unknown codes, and the two that read a register (44_ioctl.md R261 to R275). -/

namespace Sys2Proof.Machine

set_option Elab.async false

open Sys2Proof

/-! ### The call around its body -/

/-- The state in which the body of `ioctl` begins. -/
def ioctlBegun (s : State) : State := begun .iBody .iCheck s.bufBase s.off s.addr s.remaining s

/-- A state from which a body of `ioctl` can go on as from its begin: the lock taken once, nothing sent yet. -/
def begins (s s₀ : State) : Prop :=
  s₀.lock = ⟨some s₀.me, 1⟩ ∧ s₀.hung = s.hung ∧ s₀.sent = s.sent ∧ s₀.cfg = s.cfg ∧ s₀.out = s.out ∧ (quiet s → quiet s₀)

theorem begins_begun (s : State) : begins s (ioctlBegun s) := ⟨rfl, rfl, begun_sent _ _ _ _ _ _ s, rfl, rfl, id⟩

section
variable {adv : Nat} {code : Byte} {start stop : U32} {i : Instr} {out rest : List Byte} {c : Cause} {m : Memory}
  {v : Vector Byte 16} {w : Result} {s s₀ u : State} (hu : usable s) (hi : exec i s = hostCall (.ioctl code start stop) s)
include hu hi

theorem exec_ioctl_body :
    exec i s = ((codeBody code start stop (ioctlBegun s)).bind fun r s => leave .iExit (fun _ => .result r) s).callOutcome
      (.ioctl code start stop) := hi.trans (hostCall_ioctl hu)

/-- A body of `ioctl` that came to its end with the value `x` in `out`. -/
theorem ioctl_value {x : U32} {n : Nat} (hbody : codeBody code start stop (ioctlBegun s) = .ok w { u with out := x, free := n })
    (h₀ : begins s s₀) (h : ran adv out rest c m v s₀ u) :
    ∃ t, exec i s = .next t ∧ hostFrame s t ∧ returned (.result w) t ∧ t.hung = s.hung ∧ t.csd = v ∧ t.mem = m
      ∧ t.sent = s.sent ++ out ++ [s.cfg.dummy] ∧ t.out = x ∧ t.cause = c := by
  obtain ⟨hl, hh, hs, hcfg, -, hq⟩ := h₀
  have hul : u.lock = ⟨some u.me, 1⟩ := by rw [h.1]; exact hl
  have huh : u.hung = s.hung := by rw [h.1]; exact hh
  have hexit := leave_finished_any (c := .ioctl code start stop) (q := .iExit) (f := fun _ => .result w)
    (u := { u with out := x, free := n }) hul (h.quiet (hq hu.isQuiet))
  have hrun := exec_ioctl_body hu hi
  rw [hbody] at hrun
  have hexec := hrun.trans hexit
  refine ⟨_, hexec, (hostCall_frame (c := .ioctl code start stop) nofun (hi.symm.trans hexec)).1 nofun,
    finished_returned _ _ _ _ _, huh, h.csd, h.mem, ?_, rfl, h.cause⟩
  rw [sent_finished]
  show u.sent ++ [u.cfg.dummy] = _
  rw [h.2.1, hs, h.cfg, hcfg]

/-- A body of `ioctl` that came to its end without a value. -/
theorem ioctl_ends (hbody : codeBody code start stop (ioctlBegun s) = .ok w u) (h₀ : begins s s₀)
    (h : ran adv out rest c m v s₀ u) :
    ∃ t, exec i s = .next t ∧ hostFrame s t ∧ returned (.result w) t ∧ t.hung = s.hung ∧ t.csd = v ∧ t.mem = m
      ∧ t.sent = s.sent ++ out ++ [s.cfg.dummy] ∧ t.out = s.out ∧ t.cause = c := by
  have ho : u.out = s.out := by
    obtain ⟨-, -, -, -, ho, -⟩ := h₀
    rw [h.1]
    exact ho
  rw [← ho]
  exact ioctl_value (x := u.out) (n := u.free) hu hi hbody h₀ h

end

theorem exec_ioctl_of {i : Instr} {k : Instr} {code : Byte} {start stop : U32}
    (hk : ∀ s, exec k s = hostCall (.ioctl code 0#32 0#32) s) (hi : i ∈ [k, .ioctl code start stop]) :
    ∃ a b, ∀ s, exec i s = hostCall (.ioctl code a b) s := by
  simp only [List.mem_cons, List.not_mem_nil, or_false] at hi
  rcases hi with rfl | rfl
  · exact ⟨0#32, 0#32, hk⟩
  · exact ⟨start, stop, fun _ => rfl⟩

/-! ### SYNC and unknown codes -/

/-- Settles O48: SYNC is `select` and its answer; an unknown code has no body at all. -/
theorem syncAndUnknownCode : Obligations.SyncAndUnknownCode := by
  unfold Obligations.SyncAndUnknownCode
  intro s start stop hu
  have hq : quiet s := hu.isQuiet
  refine ⟨fun i bs rest d adv hi hbusy => ?_, fun i code hi hcode => ?_⟩
  · obtain ⟨a, b, hexec⟩ := exec_ioctl_of (k := .ioctlSync) (fun _ => rfl) hi
    refine ⟨fun e h => ?_, fun b e f hne hms h => ?_⟩
    · obtain ⟨u, h1, h2, h3, -⟩ := select_afterBusy (s := ioctlBegun s) (rest := e :: rest) hbusy h hq
      have hr : ran adv (List.replicate (bs.length + 2) s.cfg.dummy) (e :: rest) .none s.mem s.csd (ioctlBegun s) u :=
        ⟨by rw [h2]; rfl, h3, fun hf => by rw [h2]; exact hf, fun ha => by rw [h2]; exact ha⟩
      have hbody : codeBody 0#8 a b (ioctlBegun s) = .ok .ok u := by
        show (select (ioctlBegun s)).bind _ = _
        rw [h1]
        rfl
      obtain ⟨t, h4, h5, h6, h7, -, h8, h9, h10, h11⟩ := ioctl_ends hu (hexec s) hbody (begins_begun s) hr
      refine ⟨t, h4, h5, h6, h11, h8, h10, h7, ?_⟩
      rw [h9, List.append_assoc, ← List.replicate_succ']
    · obtain ⟨u, h1, h2, h3, -⟩ := select_expires (s := ioctlBegun s) (rest := f :: rest) hbusy hne hms h hq
      have hr : ran adv (List.replicate (bs.length + 3) s.cfg.dummy) (f :: rest) (.timeout .waitReady) s.mem s.csd
          (ioctlBegun s) u :=
        ⟨by rw [h2]; rfl, h3, fun hf => by rw [h2]; exact hf, fun ha => by rw [h2]; exact ha⟩
      have hbody : codeBody 0#8 a ‹_› (ioctlBegun s) = .ok .error u := by
        show (select (ioctlBegun s)).bind _ = _
        rw [h1]
        rfl
      obtain ⟨t, h4, h5, h6, h7, -, h8, h9, h10, h11⟩ := ioctl_ends hu (hexec s) hbody (begins_begun s) hr
      refine ⟨t, h4, h5, h6, h11, h8, h10, h7, ?_⟩
      rw [h9, List.append_assoc, ← List.replicate_succ']
  · obtain ⟨a, b, hexec⟩ := exec_ioctl_of (k := .ioctlUnknown code) (fun _ => rfl) hi
    have h1 := (hexec s).trans (ioctl_unknown hcode hu)
    refine ⟨_, h1, (hostCall_frame (c := .ioctl code a b) nofun ((hexec s).symm.trans h1)).1 nofun, finished_returned _ _ _ _ _,
      rfl, rfl, rfl, rfl, ?_⟩
    rw [sent_finished]
    exact congrArg (· ++ [s.cfg.dummy]) (sent_opened .iCheck s)

/-! ### The register reads -/

theorem exchanged_ran {adv : Nat} {l inp rest : List Byte} {s : State} (h : l.length = inp.length) :
    ran adv l rest s.cause s.mem s.csd s (exchanged l inp rest s) := ⟨rfl, sent_exchanged rest s h, id, id⟩

section
variable {adv : Nat} {a b : Answer} {k : Packet} {rest : List Byte} {s : State} (h12 : s.cfg.stopCmdIndex = 12#8) (hq : quiet s)
include h12 hq

theorem cmd9_reads (ha : a.wf = true) (hr : a.r = 0x00#8) (hk : k.payload.length = 16) (hb : bridgeReady s)
    (h : s.rx.next = a.bytes ++ (k.bytes ++ rest)) :
    ∃ u, cmd9 0#32 s = .ok true u
      ∧ ran adv (commandSent s.cfg 9#8 0#32 a ++ List.replicate (1 + 16 + 2) s.cfg.dummy) rest s.cause s.mem
          (csdWriteAll s.csd 0 k.payload) s u := by
  have h1 := answered_ran (adv := adv) 9#8 0#32 (k.bytes ++ rest) s ha
  have h2 := received_ran (adv := adv) .csd k rest (answered 9#8 0#32 a (k.bytes ++ rest) s)
  rw [hk] at h2
  exact ⟨_, cmd9_received hq ha h12 hb.1 (fair_pop hb.2).1 hk hr h, h1.trans h2⟩

theorem cmd9_tokenFails {failing out : List Byte} {c : Cause} (ha : a.wf = true) (hr : a.r = 0x00#8)
    (hf : tokenFails adv failing out c s) (h : s.rx.next = a.bytes ++ (failing ++ rest)) :
    ∃ u, cmd9 0#32 s = .ok false u ∧ ran adv (commandSent s.cfg 9#8 0#32 a ++ out) rest c s.mem s.csd s u := by
  have hc := command_accepted (idx := 9#8) (tag := .cmd9) (arg := 0#32) hq ha h12 (by decide) (by decide) (by decide) hr h
  have h1 := answered_ran (adv := adv) 9#8 0#32 (failing ++ rest) s ha
  obtain ⟨u, h2, h3⟩ := receiveDataBlock_fails (p := .csd) (len := csdLen) (tokenFails_congr h1.cfg h1.ticks hf) h1.next
    (h1.quiet hq)
  exact ⟨u, by unfold cmd9; rw [hc]; exact h2, h1.trans h3⟩

theorem cmd9_commandFails {failing out : List Byte} {c : Cause} (hf : commandFails adv 9#8 0#32 .cmd9 failing out c s)
    (h : s.rx.next = failing ++ rest) : ∃ u, cmd9 0#32 s = .ok false u ∧ ran adv out rest c s.mem s.csd s u := by
  obtain ⟨u, h1, h2⟩ := command_commandFails (idx := 9#8) hf (by decide) (by decide) h12 (by decide) h hq
  exact ⟨u, by unfold cmd9; rw [h1]; rfl, h2⟩

theorem acmd13_reads {x : Byte} {tail : List Byte} (ha : a.wf = true) (hb : b.wf = true) (hr : a.r.toNat ≤ 1)
    (hr' : b.r = 0x00#8) (hk : k.payload.length = 16) (ht : tail.length = 48) (hbr : bridgeReady s)
    (h : s.rx.next = a.bytes ++ (b.bytes ++ (x :: (k.bytes ++ (tail ++ rest))))) :
    ∃ u, acmd13 0#32 s = .ok true u
      ∧ ran adv (commandSent s.cfg 55#8 0#32 a ++ commandSent s.cfg 13#8 0#32 b
            ++ List.replicate (1 + 1 + 16 + 2 + 48) s.cfg.dummy) rest s.cause s.mem (csdWriteAll s.csd 0 k.payload) s u := by
  refine ⟨_, acmd13_received (arg := 0#32) hq ha h12 hbr.1 (fair_pop hbr.2).1 hb hk hr hr' ht h, ?_⟩
  have h1 := answered_ran (adv := adv) 55#8 0#32 (b.bytes ++ (x :: (k.bytes ++ (tail ++ rest)))) s ha
  generalize answered 55#8 0#32 a (b.bytes ++ (x :: (k.bytes ++ (tail ++ rest)))) s = t at h1
  have h2 := h1.trans ((answered_ran (adv := adv) 13#8 0#32 (x :: (k.bytes ++ (tail ++ rest))) t hb).cast (by rw [h1.cfg]) rfl
    h1.cause h1.mem h1.csd)
  generalize answered 13#8 0#32 b (x :: (k.bytes ++ (tail ++ rest))) t = u at h2
  have h3 := h2.trans ((exchanged_ran (adv := adv) (l := [s.cfg.dummy]) (inp := [x]) (rest := k.bytes ++ (tail ++ rest)) (s := u)
    rfl).cast rfl rfl h2.cause h2.mem h2.csd)
  generalize exchanged [s.cfg.dummy] [x] (k.bytes ++ (tail ++ rest)) u = v at h3
  have h4 := received_ran (adv := adv) .csd k (tail ++ rest) v
  have h5 := h3.trans (h4.cast (by rw [hk, h3.cfg]) rfl h3.cause h3.mem
    (show csdWriteAll v.csd 0 k.payload = _ by rw [h3.csd]))
  generalize received .csd k (tail ++ rest) v = w at h5
  have h6 := h5.trans ((exchanged_ran (adv := adv) (l := List.replicate 48 s.cfg.dummy) (inp := tail) (rest := rest) (s := w)
    (by rw [List.length_replicate, ht])).cast rfl rfl h5.cause h5.mem h5.csd)
  refine h6.cast ?_ rfl rfl rfl rfl
  have hrep : List.replicate (1 + 1 + 16 + 2 + 48) s.cfg.dummy =
      [s.cfg.dummy] ++ (List.replicate (1 + 16 + 2) s.cfg.dummy ++ List.replicate 48 s.cfg.dummy) := by
    rw [List.replicate_append_replicate]
    rfl
  rw [hrep]
  simp only [List.append_assoc]

theorem acmd13_tokenFails {x : Byte} {failing out : List Byte} {c : Cause} (ha : a.wf = true) (hb : b.wf = true)
    (hr : a.r.toNat ≤ 1) (hr' : b.r = 0x00#8) (hf : tokenFails adv failing out c s)
    (h : s.rx.next = a.bytes ++ (b.bytes ++ (x :: (failing ++ rest)))) :
    ∃ u, acmd13 0#32 s = .ok false u
      ∧ ran adv (commandSent s.cfg 55#8 0#32 a ++ commandSent s.cfg 13#8 0#32 b ++ [s.cfg.dummy] ++ out) rest c s.mem s.csd s
          u := by
  have hc : command 0x8D#8 0#32 .acmd13 s = .ok true (answered 13#8 0#32 b (x :: (failing ++ rest))
      (answered 55#8 0#32 a (b.bytes ++ (x :: (failing ++ rest))) s)) := by
    unfold command
    rw [application_answered (idx := 0x8D#8) ha hb (by decide) (by decide) h12 (by decide) hr h, Res.bind_ok,
      if_pos (show acceptedReady b.r = true by rw [hr']; decide)]
    rfl
  have h1 := answered_ran (adv := adv) 55#8 0#32 (b.bytes ++ (x :: (failing ++ rest))) s ha
  generalize answered 55#8 0#32 a (b.bytes ++ (x :: (failing ++ rest))) s = t at h1 hc
  have h2 := h1.trans ((answered_ran (adv := adv) 13#8 0#32 (x :: (failing ++ rest)) t hb).cast (by rw [h1.cfg]) rfl
    h1.cause h1.mem h1.csd)
  generalize answered 13#8 0#32 b (x :: (failing ++ rest)) t = u at h2 hc
  have hd := sendDummies_answered (k := 1) (inp := [x]) (rest := failing ++ rest) (s := u) rfl h2.next (h2.quiet hq)
  have h3 := h2.trans ((exchanged_ran (adv := adv) (l := List.replicate 1 u.cfg.dummy) (inp := [x]) (rest := failing ++ rest)
    (s := u) rfl).cast (by rw [h2.cfg]; rfl : List.replicate 1 u.cfg.dummy = [s.cfg.dummy]) rfl h2.cause h2.mem h2.csd)
  rw [← hd] at h3
  obtain ⟨w, h4, h5⟩ := receiveDataBlock_fails (p := .csd) (len := csdLen) (tokenFails_congr h3.cfg h3.ticks hf) h3.next
    (h3.quiet hq)
  refine ⟨w, ?_, h3.trans (h5.cast rfl rfl rfl h3.mem h3.csd)⟩
  unfold acmd13
  rw [hc, Res.bind_ok, if_neg (by decide), h4]
  rfl

/-- A register read whose command is not accepted, whichever of the two it is. -/
theorem register_rejected {idx r : Byte} {tag : DiskTag} {xs : List Turn} (hm : meets idx 0#32 xs r) (hwf : turnsWf adv s xs)
    (hr : r ≠ 0x00#8) (hidx : idx = 9#8 ∧ tag = .cmd9 ∨ idx = 0x8D#8 ∧ tag = .acmd13)
    (h : s.rx.next = turnsBytes xs ++ rest) :
    ∃ u, (if idx = 9#8 then cmd9 0#32 s else acmd13 0#32 s) = .ok false u
      ∧ ran adv (turnsSent s.cfg xs) rest (.diskError tag) s.mem s.csd s u := by
  have hbits : idx.getLsbD 6 = false ∧ idx &&& 0x7F#8 ≠ 12#8 := by
    rcases hidx with ⟨rfl, -⟩ | ⟨rfl, -⟩ <;> decide
  obtain ⟨u, h1, h2, -⟩ := command_fails (tag := tag) hm hwf hbits.1 h12 hbits.2 hr h hq
  refine ⟨u, ?_, h2.ran⟩
  rcases hidx with ⟨rfl, rfl⟩ | ⟨rfl, rfl⟩
  · rw [if_pos rfl, cmd9, h1]
    rfl
  · rw [if_neg (by decide), acmd13, h1]
    rfl

end

/-! ### The values -/

theorem valueOrDraw_eq (x : Option U32) (s : State) :
    ∃ n, valueOrDraw x s = (x.getD (Config.freeU32 s.free), { s with free := n }) := by
  cases x
  · exact ⟨s.free + 1, rfl⟩
  · exact ⟨s.free, rfl⟩

theorem sectorCountValue_eq (s : State) : ∃ n x, sectorCountValue s = (x, { s with free := n })
    ∧ (s.cfg.csdDecode = .standard → x = (sectorCount s.csd).getD (Config.freeU32 s.free))
    ∧ (s.cfg.csdDecode = .platform → x = Config.platformSectorCount s.csd.toList) := by
  unfold sectorCountValue
  split
  next hd =>
    obtain ⟨n, hn⟩ := valueOrDraw_eq (sectorCount s.csd) s
    exact ⟨n, _, hn, fun _ => rfl, fun hp => absurd (hd.symm.trans hp) (by decide)⟩
  next hd => exact ⟨s.free, _, rfl, fun hs => absurd (hd.symm.trans hs) (by decide), fun _ => rfl⟩

theorem blockSizeValue_eq (s : State) : ∃ n x, blockSizeValue s = (x, { s with free := n })
    ∧ (s.cfg.csdDecode = .standard → x = (blockSize s.cfg.mmcGroupMult s.card.type s.csd).getD (Config.freeU32 s.free))
    ∧ (s.cfg.csdDecode = .platform → x = if s.card.type = .unknown then Config.freeU32 s.free
        else Config.platformBlockSize (s.card.type == .mmc) s.csd.toList) := by
  unfold blockSizeValue
  split
  next hd =>
    obtain ⟨n, hn⟩ := valueOrDraw_eq (blockSize s.cfg.mmcGroupMult s.card.type s.csd) s
    exact ⟨n, _, hn, fun _ => rfl, fun hp => absurd (hd.symm.trans hp) (by decide)⟩
  next hd =>
    split
    next hc => exact ⟨s.free + 1, _, rfl, fun hs => absurd (hd.symm.trans hs) (by decide), fun _ => rfl⟩
    next hc => exact ⟨s.free, _, rfl, fun hs => absurd (hd.symm.trans hs) (by decide), fun _ => rfl⟩

section
variable {adv : Nat} {start stop : U32} {rest : List Byte} {d : Byte} {v : Vector Byte 16} {out : List Byte} {c : Cause}
  {m : Memory} {s u : State}

theorem codeBody_sectorCount_ok (h : cmd9 0#32 s = .ok true u) :
    ∃ n x, codeBody 1#8 start stop s = .ok .ok { u with out := x, free := n }
      ∧ (u.cfg.csdDecode = .standard → x = (sectorCount u.csd).getD (Config.freeU32 u.free))
      ∧ (u.cfg.csdDecode = .platform → x = Config.platformSectorCount u.csd.toList) := by
  obtain ⟨n, x, hv, hs, hp⟩ := sectorCountValue_eq u
  refine ⟨n, x, ?_, hs, hp⟩
  show (cmd9 0#32 s).bind _ = _
  rw [h, Res.bind_ok, if_pos rfl, hv]

theorem codeBody_sectorCount_fails (h : cmd9 0#32 s = .ok false u) : codeBody 1#8 start stop s = .ok .error u := by
  show (cmd9 0#32 s).bind _ = _
  rw [h]
  rfl

theorem codeBody_blockSize_eq : codeBody 3#8 start stop s = blockSizeBody s := rfl

theorem codeBody_blockSize_ok (hcard : s.card.type ≠ .sd2) (h : cmd9 0#32 s = .ok true u) :
    ∃ n x, codeBody 3#8 start stop s = .ok .ok { u with out := x, free := n }
      ∧ (u.cfg.csdDecode = .standard → x = (blockSize u.cfg.mmcGroupMult u.card.type u.csd).getD (Config.freeU32 u.free))
      ∧ (u.cfg.csdDecode = .platform → x = if u.card.type = .unknown then Config.freeU32 u.free
        else Config.platformBlockSize (u.card.type == .mmc) u.csd.toList) := by
  obtain ⟨n, x, hv, hs, hp⟩ := blockSizeValue_eq u
  refine ⟨n, x, ?_, hs, hp⟩
  rw [codeBody_blockSize_eq, blockSizeBody, if_neg hcard, readCsd, h, Res.bind_ok, if_pos rfl, hv]

theorem codeBody_blockSize_fails (hcard : s.card.type ≠ .sd2) (h : cmd9 0#32 s = .ok false u) :
    codeBody 3#8 start stop s = .ok .error u := by
  rw [codeBody_blockSize_eq, blockSizeBody, if_neg hcard, readCsd, h]
  rfl

theorem codeBody_blockSize_sd2_ok (hcard : s.card.type = .sd2) (h : acmd13 0#32 s = .ok true u) :
    codeBody 3#8 start stop s = .ok .ok { u with out := auSizeValue u, free := u.free } := by
  rw [codeBody_blockSize_eq, blockSizeBody, if_pos hcard, h]
  rfl

theorem codeBody_blockSize_sd2_fails (hcard : s.card.type = .sd2) (h : acmd13 0#32 s = .ok false u) :
    codeBody 3#8 start stop s = .ok .error u := by
  rw [codeBody_blockSize_eq, blockSizeBody, if_pos hcard, h]
  rfl

/-- The register of a body, read after `ran`: the bytes of the packet. -/
theorem ran.ioctl_fields (h : ran adv out rest c m v (ioctlBegun s) u) :
    u.cfg = s.cfg ∧ u.card = s.card ∧ u.free = s.free ∧ u.csd = v :=
  ⟨h.cfg, h.card, by rw [h.1]; rfl, h.csd⟩

end

/-! ### The instructions -/

section
variable {adv : Nat} {start stop : U32} {a b : Answer} {k : Packet} {d : Byte} {rest : List Byte} {s : State} {i : Instr}
  (hu : usable s) (h12 : s.cfg.stopCmdIndex = 12#8)

theorem replicate_exit (l : List Byte) (n : Nat) (x : Byte) :
    l ++ List.replicate n x ++ [x] = l ++ List.replicate (n + 1) x := by
  rw [List.replicate_succ', List.append_assoc]

include hu h12

theorem exec_sectorCount_reads (hb : bridgeReady s) (hi : i ∈ [.ioctlGetSectorCount, .ioctl 1#8 start stop]) (ha : a.wf = true)
    (hr : a.r = 0x00#8) (hk : k.payload.length = 16) (h : s.rx.next = a.bytes ++ (k.bytes ++ d :: rest)) :
    ∃ t, exec i s = .next t ∧ hostFrame s t ∧ returned (.result .ok) t ∧ t.hung = s.hung
      ∧ t.csd.toList = k.payload ∧ t.mem = s.mem
      ∧ t.sent = s.sent ++ commandSent s.cfg 9#8 0#32 a ++ List.replicate (1 + 16 + 2 + 1) s.cfg.dummy
      ∧ (s.cfg.csdDecode = .standard → t.out = (sectorCount t.csd).getD (Config.freeU32 s.free))
      ∧ (s.cfg.csdDecode = .platform → t.out = Config.platformSectorCount k.payload) := by
  have hcsd : (csdWriteAll s.csd 0 k.payload).toList = k.payload := csdWriteAll_full _ hk
  obtain ⟨st, sp, hexec⟩ := exec_ioctl_of (k := .ioctlGetSectorCount) (fun _ => rfl) hi
  obtain ⟨u, h1, h2⟩ := cmd9_reads (adv := 0) (s := ioctlBegun s) h12 hu.isQuiet ha hr hk hb h
  obtain ⟨hcfg, -, hfree, hv⟩ := h2.ioctl_fields
  obtain ⟨n, y, h3, hs, hp⟩ := codeBody_sectorCount_ok (start := st) (stop := sp) h1
  obtain ⟨t, h4, h5, h6, h7, h8, h9, h10, h11, -⟩ := ioctl_value hu (hexec s) h3 (begins_begun s) h2
  refine ⟨t, h4, h5, h6, h7, h8 ▸ hcsd, h9, ?_, fun hd => ?_, fun hd => ?_⟩
  · rw [h10, ← List.append_assoc s.sent]
    exact replicate_exit _ _ _
  · rw [h11, hs (by rw [hcfg]; exact hd), h8, hv, hfree]
  · rw [h11, hp (by rw [hcfg]; exact hd), hv]
    exact congrArg _ hcsd

theorem exec_blockSize_reads (hb : bridgeReady s) (hi : i ∈ [.ioctlGetBlockSize, .ioctl 3#8 start stop]) (ha : a.wf = true)
    (hcard : s.card.type ≠ .sd2) (hr : a.r = 0x00#8) (hk : k.payload.length = 16)
    (h : s.rx.next = a.bytes ++ (k.bytes ++ d :: rest)) :
    ∃ t, exec i s = .next t ∧ hostFrame s t ∧ returned (.result .ok) t ∧ t.hung = s.hung
      ∧ t.csd.toList = k.payload ∧ t.mem = s.mem
      ∧ t.sent = s.sent ++ commandSent s.cfg 9#8 0#32 a ++ List.replicate (1 + 16 + 2 + 1) s.cfg.dummy
      ∧ (s.cfg.csdDecode = .standard →
          t.out = (blockSize s.cfg.mmcGroupMult s.card.type t.csd).getD (Config.freeU32 s.free))
      ∧ (s.cfg.csdDecode = .platform → t.out =
          if s.card.type = .unknown then Config.freeU32 s.free
          else Config.platformBlockSize (s.card.type == .mmc) k.payload) := by
  have hcsd : (csdWriteAll s.csd 0 k.payload).toList = k.payload := csdWriteAll_full _ hk
  obtain ⟨st, sp, hexec⟩ := exec_ioctl_of (k := .ioctlGetBlockSize) (fun _ => rfl) hi
  obtain ⟨u, h1, h2⟩ := cmd9_reads (adv := 0) (s := ioctlBegun s) h12 hu.isQuiet ha hr hk hb h
  obtain ⟨hcfg, hcd, hfree, hv⟩ := h2.ioctl_fields
  obtain ⟨n, y, h3, hs, hp⟩ := codeBody_blockSize_ok (start := st) (stop := sp) (s := ioctlBegun s) hcard h1
  obtain ⟨t, h4, h5, h6, h7, h8, h9, h10, h11, -⟩ := ioctl_value hu (hexec s) h3 (begins_begun s) h2
  refine ⟨t, h4, h5, h6, h7, h8 ▸ hcsd, h9, ?_, fun hd => ?_, fun hd => ?_⟩
  · rw [h10, ← List.append_assoc s.sent]
    exact replicate_exit _ _ _
  · rw [h11, hs (by rw [hcfg]; exact hd), h8, hv, hfree, hcfg, hcd]
  · rw [h11, hp (by rw [hcfg]; exact hd), hv, hfree, hcd]
    rw [show (csdWriteAll (ioctlBegun s).csd 0 k.payload).toList = k.payload from hcsd]

theorem exec_auSize_reads {x : Byte} {tail : List Byte} (hbr : bridgeReady s)
    (hi : i ∈ [.ioctlGetBlockSize, .ioctl 3#8 start stop]) (ha : a.wf = true) (hb : b.wf = true) (hcard : s.card.type = .sd2)
    (hr : a.r.toNat ≤ 1) (hr' : b.r = 0x00#8) (hk : k.payload.length = 16) (ht : tail.length = 48)
    (h : s.rx.next = a.bytes ++ (b.bytes ++ (x :: (k.bytes ++ (tail ++ d :: rest))))) :
    ∃ t, exec i s = .next t ∧ hostFrame s t ∧ returned (.result .ok) t ∧ t.hung = s.hung
      ∧ t.csd.toList = k.payload ∧ t.mem = s.mem
      ∧ t.sent = s.sent ++ commandSent s.cfg 55#8 0#32 a ++ commandSent s.cfg 13#8 0#32 b
          ++ List.replicate (1 + 1 + 16 + 2 + 48 + 1) s.cfg.dummy
      ∧ (s.cfg.csdDecode = .standard → t.out = auSize t.csd)
      ∧ (s.cfg.csdDecode = .platform → t.out = Config.platformAuSize k.payload) := by
  have hcsd : (csdWriteAll s.csd 0 k.payload).toList = k.payload := csdWriteAll_full _ hk
  obtain ⟨st, sp, hexec⟩ := exec_ioctl_of (k := .ioctlGetBlockSize) (fun _ => rfl) hi
  obtain ⟨u, h1, h2⟩ := acmd13_reads (adv := 0) (s := ioctlBegun s) h12 hu.isQuiet ha hb hr hr' hk ht hbr h
  obtain ⟨hcfg, -, -, hv⟩ := h2.ioctl_fields
  obtain ⟨t, h4, h5, h6, h7, h8, h9, h10, h11, -⟩ := ioctl_value hu (hexec s)
    (codeBody_blockSize_sd2_ok (start := st) (stop := sp) (s := ioctlBegun s) hcard h1) (begins_begun s) h2
  refine ⟨t, h4, h5, h6, h7, h8 ▸ hcsd, h9, ?_, fun hd => ?_, fun hd => ?_⟩
  · rw [h10, ← List.append_assoc s.sent, ← List.append_assoc s.sent]
    exact replicate_exit _ _ _
  · rw [h11, auSizeValue, hcfg, hd, h8, hv]
  · rw [h11, auSizeValue, hcfg, hd, hv]
    exact congrArg _ hcsd

omit h12 in
/-- Both ioctls end with Error where their register read fails. -/
theorem exec_register_fails {idx : Byte} {u : State} {out : List Byte} {c : Cause}
    (hi : (i ∈ [.ioctlGetSectorCount, .ioctl 1#8 start stop] ∧ idx = 9#8)
      ∨ (i ∈ [.ioctlGetBlockSize, .ioctl 3#8 start stop] ∧ idx = if s.card.type = .sd2 then 0x8D#8 else 9#8))
    (hread : (if idx = 9#8 then cmd9 0#32 (ioctlBegun s) else acmd13 0#32 (ioctlBegun s)) = .ok false u)
    (h : ran adv out rest c s.mem s.csd (ioctlBegun s) u) :
    ∃ t, exec i s = .next t ∧ hostFrame s t ∧ returned (.result .error) t ∧ t.hung = s.hung ∧ t.out = s.out
      ∧ t.mem = s.mem ∧ t.csd = s.csd ∧ t.cause = c ∧ t.sent = s.sent ++ out ++ [s.cfg.dummy] := by
  have hbody : ∃ code st sp, exec i s = hostCall (.ioctl code st sp) s ∧ codeBody code st sp (ioctlBegun s) = .ok .error u := by
    rcases hi with ⟨hi, rfl⟩ | ⟨hi, rfl⟩
    · obtain ⟨st, sp, hexec⟩ := exec_ioctl_of (k := .ioctlGetSectorCount) (fun _ => rfl) hi
      exact ⟨_, st, sp, hexec s, codeBody_sectorCount_fails ((if_pos rfl).symm.trans hread)⟩
    · obtain ⟨st, sp, hexec⟩ := exec_ioctl_of (k := .ioctlGetBlockSize) (fun _ => rfl) hi
      refine ⟨_, st, sp, hexec s, ?_⟩
      by_cases hcard : s.card.type = .sd2
      · rw [if_pos hcard] at hread
        exact codeBody_blockSize_sd2_fails (s := ioctlBegun s) hcard ((if_neg (by decide)).symm.trans hread)
      · rw [if_neg hcard] at hread
        exact codeBody_blockSize_fails (s := ioctlBegun s) hcard ((if_pos rfl).symm.trans hread)
  obtain ⟨code, st, sp, hexec, hbody⟩ := hbody
  obtain ⟨t, h4, h5, h6, h7, h8, h9, h10, h11, h12⟩ := ioctl_ends hu hexec hbody (begins_begun s) h
  exact ⟨t, h4, h5, h6, h7, h11, h9, h8, h12, h10⟩

end

/-- Settles O49: the register read, then the formula on its bytes; a read that fails ends the body with Error. -/
theorem registerIoctls : Obligations.RegisterIoctls := by
  unfold Obligations.RegisterIoctls
  intro s start stop a b k x d tail rest hu hb h12 ha hb' hk
  have hq : quiet s := hu.isQuiet
  refine ⟨fun i hi hr h => exec_sectorCount_reads hu h12 hb hi ha hr hk h,
    fun i hi => ⟨fun hcard hr h => exec_blockSize_reads hu h12 hb hi ha hcard hr hk h,
      fun hcard hr hr' ht h => exec_auSize_reads hu h12 hb hi ha hb' hcard hr hr' hk ht h⟩,
    fun i idx r tag xs adv hi hm hwf hr h => ?_, fun i failing sent cause adv hf => ⟨fun hi hr h => ?_, fun hi hcard hr hr' h => ?_⟩⟩
  · have hidx : idx = 9#8 ∧ tag = .cmd9 ∨ idx = 0x8D#8 ∧ tag = .acmd13 := by
      rcases hi with ⟨-, h1, h2⟩ | ⟨-, h1⟩
      · exact .inl ⟨h1, h2⟩
      · split at h1 <;> cases h1
        · exact .inr ⟨rfl, rfl⟩
        · exact .inl ⟨rfl, rfl⟩
    obtain ⟨u, h1, h2⟩ := register_rejected (s := ioctlBegun s) h12 hq hm (turnsWf_congr (s := s) rfl id hwf) hr hidx h
    refine exec_register_fails hu (hi.imp (fun hi => ⟨hi.1, hi.2.1⟩) fun hi => ⟨hi.1, ?_⟩) h1 h2
    rw [show idx = (idx, tag).1 from rfl, hi.2]
    split <;> rfl
  · obtain ⟨u, h1, h2⟩ := cmd9_tokenFails (adv := adv) (s := ioctlBegun s) h12 hq ha hr (tokenFails_congr (s := s) rfl id hf) h
    obtain ⟨t, h4, h5, h6, h7, h8, h9, h10, h11, h13⟩ := exec_register_fails (idx := 9#8) hu
      (hi.imp (fun hi => ⟨hi, rfl⟩) fun hi => ⟨hi.1, (if_neg hi.2).symm⟩) ((if_pos rfl).trans h1) h2
    refine ⟨t, h4, h5, h6, h7, h8, h9, h10, h11, ?_⟩
    rw [h13, ← List.append_assoc s.sent]
    rfl
  · obtain ⟨u, h1, h2⟩ := acmd13_tokenFails (adv := adv) (s := ioctlBegun s) h12 hq ha hb' hr hr'
      (tokenFails_congr (s := s) rfl id hf) h
    obtain ⟨t, h4, h5, h6, h7, h8, h9, h10, h11, h13⟩ := exec_register_fails (idx := 0x8D#8) hu
      (.inr ⟨hi, (if_pos hcard).symm⟩) ((if_neg (by decide)).trans h1) h2
    refine ⟨t, h4, h5, h6, h7, h8, h9, h10, h11, ?_⟩
    rw [h13]
    simp only [← List.append_assoc]
    rfl

end Sys2Proof.Machine
end

section
/-! SUPPORT. `ioctl` ERASE_SECTOR: the nested CSD read and the erase sequence (44_ioctl.md R271 to R274). -/

namespace Sys2Proof.Machine

set_option Elab.async false

open Sys2Proof

/-! ### The nested CSD read -/

/-- The state in which the nested CSD read sends its command. -/
def nested (s : State) : State := grantLock (sampled (enter .iNested s))

/-- The exit sequence of a lock taken twice. -/
theorem left_nested {u : State} {d : Byte} {rest : List Byte} (hl : u.lock = ⟨some u.me, 2⟩) (h : u.rx.next = d :: rest)
    (hq : quiet u) : left u = { u with
      cs := .deasserted
      rx := { u.rx with next := rest }
      lock := ⟨some u.me, 1⟩
      events := .unlock u.me :: .xchg u.cfg.dummy d :: .cs .deasserted :: u.events } := by
  unfold left unlocked
  rw [deselect_answered h, meanwhile_quiet (by exact hq)]
  simp [record, exchanged, driven, lockReleased, hl]

section
variable {adv : Nat} {out rest : List Byte} {d : Byte} {c : Cause} {m : Memory} {v : Vector Byte 16} {s u : State} {ok : Bool}
  (hq : quiet s)
include hq

theorem innerReadCsd_absent (h : notReady (sampledStatus s) = true) :
    innerReadCsd s = .ok false (sampled (enter .iNested s)) := by
  unfold innerReadCsd
  rw [refreshInputs_eq (s := enter .iNested s) hq]
  exact if_pos h

variable (hl : s.lock = ⟨some s.me, 1⟩) (hspi : s.spiCfg = lockConfig s)
include hl hspi

theorem nested_eq : nested s = { enter .iNested (sampled s) with
    lock := ⟨some s.me, 2⟩
    events := .configure (lockConfig s) :: .lock s.me :: (sampled s).events } := by
  unfold nested
  rw [grantLock_eq (s := sampled (enter .iNested s)) hq]
  have h1 : lockTaken (sampled (enter .iNested s)) = ⟨some s.me, 2⟩ := by
    show (if s.lock.owner = some s.me then (⟨s.lock.owner, s.lock.depth + 1⟩ : LockState) else ⟨some s.me, 1⟩) = _
    rw [hl]
    exact if_pos rfl
  rw [h1, show lockConfig (sampled (enter .iNested s)) = lockConfig s from rfl, ← hspi]
  rfl

theorem nested_sent : (nested s).sent = s.sent := by
  rw [nested_eq hq hl hspi, ← sent_sampled s]
  unfold State.sent
  simp [Event.sent]

/-- The nested read is its command, and an exit sequence that gives back one of the two locks. -/
theorem innerReadCsd_ran (hn : notReady (sampledStatus s) = false) (h : cmd9 0#32 (nested s) = .ok ok u)
    (hr : ran adv out (d :: rest) c m v (nested s) u) :
    ∃ t, innerReadCsd s = .ok ok t ∧ ran adv (out ++ [s.cfg.dummy]) rest c m v (sampled s) t := by
  have hbegin := nested_eq hq hl hspi
  have hul : u.lock = ⟨some u.me, 2⟩ := by rw [hr.1, hbegin]; rfl
  have huq : quiet u := hr.quiet (by rw [hbegin]; exact hq)
  have hleft := left_nested hul hr.next huq
  have hin : innerReadCsd s = .ok ok (left u) := by
    unfold innerReadCsd
    rw [refreshInputs_eq (s := enter .iNested s) hq]
    refine (if_neg fun ht => absurd (hn.symm.trans ht) (by decide)).trans ?_
    show (cmd9 0#32 (nested s)).bind _ = _
    rw [h, Res.bind_ok, exitSequence_eq (by rw [hul]) (by rw [hul]; show 1 ≤ 2; omega)]
    rfl
  have hsent : (left u).sent = (sampled s).sent ++ (out ++ [s.cfg.dummy]) := by
    have hcfg : u.cfg = s.cfg := by rw [hr.1, hbegin]; rfl
    rw [sent_of_events (s := u) (es := [.cs .deasserted, .xchg u.cfg.dummy d, .unlock u.me]) (by rw [hleft]; rfl), hr.2.1,
      nested_sent hq hl hspi, sent_sampled, hcfg, List.append_assoc]
    rfl
  refine ⟨left u, hin, ?_, hsent, fun hf => ?_, fun ha => ?_⟩
  · rw [hleft, hr.1, hbegin]
    simp [enter, sampled, hl]
  · rw [hleft]
    exact hr.fair (by rw [hbegin]; exact hf)
  · rw [hleft]
    exact hr.ticks (by rw [hbegin]; exact ha)

end

/-! ### The commands of the sequence -/

theorem busyFor_congr {adv ms : Nat} {bs : List Byte} {s t : State} (hc : t.cfg = s.cfg)
    (ha : s.tickAdv = ⟨[], adv⟩ → t.tickAdv = ⟨[], adv⟩) (h : busyFor bs ms adv s) : busyFor bs ms adv t := by
  obtain ⟨h1, h2, h3, h4⟩ := h
  exact ⟨ha h1, h2, h3, by rw [hc]; exact h4⟩

section
variable {adv : Nat} {st ed : U32} {out failing rest : List Byte} {c : Cause} {s : State} (h12 : s.cfg.stopCmdIndex = 12#8)
  (hq : quiet s)
include h12 hq

theorem command_accepted_ran {idx : Byte} {arg : U32} {tag : DiskTag} {a : Answer} (h6 : idx.getLsbD 6 = false)
    (h7 : idx.getLsbD 7 = false) (hne : idx ≠ 12#8) (ha : a.wf = true) (hr : a.r = 0x00#8) (h : s.rx.next = a.bytes ++ rest) :
    ∃ u, command idx arg tag s = .ok true u ∧ ran adv (commandSent s.cfg idx arg a) rest s.cause s.mem s.csd s u :=
  ⟨_, command_accepted hq ha h12 h6 h7 hne hr h, answered_ran idx arg rest s ha⟩

theorem cmd38_waits {a : Answer} {bs : List Byte} (ha : a.wf = true) (hr : a.r = 0x00#8) (hb : busyFor bs 30000 adv s)
    (h : s.rx.next = a.bytes ++ (bs ++ 0xFF#8 :: rest)) :
    ∃ u, cmd38 0#32 s = .ok true u
      ∧ ran adv (commandSent s.cfg 38#8 0#32 a ++ List.replicate (bs.length + 1) s.cfg.dummy) rest s.cause s.mem s.csd s u := by
  obtain ⟨t, h1, h2⟩ := command_accepted_ran (adv := adv) (idx := 0x26#8) (tag := .cmd38) (arg := 0#32) h12 hq (by decide)
    (by decide) (by decide) ha hr h
  obtain ⟨u, h3, h4, h5, -⟩ := waitReady_afterBusy (ms := tEraseMs) (s := t) (rest := rest)
    (busyFor_congr h2.cfg h2.ticks hb) h2.next (h2.quiet hq)
  refine ⟨u, by unfold cmd38; rw [h1]; exact h3, h2.trans ⟨?_, by rw [h5, h2.cfg], fun hf => ?_, fun hadv => ?_⟩⟩
  · rw [h4, ← h2.mem, ← h2.csd, ← h2.cause]
  · rw [h4]; exact hf
  · rw [h4]; exact hadv

theorem cmd38_expires {a : Answer} {bs : List Byte} {e : Byte} (ha : a.wf = true) (hr : a.r = 0x00#8)
    (hb : busyFor bs 30000 adv s) (he : e ≠ 0xFF#8) (hms : 30000 ≤ (bs.length + 1) * adv)
    (h : s.rx.next = a.bytes ++ (bs ++ e :: rest)) :
    ∃ u, cmd38 0#32 s = .ok false u
      ∧ ran adv (commandSent s.cfg 38#8 0#32 a ++ List.replicate (bs.length + 1) s.cfg.dummy) rest (.timeout .waitReady) s.mem
          s.csd s u := by
  obtain ⟨t, h1, h2⟩ := command_accepted_ran (adv := adv) (idx := 0x26#8) (tag := .cmd38) (arg := 0#32) h12 hq (by decide)
    (by decide) (by decide) ha hr h
  obtain ⟨u, h3, h4, h5, -⟩ := waitReady_expires (ms := tEraseMs) (s := t) (rest := rest)
    (busyFor_congr h2.cfg h2.ticks hb) he hms h2.next (h2.quiet hq)
  refine ⟨u, by unfold cmd38; rw [h1]; exact h3, h2.trans ⟨?_, by rw [h5, h2.cfg], fun hf => ?_, fun hadv => ?_⟩⟩
  · rw [h4, ← h2.mem, ← h2.csd]
  · rw [h4]; exact hf
  · rw [h4]; exact hadv

/-! ### The sequence -/

theorem eraseSequence_ends {c32 c33 c38 : Answer} {bs : List Byte} (h32 : c32.wf = true) (h33 : c33.wf = true)
    (h38 : c38.wf = true) (r32 : c32.r = 0x00#8) (r33 : c33.r = 0x00#8) (r38 : c38.r = 0x00#8) (hb : busyFor bs 30000 adv s)
    (h : s.rx.next = c32.bytes ++ (c33.bytes ++ (c38.bytes ++ (bs ++ 0xFF#8 :: rest)))) :
    ∃ u, eraseSequence st ed s = .ok .ok u
      ∧ ran adv (commandSent s.cfg 32#8 st c32 ++ commandSent s.cfg 33#8 ed c33 ++ commandSent s.cfg 38#8 0#32 c38
          ++ List.replicate (bs.length + 1) s.cfg.dummy) rest s.cause s.mem s.csd s u := by
  obtain ⟨t, h1, h2⟩ := command_accepted_ran (adv := adv) (idx := 0x20#8) (tag := .cmd32) (arg := st) h12 hq (by decide)
    (by decide) (by decide) h32 r32 h
  obtain ⟨w, h3, h4⟩ := command_accepted_ran (adv := adv) (idx := 0x21#8) (tag := .cmd33) (arg := ed) (s := t)
    (by rw [h2.cfg]; exact h12) (h2.quiet hq) (by decide) (by decide) (by decide) h33 r33 h2.next
  have h24 := h2.trans (h4.cast (by rw [h2.cfg]) rfl h2.cause h2.mem h2.csd)
  obtain ⟨u, h5, h6⟩ := cmd38_waits (adv := adv) (s := w) (by rw [h24.cfg]; exact h12) (h24.quiet hq) h38 r38
    (busyFor_congr h24.cfg h24.ticks hb) h24.next
  refine ⟨u, ?_, (h24.trans (h6.cast (by rw [h24.cfg]) rfl h24.cause h24.mem h24.csd)).cast ?_ rfl rfl rfl rfl⟩
  · unfold eraseSequence cmd32 cmd33
    simp [h1, h3, h5]
  · simp only [List.append_assoc]

theorem eraseSequence_fails (hf : eraseFails adv st ed failing out c s) (h : s.rx.next = failing ++ rest) :
    ∃ u, eraseSequence st ed s = .ok .error u ∧ ran adv out rest c s.mem s.csd s u := by
  rcases hf with hf | ⟨a, bytes, out, ha, hr, rfl, rfl, hf⟩
  · obtain ⟨u, h1, h2⟩ := command_commandFails (idx := 0x20#8) hf (by decide) (by decide) h12 (by decide) h hq
    exact ⟨u, by unfold eraseSequence cmd32; rw [h1]; rfl, h2⟩
  rw [List.append_assoc] at h
  obtain ⟨t, h1, h2⟩ := command_accepted_ran (adv := adv) (idx := 0x20#8) (tag := .cmd32) (arg := st) h12 hq (by decide)
    (by decide) (by decide) ha hr h
  have t12 : t.cfg.stopCmdIndex = 12#8 := by rw [h2.cfg]; exact h12
  rcases hf with hf | ⟨b, bytes', out', hb, hr', rfl, rfl, hf⟩
  · obtain ⟨u, h3, h4⟩ := command_commandFails (idx := 0x21#8) (commandFails_congr h2.cfg h2.ticks hf) (by decide) (by decide) t12
      (by decide) h2.next (h2.quiet hq)
    refine ⟨u, ?_, h2.trans (h4.cast rfl rfl rfl h2.mem h2.csd)⟩
    unfold eraseSequence cmd32 cmd33
    simp [h1, h3]
  rw [List.append_assoc] at h2
  obtain ⟨w, h3, h4⟩ := command_accepted_ran (adv := adv) (idx := 0x21#8) (tag := .cmd33) (arg := ed) t12 (h2.quiet hq)
    (by decide) (by decide) (by decide) hb hr' h2.next
  have h24 := h2.trans (h4.cast (by rw [h2.cfg]) rfl h2.cause h2.mem h2.csd)
  have w12 : w.cfg.stopCmdIndex = 12#8 := by rw [h24.cfg]; exact h12
  obtain ⟨u, h5, h6⟩ : ∃ u, cmd38 0#32 w = .ok false u ∧ ran adv out' rest c w.mem w.csd w u := by
    rcases hf with hf | ⟨k, bs, e, hk, hr38, hbusy, he, hms, rfl, rfl, rfl⟩
    · obtain ⟨u, h5, h6⟩ := command_commandFails (idx := 0x26#8) (commandFails_congr h24.cfg h24.ticks hf) (by decide)
        (by decide) w12 (by decide) h24.next (h24.quiet hq)
      exact ⟨u, by unfold cmd38; rw [h5]; rfl, h6⟩
    · obtain ⟨u, h5, h6⟩ := cmd38_expires (adv := adv) (s := w) (rest := rest) w12 (h24.quiet hq) hk hr38
        (busyFor_congr h24.cfg h24.ticks hbusy) he hms
        (by rw [h24.next, List.append_assoc, List.append_assoc]; rfl)
      exact ⟨u, h5, h6.cast (by rw [h24.cfg]) rfl rfl rfl rfl⟩
  refine ⟨u, ?_, (h24.trans (h6.cast rfl rfl rfl h24.mem h24.csd)).cast (List.append_assoc _ _ _) rfl rfl rfl rfl⟩
  unfold eraseSequence cmd32 cmd33
  simp [h1, h3, h5]

/-- The nested read fails at its command or at its token. -/
theorem cmd9_fails (hf : blockReadFails adv 9#8 0#32 .cmd9 failing out c s) (h : s.rx.next = failing ++ rest) :
    ∃ u, cmd9 0#32 s = .ok false u ∧ ran adv out rest c s.mem s.csd s u := by
  rcases hf with hf | ⟨a, data, o, ha, hr, hf, rfl, rfl⟩
  · exact cmd9_commandFails h12 hq hf h
  · exact cmd9_tokenFails h12 hq ha hr hf (by rw [h, List.append_assoc])

end

theorem blockReadFails_cause {adv : Nat} {idx : Byte} {arg : U32} {tag : DiskTag} {failing out : List Byte} {c : Cause} {s : State}
    (h : blockReadFails adv idx arg tag failing out c s) : c ≠ .none := by
  rcases h with ⟨x, -, -, -, -, -, rfl⟩ | ⟨a, data, o, -, -, ⟨j, -, -, ⟨b, -, -, -, rfl⟩ | ⟨-, -, rfl⟩⟩, -, -⟩ <;> nofun

theorem eraseFails_congr {adv : Nat} {st ed : U32} {failing out : List Byte} {c : Cause} {s t : State} (hc : t.cfg = s.cfg)
    (ha : s.tickAdv = ⟨[], adv⟩ → t.tickAdv = ⟨[], adv⟩) (h : eraseFails adv st ed failing out c s) :
    eraseFails adv st ed failing out c t := by
  unfold eraseFails at h ⊢
  rw [hc]
  rcases h with h | ⟨a, b, o, h1, h2, h3, h4, h⟩
  · exact .inl (commandFails_congr hc ha h)
  refine .inr ⟨a, b, o, h1, h2, h3, h4, ?_⟩
  rcases h with h | ⟨a, b, o, h1, h2, h3, h4, h⟩
  · exact .inl (commandFails_congr hc ha h)
  refine .inr ⟨a, b, o, h1, h2, h3, h4, ?_⟩
  rcases h with h | ⟨a, bs, e, h1, h2, h3, h⟩
  · exact .inl (commandFails_congr hc ha h)
  · exact .inr ⟨a, bs, e, h1, h2, busyFor_congr hc ha h3, h⟩

/-! ### The body -/

section
variable {start stop : U32} {s t : State} (hcard : s.card.type = .sd1 ∨ s.card.type = .sd2)

theorem eraseBody_otherCard (h1 : s.card.type ≠ .sd1) (h2 : s.card.type ≠ .sd2) :
    eraseBody start stop s = .ok .error (raiseEraseNotValid s) := if_neg fun h => h.elim h1 h2

include hcard

theorem eraseBody_unread (h : innerReadCsd s = .ok false t) :
    eraseBody start stop s = .ok .error (if t.cause = .none then raiseEraseNotValid (enter .iBody t) else enter .iBody t) := by
  unfold eraseBody
  rw [if_pos hcard, h]
  rfl

theorem eraseBody_notAllowed (h : innerReadCsd s = .ok true t) (hs : eraseSupportedHere t = false) :
    eraseBody start stop s = .ok .error (raiseEraseNotValid (enter .iBody t)) := by
  unfold eraseBody
  rw [if_pos hcard, h]
  exact if_neg fun ht : eraseSupportedHere t = true => absurd (hs.symm.trans ht) (by decide)

theorem eraseBody_allowed (h : innerReadCsd s = .ok true t) (hs : eraseSupportedHere t = true) :
    eraseBody start stop s = eraseSequence (toAddr t.card start) (toAddr t.card stop) (enter .iBody t) := by
  unfold eraseBody
  rw [if_pos hcard, h]
  exact if_pos hs

end

theorem eraseSupportedHere_congr {s t : State} (hc : t.cfg = s.cfg) (hv : t.csd = s.csd) :
    eraseSupportedHere t = eraseSupportedHere s := by
  unfold eraseSupportedHere
  rw [hc, hv]

theorem ran.eraseSupported {adv : Nat} {out rest : List Byte} {c : Cause} {m : Memory} {v : Vector Byte 16} {s t : State} {b : Bool}
    (h : ran adv out rest c m v (sampled (ioctlBegun s)) t) (hs : eraseSupportedHere { s with csd := v } = b) :
    eraseSupportedHere t = b :=
  (eraseSupportedHere_congr (s := { s with csd := v }) h.cfg h.csd).trans hs

theorem begins_sampled (s : State) : begins s (sampled (ioctlBegun s)) :=
  ⟨rfl, rfl, (sent_sampled _).trans (begun_sent _ _ _ _ _ _ s), rfl, rfl, id⟩

theorem raise_ran {adv : Nat} {out rest : List Byte} {c : Cause} {m : Memory} {v : Vector Byte 16} {s t : State} (c' : Cause)
    (h : ran adv out rest c m v s t) : ran adv out rest c' m v s (raise c' t) := setCause_ran h

/-! ### The call -/

section
variable {adv : Nat} {start stop : U32} {a : Answer} {k : Packet} {d : Byte} {rest : List Byte} {s : State} (hu : usable s)
include hu

theorem nested_ready (hp : inputPresent (sampled s) = true) : notReady (sampledStatus (ioctlBegun s)) = false := by
  have h1 : inputPresent (ioctlBegun s) = true := hp
  have h2 : (ioctlBegun s).status.notInitialized = false := hu.2.1
  simp [notReady, sampledStatus, h1, h2]

omit hu in
theorem nested_unready (hp : inputPresent (sampled s) = false) : notReady (sampledStatus (ioctlBegun s)) = true := by
  have h1 : inputPresent (ioctlBegun s) = false := hp
  simp [notReady, sampledStatus, h1]

/-- In the call, the nested read begins where its common frame has sampled the inputs and taken the lock once more. -/
theorem nested_begun : nested (ioctlBegun s) = { enter .iNested (sampled (ioctlBegun s)) with
    lock := ⟨some s.me, 2⟩
    events := .configure (lockConfig s) :: .lock s.me :: (sampled (ioctlBegun s)).events } :=
  nested_eq (s := ioctlBegun s) hu.isQuiet rfl rfl

theorem nested_reads (hb : bridgeReady s) (h12 : s.cfg.stopCmdIndex = 12#8) (hp : inputPresent (sampled s) = true)
    (ha : a.wf = true) (hr : a.r = 0x00#8) (hk : k.payload.length = 16)
    (h : s.rx.next = a.bytes ++ (k.bytes ++ d :: rest)) :
    ∃ t, innerReadCsd (ioctlBegun s) = .ok true t
      ∧ ran adv (commandSent s.cfg 9#8 0#32 a ++ List.replicate (1 + 16 + 2) s.cfg.dummy ++ [s.cfg.dummy]) rest .none s.mem
          (csdAfter .csd k.payload s) (sampled (ioctlBegun s)) t := by
  have hn := nested_begun hu
  obtain ⟨u, h1, h2⟩ := cmd9_reads (adv := adv) (s := nested (ioctlBegun s)) (rest := d :: rest) (by rw [hn]; exact h12)
    (by rw [hn]; exact hu.isQuiet) ha hr hk (by rw [hn]; exact hb) (by rw [hn]; exact h)
  exact innerReadCsd_ran (s := ioctlBegun s) hu.isQuiet rfl rfl (nested_ready hu hp) h1
    (h2.cast (by rw [hn]; rfl) rfl (by rw [hn]; rfl) (by rw [hn]; rfl) (by rw [hn]; rfl))

theorem nested_fails {failing out : List Byte} {c : Cause} (h12 : s.cfg.stopCmdIndex = 12#8)
    (hp : inputPresent (sampled s) = true) (hf : blockReadFails adv 9#8 0#32 .cmd9 failing out c s)
    (h : s.rx.next = failing ++ d :: rest) :
    ∃ t, innerReadCsd (ioctlBegun s) = .ok false t
      ∧ ran adv (out ++ [s.cfg.dummy]) rest c s.mem s.csd (sampled (ioctlBegun s)) t := by
  have hn := nested_begun hu
  obtain ⟨u, h1, h2⟩ := cmd9_fails (adv := adv) (s := nested (ioctlBegun s)) (rest := d :: rest) (by rw [hn]; exact h12)
    (by rw [hn]; exact hu.isQuiet) (blockReadFails_congr (s := s) (by rw [hn]; rfl) (by rw [hn]; exact id) hf) (by rw [hn]; exact h)
  exact innerReadCsd_ran (s := ioctlBegun s) hu.isQuiet rfl rfl (nested_ready hu hp) h1
    (h2.cast rfl rfl rfl (by rw [hn]; rfl) (by rw [hn]; rfl))

end

theorem exec_erase {i : Instr} {start stop : U32} (hi : i ∈ [.ioctlEraseSector start stop, .ioctl 4#8 start stop]) (s : State) :
    exec i s = hostCall (.ioctl 4#8 start stop) s := by
  simp only [List.mem_cons, List.not_mem_nil, or_false] at hi
  rcases hi with rfl | rfl <;> rfl

/-- Settles O50: the nested read with its own exit, the test on what it read, then the sequence or the cause. -/
theorem eraseIoctl : Obligations.EraseIoctl := by
  unfold Obligations.EraseIoctl
  intro s start stop i a k d e rest hu hb h12 hi
  have hq : quiet s := hu.isQuiet
  have hexec := exec_erase hi s
  refine ⟨fun hcard hp => ⟨fun ha hr hk => ⟨fun hs => ⟨fun c32 c33 c38 bs adv h32 h33 h38 r32 r33 r38 hbusy h => ?_,
    fun failing sent cause adv hf h => ?_⟩, fun hs h => ?_⟩, fun failing sent cause adv hf h => ?_⟩, fun hcard hp => ?_,
    fun h1 h2 => ?_⟩
  · obtain ⟨t, h1, h2⟩ := nested_reads (adv := adv) hu hb h12 hp ha hr hk h
    have hte := (h2.trans (enter_ran adv .iBody t)).cast (List.append_nil _) h2.next h2.cause h2.mem h2.csd
    obtain ⟨u, h3, h4⟩ := eraseSequence_ends (adv := adv) (st := toAddr t.card start) (ed := toAddr t.card stop)
      (s := enter .iBody t) (rest := e :: rest) (by rw [hte.cfg]; exact h12) (hte.quiet hq) h32 h33 h38 r32 r33 r38
      (busyFor_congr hte.cfg hte.ticks hbusy) hte.next
    have h5 := hte.trans (h4.cast (by rw [hte.cfg, h2.card]) rfl hte.cause hte.mem hte.csd)
    obtain ⟨w, h6, h7, h8, h9, h10, h11, h13, h14, h15⟩ := ioctl_ends hu hexec
      ((eraseBody_allowed (s := ioctlBegun s) hcard h1 (h2.eraseSupported hs)).trans h3)
      (begins_sampled s) h5
    refine ⟨w, h6, h7, h8, h15, h9, by rw [h10]; exact csdWriteAll_full _ hk, h11, h14, ?_⟩
    rw [h13]
    simp only [← List.append_assoc]
    rfl
  · obtain ⟨t, h1, h2⟩ := nested_reads (adv := adv) hu hb h12 hp ha hr hk h
    have hte := (h2.trans (enter_ran adv .iBody t)).cast (List.append_nil _) h2.next h2.cause h2.mem h2.csd
    obtain ⟨u, h3, h4⟩ := eraseSequence_fails (adv := adv) (st := toAddr t.card start) (ed := toAddr t.card stop)
      (s := enter .iBody t) (rest := e :: rest) (by rw [hte.cfg]; exact h12) (hte.quiet hq)
      (eraseFails_congr (s := s) hte.cfg hte.ticks (by rw [h2.card]; exact hf)) hte.next
    have h5 := hte.trans (h4.cast rfl rfl rfl hte.mem hte.csd)
    obtain ⟨w, h6, h7, h8, h9, h10, h11, h13, h14, h15⟩ := ioctl_ends hu hexec
      ((eraseBody_allowed (s := ioctlBegun s) hcard h1 (h2.eraseSupported hs)).trans h3)
      (begins_sampled s) h5
    refine ⟨w, h6, h7, h8, h15, h9, h11, h14, ?_⟩
    rw [h13]
    simp only [← List.append_assoc]
  · obtain ⟨t, h1, h2⟩ := nested_reads (adv := 0) hu hb h12 hp ha hr hk h
    have hte := (h2.trans (enter_ran 0 .iBody t)).cast (List.append_nil _) h2.next h2.cause h2.mem h2.csd
    obtain ⟨w, h6, h7, h8, h9, h10, h11, h13, h14, h15⟩ := ioctl_ends hu hexec
      (eraseBody_notAllowed (s := ioctlBegun s) hcard h1 (h2.eraseSupported hs))
      (begins_sampled s) (raise_ran (.diskError .eraseNotValid) hte)
    refine ⟨w, h6, h7, h8, h15, h9, h11, h14, ?_⟩
    rw [h13]
    simp only [List.append_assoc]
    rfl
  · obtain ⟨t, h1, h2⟩ := nested_fails (adv := adv) hu h12 hp hf h
    have hte := (h2.trans (enter_ran adv .iBody t)).cast (List.append_nil _) h2.next h2.cause h2.mem h2.csd
    have hbody := eraseBody_unread (start := start) (stop := stop) (s := ioctlBegun s) hcard h1
    rw [if_neg (by rw [h2.cause]; exact blockReadFails_cause hf)] at hbody
    obtain ⟨w, h6, h7, h8, h9, h10, h11, h13, h14, h15⟩ := ioctl_ends hu hexec hbody (begins_sampled s) hte
    refine ⟨w, h6, h7, h8, h15, h9, h11, h10, h14, ?_⟩
    rw [h13]
    simp only [List.append_assoc]
    rfl
  · have h1 := innerReadCsd_absent (s := ioctlBegun s) hq (nested_unready hp)
    have hbody := eraseBody_unread (start := start) (stop := stop) (s := ioctlBegun s) hcard h1
    have hr : ran 0 [] s.rx.next .none s.mem s.csd (sampled (ioctlBegun s)) (enter .iBody (sampled (enter .iNested (ioctlBegun s)))) :=
      ⟨rfl, by rw [List.append_nil]; rfl, id, id⟩
    obtain ⟨w, h6, h7, h8, h9, h10, h11, h13, h14, h15⟩ := ioctl_ends hu hexec hbody (begins_sampled s)
      (raise_ran (.diskError .eraseNotValid) hr)
    refine ⟨w, h6, h7, h8, h15, h9, h11, h10, h14, ?_⟩
    rw [h13, List.append_nil]
  · obtain ⟨w, h6, h7, h8, h9, h10, h11, h13, h14, h15⟩ := ioctl_ends hu hexec
      (eraseBody_otherCard (start := start) (stop := stop) (s := ioctlBegun s) h1 h2) (begins_begun s)
      (raise_ran (.diskError .eraseNotValid) (ran.refl 0 (ioctlBegun s)))
    refine ⟨w, h6, h7, h8, h15, h9, h11, h10, h14, ?_⟩
    rw [h13, List.append_nil]

end Sys2Proof.Machine
end

section
/-! SUPPORT. The probe of the card: its two branches inside the window, and how each of them ends (42_probe.md R204 to R218). -/

namespace Sys2Proof.Machine

set_option Elab.async false

open Sys2Proof

/-! ### The window -/

/-- What follows an accepted CMD0, in the window `w`. -/
def probeWindow (w : Window) (b : State) : Res Card :=
  (cmd8 true cmd8Arg (enter .pCmd8 b)).bind fun accepted s => if accepted then probeSd2 w s else probeV1 w s

/-- A state of the probe of `s`, in the window `w` that has been read `n` times. -/
def inWindow (adv n : Nat) (w : Window) (s v : State) : Prop :=
  quiet v ∧ v.cfg = s.cfg ∧ w.start < tickModulus s.cfg ∧ w.durationMs = tInitMs
    ∧ (s.tickAdv = ⟨[], adv⟩ → v.tickAdv = ⟨[], adv⟩ ∧ v.tick % tickModulus s.cfg = (w.start + n * adv) % tickModulus s.cfg)

theorem inWindow.went {adv n k : Nat} {w : Window} {out rest : List Byte} {c : Cause} {s v t : State}
    (h : inWindow adv n w s v) (hw : went adv k out rest c v t) : inWindow adv (n + k) w s t := by
  obtain ⟨hq, hc, hs, hd, ht⟩ := h
  refine ⟨hw.quiet hq, hw.cfg.trans hc, hs, hd, fun ha => ?_⟩
  obtain ⟨hva, hvt⟩ := ht ha
  refine ⟨hw.adv hva, ?_⟩
  have hk := hw.tick hva
  rw [hc] at hk
  rw [hk, Nat.add_mod, hvt, ← Nat.add_mod, Nat.add_mul, Nat.add_assoc]

section
variable {adv n : Nat} {w : Window} {s v : State} (h : inWindow adv n w s v)
include h

theorem inWindow.isQuiet : quiet v := h.1
theorem inWindow.cfg : v.cfg = s.cfg := h.2.1

theorem inWindow.ticks (ha : s.tickAdv = ⟨[], adv⟩) : v.tickAdv = ⟨[], adv⟩ := by
  obtain ⟨-, -, -, -, ht⟩ := h
  exact (ht ha).1

end

theorem probeStarts.stopIndex {adv : Nat} {idle : List Byte} {pre : List Turn} {s : State} (h : probeStarts adv idle pre s) :
    s.cfg.stopCmdIndex = 12#8 := by
  obtain ⟨-, -, -, h12, -⟩ := h
  exact h12

/-- The call, once it is known what happens in the window. -/
theorem exec_window {adv : Nat} {idle : List Byte} {pre : List Turn} {s : State} {c : Card} {c0 : Answer}
    {mid sent sent' rest : List Byte} {d : Byte} {cause : Cause} (hs : probeStarts adv idle pre s) (hw0 : c0.wf = true)
    (hr0 : c0.r = 0x01#8) (h : s.rx.next = idle ++ (turnsBytes pre ++ (c0.bytes ++ (mid ++ d :: rest))))
    (hmid : ∀ (w : Window) (b : State), inWindow adv 0 w s b → b.cause = turnsCause pre .none → b.rx.next = mid ++ d :: rest →
      ∃ u k, probeWindow w b = .ok c u ∧ went adv k sent (d :: rest) cause b u)
    (hsent : turnsSent s.cfg pre ++ (commandSent s.cfg 0#8 0#32 c0 ++ sent) = sent') :
    ∃ t, exec .initCard s = .next t ∧ probeEnds c cause sent' rest s t := by
  subst hsent
  refine probe_of_window hs hw0 hr0 h fun b hq hc hcause ha hn w hstart hlt hd => hmid w b ⟨hq, hc, ?_, hd, fun hadv => ?_⟩ hcause hn
  · rw [hstart, ← hc]
    exact hlt
  · exact ⟨ha hadv, by rw [hstart, Nat.zero_mul, Nat.add_zero]⟩

/-! ### The ends of the branches -/

/-- What follows the poll of the branch of version 2. -/
def sd2Ends (t : State) : Res Card :=
  (cmd58 true 0#32 (enter .pCmd58 t)).bind fun ok s => if ok then .ok ⟨.sd2, ccsBit s.ocr⟩ s else .ok Card.none s

/-- What follows the poll of the branch of version 1. -/
def v1Ends (r : Byte) (t : State) : Res Card :=
  (cmd16 t.cfg.cmd16Arg (enter .pCmd16 t)).bind fun ok s =>
    if ok then .ok ⟨if r.toNat ≤ 1 then .sd1 else .mmc, false⟩ s else .ok Card.none s

/-! ### The branch of version 2 -/

section
variable {adv : Nat} {w : Window} {s b : State} {more : List Byte} (h12 : s.cfg.stopCmdIndex = 12#8) (hin : inWindow adv 0 w s b)
include h12 hin

theorem sd2_begins {c8 : Answer} {e0 e1 e2 e3 : Byte} (hw : c8.wf = true) (hr : c8.r = 0x01#8)
    (h : b.rx.next = c8.bytes ++ ([e0, e1, e2, e3] ++ more)) :
    ∃ v, probeWindow w b = probeSd2 w v ∧ v.ocr = #v[e0, e1, e2, e3] ∧ inWindow adv 1 w s v
      ∧ went adv 1 (commandSent s.cfg 8#8 0x1AA#32 c8 ++ List.replicate 4 s.cfg.dummy) more b.cause b v := by
  obtain ⟨v, h1, h2, h3⟩ := cmd8_accepted (adv := adv) hw hr (by rw [hin.cfg]; exact h12) h hin.isQuiet
  rw [hin.cfg] at h3
  refine ⟨v, ?_, h2, hin.went h3, h3⟩
  unfold probeWindow
  rw [h1]
  rfl

theorem sd2_polls {c8 : Answer} {e0 e1 : Byte} {ps : List (List Turn)} {xs : List Turn} (ha : s.tickAdv = ⟨[], adv⟩)
    (hM : 1000 ≤ tickModulus s.cfg) (hw : c8.wf = true) (hr : c8.r = 0x01#8) (hps : pollsGoOn 0xA9#8 s.cfg.acmd41HcsArg ps)
    (hxs : meets 0xA9#8 s.cfg.acmd41HcsArg xs 0x00#8) (hwf : turnsWf adv s (ps.flatten ++ xs))
    (ho : (1 + pollReadings ps + 1) * adv < 1000)
    (h : b.rx.next = c8.bytes ++ ([e0, e1, 0x01#8, 0xAA#8] ++ (turnsBytes (ps.flatten ++ xs) ++ more))) :
    ∃ t k, probeWindow w b = sd2Ends t ∧ inWindow adv k w s t
      ∧ went adv k (commandSent s.cfg 8#8 0x1AA#32 c8 ++ List.replicate 4 s.cfg.dummy ++ turnsSent s.cfg (ps.flatten ++ xs)) more
          (turnsCause (ps.flatten ++ xs) b.cause) b t := by
  obtain ⟨v, h1, h2, hv, h3⟩ := sd2_begins h12 hin hw hr h
  obtain ⟨hvq, hvc, hstart, hd, hvt⟩ := hv
  obtain ⟨hva, hvtick⟩ := hvt ha
  obtain ⟨t, k, h4, h5⟩ := probeSd2_polled (w := w) (v := v) h2 (by rw [hvc]; exact hps) (by rw [hvc]; exact hxs)
    (turnsWf_congr hvc (fun _ => hva) hwf) hva (by rw [hvc]; exact h12) h3.next (by rw [hvc]; exact hstart) hd
    (by rw [hvc]; exact hM) (by rw [hvc]; exact hvtick) ho hvq
  have h6 := h3.trans (h4.cast rfl (by rw [hvc]) rfl (by rw [h3.cause]))
  exact ⟨t, 1 + k, h1.trans h5, (Nat.zero_add (1 + k)) ▸ hin.went h6, h6⟩

/-! ### The branch of version 1 -/

theorem v1_begins {x8 : Turn} {tt : List Turn} {r index : Byte} (hof : x8.isOf 8#8 0x1AA#32) (hwf8 : x8.wf adv s)
    (hv8 : x8.value ≠ 0x01#8) (hm : meets 0xA9#8 0#32 tt r) (hwf : turnsWf adv s tt)
    (hi : index = if r.toNat ≤ 1 then 0xA9#8 else 0x01#8) (ha : s.tickAdv = ⟨[], adv⟩)
    (h : b.rx.next = x8.bytes ++ (turnsBytes tt ++ more)) :
    ∃ t, (probeWindow w b = (poll w .pPollV1 index 0#32 t).bind fun ready s =>
        if !ready then .ok Card.none s else v1Ends r s)
      ∧ inWindow adv (x8.readings + turnsReadings tt) w s t
      ∧ went adv (x8.readings + turnsReadings tt) (x8.sent s.cfg ++ turnsSent s.cfg tt) more
          (turnsCause (x8 :: tt) b.cause) b t := by
  obtain ⟨v, h1, h2⟩ := cmd8_rejected (adv := adv) hof (turn_wf_congr hin.cfg (fun _ => hin.ticks ha) hwf8) hv8
    (by rw [hin.cfg]; exact h12) h hin.isQuiet
  rw [hin.cfg] at h2
  have hv := hin.went h2
  obtain ⟨t, h3, h4⟩ := probeV1_test (w := w) (adv := adv) hm (turnsWf_congr hv.cfg (fun _ => hv.ticks ha) hwf)
    (by rw [hv.cfg]; exact h12) hi h2.next hv.isQuiet
  have h5 := h2.trans (h3.cast rfl (by rw [hv.cfg]) rfl (by rw [h2.cause, ← turnsCause_one, ← turnsCause_append, List.singleton_append]))
  refine ⟨t, ?_, (Nat.zero_add (_ + _)) ▸ hin.went h5, h5⟩
  unfold probeWindow
  rw [h1]
  exact h4

theorem v1_polls {x8 : Turn} {tt xs : List Turn} {r index : Byte} {ps : List (List Turn)} (hof : x8.isOf 8#8 0x1AA#32)
    (hwf8 : x8.wf adv s) (hv8 : x8.value ≠ 0x01#8) (hm : meets 0xA9#8 0#32 tt r) (hwf : turnsWf adv s tt)
    (hi : index = if r.toNat ≤ 1 then 0xA9#8 else 0x01#8) (ha : s.tickAdv = ⟨[], adv⟩) (hM : 1000 ≤ tickModulus s.cfg)
    (hps : pollsGoOn index 0#32 ps) (hxs : meets index 0#32 xs 0x00#8) (hwfx : turnsWf adv s (ps.flatten ++ xs))
    (ho : (x8.readings + turnsReadings tt + pollReadings ps + 1) * adv < 1000)
    (h : b.rx.next = x8.bytes ++ (turnsBytes tt ++ (turnsBytes (ps.flatten ++ xs) ++ more))) :
    ∃ t k, probeWindow w b = v1Ends r t ∧ inWindow adv k w s t
      ∧ went adv k (x8.sent s.cfg ++ turnsSent s.cfg tt ++ turnsSent s.cfg (ps.flatten ++ xs)) more
          (turnsCause (x8 :: (tt ++ (ps.flatten ++ xs))) b.cause) b t := by
  obtain ⟨v, h1, hv, h2⟩ := v1_begins h12 hin hof hwf8 hv8 hm hwf hi ha h
  obtain ⟨hvq, hvc, hstart, hd, hvt⟩ := hv
  obtain ⟨hva, hvtick⟩ := hvt ha
  obtain ⟨t, h3, h4⟩ := poll_accepts (q := .pPollV1) (s := v) hps hxs (turnsWf_congr hvc (fun _ => hva) hwfx) hva
    (by rw [hi]; split <;> decide) (by rw [hvc, h12]; decide) (by rw [hvc, h12, hi]; split <;> decide) h2.next
    (by rw [hvc]; exact hstart) hd (by rw [hvc]; exact hM) (by rw [hvc]; exact hvtick) ho
  have h5 := h2.trans (h4.cast rfl (by rw [hvc]) rfl (by rw [h2.cause, ← turnsCause_append, List.cons_append]))
  refine ⟨t, _, ?_, (Nat.zero_add (_ + _)) ▸ hin.went h5, h5⟩
  rw [h1, h3]
  rfl

end

/-! ### The card found -/

/-- Settles O51: the window meets an accepted CMD8 with its echo, a poll that ends in time and CMD58. -/
theorem initializeFindsSd2 : Obligations.InitializeFindsSd2 := by
  unfold Obligations.InitializeFindsSd2
  intro s idle pre xs c0 c8 c58 ps e0 e1 o0 o1 o2 o3 d rest adv hs ha hM hw0 hr0 hw8 hr8 hps hxs hwf ho hw58 hr58 h
  refine exec_window (c0 := c0) (d := d)
    (mid := c8.bytes ++ ([e0, e1, 0x01#8, 0xAA#8] ++ (turnsBytes (ps.flatten ++ xs) ++ (c58.bytes ++ [o0, o1, o2, o3]))))
    (sent := commandSent s.cfg 8#8 0x1AA#32 c8 ++ List.replicate 4 s.cfg.dummy ++ turnsSent s.cfg (ps.flatten ++ xs)
      ++ (commandSent s.cfg 58#8 0#32 c58 ++ List.replicate 4 s.cfg.dummy))
    hs hw0 hr0 (by rw [h]; simp only [List.append_assoc]) (fun w b hin hcause hn => ?_) (by simp only [List.append_assoc])
  have h12 := hs.stopIndex
  obtain ⟨t, k, h1, ht, h2⟩ := sd2_polls (e0 := e0) (e1 := e1) (more := c58.bytes ++ ([o0, o1, o2, o3] ++ d :: rest)) h12 hin ha hM hw8 hr8 hps hxs hwf ho
    (by rw [hn]; simp only [List.append_assoc])
  obtain ⟨u, l, h3, h4, h5⟩ := cmd58_accepted (adv := adv) hw58 hr58 (by rw [ht.cfg]; exact h12) h2.next ht.isQuiet
  refine ⟨u, k + l, ?_, h2.trans (h5.cast rfl (by rw [ht.cfg]) rfl ?_)⟩
  · rw [h1, sd2Ends, h3, Res.bind_ok, if_pos rfl, h4]
    rfl
  · rw [h2.cause, hcause, ← turnsCause_append]

/-- Settles O52: the window meets a rejected CMD8, the type test, the poll it selects, in time, and CMD16. -/
theorem initializeFindsSd1OrMmc : Obligations.InitializeFindsSd1OrMmc := by
  unfold Obligations.InitializeFindsSd1OrMmc
  intro s idle pre tt xs x8 c0 c16 ps r index d rest adv hs ha hM hw0 hr0 hof hwf8 hv8 hm hwft hi hps hxs hwf ho hw16 hr16 h
  refine exec_window (c0 := c0) (d := d)
    (mid := x8.bytes ++ (turnsBytes tt ++ (turnsBytes (ps.flatten ++ xs) ++ c16.bytes)))
    (sent := x8.sent s.cfg ++ turnsSent s.cfg tt ++ turnsSent s.cfg (ps.flatten ++ xs) ++ commandSent s.cfg 16#8 s.cfg.cmd16Arg c16)
    hs hw0 hr0 (by rw [h]; simp only [List.append_assoc]) (fun w b hin hcause hn => ?_) (by simp only [List.append_assoc])
  have h12 := hs.stopIndex
  obtain ⟨t, k, h1, ht, h2⟩ := v1_polls (more := c16.bytes ++ d :: rest) h12 hin hof hwf8 hv8 hm hwft hi ha hM hps hxs hwf ho
    (by rw [hn]; simp only [List.append_assoc])
  obtain ⟨u, l, h3, h4⟩ := cmd16_accepted (adv := adv) (arg := t.cfg.cmd16Arg) hw16 hr16 (by rw [ht.cfg]; exact h12) h2.next ht.isQuiet
  refine ⟨u, k + l, ?_, h2.trans (h4.cast rfl (by rw [ht.cfg]) rfl ?_)⟩
  · rw [h1, v1Ends, h3]
    rfl
  · rw [h2.cause, hcause, ← turnsCause_append]

/-! ### The failures -/

section
variable {s : State} {idle : List Byte} {pre : List Turn} {d : Byte} {rest : List Byte} {adv : Nat} (hs : probeStarts adv idle pre s)
include hs

theorem exec_cmd0_fails {x0 : Turn} (hof : x0.isOf 0#8 0#32) (hwf : x0.wf adv s) (hv : x0.value ≠ 0x01#8)
    (h : s.rx.next = idle ++ (turnsBytes pre ++ (x0.bytes ++ d :: rest))) :
    ∃ t, exec .initCard s = .next t ∧ probeEnds Card.none (.diskError .cmd0) (turnsSent s.cfg pre ++ x0.sent s.cfg) rest s t := by
  refine probe_of_card hs h fun a hq hc _ hadv hn => ?_
  obtain ⟨u, k, h1, h2⟩ := probeCard_cmd0 (adv := adv) hof (turn_wf_congr hc hadv hwf) hv (by rw [hc]; exact hs.stopIndex) hn hq
  exact ⟨u, k, h1, h2.cast rfl (by rw [hc]) rfl rfl⟩

variable {c0 c8 : Answer} {e0 e1 e2 e3 : Byte} {ps : List (List Turn)} {xs : List Turn} (hw0 : c0.wf = true) (hr0 : c0.r = 0x01#8)
include hw0 hr0

section
variable (hw8 : c8.wf = true) (hr8 : c8.r = 0x01#8)
include hw8 hr8

theorem exec_echo_fails (he : e2 ≠ 0x01#8 ∨ e3 ≠ 0xAA#8)
    (h : s.rx.next = idle ++ (turnsBytes pre ++ (c0.bytes ++ (c8.bytes ++ ([e0, e1, e2, e3] ++ d :: rest))))) :
    ∃ t, exec .initCard s = .next t ∧ probeEnds Card.none (.diskError .cmd8Echo)
      (turnsSent s.cfg pre ++ commandSent s.cfg 0#8 0#32 c0 ++ commandSent s.cfg 8#8 0x1AA#32 c8
        ++ List.replicate 4 s.cfg.dummy) rest s t := by
  refine exec_window (c0 := c0) (d := d) (mid := c8.bytes ++ [e0, e1, e2, e3])
    (sent := commandSent s.cfg 8#8 0x1AA#32 c8 ++ List.replicate 4 s.cfg.dummy)
    hs hw0 hr0 (by rw [h]; simp only [List.append_assoc]) (fun w b hin hcause hn => ?_) (by simp only [List.append_assoc])
  obtain ⟨v, h1, h2, -, h3⟩ := sd2_begins (e0 := e0) (e1 := e1) (e2 := e2) (e3 := e3) (more := d :: rest) hs.stopIndex hin hw8 hr8
    (by rw [hn]; simp only [List.append_assoc])
  obtain ⟨u, h4, h5⟩ := probeSd2_echo (adv := adv) (w := w) h2 he
  exact ⟨u, 1 + 0, h1.trans h4, (h3.trans h5).cast rfl (List.append_nil _) h3.next rfl⟩

variable (ha : s.tickAdv = ⟨[], adv⟩) (hM : 1000 ≤ tickModulus s.cfg) (hps : pollsGoOn 0xA9#8 s.cfg.acmd41HcsArg ps)
include ha hM hps

theorem exec_sd2Poll_expires (hwf : turnsWf adv s ps.flatten) (hx : pollsExpire adv 1 ps s)
    (h : s.rx.next = idle ++ (turnsBytes pre ++ (c0.bytes ++ (c8.bytes ++ ([e0, e1, 0x01#8, 0xAA#8]
      ++ (turnsBytes ps.flatten ++ d :: rest)))))) :
    ∃ t, exec .initCard s = .next t ∧ probeEnds Card.none (.timeout .initPoll)
      (turnsSent s.cfg pre ++ commandSent s.cfg 0#8 0#32 c0 ++ commandSent s.cfg 8#8 0x1AA#32 c8
        ++ List.replicate 4 s.cfg.dummy ++ turnsSent s.cfg ps.flatten) rest s t := by
  refine exec_window (c0 := c0) (d := d) (mid := c8.bytes ++ ([e0, e1, 0x01#8, 0xAA#8] ++ turnsBytes ps.flatten))
    (sent := commandSent s.cfg 8#8 0x1AA#32 c8 ++ List.replicate 4 s.cfg.dummy ++ turnsSent s.cfg ps.flatten)
    hs hw0 hr0 (by rw [h]; simp only [List.append_assoc]) (fun w b hin hcause hn => ?_) (by simp only [List.append_assoc])
  have h12 := hs.stopIndex
  obtain ⟨v, h1, h2, hv, h3⟩ := sd2_begins (e0 := e0) (e1 := e1) (e2 := 0x01#8) (e3 := 0xAA#8)
    (more := turnsBytes ps.flatten ++ d :: rest) h12 hin hw8 hr8 (by rw [hn]; simp only [List.append_assoc])
  obtain ⟨hvq, hvc, hstart, hd, hvt⟩ := hv
  obtain ⟨hva, hvtick⟩ := hvt ha
  obtain ⟨u, k, h4, h5⟩ := probeSd2_expires (w := w) h2 (by rw [hvc]; exact hps) (turnsWf_congr hvc (fun _ => hva) hwf) hva
    (by rw [hvc]; exact h12) h3.next (by rw [hvc]; exact hstart) hd (by rw [hvc]; exact hM) (by rw [hvc]; exact hvtick)
    (pollsExpire_congr hvc hx) hvq
  exact ⟨u, 1 + k, h1.trans h4, h3.trans (h5.cast rfl (by rw [hvc]) rfl rfl)⟩

theorem exec_cmd58_fails {x58 : Turn} (hxs : meets 0xA9#8 s.cfg.acmd41HcsArg xs 0x00#8) (hwf : turnsWf adv s (ps.flatten ++ xs))
    (ho : (1 + pollReadings ps + 1) * adv < 1000) (hof : x58.isOf 58#8 0#32) (hwf58 : x58.wf adv s) (hv : x58.value ≠ 0x00#8)
    (h : s.rx.next = idle ++ (turnsBytes pre ++ (c0.bytes ++ (c8.bytes ++ ([e0, e1, 0x01#8, 0xAA#8]
      ++ (turnsBytes (ps.flatten ++ xs) ++ (x58.bytes ++ d :: rest))))))) :
    ∃ t, exec .initCard s = .next t ∧ probeEnds Card.none (.diskError .cmd58)
      (turnsSent s.cfg pre ++ commandSent s.cfg 0#8 0#32 c0 ++ commandSent s.cfg 8#8 0x1AA#32 c8
        ++ List.replicate 4 s.cfg.dummy ++ turnsSent s.cfg (ps.flatten ++ xs) ++ x58.sent s.cfg) rest s t := by
  refine exec_window (c0 := c0) (d := d)
    (mid := c8.bytes ++ ([e0, e1, 0x01#8, 0xAA#8] ++ (turnsBytes (ps.flatten ++ xs) ++ x58.bytes)))
    (sent := commandSent s.cfg 8#8 0x1AA#32 c8 ++ List.replicate 4 s.cfg.dummy ++ turnsSent s.cfg (ps.flatten ++ xs)
      ++ x58.sent s.cfg)
    hs hw0 hr0 (by rw [h]; simp only [List.append_assoc]) (fun w b hin hcause hn => ?_) (by simp only [List.append_assoc])
  have h12 := hs.stopIndex
  obtain ⟨t, k, h1, ht, h2⟩ := sd2_polls (e0 := e0) (e1 := e1) (more := x58.bytes ++ d :: rest) h12 hin ha hM hw8 hr8 hps hxs hwf ho
    (by rw [hn]; simp only [List.append_assoc])
  obtain ⟨u, l, h3, h4⟩ := cmd58_rejected (adv := adv) hof (turn_wf_congr ht.cfg (fun _ => ht.ticks ha) hwf58) hv
    (by rw [ht.cfg]; exact h12) h2.next ht.isQuiet
  refine ⟨u, k + l, ?_, h2.trans (h4.cast rfl (by rw [ht.cfg]) rfl rfl)⟩
  rw [h1, sd2Ends, h3]
  rfl

end

variable {x8 : Turn} {tt : List Turn} {r index : Byte} (ha : s.tickAdv = ⟨[], adv⟩) (hM : 1000 ≤ tickModulus s.cfg)
  (hof : x8.isOf 8#8 0x1AA#32) (hwf8 : x8.wf adv s) (hv8 : x8.value ≠ 0x01#8) (hm : meets 0xA9#8 0#32 tt r)
  (hwft : turnsWf adv s tt) (hi : index = if r.toNat ≤ 1 then 0xA9#8 else 0x01#8) (hps : pollsGoOn index 0#32 ps)
include ha hM hof hwf8 hv8 hm hwft hi hps

theorem exec_v1Poll_expires (hwf : turnsWf adv s ps.flatten) (hx : pollsExpire adv (x8.readings + turnsReadings tt) ps s)
    (h : s.rx.next = idle ++ (turnsBytes pre ++ (c0.bytes ++ (x8.bytes ++ (turnsBytes tt ++ (turnsBytes ps.flatten
      ++ d :: rest)))))) :
    ∃ t, exec .initCard s = .next t ∧ probeEnds Card.none (.timeout .initPoll)
      (turnsSent s.cfg pre ++ commandSent s.cfg 0#8 0#32 c0 ++ x8.sent s.cfg ++ turnsSent s.cfg tt
        ++ turnsSent s.cfg ps.flatten) rest s t := by
  refine exec_window (c0 := c0) (d := d) (mid := x8.bytes ++ (turnsBytes tt ++ turnsBytes ps.flatten))
    (sent := x8.sent s.cfg ++ turnsSent s.cfg tt ++ turnsSent s.cfg ps.flatten)
    hs hw0 hr0 (by rw [h]; simp only [List.append_assoc]) (fun w b hin hcause hn => ?_) (by simp only [List.append_assoc])
  have h12 := hs.stopIndex
  obtain ⟨v, h1, hv, h2⟩ := v1_begins (more := turnsBytes ps.flatten ++ d :: rest) h12 hin hof hwf8 hv8 hm hwft hi ha
    (by rw [hn]; simp only [List.append_assoc])
  obtain ⟨hvq, hvc, hstart, hd, hvt⟩ := hv
  obtain ⟨hva, hvtick⟩ := hvt ha
  obtain ⟨t, h3, h4⟩ := poll_expires (q := .pPollV1) (s := v) hps (turnsWf_congr hvc (fun _ => hva) hwf) hva
    (by rw [hi]; split <;> decide) (by rw [hvc, h12]; decide) (by rw [hvc, h12, hi]; split <;> decide) h2.next
    (by rw [hvc]; exact hstart) hd (by rw [hvc]; exact hM) (by rw [hvc]; exact hvtick) (pollsExpire_congr hvc hx)
  refine ⟨t, _, ?_, h2.trans (h4.cast rfl (by rw [hvc]) rfl rfl)⟩
  rw [h1, h3]
  rfl

theorem exec_cmd16_fails {x16 : Turn} (hxs : meets index 0#32 xs 0x00#8) (hwf : turnsWf adv s (ps.flatten ++ xs))
    (ho : (x8.readings + turnsReadings tt + pollReadings ps + 1) * adv < 1000) (hof16 : x16.isOf 16#8 s.cfg.cmd16Arg)
    (hwf16 : x16.wf adv s) (hv : x16.value ≠ 0x00#8)
    (h : s.rx.next = idle ++ (turnsBytes pre ++ (c0.bytes ++ (x8.bytes ++ (turnsBytes tt ++ (turnsBytes (ps.flatten ++ xs)
      ++ (x16.bytes ++ d :: rest))))))) :
    ∃ t, exec .initCard s = .next t ∧ probeEnds Card.none (.diskError .cmd16)
      (turnsSent s.cfg pre ++ commandSent s.cfg 0#8 0#32 c0 ++ x8.sent s.cfg ++ turnsSent s.cfg tt
        ++ turnsSent s.cfg (ps.flatten ++ xs) ++ x16.sent s.cfg) rest s t := by
  refine exec_window (c0 := c0) (d := d)
    (mid := x8.bytes ++ (turnsBytes tt ++ (turnsBytes (ps.flatten ++ xs) ++ x16.bytes)))
    (sent := x8.sent s.cfg ++ turnsSent s.cfg tt ++ turnsSent s.cfg (ps.flatten ++ xs) ++ x16.sent s.cfg)
    hs hw0 hr0 (by rw [h]; simp only [List.append_assoc]) (fun w b hin hcause hn => ?_) (by simp only [List.append_assoc])
  have h12 := hs.stopIndex
  obtain ⟨t, k, h1, ht, h2⟩ := v1_polls (more := x16.bytes ++ d :: rest) h12 hin hof hwf8 hv8 hm hwft hi ha hM hps hxs hwf ho
    (by rw [hn]; simp only [List.append_assoc])
  obtain ⟨u, l, h3, h4⟩ := cmd16_rejected (adv := adv) (arg := t.cfg.cmd16Arg) (by rw [ht.cfg]; exact hof16)
    (turn_wf_congr ht.cfg (fun _ => ht.ticks ha) hwf16) hv (by rw [ht.cfg]; exact h12) h2.next ht.isQuiet
  refine ⟨u, k + l, ?_, h2.trans (h4.cast rfl (by rw [ht.cfg]) rfl rfl)⟩
  rw [h1, v1Ends, h3]
  rfl

end

/-- Settles O53: each row of R218 that takes the lock, at its place in the probe. -/
theorem initializeFails : Obligations.InitializeFails := by
  unfold Obligations.InitializeFails
  intro s idle pre d rest adv hs
  refine ⟨fun x0 hof hwf hv h => exec_cmd0_fails hs hof hwf hv h, fun c0 c8 e0 e1 e2 e3 hw0 hr0 hw8 hr8 =>
    ⟨fun he h => exec_echo_fails hs hw0 hr0 hw8 hr8 he h,
      fun ps ha hM hps hwf hx h => exec_sd2Poll_expires hs hw0 hr0 hw8 hr8 ha hM hps hwf hx h,
      fun ps xs x58 ha hM hps hxs hwf ho hof hwf58 hv h =>
        exec_cmd58_fails hs hw0 hr0 hw8 hr8 ha hM hps hxs hwf ho hof hwf58 hv h⟩,
    fun c0 x8 tt r index ps ha hM hw0 hr0 hof hwf8 hv8 hm hwft hi hps hwf =>
      ⟨fun hx h => exec_v1Poll_expires hs hw0 hr0 ha hM hof hwf8 hv8 hm hwft hi hps hwf hx h,
        fun xs x16 hxs hwfx ho hof16 hwf16 hv h => exec_cmd16_fails hs hw0 hr0 ha hM hof hwf8 hv8 hm hwft hi hps hxs
          (fun x hx => (List.mem_append.1 hx).elim (hwf x) (hwfx x)) ho hof16 hwf16 hv h⟩⟩

end Sys2Proof.Machine
end
